-- ==== Sys2Proof/Word.lean ====
section
/-! DEFINITION. The word types of the block: spec/00_scope.md R8, R9, R10; spec/30_encoding.md R70, R72, R76. -/

namespace Sys2Proof

/-- A byte: a device status, a command code, one byte of memory. -/
abbrev Byte := BitVec 8

/-- The 16-bit status word of a subchannel and the 16-bit byte count (R8, R76). -/
abbrev Half := BitVec 16

/-- A 32-bit memory word (R57, R74). -/
abbrev Word := BitVec 32

/-- A 24-bit real address: arithmetic on it is modulo 2^24 (R9). -/
abbrev Addr := BitVec 24

/-- A 12-bit device address: channel number in bits 11..8, device byte in bits 7..0 (R72). -/
abbrev DevAddr := BitVec 12

end Sys2Proof
end

