-- ==== Sys2Proof/Machine/Bits.lean ====
section
/-! DEFINITION. Byte order and bit fields: spec/20_memory.md R57, R58; spec/42_transfer.md R142; spec/30_encoding.md R72. -/

namespace Sys2Proof.Machine

/-- The word whose bytes, lowest address first, are the arguments: memory is big-endian (R57). -/
def wordOfBytes (b0 b1 b2 b3 : Byte) : Word := b0 ++ b1 ++ b2 ++ b3

/-- The byte of a word at offset `k`: bits `[31-8k : 24-8k]` (R57, R142). -/
def wordByte (w : Word) (k : BitVec 2) : Byte := w.extractLsb' (24 - 8 * k.toNat) 8

/-- A word with the byte at offset `k` replaced (R151). -/
def setWordByte (w : Word) (k : BitVec 2) (b : Byte) : Word :=
  wordOfBytes (if k = 0 then b else wordByte w 0) (if k = 1 then b else wordByte w 1)
    (if k = 2 then b else wordByte w 2) (if k = 3 then b else wordByte w 3)

/-- `a & ~3`: the address of the aligned word that holds byte address `a` (R57). -/
def wordAddr (a : Addr) : Addr := a &&& 0xFFFFFC

/-- `a[1:0]`: the offset of a byte address in its word (R142). -/
def byteOffset (a : Addr) : BitVec 2 := a.extractLsb' 0 2

/-- `a[23:11]`: the number of the 2 KiB page that holds `a` (R51). -/
def pageOf (a : Addr) : Nat := a.toNat / 2048

/-- `a[11:8]`: the channel number of a device address (R72, R100). -/
def chanOf (a : DevAddr) : Fin 16 := (a.extractLsb' 8 4).toFin

/-- `a[7:0]`: the device byte of a device address (R72). -/
def lowByte (a : DevAddr) : Byte := a.extractLsb' 0 8

/-- Whether `v` and the mask `m` share a set bit: the spec's `(v & m) != 0`. -/
def anyBits {n : Nat} (v m : BitVec n) : Bool := v &&& m != 0

end Sys2Proof.Machine
end

