-- ==== Sys2Proof/Machine/Flags.lean ====
section
/-! DEFINITION. The CCW flags (spec/30_encoding.md R74, R75), the bits of the status word and of a device status byte
(R76; spec/00_scope.md R12), and the classes of command codes (R77). The bit values are the spec's decisions D7, D8, D9. -/

namespace Sys2Proof.Machine

/-- A set of CCW flags, a subset of CD, CC, SLI, SKIP, PCIF, IDA (spec/10_state.md R24). -/
structure CcwFlags where
  /-- chain data -/
  cd : Bool := false
  /-- chain command -/
  cc : Bool := false
  /-- suppress length indication -/
  sli : Bool := false
  /-- skip -/
  skip : Bool := false
  /-- program-controlled interrupt -/
  pcif : Bool := false
  /-- indirect data addressing -/
  ida : Bool := false
  deriving DecidableEq, Repr

/-- The empty set of flags. -/
def noFlags : CcwFlags where

/-- The set of the six flags whose masks are set in a flags byte (R74, R75). -/
def flagsOfByte (b : Byte) : CcwFlags where
  cd := anyBits b 0x80
  cc := anyBits b 0x40
  sli := anyBits b 0x20
  skip := anyBits b 0x10
  pcif := anyBits b 0x08
  ida := anyBits b 0x04

/-- The reserved bits `w1[25:24]` of a flags byte are not zero (R74, R83). -/
def reservedFlagBits (b : Byte) : Bool := anyBits b 0x03

/-- `f \ g`: the flags of `f` that are not in `g`. -/
def CcwFlags.without (f g : CcwFlags) : CcwFlags where
  cd := f.cd && !g.cd
  cc := f.cc && !g.cc
  sli := f.sli && !g.sli
  skip := f.skip && !g.skip
  pcif := f.pcif && !g.pcif
  ida := f.ida && !g.ida

/-- `f \ {CD, CC}`: the chaining flags cleared (spec/41_ccw_loader.md R112, R125). -/
def CcwFlags.unchained (f : CcwFlags) : CcwFlags := { f with cd := false, cc := false }

/-! The 16-bit status word: device byte in bits 15..8, channel byte in bits 7..0 (R76). -/

def stATTN : Half := 0x8000
def stSM : Half := 0x4000
def stCUE : Half := 0x2000
def stBUSY : Half := 0x1000
def stCE : Half := 0x0800
def stDE : Half := 0x0400
def stUC : Half := 0x0200
def stUE : Half := 0x0100
def stPCI : Half := 0x0080
def stIL : Half := 0x0040
def stPROG : Half := 0x0020
def stPROT : Half := 0x0010
def stCDC : Half := 0x0008
def stCCC : Half := 0x0004
def stICC : Half := 0x0002
def stCHC : Half := 0x0001

/-- `CHAN_ERR`: the channel error bits; IL and PCI are not among them (spec/00_scope.md R12). -/
def chanErr : Half := stPROG ||| stPROT ||| stCDC ||| stCCC ||| stICC ||| stCHC

/-! The 8-bit device status byte: the device byte's masks of R76. -/

def dvATTN : Byte := 0x80
def dvSM : Byte := 0x40
def dvCUE : Byte := 0x20
def dvBUSY : Byte := 0x10
def dvCE : Byte := 0x08
def dvDE : Byte := 0x04
def dvUC : Byte := 0x02
def dvUE : Byte := 0x01

/-- `ERRCLASS`: attention, unit check, unit exception, as device-byte masks (spec/00_scope.md R12). -/
def errClass : Byte := dvATTN ||| dvUC ||| dvUE

/-- A device status byte in its place in the status word: `st << 8` (R76). -/
def deviceByte (st : Byte) : Half := st ++ (0 : Byte)

/-- The error-class status of TIO and HIO: an `ERRCLASS` device bit or a `CHAN_ERR` channel bit
(spec/44_io_instructions.md R210, R217). -/
def errorStatus (status : Half) : Bool := anyBits status (deviceByte errClass ||| chanErr)

/-- The classes of command codes (R77). -/
inductive CommandClass where
  | invalid | tic | write | read | control | sense | rdbwd
  deriving DecidableEq, Repr

/-- `class(op)`: the class of a command code (R77). -/
def classOf (op : Byte) : CommandClass :=
  if op.extractLsb' 0 4 = 0b0000#4 then .invalid
  else if op.extractLsb' 0 4 = 0b1000#4 then .tic
  else if op.extractLsb' 0 4 = 0b0100#4 then .sense
  else if op.extractLsb' 0 4 = 0b1100#4 then .rdbwd
  else if op.extractLsb' 0 2 = 0b01#2 then .write
  else if op.extractLsb' 0 2 = 0b10#2 then .read
  else .control

/-- `is_input(op)`: the device puts bytes into memory (R77). -/
def isInput (op : Byte) : Bool :=
  match classOf op with
  | .read | .sense | .rdbwd => true
  | .invalid | .tic | .write | .control => false

/-- `is_output(op)`: the device takes bytes from memory (R77). -/
def isOutput (op : Byte) : Bool :=
  match classOf op with
  | .write | .control => true
  | .invalid | .tic | .read | .sense | .rdbwd => false

/-- `backward(op)`: the data address steps down (R77). -/
def isBackward (op : Byte) : Bool := classOf op == .rdbwd

end Sys2Proof.Machine
end

