-- ==== Sys2Proof/Syntax.lean ====
section
/-! DEFINITION. The instructions: the rows of spec/opcode_table.json. CPU channel-control instructions (spec/30_encoding.md
R70, R71) and channel command words by class (R74, R77, R78). -/

namespace Sys2Proof

/-- The fields of a channel command word that is not a TIC (R74): `w0 = cmd ‖ data`, `w1 = flags ‖ unused ‖ count`. -/
structure CcwFields where
  /-- `w0[31:24]`, the command code -/
  cmd : Byte
  /-- `w0[23:0]`, the data address -/
  data : Addr
  /-- `w1[31:24]`, the flags byte, with its two reserved bits -/
  flags : Byte
  /-- `w1[23:16]`, reserved and ignored -/
  unused : Byte
  /-- `w1[15:0]`, the byte count -/
  count : Half
  deriving DecidableEq, Repr

/-- Where an instruction comes from: the CPU agent's instruction stream (4 bytes, R70) or a channel program in memory (8
bytes, R74). -/
inductive Source where
  | cpu
  | channel
  deriving DecidableEq, Repr

/-- One constructor per row of the opcode table. A CPU instruction has `I2`, `B1`, `D1` (R70); a CCW its fields (R74); a TIC
its command code, its target and its second word, which nothing reads (R78). -/
inductive Instr where
  | sio (i2 : Byte) (b1 : BitVec 4) (d1 : BitVec 12)
  | tio (i2 : Byte) (b1 : BitVec 4) (d1 : BitVec 12)
  | hio (i2 : Byte) (b1 : BitVec 4) (d1 : BitVec 12)
  | tch (i2 : Byte) (b1 : BitVec 4) (d1 : BitVec 12)
  | ccwWrite (f : CcwFields)
  | ccwRead (f : CcwFields)
  | ccwControl (f : CcwFields)
  | ccwSense (f : CcwFields)
  | ccwTic (cmd : Byte) (target : Addr) (second : Word)
  | ccwRdbwd (f : CcwFields)
  | ccwInvalid (f : CcwFields)
  deriving DecidableEq, Repr

/-- The stream an instruction belongs to (R85). -/
def Instr.source : Instr → Source
  | .sio _ _ _ | .tio _ _ _ | .hio _ _ _ | .tch _ _ _ => .cpu
  | .ccwWrite _ | .ccwRead _ | .ccwControl _ | .ccwSense _ | .ccwTic _ _ _ | .ccwRdbwd _ | .ccwInvalid _ => .channel

end Sys2Proof
end

