-- ==== Sys2Proof/WellFormed.lean ====
section
/-! DEFINITION. Well-formed instructions: a channel command word's code has the class of its constructor
(spec/30_encoding.md R77, R87). A CPU instruction has no constraint on its fields (R70). -/

namespace Sys2Proof

open Sys2Proof.Machine (classOf)

/-- The command code of a CCW constructor belongs to that constructor's class (R77). -/
def Instr.wellFormed : Instr → Bool
  | .sio _ _ _ | .tio _ _ _ | .hio _ _ _ | .tch _ _ _ => true
  | .ccwWrite f => classOf f.cmd == .write
  | .ccwRead f => classOf f.cmd == .read
  | .ccwControl f => classOf f.cmd == .control
  | .ccwSense f => classOf f.cmd == .sense
  | .ccwTic cmd _ _ => classOf cmd == .tic
  | .ccwRdbwd f => classOf f.cmd == .rdbwd
  | .ccwInvalid f => classOf f.cmd == .invalid

end Sys2Proof
end

