-- ==== Sys2Proof/Decode.lean ====
section
/-! DEFINITION. Decoder and encoder (spec/30_encoding.md R70, R71, R74, R77, R78, R85). The two streams have their own
decoders: the codes 0x9C..0x9F are CPU opcodes in the CPU's stream and command codes in a channel program. -/

namespace Sys2Proof

open Sys2Proof.Machine (classOf wordOfBytes wordByte)

/-- Why bytes are no instruction: fewer bytes than its length (R85), or a first byte that is no channel-control opcode
(R71: "Any other opcode is not an instruction of this block"). -/
inductive DecodeError where
  | tooShort
  | notChannelControl (op : Byte)
  deriving DecidableEq, Repr

/-- A CPU word, by its opcode byte (R70, R71). -/
def decodeCpu (w : Word) : Except DecodeError Instr :=
  let i2 : Byte := w.extractLsb' 16 8
  let b1 : BitVec 4 := w.extractLsb' 12 4
  let d1 : BitVec 12 := w.extractLsb' 0 12
  let op : Byte := w.extractLsb' 24 8
  if op = 0x9C then .ok (.sio i2 b1 d1)
  else if op = 0x9D then .ok (.tio i2 b1 d1)
  else if op = 0x9E then .ok (.hio i2 b1 d1)
  else if op = 0x9F then .ok (.tch i2 b1 d1)
  else .error (.notChannelControl op)

/-- The fields of the two words of a CCW (R74). -/
def ccwFieldsOf (w0 w1 : Word) : CcwFields where
  cmd := w0.extractLsb' 24 8
  data := w0.extractLsb' 0 24
  flags := w1.extractLsb' 24 8
  unused := w1.extractLsb' 16 8
  count := w1.extractLsb' 0 16

/-- The CCW of two words, by the class of its command code: the seven classes cover every code (R77, R87). -/
def decodeCcw (w0 w1 : Word) : Instr :=
  let f := ccwFieldsOf w0 w1
  match classOf f.cmd with
  | .write => .ccwWrite f
  | .read => .ccwRead f
  | .control => .ccwControl f
  | .sense => .ccwSense f
  | .tic => .ccwTic f.cmd f.data w1
  | .rdbwd => .ccwRdbwd f
  | .invalid => .ccwInvalid f

/-- The decoder, total on any bytes: the instruction at the start of a byte string of one of the two streams (R70, R74, R85). -/
def decode : Source → List Byte → Except DecodeError Instr
  | .cpu, b0 :: b1 :: b2 :: b3 :: _ => decodeCpu (wordOfBytes b0 b1 b2 b3)
  | .channel, b0 :: b1 :: b2 :: b3 :: b4 :: b5 :: b6 :: b7 :: _ =>
    .ok (decodeCcw (wordOfBytes b0 b1 b2 b3) (wordOfBytes b4 b5 b6 b7))
  | _, _ => .error .tooShort

/-- The word of a CPU channel-control instruction (R70). -/
def encodeCpu (op i2 : Byte) (b1 : BitVec 4) (d1 : BitVec 12) : Word := op ++ i2 ++ b1 ++ d1

/-- The two words of a CCW (R74, R86). -/
def encodeCcw (f : CcwFields) : List Word := [f.cmd ++ f.data, f.flags ++ f.unused ++ f.count]

/-- The words of an instruction (R70, R74, R78). -/
def encode : Instr → List Word
  | .sio i2 b1 d1 => [encodeCpu 0x9C i2 b1 d1]
  | .tio i2 b1 d1 => [encodeCpu 0x9D i2 b1 d1]
  | .hio i2 b1 d1 => [encodeCpu 0x9E i2 b1 d1]
  | .tch i2 b1 d1 => [encodeCpu 0x9F i2 b1 d1]
  | .ccwWrite f => encodeCcw f
  | .ccwRead f => encodeCcw f
  | .ccwControl f => encodeCcw f
  | .ccwSense f => encodeCcw f
  | .ccwTic cmd target second => [cmd ++ target, second]
  | .ccwRdbwd f => encodeCcw f
  | .ccwInvalid f => encodeCcw f

/-- The four bytes of a word as memory holds them, lowest address first (R57). -/
def bytesOfWord (w : Word) : List Byte := [wordByte w 0, wordByte w 1, wordByte w 2, wordByte w 3]

/-- The bytes of an instruction, lowest address first. -/
def encodeBytes (i : Instr) : List Byte := (encode i).flatMap bytesOfWord

/-- The first byte of a word is one of the four channel-control opcodes (R71). -/
def isCpuOpcode (w : Word) : Bool :=
  let op : Byte := w.extractLsb' 24 8
  op == 0x9C || op == 0x9D || op == 0x9E || op == 0x9F

/-- The two words of a table word: its low 32 bits are the first word, the next 32 the second. -/
def tableWords (nbits w : Nat) : Word × Word :=
  let v := w % 2 ^ nbits
  (BitVec.ofNat 32 v, BitVec.ofNat 32 (v / 2 ^ 32))

/-- The stream a table word is taken from. The CPU's opcodes are command codes of channel programs too; a table row has 32
bits in both cases, so a first byte 0x9C..0x9F of a 32-bit row is read as the CPU's (DESIGN CHOICE, safe: log 11). -/
def tableSource (nbits w : Nat) : Source :=
  if nbits ≤ 32 && isCpuOpcode (tableWords nbits w).1 then .cpu else .channel

/-- The instruction the decoder reads from a word of the opcode table, laid out in bytes as the hardware stores it. -/
def decodeTableWord (nbits w : Nat) : Option Instr :=
  let ws := tableWords nbits w
  (decode (tableSource nbits w) (bytesOfWord ws.1 ++ bytesOfWord ws.2)).toOption

end Sys2Proof
end

