-- ==== Sys2Proof/Config.lean ====
section
/-! DEFINITION. The configuration of the block (spec/10_state.md R22; the parameters of spec/00_scope.md R7), the spec's own
example configuration CFG0 (spec/95_test_vectors.md section 0), and the free answers of devices (R21). -/

namespace Sys2Proof

open Sys2Proof.Machine (CcwFlags)

/-- `KIND[c]`, with the datum each kind carries: `NSUB[c]` of a multiplexer channel, `EXT_MODE[c]` of a block-multiplexer
channel (R7, R22). -/
inductive ChannelKind where
  | selector
  | mux (nsub : Nat)
  | blockMux (ext : Bool)
  deriving DecidableEq, Repr

/-- A device binding: the device agent's identity, and which optional hooks it has (R22, R31). -/
structure Binding where
  device : Nat
  hasStartIo : Bool := false
  hasHaltIo : Bool := false
  deriving DecidableEq, Repr

/-- One channel of the configuration; `devices` is the binding table `BIND[c]`, an unlisted device byte having no binding
(R8, R22). -/
structure Channel where
  kind : ChannelKind
  enabled : Bool
  devices : List (Byte × Binding)
  deriving DecidableEq, Repr

/-- The configuration and parameters. `NUM_CHANNELS` is the length of `channels`. The two parameters that are functions are
held as the spec's default and a list of the arguments at which they differ from it, so that every function has such a form
(DESIGN CHOICE, safe: log 2). CSW_ADDR and CAW_ADDR are fields (PRESUMED by the spec, G3: log 3). -/
structure Config where
  channels : List Channel
  memSize : Nat
  protFeature : Bool
  idaFeature : Bool
  cswAddr : Addr := 0x40
  cawAddr : Addr := 0x48
  /-- `MUX_FOLD`: the addresses at which it is not `(a >> 4) & 7`, with its value there. -/
  foldOverrides : List (DevAddr × Nat) := []
  /-- `DE_CLEAR_MASK` -/
  deClearMask : CcwFlags := { cc := true, sli := true }
  /-- `MASK_BIT(mask, c)`: the arguments at which it is not `mask[c]`, with its value there. -/
  maskOverrides : List ((Half × Fin 16) × Bool) := []
  ignoreI2 : Bool := true
  reservedFlagCheck : Bool := false
  deriving DecidableEq, Repr

/-- CFG0, the configuration the spec's test vectors use (spec/95_test_vectors.md section 0). -/
def Config.cfg0 : Config where
  channels := [
    { kind := .selector, enabled := true, devices := [(0x0C, { device := 0 })] },
    { kind := .mux 16, enabled := true,
      devices := [(0x04, { device := 1 }), (0x0A, { device := 2 }), (0xC5, { device := 3 })] },
    { kind := .blockMux true, enabled := true, devices := [(0x08, { device := 4 }), (0x0F, { device := 5 })] },
    { kind := .selector, enabled := false, devices := [] }]
  memSize := 0x10000
  protFeature := true
  idaFeature := true

/-- The free answer of a device to its `n`-th unscripted call-out, `start_command(op)` at address `a`: any byte
(spec/10_state.md R21; spec/93_implementation_defined.md item 14; log 6). -/
opaque Config.freeStartCommand : Nat → DevAddr → Byte → Byte

/-- The free answer of a device to its `n`-th unscripted call-out, the `start_io` hook at address `a`: any byte (R21; log 6). -/
opaque Config.freeStartIo : Nat → DevAddr → Byte

/-- The free answer of a device to its `n`-th unscripted call-out, the `halt_io` hook at address `a`: any condition code 0..3
(R21, R31; log 6). -/
opaque Config.freeHaltIo : Nat → DevAddr → BitVec 2

end Sys2Proof
end

