-- ==== Sys2Proof/Machine/State.lean ====
section
/-! DEFINITION. The state of the block: everything spec/10_state.md names (R20..R36), the shared memory and storage keys, and
the model's own inputs and outputs (INVENTORY.md, State). Plain data throughout. -/

namespace Sys2Proof.Machine

/-- A subchannel control block (spec/10_state.md R24); the defaults are its reset values (spec/70_reset_and_hazards.md R260). -/
structure Scb where
  /-- the bound device address, or none -/
  dev : Option DevAddr := none
  /-- the current device binding, or none -/
  bind : Option Binding := none
  /-- the CCW fetch address -/
  caw : Addr := 0
  /-- the current command code; 0 is idle (R25) -/
  cmd : Byte := 0
  flags : CcwFlags := {}
  /-- the transfer address, or with IDA the address of the current IDAW -/
  addr : Addr := 0
  /-- the indirect-address cursor -/
  iaddr : Addr := 0
  /-- the remaining byte count -/
  count : Half := 0
  key : BitVec 4 := 0
  /-- the buffered data register -/
  buf : Word := 0
  /-- the register's byte offset; none is the tag EMPTY -/
  boff : Option (BitVec 2) := none
  dirty : Bool := false
  /-- the chain-ended tag, which nothing reads (R26) -/
  chend : Bool := false
  status : Half := 0
  chainHeld : Bool := false
  deriving DecidableEq, Repr

/-- An SCB's place: channel number and index in the channel (R23). -/
structure ScbId where
  chan : Fin 16
  sub : Fin 256
  deriving DecidableEq, Repr

/-- Why a memory access fails (spec/20_memory.md R50). -/
inductive MemFault where
  | addressing
  | protection
  deriving DecidableEq, Repr

/-- Why a CCW load fails (spec/41_ccw_loader.md R110). -/
inductive FailReason where
  | abort | check | noDevice | busy | devError
  deriving DecidableEq, Repr

/-- The result of `load_next_ccw` (R110). -/
inductive LoadResult where
  | ok
  | fail (r : FailReason)
  deriving DecidableEq, Repr

/-- What the last operation answered its caller (spec/00_scope.md R11; spec/30_encoding.md R73). -/
inductive OpResult where
  /-- nothing: `channel_end`, `post_attention`, a reset, a platform operation -/
  | nothing
  /-- a condition code: SIO, TIO, HIO, TCH, `boot_start` -/
  | cc (code : BitVec 2)
  /-- the address `scan` returns, or none -/
  | address (a : Option DevAddr)
  /-- a byte `read_byte` returns -/
  | byte (b : Byte)
  /-- Ok of `write_byte` -/
  | ok
  /-- Done: no more transfer -/
  | done
  /-- the result of a CCW load -/
  | load (r : LoadResult)
  deriving DecidableEq, Repr

/-- A call the block makes to a device (spec/10_state.md R31). -/
inductive CallOut where
  | startCommand (a : DevAddr) (op : Byte)
  | startIo (a : DevAddr)
  | haltIo (a : DevAddr)
  deriving DecidableEq, Repr

/-- An operation an agent invokes on the block, one atomic transition (spec/10_state.md R20; spec/00_scope.md R6). -/
inductive Request where
  /-- the CPU executes a channel-control instruction word (spec/30_encoding.md R70) -/
  | instruction (w : Word)
  /-- `load_next_ccw` of one SCB (spec/41_ccw_loader.md R110; log 9) -/
  | loadCcw (id : ScbId) (ticAllowed : Bool)
  /-- `boot_start` (spec/44_io_instructions.md R226) -/
  | bootStart (a : DevAddr) (ccwaddr : Word)
  /-- the host ends the boot-load: `LOADING <- none` (spec/10_state.md R34) -/
  | endBoot
  /-- `scan` (spec/43_status.md R185) -/
  | scan (mask : Half) (enabled : Bool)
  /-- `read_byte` (spec/42_transfer.md R160) -/
  | readByte (a : DevAddr)
  /-- `write_byte` (spec/42_transfer.md R161) -/
  | writeByte (a : DevAddr) (b : Byte)
  /-- `channel_end` (spec/43_status.md R170) -/
  | channelEnd (a : DevAddr) (fl : Half)
  /-- `post_attention` (spec/43_status.md R177) -/
  | postAttention (a : DevAddr) (fl : Byte)
  /-- a block reset with a channel configuration (spec/70_reset_and_hazards.md R260, R262) -/
  | reset (channels : List Channel)
  /-- the CPU stores a byte in the shared memory (spec/10_state.md R36; log 14) -/
  | cpuStore (a : Addr) (b : Byte)
  /-- the CPU sets the storage key of the page that holds an address (R36; log 14) -/
  | cpuSetKey (a : Addr) (k : Byte)
  /-- the CPU sets one of its general registers (spec/30_encoding.md R70; log 14) -/
  | cpuSetReg (r : BitVec 4) (v : Word)
  deriving DecidableEq, Repr

/-- The arguments of the CCW load a step runs: the SCB and `tic_allowed` (spec/41_ccw_loader.md R110; log 9). -/
structure LoaderCursor where
  id : ScbId := ⟨0, 0⟩
  ticAllowed : Bool := false
  deriving DecidableEq, Repr

/-- The whole machine. The lists keyed by Nat are sparse, in one canonical form (keys strictly rising, no entry equal to what
an unlisted key reads as): see Machine/Ops.lean. -/
structure State where
  /-- the configuration; only a reset changes it (R22, R262; log 1) -/
  cfg : Config
  /-- the SCBs, by channel and index; an unlisted one is idle (R24; log 16) -/
  scbs : List (Nat × Scb) := []
  /-- `PEND`, by device address; an unlisted entry is 0 (R32) -/
  pend : List (Nat × Byte) := []
  /-- `CHPEND`, bit c for channel c (R32) -/
  chpend : Half := 0
  /-- `IRQ` (R33) -/
  irq : Bool := false
  /-- `LOADING` (R34) -/
  loading : Option DevAddr := none
  /-- `MEM`; an unlisted byte reads 0 (R36; log 4) -/
  mem : List Host.Cell := []
  /-- `SKEY`, by page number; an unlisted key is 0 (R36, R51; log 4) -/
  skey : List Host.Cell := []
  /-- the CPU agent's general registers, read to form a device address (R70; log 7) -/
  gr : Vector Word 16 := Vector.replicate 16 0
  /-- input: the operations agents will invoke, next first (R20; log 5) -/
  requests : List Request := []
  /-- input: answers ready for `start_command`, next first (R21, R31; log 6) -/
  commandAnswers : List Byte := []
  /-- input: answers ready for the `start_io` hook -/
  startIoAnswers : List Byte := []
  /-- input: answers ready for the `halt_io` hook -/
  haltIoAnswers : List (BitVec 2) := []
  /-- how many free device answers were taken (R21; log 6) -/
  draws : Nat := 0
  /-- output: what the last operation answered (R73; log 8) -/
  result : OpResult := .nothing
  /-- output: the call-outs made so far, oldest first (R31; log 8) -/
  callOuts : List CallOut := []
  /-- the arguments of the CCW load being run (R110; log 9) -/
  loader : LoaderCursor := {}
  deriving DecidableEq, Repr

/-- Why the machine stops with a fault. The block itself raises none (spec/60_exceptions.md R230). -/
inductive Fault where
  /-- A CCW load of an SCB bound to no device: the operand of `load_next_ccw` is "an SCB bound to a device (`scb.dev != none`)"
  (spec/41_ccw_loader.md R110), and the spec gives the operation no effect on another. Raised by step's load request and by the
  CCW meanings. Safe: the model stops, and no operation of the block makes such a load. -/
  | loaderUnbound
  deriving DecidableEq, Repr

/-- Why a step has no meaning. -/
inductive Refusal where
  /-- An instruction with no meaning yet, by its mnemonic. Raised by exec's arms only. Safe. -/
  | notModelled (mnemonic : String)
  /-- The configuration is outside the limits ("refuse: no such configuration is modelled",
  spec/93_implementation_defined.md item 17; spec/00_scope.md R7). Raised by step, and by a reset to such a configuration. Safe. -/
  | configuration
  /-- The CPU word's first byte is no channel-control opcode ("a model refuses it at the block boundary",
  spec/30_encoding.md R71). Raised by step. Safe. -/
  | notChannelControl (op : Byte)
  /-- `I2` is not 0 and `IGNORE_I2` is false ("when false, a model refuses `I2 != 0`", spec/30_encoding.md R70). Raised by
  the meanings of SIO, TIO, HIO and TCH. Safe. -/
  | secondByte (i2 : Byte)
  /-- A platform store at an address with no memory behind it; what the CPU does then is outside the block
  (spec/00_scope.md R4; log 14). Raised by step's platform requests. Safe. -/
  | noMemory (a : Addr)
  deriving DecidableEq, Repr

/-- The state right after a block reset under a configuration (spec/70_reset_and_hazards.md R260), with the platform's memory,
storage keys and registers at the model's values (log 4, log 7). -/
def State.resetWith (cfg : Config) : State where
  cfg := cfg

/-- The machine right after reset, under the configuration CFG0 (R260; the configuration is a DESIGN CHOICE, log 1). -/
def State.reset : State := State.resetWith Config.cfg0

end Sys2Proof.Machine
end

