-- ==== Sys2Proof/Machine/Resolver.lean ====
section
/-! DEFINITION. Limits of a configuration (spec/00_scope.md R7, spec/10_state.md R22) and the resolver: channel, subchannel and
device of an address (spec/40_resolver.md R100..R106; spec/10_state.md R23). Pure functions of the configuration. -/

namespace Sys2Proof.Machine

/-- A channel within the limits: 1 to 256 subchannels on a multiplexer, at most one device per address (R7, R22). -/
def channelWf (c : Channel) : Bool :=
  (match c.kind with
   | .mux n => decide (1 ≤ n) && decide (n ≤ 256)
   | .selector | .blockMux _ => true)
  && decide ((c.devices.map Prod.fst).Nodup)

/-- 1 to 16 channels, each within its limits (R7, R22). -/
def channelsWf (cs : List Channel) : Bool :=
  decide (1 ≤ cs.length) && decide (cs.length ≤ 16) && cs.all channelWf

/-- MEMSIZE a multiple of 2048 from 0x50 to 2^24, the CSW doubleword and the CAW word aligned and inside memory (R7;
spec/70_reset_and_hazards.md R264; log 3). -/
def memoryWf (cfg : Config) : Bool :=
  decide (cfg.memSize % 2048 = 0) && decide (0x50 ≤ cfg.memSize) && decide (cfg.memSize ≤ 2 ^ 24)
  && decide (cfg.cswAddr.toNat % 8 = 0) && decide (cfg.cswAddr.toNat + 8 ≤ cfg.memSize)
  && decide (cfg.cawAddr.toNat % 4 = 0) && decide (cfg.cawAddr.toNat + 4 ≤ cfg.memSize)

/-- The configurations the spec models (R7, R22; spec/93_implementation_defined.md item 17). -/
def configWf (cfg : Config) : Bool := channelsWf cfg.channels && memoryWf cfg

/-- Channel `c` of the configuration, if there is one. -/
def channelAt (cfg : Config) (c : Fin 16) : Option Channel := cfg.channels[c.val]?

/-- `c < NUM_CHANNELS and ENABLED[c]`: the channel, if it is present and enabled (R100). -/
def enabledChannel (cfg : Config) (c : Fin 16) : Option Channel :=
  match channelAt cfg c with
  | some ch => if ch.enabled then some ch else none
  | none => none

/-- `channel_ok(a)` (R100). -/
def channelOk (cfg : Config) (a : DevAddr) : Bool := (enabledChannel cfg (chanOf a)).isSome

/-- `NSCB[c]`: the number of SCBs of a channel of a kind (spec/10_state.md R23). -/
def scbCount : ChannelKind → Nat
  | .selector => 1
  | .mux n => n
  | .blockMux true => 32
  | .blockMux false => 1

/-- `MUX_FOLD(a)`: `(a >> 4) & 0x7` except where the configuration says otherwise (R102; spec/00_scope.md R7). -/
def muxFold (cfg : Config) (a : DevAddr) : Nat :=
  match cfg.foldOverrides.lookup a with
  | some n => n
  | none => (a.extractLsb' 4 3).toNat

/-- The index in its channel of the SCB an address selects, by the channel's kind (R101, R102, R103). -/
def subchannelIndex (cfg : Config) (kind : ChannelKind) (a : DevAddr) : Option (Fin 256) :=
  match kind with
  | .selector => some 0
  | .mux n =>
    if (lowByte a).toNat < n then some (lowByte a).toFin
    else if h : muxFold cfg a < n ∧ muxFold cfg a < 256 then some ⟨muxFold cfg a, h.2⟩
    else none
  | .blockMux true => some ⟨(a.extractLsb' 3 5).toNat, by omega⟩
  | .blockMux false => some 0

/-- `find_subchannel(a)` (R101). -/
def findSubchannel (cfg : Config) (a : DevAddr) : Option ScbId :=
  match enabledChannel cfg (chanOf a) with
  | none => none
  | some ch => (subchannelIndex cfg ch.kind a).map fun i => ⟨chanOf a, i⟩

/-- `find_device(a)` (R104). -/
def findDevice (cfg : Config) (a : DevAddr) : Option Binding :=
  match enabledChannel cfg (chanOf a) with
  | none => none
  | some ch => ch.devices.lookup (lowByte a)

/-- `MASK_BIT(mask, c)`: `mask[c]` except where the configuration says otherwise (spec/00_scope.md R7;
spec/60_exceptions.md R242). -/
def maskBit (cfg : Config) (mask : Half) (c : Fin 16) : Bool :=
  match cfg.maskOverrides.lookup (mask, c) with
  | some b => b
  | none => mask.getLsbD c.val

/-- The enabled channels, ascending (spec/43_status.md R185, R192). -/
def enabledChannels (cfg : Config) : List (Fin 16) :=
  (List.finRange 16).filter fun c => (enabledChannel cfg c).isSome

/-- The SCBs of channel `c`, ascending (R185, R192). -/
def channelScbs (cfg : Config) (c : Fin 16) : List ScbId :=
  match channelAt cfg c with
  | none => []
  | some ch => ((List.finRange 256).filter fun i => decide (i.val < scbCount ch.kind)).map fun i => ⟨c, i⟩

/-- Every SCB the scan visits, in its order: channels ascending, and within a channel its SCBs ascending (R185, R192, R245). -/
def scanOrder (cfg : Config) : List ScbId := (enabledChannels cfg).flatMap (channelScbs cfg)

end Sys2Proof.Machine
end

