-- ==== Sys2Proof/Machine/Ops.lean ====
section
/-! DEFINITION. The named operations over the state: sparse maps, the SCBs, the memory shim (spec/20_memory.md R50..R65), the
call-outs (spec/10_state.md R21, R31), recording a fault (`chan_fault`, spec/41_ccw_loader.md R112) and delivering a status
(`store_status`, `collect`, spec/43_status.md R180..R184), which is what taking an exception is on this block
(spec/60_exceptions.md R230, R248). -/

namespace Sys2Proof.Machine

/-! ## Sparse maps from Nat, in one canonical form -/

/-- What a key reads as: its entry, or the default `d`. -/
def mapGet {α : Type} (d : α) : List (Nat × α) → Nat → α
  | [], _ => d
  | (k, v) :: m, a => if a = k then v else mapGet d m a

/-- The map without an entry for `a`. -/
def mapErase {α : Type} (m : List (Nat × α)) (a : Nat) : List (Nat × α) := m.filter fun p => p.1 != a

/-- The map with the entry `(a, v)`, in its place. -/
def mapInsert {α : Type} : List (Nat × α) → Nat → α → List (Nat × α)
  | [], a, v => [(a, v)]
  | (k, w) :: m, a, v =>
    if a < k then (a, v) :: (k, w) :: m
    else if a = k then (a, v) :: m
    else (k, w) :: mapInsert m a v

/-- A write: writing the default removes the entry. -/
def mapSet {α : Type} [DecidableEq α] (d : α) (m : List (Nat × α)) (a : Nat) (v : α) : List (Nat × α) :=
  if v = d then mapErase m a else mapInsert m a v

/-- The canonical form: keys strictly rising, no entry equal to the default. -/
def mapWf {α : Type} [DecidableEq α] (d : α) (m : List (Nat × α)) : Bool :=
  decide (m.Pairwise fun p q => p.1 < q.1) && m.all fun p => decide (p.2 ≠ d)

/-- Main memory is in canonical form: addresses strictly rising, no entry equal to what an unlisted address reads as (log 4). -/
def Memory.wf (m : List Host.Cell) : Bool := mapWf 0 m

/-! ## Subchannel control blocks -/

/-- The place of an SCB in the list of SCBs. -/
def ScbId.index (id : ScbId) : Nat := id.chan.val * 256 + id.sub.val

/-- An SCB as reset leaves it (spec/10_state.md R24). -/
def idleScb : Scb := {}

/-- `SCB[c][s]` -/
def State.scb (s : State) (id : ScbId) : Scb := mapGet idleScb s.scbs id.index

/-- `SCB[c][s] <- b` -/
def State.setScb (s : State) (id : ScbId) (b : Scb) : State := { s with scbs := mapSet idleScb s.scbs id.index b }

/-- An update of `SCB[c][s]`'s fields. -/
def State.updScb (s : State) (id : ScbId) (f : Scb → Scb) : State := s.setScb id (f (s.scb id))

/-- `IRQ <- 1` -/
def State.raiseIrq (s : State) : State := { s with irq := true }

/-- The answer an operation gives its caller. -/
def State.answer (s : State) (r : OpResult) : State := { s with result := r }

/-- `mid_program(scb)` (spec/10_state.md R29). -/
def Scb.midProgram (b : Scb) : Bool := b.cmd != 0 || b.chainHeld

/-- The phases of an SCB (spec/10_state.md R29). -/
inductive Phase where
  | idle | chainHeld | active | awaitingStatus
  deriving DecidableEq, Repr

/-- `phase(scb)` (spec/10_state.md R29). -/
def Scb.phase (b : Scb) : Phase :=
  if b.dev = none then .idle
  else if b.chainHeld then .chainHeld
  else if b.cmd ≠ 0 then .active
  else .awaitingStatus

/-- `unbind(scb)`: `caw`, `addr`, `iaddr`, `count`, `key`, `buf` and `status` keep their values (spec/43_status.md R184). -/
def Scb.unbind (b : Scb) : Scb :=
  { b with dev := none, bind := none, cmd := 0, flags := noFlags, chainHeld := false, boff := none, dirty := false,
           chend := false }

/-! ## Recording a fault -/

/-- The status bit of a shim fault: `AddressingError` is PROG, `ProtectionError` PROT (spec/20_memory.md R65). -/
def MemFault.bit : MemFault → Half
  | .addressing => stPROG
  | .protection => stPROT

/-- The SCB part of `chan_fault` (spec/41_ccw_loader.md R112). -/
def Scb.faulted (bit : Half) (b : Scb) : Scb :=
  { b with status := b.status ||| bit ||| stCE, cmd := 0, flags := b.flags.unchained, chainHeld := false, boff := none,
           dirty := false }

/-- `chan_fault(scb, bit)`: the fault is recorded, the channel program ended and IRQ raised (R112). -/
def chanFault (id : ScbId) (bit : Half) (s : State) : State := (s.updScb id (Scb.faulted bit)).raiseIrq

/-! ## The memory shim -/

/-- A byte of main memory; an unlisted one reads 0 (log 4). -/
def State.byteAt (s : State) (a : Nat) : Byte := mapGet 0 s.mem a

/-- A store of a byte of main memory. -/
def State.setByte (s : State) (a : Nat) (b : Byte) : State := { s with mem := mapSet 0 s.mem a b }

/-- `SKEY[p]` of page `p` (spec/20_memory.md R51). -/
def State.keyAt (s : State) (p : Nat) : Byte := mapGet 0 s.skey p

/-- `SKEY[p] <- k` -/
def State.setKey (s : State) (p : Nat) (k : Byte) : State := { s with skey := mapSet 0 s.skey p k }

/-- `SKEY[p] <- SKEY[p] | m` -/
def State.markKey (s : State) (p : Nat) (m : Byte) : State := s.setKey p (s.keyAt p ||| m)

/-- The word at the aligned address of `a`, big-endian (R57), with no check and no effect. -/
def State.wordAt (s : State) (a : Addr) : Word :=
  let w := (wordAddr a).toNat
  wordOfBytes (s.byteAt w) (s.byteAt (w + 1)) (s.byteAt (w + 2)) (s.byteAt (w + 3))

/-- The four bytes of the aligned word of `a`, stored big-endian (R57), with no check. -/
def State.setWord (s : State) (a : Addr) (v : Word) : State :=
  let w := (wordAddr a).toNat
  (((s.setByte w (wordByte v 0)).setByte (w + 1) (wordByte v 1)).setByte (w + 2) (wordByte v 2)).setByte (w + 3)
    (wordByte v 3)

/-- `(a & ~3) + 3 >= MEMSIZE` (R53). -/
def addressingError (s : State) (a : Addr) : Bool := decide (s.cfg.memSize ≤ (wordAddr a).toNat + 3)

/-- `prot_fault(key, a, is_write)` (R54; key byte layout R51). -/
def protectionError (s : State) (key : BitVec 4) (a : Addr) (isWrite : Bool) : Bool :=
  let k := s.keyAt (pageOf a)
  key != 0 && s.cfg.protFeature && k.extractLsb' 4 4 != key && (isWrite || anyBits k 0x08)

/-- The checks of an access: addressing first, then protection (R50, R53, R54). -/
def accessFault (s : State) (key : BitVec 4) (a : Addr) (isWrite : Bool) : Option MemFault :=
  if addressingError s a then some .addressing
  else if protectionError s key a isWrite then some .protection
  else none

/-- `ReadWord(key, a)`: the word, and the page's referenced bit set; or a fault, and nothing changed (R50, R56, R57). -/
def readWord (s : State) (key : BitVec 4) (a : Addr) : Except MemFault (Word × State) :=
  match accessFault s key a false with
  | some f => .error f
  | none => .ok (s.wordAt a, s.markKey (pageOf a) 0x04)

/-- `WriteWord(key, a, w)`: the word stored, and the page's referenced and changed bits set; or a fault, and nothing changed
(R50, R56, R57). -/
def writeWord (s : State) (key : BitVec 4) (a : Addr) (v : Word) : Except MemFault State :=
  match accessFault s key a true with
  | some f => .error f
  | none => .ok ((s.setWord a v).markKey (pageOf a) 0x06)

/-- `CheckWrite(key, a)` (R55). -/
def checkWrite (s : State) (key : BitVec 4) (a : Addr) : Option MemFault := accessFault s key a true

/-- A store at an architected location, with key 0, which "cannot raise" a fault (R61): where the configuration is outside the
limits, and only there, an access fault stores nothing (log 15). -/
def storeArchitected (s : State) (a : Addr) (v : Word) : State :=
  match writeWord s 0 a v with
  | .ok s' => s'
  | .error _ => s

/-- A read at an architected location, with key 0 (R61); outside the limits a fault reads 0 (log 15). -/
def readArchitected (s : State) (a : Addr) : Word × State :=
  match readWord s 0 a with
  | .ok r => r
  | .error _ => (0, s)

/-! ## Call-outs to devices -/

/-- `start_command(op)` of the device at `a`: the next ready answer, or a free one (spec/10_state.md R21, R31; log 6). -/
def startCommand (a : DevAddr) (op : Byte) (s : State) : Byte × State :=
  let s := { s with callOuts := s.callOuts ++ [CallOut.startCommand a op] }
  match s.commandAnswers with
  | st :: rest => (st, { s with commandAnswers := rest })
  | [] => (Config.freeStartCommand s.draws a op, { s with draws := s.draws + 1 })

/-- The `start_io` hook of the device at `a` (R21, R31; log 6). -/
def startIoHook (a : DevAddr) (s : State) : Byte × State :=
  let s := { s with callOuts := s.callOuts ++ [CallOut.startIo a] }
  match s.startIoAnswers with
  | st :: rest => (st, { s with startIoAnswers := rest })
  | [] => (Config.freeStartIo s.draws a, { s with draws := s.draws + 1 })

/-- The `halt_io` hook of the device at `a`, a condition code 0..3 (R21, R31; spec/93_implementation_defined.md item 15; log 6). -/
def haltIoHook (a : DevAddr) (s : State) : BitVec 2 × State :=
  let s := { s with callOuts := s.callOuts ++ [CallOut.haltIo a] }
  match s.haltIoAnswers with
  | cc :: rest => (cc, { s with haltIoAnswers := rest })
  | [] => (Config.freeHaltIo s.draws a, { s with draws := s.draws + 1 })

/-! ## Delivering a status -/

/-- `CSW0 = (key << 28) | caw` (spec/30_encoding.md R80). -/
def Scb.csw0 (b : Scb) : Word := b.key ++ (0#4) ++ b.caw

/-- `CSW1 = (status << 16) | count` (spec/30_encoding.md R80). -/
def Scb.csw1 (b : Scb) : Word := b.status ++ b.count

/-- The two words of the CSW stored at CSW_ADDR (spec/20_memory.md R61). -/
def storeCsw (w0 w1 : Word) (s : State) : State :=
  storeArchitected (storeArchitected s s.cfg.cswAddr w0) (s.cfg.cswAddr + 4) w1

/-- What `store_status` leaves of the status word: with PCI and no CE only PCI is cleared, else all of it
(spec/43_status.md R180, R182). -/
def storedStatus (status : Half) : Half :=
  if anyBits status stPCI && !anyBits status stCE then status &&& ~~~stPCI else 0

/-- `store_status(scb)` (spec/43_status.md R180). -/
def storeStatus (id : ScbId) (s : State) : State :=
  (storeCsw (s.scb id).csw0 (s.scb id).csw1 s).updScb id fun b => { b with status := storedStatus b.status }

/-- `store_synth(dstat)` (spec/43_status.md R181; spec/30_encoding.md R81). -/
def storeSynth (dstat : Byte) (s : State) : State := storeCsw 0 (dstat ++ (0#24)) s

/-- `collect(scb)`: the status is stored and, if the program has ended, the SCB freed (spec/43_status.md R184). -/
def collect (id : ScbId) (s : State) : State :=
  let s' := storeStatus id s
  if anyBits (s.scb id).status stCE then s'.updScb id Scb.unbind else s'

/-- `PEND[a]` (spec/10_state.md R32). -/
def State.pendAt (s : State) (a : DevAddr) : Byte := mapGet 0 s.pend a.toNat

/-- The device address with channel `c` and device byte `lo` (R72). -/
def devAddrOf (c : Fin 16) (lo : Fin 256) : DevAddr := BitVec.ofNat 12 (c.val * 256 + lo.val)

/-- Some `PEND[b] != 0` with `b[11:8] = c`. -/
def State.anyPending (s : State) (c : Fin 16) : Bool :=
  (List.finRange 256).any fun lo => s.pendAt (devAddrOf c lo) != 0

/-- `CHPEND[c]` -/
def State.chpendAt (s : State) (c : Fin 16) : Bool := s.chpend.getLsbD c.val

/-- `CHPEND[c] <- v` -/
def State.setChpend (s : State) (c : Fin 16) (v : Bool) : State :=
  let bit : Half := 1#16 <<< c.val
  { s with chpend := if v then s.chpend ||| bit else s.chpend &&& ~~~bit }

/-- `PEND[a] <- v` -/
def State.setPend (s : State) (a : DevAddr) (v : Byte) : State := { s with pend := mapSet 0 s.pend a.toNat v }

/-- `clear_pend(a)`: the entry cleared and `CHPEND` of its channel recomputed (spec/43_status.md R183). -/
def clearPend (a : DevAddr) (s : State) : State :=
  let s := s.setPend a 0
  s.setChpend (chanOf a) (s.anyPending (chanOf a))

end Sys2Proof.Machine
end

