-- ==== Sys2Proof/Machine/Operands.lean ====
section
/-! DEFINITION. The operand forms: the device address of a CPU channel-control instruction (spec/30_encoding.md R70, R72), the
CAW (R79), an IDAW (R82), the fields of a fetched CCW (R74, R75), and the current data position of a transfer
(spec/42_transfer.md R141, R143). -/

namespace Sys2Proof.Machine

/-- `EA = (B1 = 0 ? 0 : GR[B1]) + D1` (R70). -/
def effectiveAddress (s : State) (b1 : BitVec 4) (d1 : BitVec 12) : Word :=
  (if b1 = 0 then 0 else s.gr[b1.toNat]) + d1.setWidth 32

/-- `devaddr = EA[11:0]` (R70, R72). -/
def deviceAddress (s : State) (b1 : BitVec 4) (d1 : BitVec 12) : DevAddr :=
  (effectiveAddress s b1 d1).extractLsb' 0 12

/-- `I2` makes the instruction one the model refuses: not 0, with `IGNORE_I2` false (R70). -/
def refusesI2 (s : State) (i2 : Byte) : Bool := !s.cfg.ignoreI2 && i2 != 0

/-- `CAW[31:28]`, the protection key (R79). -/
def cawKey (w : Word) : BitVec 4 := w.extractLsb' 28 4

/-- `CAW[23:0]`, the address of the first CCW (R79). -/
def cawAddress (w : Word) : Addr := w.extractLsb' 0 24

/-- `IDAW[23:0]`, a real data address (R82). -/
def idawAddress (w : Word) : Addr := w.extractLsb' 0 24

/-- The flags a CCW installs: those of its flags byte, and SLI inherited when it continues a data chain whose CCW had SLI
(spec/41_ccw_loader.md R120). -/
def installedFlags (prev : CcwFlags) (flags : Byte) : CcwFlags :=
  let f := flagsOfByte flags
  { f with sli := f.sli || (prev.cd && prev.sli) }

/-- `cur(scb)`: the current data address, or the cursor with IDA (spec/42_transfer.md R141). -/
def Scb.position (b : Scb) : Addr := if b.flags.ida then b.iaddr else b.addr

/-- One byte on from an address, in the direction of the command (spec/42_transfer.md R143). -/
def stepAddr (cmd : Byte) (a : Addr) : Addr := if isBackward cmd then a - 1 else a + 1

/-- `move(scb)`: the position moves by one byte (spec/42_transfer.md R143). -/
def Scb.move (b : Scb) : Scb :=
  if b.flags.ida then { b with iaddr := stepAddr b.cmd b.iaddr } else { b with addr := stepAddr b.cmd b.addr }

/-- The result of `move(scb)`: with IDA, whether the cursor crosses a page boundary (spec/42_transfer.md R143, R155). -/
def Scb.crosses (b : Scb) : Bool := b.flags.ida && pageOf b.iaddr != pageOf (stepAddr b.cmd b.iaddr)

/-- `exhausted(scb)`: the register's offset is at its last byte, 3 forward and 0 backward (spec/42_transfer.md R143). -/
def Scb.atLastByte (b : Scb) : Bool := if isBackward b.cmd then b.boff == some 0 else b.boff == some 3

/-- `advance_off(scb)` (spec/42_transfer.md R143). -/
def Scb.advanceOffset (b : Scb) : Scb :=
  if b.atLastByte then { b with boff := none }
  else { b with boff := b.boff.map fun k => if isBackward b.cmd then k - 1 else k + 1 }

end Sys2Proof.Machine
end

