-- ==== Sys2Proof/Machine/Loader.lean ====
section
/-! DEFINITION. The shared parts of `load_next_ccw` (spec/41_ccw_loader.md R110): the fetch (steps 1 to 4), the load of a
command's fields (steps 5 to 7) and the dispatch (steps 8 and 9). What each class of CCW does with them is in Ccw.lean. -/

namespace Sys2Proof.Machine

/-- A load that fails with a channel-detected fault: `chan_fault(scb, bit); return Fail(Check)`. -/
def failCheck (id : ScbId) (bit : Half) (s : State) : State × LoadResult := (chanFault id bit s, .fail .check)

/-- Step 9: PCI raised once (R127). -/
def raisePci (id : ScbId) (s : State) : State × LoadResult :=
  if (s.scb id).flags.pcif then
    ((s.updScb id fun b => { b with status := b.status ||| stPCI, flags := { b.flags with pcif := false } }).raiseIrq, .ok)
  else (s, .ok)

/-- The device byte of an answer merged into the status word: `scb.status | (st << 8)` (R123). -/
def Scb.mergeDevice (st : Byte) (b : Scb) : Scb := { b with status := b.status ||| deviceByte st }

/-- An error-class start: CE set, chaining flags and command cleared (R125). -/
def Scb.endedByError (b : Scb) : Scb := { b with status := b.status ||| stCE, flags := b.flags.unchained, cmd := 0 }

/-- An immediate channel end: the command cleared, SLI forced, chaining flags kept (R126). -/
def Scb.endedAtOnce (b : Scb) : Scb := { b with cmd := 0, flags := { b.flags with sli := true } }

/-- What the device's answer to `start_command` does: busy (R124), error class (R125), immediate channel end (R126). A busy
answer returns before step 9. `chained` says that a busy device holds the chain (`held = 1 or CC in prev`). -/
def afterStart (id : ScbId) (chained : Bool) (st : Byte) (s : State) : State × LoadResult :=
  if anyBits st dvBUSY then
    if chained then (s.updScb id fun b => { b with chainHeld := true }, .ok)
    else (s.updScb id fun b => { b with cmd := 0 }, .fail .busy)
  else if anyBits st errClass then ((s.updScb id Scb.endedByError).raiseIrq, .fail .devError)
  else if anyBits st dvCE then
    let s := s.updScb id Scb.endedAtOnce
    raisePci id (if anyBits st dvDE then s.raiseIrq else s)
  else raisePci id s

/-- Step 8 for a new command, and step 9 (R123 to R127). -/
def dispatchCommand (id : ScbId) (chained : Bool) (s : State) : State × LoadResult :=
  match (s.scb id).dev with
  | none => (chanFault id stPROG s, .fail .noDevice)
  | some a =>
    match findDevice s.cfg a with
    | none => (chanFault id stPROG s, .fail .noDevice)
    | some _ =>
      let (st, s) := startCommand a (s.scb id).cmd s
      afterStart id chained st (s.updScb id (Scb.mergeDevice st))

/-- Step 7: with IDA and the feature, the first IDAW is read; without the feature the flag is dropped (R122). `none` is a
success. -/
def loadFirstIdaw (id : ScbId) (s : State) : Except MemFault State :=
  let b := s.scb id
  if b.flags.ida then
    if s.cfg.idaFeature then
      match readWord s b.key b.addr with
      | .error f => .error f
      | .ok (w, s) => .ok (s.updScb id fun b => { b with iaddr := idawAddress w })
    else .ok (s.updScb id fun b => { b with flags := { b.flags with ida := false } })
  else .ok s

/-- The fields step 6 installs (R120): flags, count, the fetch address past the CCW, the register's tags cleared. -/
def Scb.installed (prev : CcwFlags) (f : CcwFields) (b : Scb) : Scb :=
  { b with flags := installedFlags prev f.flags, count := f.count, caw := b.caw + 4, boff := none, dirty := false,
           chend := false }

/-- Steps 5 (its end) to 9 of a load of the CCW `f`: the data address captured (R118), the second word's access checked, the
count and the reserved bits checked (R119), the fields installed (R120), the first IDAW (R122), and for a new command the
dispatch (R123). The second word's contents are those `f` was decoded from (log 10). -/
def loadFields (id : ScbId) (new : Bool) (f : CcwFields) (s : State) : State × LoadResult :=
  let prev := (s.scb id).flags
  let s := s.updScb id fun b => { b with addr := f.data }
  match readWord s (s.scb id).key (s.scb id).caw with
  | .error e => failCheck id e.bit s
  | .ok (_, s) =>
    if f.count = 0 then failCheck id stPROG s
    else if s.cfg.reservedFlagCheck && reservedFlagBits f.flags then failCheck id stPROG s
    else
      match loadFirstIdaw id (s.updScb id (Scb.installed prev f)) with
      | .error e => failCheck id e.bit (s.updScb id (Scb.installed prev f))
      | .ok s => if new then dispatchCommand id prev.cc s else raisePci id s

/-- Step 5 for a command code that is neither TIC nor INVALID: the fetch address advances by 4, the code is adopted unless a
data chain continues (R118, R84), and the rest of the load follows. -/
def loadCommand (id : ScbId) (f : CcwFields) (s : State) : State × LoadResult :=
  let s := s.updScb id fun b => { b with caw := b.caw + 4 }
  if (s.scb id).flags.cd then loadFields id false f s
  else loadFields id true f (s.updScb id fun b => { b with cmd := f.cmd })

/-- Step 5 for a command code of class INVALID: a program check as a new command, ignored in a data chain (R118, R84, R136). -/
def loadInvalid (id : ScbId) (f : CcwFields) (s : State) : State × LoadResult :=
  let s := s.updScb id fun b => { b with caw := b.caw + 4 }
  if (s.scb id).flags.cd then loadFields id false f s
  else failCheck id stPROG s

/-- Where a fetch leads: the load ends, or a CCW is to be executed. -/
inductive Fetched where
  | stop (s : State) (r : LoadResult)
  | ccw (i : Instr) (s : State)

/-- Step 3: one CCW skipped when the status modifier is set, which is then cleared (R116). -/
def Scb.skipOnModifier (b : Scb) : Scb :=
  if anyBits b.status stSM then { b with caw := b.caw + 8, status := b.status &&& ~~~stSM } else b

/-- Steps 2 to 4 of a load, from FETCH: alignment, abort, status modifier, the first word read (R114 to R117). The CCW's bytes
are then decoded; the second word's bytes are taken as they stand, its access is checked by the load (log 10). -/
def fetchCcw (id : ScbId) (s : State) : Fetched :=
  let b := s.scb id
  if b.caw.extractLsb' 0 3 ≠ 0#3 then .stop (chanFault id stPROG s) (.fail .check)
  else if anyBits b.status chanErr then .stop s (.fail .abort)
  else
    let s := s.updScb id Scb.skipOnModifier
    let caw := (s.scb id).caw
    match readWord s b.key caw with
    | .error e => .stop (chanFault id e.bit s) (.fail .check)
    | .ok (w0, s) => .ccw (decodeCcw w0 (s.wordAt (caw + 4))) s

/-- The SCB of a held chain that is resumed: the mark and the device byte cleared (R113). -/
def Scb.resumed (b : Scb) : Scb := { b with chainHeld := false, status := b.status &&& 0x00FF }

/-- The start of a load: a held chain resumes with its decoded command (step 1, R113), else a CCW is fetched. -/
def beginLoad (id : ScbId) (s : State) : Fetched :=
  if (s.scb id).chainHeld then
    let r := dispatchCommand id true (s.updScb id Scb.resumed)
    .stop r.1 r.2
  else fetchCcw id s

end Sys2Proof.Machine
end

