-- ==== Sys2Proof/Machine/Ccw.lean ====
section
/-! DEFINITION. The meanings of the channel command words (spec/41_ccw_loader.md R130..R136) and `load_next_ccw` (R110). The
meaning of a CCW is what its load does; the bytes of its transfer move later, by `read_byte` and `write_byte`
(Transfer.lean). -/

namespace Sys2Proof.Machine

/-- WRITE: the load of a new output command, or of the next CCW of a data chain (R131). -/
def ccwWrite (id : ScbId) (f : CcwFields) (s : State) : State × LoadResult := loadCommand id f s

/-- READ: the load of a new input command, or of the next CCW of a data chain (R132). -/
def ccwRead (id : ScbId) (f : CcwFields) (s : State) : State × LoadResult := loadCommand id f s

/-- CONTROL: the load of a new output command, or of the next CCW of a data chain (R133). -/
def ccwControl (id : ScbId) (f : CcwFields) (s : State) : State × LoadResult := loadCommand id f s

/-- SENSE: the load of a new input command, or of the next CCW of a data chain (R134). -/
def ccwSense (id : ScbId) (f : CcwFields) (s : State) : State × LoadResult := loadCommand id f s

/-- READ BACKWARD: the load of a new input command whose addresses fall, or of the next CCW of a data chain (R135). -/
def ccwRdbwd (id : ScbId) (f : CcwFields) (s : State) : State × LoadResult := loadCommand id f s

/-- INVALID: a program check as a new command; in a data chain its code is ignored (R136, R84). -/
def ccwInvalid (id : ScbId) (f : CcwFields) (s : State) : State × LoadResult := loadInvalid id f s

/-- The CCW a TIC leads to, with `tic_allowed` false: another TIC is a program check (R121, R130). The last line is never
reached: `decodeCcw` gives a CCW (Laws/Decode.lean, `decodeCcw_source`). -/
def runTicTarget (id : ScbId) (i : Instr) (s : State) : State × LoadResult :=
  match i with
  | .ccwWrite f => ccwWrite id f s
  | .ccwRead f => ccwRead id f s
  | .ccwControl f => ccwControl id f s
  | .ccwSense f => ccwSense id f s
  | .ccwRdbwd f => ccwRdbwd id f s
  | .ccwInvalid f => ccwInvalid id f s
  | .ccwTic _ _ _ => failCheck id stPROG s
  | .sio _ _ _ | .tio _ _ _ | .hio _ _ _ | .tch _ _ _ => failCheck id stPROG s

/-- TIC: a program check where it is not allowed; else the fetch address is redirected and the CCW there fetched and run
(R121, R130). Its second word is not read. -/
def ccwTic (id : ScbId) (ticAllowed : Bool) (target : Addr) (s : State) : State × LoadResult :=
  if ticAllowed then
    match fetchCcw id (s.updScb id fun b => { b with caw := target }) with
    | .stop s r => (s, r)
    | .ccw i s => runTicTarget id i s
  else failCheck id stPROG s

/-- The load of a fetched CCW, by its class (R110). The last line is never reached, as in `runTicTarget`. -/
def runCcw (id : ScbId) (ticAllowed : Bool) (i : Instr) (s : State) : State × LoadResult :=
  match i with
  | .ccwWrite f => ccwWrite id f s
  | .ccwRead f => ccwRead id f s
  | .ccwControl f => ccwControl id f s
  | .ccwSense f => ccwSense id f s
  | .ccwRdbwd f => ccwRdbwd id f s
  | .ccwInvalid f => ccwInvalid id f s
  | .ccwTic _ target _ => ccwTic id ticAllowed target s
  | .sio _ _ _ | .tio _ _ _ | .hio _ _ _ | .tch _ _ _ => failCheck id stPROG s

/-- `load_next_ccw(scb, tic_allowed)` (R110). -/
def loadNextCcw (id : ScbId) (ticAllowed : Bool) (s : State) : State × LoadResult :=
  match beginLoad id s with
  | .stop s r => (s, r)
  | .ccw i s => runCcw id ticAllowed i s

/-! ## The arms of exec: a CCW executed for the SCB of the load a step runs -/

/-- The operand of a load is an SCB bound to a device (R110). -/
def loadReady (s : State) : Bool := (s.scb s.loader.id).dev.isSome

/-- The answer of a load as an outcome; a load of an unbound SCB is a fault (R110; log 9). -/
def loadOutcome (s : State) (r : State × LoadResult) : Host.Outcome State Fault Refusal :=
  if loadReady s then .next (r.1.answer (.load r.2)) else .fault .loaderUnbound

/-- A step of a channel program: WRITE (R131). -/
def execCcwWrite (f : CcwFields) (s : State) : Host.Outcome State Fault Refusal :=
  loadOutcome s (ccwWrite s.loader.id f s)

/-- A step of a channel program: READ (R132). -/
def execCcwRead (f : CcwFields) (s : State) : Host.Outcome State Fault Refusal :=
  loadOutcome s (ccwRead s.loader.id f s)

/-- A step of a channel program: CONTROL (R133). -/
def execCcwControl (f : CcwFields) (s : State) : Host.Outcome State Fault Refusal :=
  loadOutcome s (ccwControl s.loader.id f s)

/-- A step of a channel program: SENSE (R134). -/
def execCcwSense (f : CcwFields) (s : State) : Host.Outcome State Fault Refusal :=
  loadOutcome s (ccwSense s.loader.id f s)

/-- A step of a channel program: TIC (R130), fetching again at its target. -/
def execCcwTic (target : Addr) (s : State) : Host.Outcome State Fault Refusal :=
  loadOutcome s (ccwTic s.loader.id s.loader.ticAllowed target s)

/-- A step of a channel program: READ BACKWARD (R135). -/
def execCcwRdbwd (f : CcwFields) (s : State) : Host.Outcome State Fault Refusal :=
  loadOutcome s (ccwRdbwd s.loader.id f s)

/-- A step of a channel program: INVALID (R136). -/
def execCcwInvalid (f : CcwFields) (s : State) : Host.Outcome State Fault Refusal :=
  loadOutcome s (ccwInvalid s.loader.id f s)

end Sys2Proof.Machine
end

