-- ==== Sys2Proof/Machine/Transfer.lean ====
section
/-! DEFINITION. The byte transfer engine: `read_byte` and `write_byte`, with data chaining, skip, indirect addressing and the
buffered data register (spec/42_transfer.md R140..R163). -/

namespace Sys2Proof.Machine

/-- The two directions: memory to device, device to memory (spec/42_transfer.md, direction words; spec/90_conflicts.md C1). -/
inductive Direction where
  | out
  | input
  deriving DecidableEq, Repr

/-- The command's direction is `dir` (R140; spec/30_encoding.md R77). -/
def matchesDirection (dir : Direction) (cmd : Byte) : Bool :=
  match dir with
  | .out => isOutput cmd
  | .input => isInput cmd

/-- `preamble(a, dir)`: the SCB that transfers for `a`, or none, which is Done (R140). -/
def transferScb (a : DevAddr) (dir : Direction) (s : State) : Option ScbId :=
  match findSubchannel s.cfg a with
  | none => none
  | some id =>
    let b := s.scb id
    if b.dev ≠ some a then none
    else if anyBits b.status chanErr then none
    else if matchesDirection dir b.cmd then some id
    else none

/-- `flush(scb, wa)`: the register written to the word at `wa`, and whether that succeeded (R152). -/
def flush (id : ScbId) (wa : Addr) (s : State) : State × Bool :=
  match writeWord s (s.scb id).key wa (s.scb id).buf with
  | .error e => (chanFault id e.bit s, false)
  | .ok s => (s.updScb id fun b => { b with dirty := false }, true)

/-- A dirty register flushed to the word of the current position (R146; spec/43_status.md R171; spec/44_io_instructions.md
R218). -/
def flushDirty (id : ScbId) (s : State) : State × Bool :=
  if (s.scb id).dirty then flush id (wordAddr (s.scb id).position) s else (s, true)

/-- `data_chain(scb)`: the register flushed and the next CCW loaded, and whether both succeeded (R146). -/
def dataChain (id : ScbId) (s : State) : State × Bool :=
  match flushDirty id s with
  | (s, false) => (s, false)
  | (s, true) =>
    let r := loadNextCcw id true s
    (r.1, r.2 == .ok)

/-- The count exhausted without CD: CE, IL unless SLI, the chain-ended tag (R145). -/
def Scb.countExhausted (b : Scb) : Scb :=
  { b with status := b.status ||| stCE ||| (if b.flags.sli then 0 else stIL), chend := true }

/-- Count zero on entry: the CCW is ended (R145), or the next one of a data chain loaded (R144, R146). Whether the call goes on
to transfer a byte. -/
def atCountZero (id : ScbId) (dir : Direction) (s : State) : State × Bool :=
  if (s.scb id).count ≠ 0 then (s, true)
  else if !(s.scb id).flags.cd then (s.updScb id Scb.countExhausted, false)
  else
    match dataChain id s with
    | (s, false) => (s, false)
    | (s, true) => (s, matchesDirection dir (s.scb id).cmd && (s.scb id).count != 0)

/-- The register loaded with the word `w` of the position `p` (R142, R148, R150). -/
def Scb.filled (w : Word) (p : Addr) (b : Scb) : Scb := { b with buf := w, boff := some (byteOffset p), dirty := false }

/-- The register filled from the current position with an access of key and direction, where it is empty, and whether that
succeeded: a write's permission is checked before the word is read (R148, R150). -/
def fill (id : ScbId) (dir : Direction) (s : State) : State × Bool :=
  let b := s.scb id
  if b.boff.isSome then (s, true)
  else
    match (if dir = .input then checkWrite s b.key b.position else none) with
    | some e => (chanFault id e.bit s, false)
    | none =>
      match readWord s b.key b.position with
      | .error e => (chanFault id e.bit s, false)
      | .ok (w, s) => (s.updScb id (Scb.filled w b.position), true)

/-- The low 11 bits kept, the page replaced (R156). -/
def onPage (page low : Addr) : Addr := (page &&& 0xFFF800) ||| (low &&& 0x7FF)

/-- `next_idaw(scb)`: the next IDAW gives the cursor's page (R156). -/
def nextIdaw (id : ScbId) (s : State) : State :=
  let s := s.updScb id fun b => { b with addr := b.addr + 4 }
  match readWord s (s.scb id).key (s.scb id).addr with
  | .error e => chanFault id e.bit s
  | .ok (w, s) => s.updScb id fun b => { b with iaddr := onPage (idawAddress w) b.iaddr }

/-- Chaining after the decrement (R158). -/
def chainAfterByte (id : ScbId) (s : State) : State :=
  let b := s.scb id
  if b.count == 0 && b.flags.cd && !anyBits b.status chanErr then (dataChain id s).1 else s

/-- The position moved by one byte, the next IDAW fetched at a page crossing if bytes remain, the count decremented, and a data
chain continued (R143, R154, R156, R158). -/
def finishByte (id : ScbId) (s : State) : State :=
  let b := s.scb id
  let s := s.updScb id Scb.move
  let s := if b.crosses && decide (1 < b.count.toNat) then nextIdaw id s else s
  chainAfterByte id (s.updScb id fun b => { b with count := b.count - 1 })

/-- The register's byte at its offset (R149); an empty register is never read (spec/10_state.md R30), its offset reads 0. -/
def Scb.currentByte (b : Scb) : Byte := wordByte b.buf (b.boff.getD 0)

/-- The device's byte put into the register at its offset (R151). -/
def Scb.putByte (x : Byte) (b : Scb) : Scb := { b with buf := setWordByte b.buf (b.boff.getD 0) x, dirty := true }

/-- The register flushed where its last byte was just written, and whether the call goes on (R153). -/
def flushIfExhausted (id : ScbId) (s : State) : State × Bool :=
  if (s.scb id).atLastByte then flush id (wordAddr (s.scb id).position) s else (s, true)

/-- `read_byte(a)` (R160). -/
def readByte (a : DevAddr) (s : State) : State × OpResult :=
  match transferScb a .out s with
  | none => (s, .done)
  | some id =>
    match atCountZero id .out s with
    | (s, false) => (s, .done)
    | (s, true) =>
      match fill id .out s with
      | (s, false) => (s, .done)
      | (s, true) => (finishByte id (s.updScb id Scb.advanceOffset), .byte (s.scb id).currentByte)

/-- A byte of `write_byte` stored in the register, flushed at the word's last byte (R150, R151, R153). -/
def storeByte (id : ScbId) (x : Byte) (s : State) : State × OpResult :=
  match fill id .input s with
  | (s, false) => (s, .done)
  | (s, true) =>
    match flushIfExhausted id (s.updScb id (Scb.putByte x)) with
    | (s, false) => (s, .done)
    | (s, true) => (finishByte id (s.updScb id Scb.advanceOffset), .ok)

/-- `write_byte(a, b)` (R161); with SKIP the byte is counted and discarded (R147). -/
def writeByte (a : DevAddr) (x : Byte) (s : State) : State × OpResult :=
  match transferScb a .input s with
  | none => (s, .done)
  | some id =>
    match atCountZero id .input s with
    | (s, false) => (s, .done)
    | (s, true) => if (s.scb id).flags.skip then (finishByte id s, .ok) else storeByte id x s

end Sys2Proof.Machine
end

