-- ==== Sys2Proof/Machine/Status.lean ====
section
/-! DEFINITION. The device callbacks `channel_end` and `post_attention`, and the interrupt scan (spec/43_status.md
R170..R192). -/

namespace Sys2Proof.Machine

/-- What `channel_end` does to the SCB, its register already flushed (R172, R173, R174). -/
def Scb.channelEnded (deClear : CcwFlags) (fl : Half) (b : Scb) : Scb :=
  let il : Half := if b.count ≠ 0 ∧ b.flags.sli = false then stIL else 0
  let f := if anyBits fl (deviceByte errClass) then b.flags.unchained else b.flags
  { b with status := b.status ||| stCE ||| fl ||| il, cmd := 0, flags := if anyBits fl stDE then f.without deClear else f }

/-- `channel_end(a, fl)` (R170). -/
def channelEnd (a : DevAddr) (fl : Half) (s : State) : State :=
  match findSubchannel s.cfg a with
  | none => s
  | some id =>
    if (s.scb id).dev ≠ some a then s
    else ((flushDirty id s).1.updScb id (Scb.channelEnded s.cfg.deClearMask fl)).raiseIrq

/-- The SCB takes a posted status itself: bound to `a`, and chain-held or with CE and no DE (R177, R178). -/
def Scb.awaits (a : DevAddr) (b : Scb) : Bool :=
  b.dev == some a && (b.chainHeld || (anyBits b.status stCE && !anyBits b.status stDE))

/-- An unsolicited status recorded in the pending-status table (R179). -/
def recordPending (a : DevAddr) (fl : Byte) (s : State) : State :=
  (s.setPend a (s.pendAt a ||| fl)).setChpend (chanOf a) true

/-- `post_attention(a, fl)` (R177). -/
def postAttention (a : DevAddr) (fl : Byte) (s : State) : State :=
  match findSubchannel s.cfg a with
  | some id =>
    if (s.scb id).awaits a then (s.updScb id (Scb.mergeDevice fl)).raiseIrq
    else (recordPending a fl s).raiseIrq
  | none => (recordPending a fl s).raiseIrq

/-- The condition under which a PCI or a pending status is delivered (R185, R190): the CPU enabled for channel `c`, and no
boot-load of another device. -/
def maskedOn (s : State) (a : DevAddr) (c : Fin 16) (mask : Half) (enabled : Bool) : Bool :=
  enabled && maskBit s.cfg mask c && (s.loading == none || s.loading == some a)

/-- `allowed(a, c, mask, enabled)`: during a boot-load the loading device only, with no enable or mask (R188, R190). -/
def allowed (s : State) (a : DevAddr) (c : Fin 16) (mask : Half) (enabled : Bool) : Bool :=
  match s.loading with
  | some l => a == l
  | none => enabled && maskBit s.cfg mask c

/-- The status a chain continuation starts its next command with (R187). -/
def Scb.continued (b : Scb) : Scb := { b with status := b.status &&& (stPCI ||| stSM) }

/-- A held chain in the scan: resumed once DE is there (R186). -/
def scanHeld (id : ScbId) (s : State) : State :=
  if anyBits (s.scb id).status stDE then (loadNextCcw id true s).1.raiseIrq else s

/-- A command chain continues from this SCB: CC still set and no channel error (R187). -/
def Scb.chains (b : Scb) : Bool := b.flags.cc && !anyBits b.status chanErr

/-- A command chain in the scan: continued once DE is there (R187). -/
def scanChain (id : ScbId) (s : State) : State :=
  if anyBits (s.scb id).status stDE then (loadNextCcw id true (s.updScb id Scb.continued)).1.raiseIrq else s

/-- A completed program in the scan: delivered where allowed, kept pending where not (R188, R191). -/
def scanComplete (a : DevAddr) (id : ScbId) (mask : Half) (enabled : Bool) (s : State) : State × Option DevAddr :=
  if allowed s a id.chan mask enabled then ((clearPend a (collect id s)).raiseIrq, some a)
  else (s.raiseIrq, none)

/-- The scan of an SCB after its PCI: held chain, then completed command (R185 (2), (3)). -/
def scanAfterPci (a : DevAddr) (id : ScbId) (mask : Half) (enabled : Bool) (s : State) : State × Option DevAddr :=
  let b := s.scb id
  if b.chainHeld then (scanHeld id s, none)
  else if anyBits b.status stCE && b.cmd == 0 then
    if b.chains then (scanChain id s, none) else scanComplete a id mask enabled s
  else (s, none)

/-- The scan of one SCB: PCI first (R185 (1), R192), then the rest. -/
def scanScb (mask : Half) (enabled : Bool) (id : ScbId) (s : State) : State × Option DevAddr :=
  let b := s.scb id
  match b.dev with
  | none => (s, none)
  | some a =>
    if anyBits b.status stPCI then
      if maskedOn s a id.chan mask enabled then ((collect id s).raiseIrq, some a)
      else scanAfterPci a id mask enabled s.raiseIrq
    else scanAfterPci a id mask enabled s

/-- The scan of SCBs in order, up to the first that is delivered (R185). -/
def scanScbs (mask : Half) (enabled : Bool) : List ScbId → State → State × Option DevAddr
  | [], s => (s, none)
  | id :: ids, s =>
    match scanScb mask enabled id s with
    | (s, some a) => (s, some a)
    | (s, none) => scanScbs mask enabled ids s

/-- The addresses the fallback looks at, in its order: channels that are enabled and have `CHPEND`, then device bytes, both
ascending (R189). -/
def fallbackOrder (s : State) : List DevAddr :=
  ((enabledChannels s.cfg).filter fun c => s.chpendAt c).flatMap fun c => (List.finRange 256).map (devAddrOf c)

/-- The pending status the fallback delivers (R189). -/
def fallbackPick (s : State) (mask : Half) (enabled : Bool) : Option DevAddr :=
  if enabled then (fallbackOrder s).find? fun a => s.pendAt a != 0 && maskedOn s a (chanOf a) mask enabled else none

/-- The end of a scan that found no SCB to deliver: the fallback, then the upkeep of IRQ (R185, R189, R191). -/
def scanFallback (mask : Half) (enabled : Bool) (s : State) : State × Option DevAddr :=
  match fallbackPick s mask enabled with
  | some a => ((clearPend a (storeSynth (s.pendAt a) s)).raiseIrq, some a)
  | none => (if s.chpend != 0 then s.raiseIrq else s, none)

/-- `scan(mask, enabled)` (R185). -/
def scan (mask : Half) (enabled : Bool) (s : State) : State × Option DevAddr :=
  if s.irq then
    match scanScbs mask enabled (scanOrder s.cfg) { s with irq := false } with
    | (s, some a) => (s, some a)
    | (s, none) => scanFallback mask enabled s
  else (s, none)

end Sys2Proof.Machine
end

