-- ==== Sys2Proof/Machine/ChannelControl.lean ====
section
/-! DEFINITION. The CPU's channel-control operations SIO, TIO, HIO, TCH and the boot start (spec/44_io_instructions.md
R200..R226). Each tests its conditions in the order of its pseudocode (spec/60_exceptions.md R247). -/

namespace Sys2Proof.Machine

/-- The SCB and the binding of an address; none where either cannot be resolved, which is condition code 3 (R201, R209,
R216). -/
def resolve (s : State) (a : DevAddr) : Option (ScbId × Binding) :=
  match findSubchannel s.cfg a, findDevice s.cfg a with
  | some id, some b => some (id, b)
  | _, _ => none

/-- The SCB bound for a new program, its prior status cleared (R206, R226). -/
def Scb.started (a : DevAddr) (dev : Binding) (key : BitVec 4) (caw : Addr) (b : Scb) : Scb :=
  { b with dev := some a, bind := some dev, status := 0, flags := noFlags, cmd := 0, chainHeld := false, count := 0,
           boff := none, dirty := false, chend := false, key := key, caw := caw }

/-- The first load of a program: a failure stores the CSW, frees the SCB and answers 1 (R207). -/
def firstLoad (id : ScbId) (s : State) : State × BitVec 2 :=
  match loadNextCcw id false s with
  | (s, .ok) => (s, 0)
  | (s, .fail _) => ((storeStatus id s).updScb id Scb.unbind, 1)

/-- The end of `start_io`: the CAW read, the SCB bound, the first CCW loaded (R206, R207). -/
def startProgram (a : DevAddr) (id : ScbId) (dev : Binding) (s : State) : State × BitVec 2 :=
  let (w, s) := readArchitected s s.cfg.cawAddr
  firstLoad id (s.updScb id (Scb.started a dev (cawKey w) (cawAddress w)))

/-- The optional `start_io` hook, then the start (R205). -/
def startWithHook (a : DevAddr) (id : ScbId) (dev : Binding) (s : State) : State × BitVec 2 :=
  if dev.hasStartIo then
    let (st, s) := startIoHook a s
    if anyBits st dvBUSY then (s, 2)
    else if st ≠ 0 then (storeSynth st s, 1)
    else startProgram a id dev s
  else startProgram a id dev s

/-- The pending status of an address stored and its entry cleared, condition code 1 (R204, R213). -/
def takePending (a : DevAddr) (s : State) : State × BitVec 2 := (clearPend a (storeSynth (s.pendAt a) s), 1)

/-- `start_io(a)` (R200). -/
def startIo (a : DevAddr) (s : State) : State × BitVec 2 :=
  match resolve s a with
  | none => (s, 3)
  | some (id, dev) =>
    let b := s.scb id
    if b.dev = some a ∧ b.status ≠ 0 ∧ b.midProgram = false then (collect id s, 1)
    else if b.midProgram = true ∨ (b.dev ≠ none ∧ b.dev ≠ some a) then (s, 2)
    else if s.pendAt a ≠ 0 then takePending a s
    else startWithHook a id dev s

/-- The end of `test_io`: the device asked directly with command byte 0 (R220). -/
def testDevice (a : DevAddr) (s : State) : State × BitVec 2 :=
  let (st, s) := startCommand a 0x00 s
  if anyBits st errClass then (storeSynth st s, 1)
  else if anyBits st dvBUSY then (s, 2)
  else (s, 0)

/-- `test_io(a)` (R208). -/
def testIo (a : DevAddr) (s : State) : State × BitVec 2 :=
  match resolve s a with
  | none => (s, 3)
  | some (id, _) =>
    let b := s.scb id
    if b.dev = some a ∧ errorStatus b.status = true then (collect id s, 1)
    else if b.midProgram = true then (s, 2)
    else if b.dev = some a ∧ anyBits b.status stCE = true then (collect id s, 1)
    else if s.pendAt a ≠ 0 then takePending a s
    else if b.dev ≠ none ∧ b.dev ≠ some a ∧ b.status ≠ 0 then (s, 2)
    else testDevice a s

/-- A running program forced to its end: CE set, command, chaining and held mark cleared (R218). -/
def Scb.halted (b : Scb) : Scb :=
  { b with status := b.status ||| stCE, cmd := 0, flags := b.flags.unchained, chainHeld := false }

/-- The program of `a` halted, if it runs on this SCB: its register flushed, then ended (R218). -/
def haltProgram (a : DevAddr) (id : ScbId) (s : State) : State :=
  if (s.scb id).dev = some a ∧ (s.scb id).midProgram = true then
    ((flushDirty id s).1.updScb id Scb.halted).raiseIrq
  else s

/-- The end of `halt_io` with no hook: the status stored, a zero one where no program of `a` is bound (R219). -/
def haltStore (a : DevAddr) (id : ScbId) (s : State) : State × BitVec 2 :=
  if (s.scb id).dev = some a then (collect id s, 1) else (storeSynth 0 s, 1)

/-- `halt_io(a)` (R215). -/
def haltIo (a : DevAddr) (s : State) : State × BitVec 2 :=
  match resolve s a with
  | none => (s, 3)
  | some (id, dev) =>
    if (s.scb id).dev = some a ∧ errorStatus (s.scb id).status = true then (s, 0)
    else
      let s := haltProgram a id s
      if dev.hasHaltIo then
        let (cc, s) := haltIoHook a s
        (s, cc)
      else haltStore a id s

/-- `test_channel(a)`: only the channel number is used (R221, R106). -/
def testChannel (a : DevAddr) (s : State) : BitVec 2 :=
  match enabledChannel s.cfg (chanOf a) with
  | none => 3
  | some ch =>
    match ch.kind with
    | .mux _ | .blockMux true => 0
    | .selector | .blockMux false =>
      let b := s.scb ⟨chanOf a, 0⟩
      if b.midProgram then 2 else if b.dev ≠ none ∧ b.status ≠ 0 then 1 else 0

/-- `boot_start(a, ccwaddr)` (R226). -/
def bootStart (a : DevAddr) (ccwaddr : Word) (s : State) : State × BitVec 2 :=
  match resolve s a with
  | none => (s, 3)
  | some (id, dev) =>
    firstLoad id (({ s with loading := some a }).updScb id (Scb.started a dev 0 (ccwaddr.extractLsb' 0 24)))

/-! ## The arms of exec: the device address is formed (spec/30_encoding.md R70), the operation run, its condition code answered
(R73) -/

/-- A condition code answered, unless `I2` is one the model refuses (spec/30_encoding.md R70). -/
def ccOutcome (i2 : Byte) (s : State) (r : State × BitVec 2) : Host.Outcome State Fault Refusal :=
  if refusesI2 s i2 then .refused (.secondByte i2) else .next (r.1.answer (.cc r.2))

/-- Start I/O, 0x9C (R200). -/
def execSio (i2 : Byte) (b1 : BitVec 4) (d1 : BitVec 12) (s : State) : Host.Outcome State Fault Refusal :=
  ccOutcome i2 s (startIo (deviceAddress s b1 d1) s)

/-- Test I/O, 0x9D (R208). -/
def execTio (i2 : Byte) (b1 : BitVec 4) (d1 : BitVec 12) (s : State) : Host.Outcome State Fault Refusal :=
  ccOutcome i2 s (testIo (deviceAddress s b1 d1) s)

/-- Halt I/O, 0x9E (R215). -/
def execHio (i2 : Byte) (b1 : BitVec 4) (d1 : BitVec 12) (s : State) : Host.Outcome State Fault Refusal :=
  ccOutcome i2 s (haltIo (deviceAddress s b1 d1) s)

/-- Test Channel, 0x9F (R221); it changes no state. -/
def execTch (i2 : Byte) (b1 : BitVec 4) (d1 : BitVec 12) (s : State) : Host.Outcome State Fault Refusal :=
  ccOutcome i2 s (s, testChannel (deviceAddress s b1 d1) s)

end Sys2Proof.Machine
end

