-- ==== Sys2Proof/Machine/Dispatch.lean ====
section
/-! DEFINITION. One arm per instruction of the opcode table. -/

namespace Sys2Proof.Machine

def exec (i : Instr) (s : State) : Host.Outcome State Fault Refusal :=
  match i with
  -- the CPU's channel-control instructions
  | .sio i2 b1 d1 => Sys2Proof.Machine.execSio i2 b1 d1 s
  | .tio i2 b1 d1 => Sys2Proof.Machine.execTio i2 b1 d1 s
  | .hio i2 b1 d1 => Sys2Proof.Machine.execHio i2 b1 d1 s
  | .tch i2 b1 d1 => Sys2Proof.Machine.execTch i2 b1 d1 s
  -- the channel command words, for the SCB of the load the step runs
  | .ccwWrite f => Sys2Proof.Machine.execCcwWrite f s
  | .ccwRead f => Sys2Proof.Machine.execCcwRead f s
  | .ccwControl f => Sys2Proof.Machine.execCcwControl f s
  | .ccwSense f => Sys2Proof.Machine.execCcwSense f s
  | .ccwTic _ target _ => Sys2Proof.Machine.execCcwTic target s
  | .ccwRdbwd f => Sys2Proof.Machine.execCcwRdbwd f s
  | .ccwInvalid f => Sys2Proof.Machine.execCcwInvalid f s

end Sys2Proof.Machine
end

