-- ==== Sys2Proof/Machine/Requests.lean ====
section
/-! DEFINITION. The operations agents invoke that are no instruction (spec/10_state.md R20): the boot start, the scan, the
transfers and the device callbacks; the platform's operations (log 14); and what a step fetches for the other two, the CPU's
instruction word and the CCW of a load. -/

namespace Sys2Proof.Machine

/-- A block reset with new channels: every piece of the block's state takes its reset value, memory, storage keys, the CPU's
registers and the agents' inputs and outputs stay (spec/70_reset_and_hazards.md R260, R262). -/
def resetBlock (channels : List Channel) (s : State) : State :=
  { s with cfg := { s.cfg with channels := channels }, scbs := [], pend := [], chpend := 0, irq := false, loading := none,
           loader := {} }

/-- A byte stored by the CPU, with the shared memory's limits (log 14). -/
def cpuStore (a : Addr) (b : Byte) (s : State) : Host.Outcome State Fault Refusal :=
  if addressingError s a then .refused (.noMemory a) else .next ((s.setByte a.toNat b).answer .nothing)

/-- A storage key set by the CPU (log 14). -/
def cpuSetKey (a : Addr) (k : Byte) (s : State) : Host.Outcome State Fault Refusal :=
  if addressingError s a then .refused (.noMemory a) else .next ((s.setKey (pageOf a) k).answer .nothing)

/-- A transition whose answer is given. -/
def answered (r : State × OpResult) : Host.Outcome State Fault Refusal := .next (r.1.answer r.2)

/-- What a request does that runs no instruction: one atomic transition (spec/10_state.md R20). `none` for the two requests
that do, which `step` runs. -/
def runRequest (r : Request) (s : State) : Option (Host.Outcome State Fault Refusal) :=
  match r with
  | .instruction _ => none
  | .loadCcw _ _ => none
  | .bootStart a ccwaddr =>
    let r := bootStart a ccwaddr s
    some (answered (r.1, .cc r.2))
  | .endBoot => some (answered ({ s with loading := none }, .nothing))
  | .scan mask enabled =>
    let r := scan mask enabled s
    some (answered (r.1, .address r.2))
  | .readByte a => some (answered (readByte a s))
  | .writeByte a b => some (answered (writeByte a b s))
  | .channelEnd a fl => some (answered (channelEnd a fl s, .nothing))
  | .postAttention a fl => some (answered (postAttention a fl s, .nothing))
  | .reset channels =>
    some (if channelsWf channels then answered (resetBlock channels s, .nothing) else .refused .configuration)
  | .cpuStore a b => some (cpuStore a b s)
  | .cpuSetKey a k => some (cpuSetKey a k s)
  | .cpuSetReg r v => some (answered ({ s with gr := s.gr.set r.toNat v }, .nothing))

/-- What a step fetches: an instruction and the state it runs at, or an outcome with no instruction. -/
inductive FetchResult where
  | run (i : Instr) (s : State)
  | outcome (o : Host.Outcome State Fault Refusal)

/-- The refusal of bytes that are no instruction (spec/30_encoding.md R71); a whole word is never too short. -/
def decodeRefusal : DecodeError → Refusal
  | .notChannelControl op => .notChannelControl op
  | .tooShort => .notChannelControl 0

/-- The CPU's instruction word decoded from its bytes (spec/30_encoding.md R70, R71). -/
def fetchInstruction (w : Word) (s : State) : FetchResult :=
  match decode .cpu (bytesOfWord w) with
  | .ok i => .run i s
  | .error e => .outcome (.refused (decodeRefusal e))

/-- The CCW of a load: `load_next_ccw` up to its fetch (spec/41_ccw_loader.md R110). An unbound SCB is a fault (log 9); a held
chain, and a fetch that fails, end the load with no instruction. DESIGN CHOICE, unsafe (log 9): no flush comes before it. The spec's
callers flush a dirty register first (R120; spec/42_transfer.md R146; spec/70_reset_and_hazards.md R273), and it names no caller that
does not; here a load requested on its own drops a dirty register's bytes, as R120 clears the register's tags. -/
def fetchLoad (id : ScbId) (ticAllowed : Bool) (s : State) : FetchResult :=
  let s := { s with loader := { id := id, ticAllowed := ticAllowed } }
  if loadReady s then
    match beginLoad id s with
    | .stop s r => .outcome (.next (s.answer (.load r)))
    | .ccw i s => .run i s
  else .outcome (.fault .loaderUnbound)

/-- What a request fetches. -/
def fetchRequest (r : Request) (s : State) : FetchResult :=
  match r with
  | .instruction w => fetchInstruction w s
  | .loadCcw id ticAllowed => fetchLoad id ticAllowed s
  | r =>
    match runRequest r s with
    | some o => .outcome o
    | none => .outcome (.next s)

/-- The SCB and the device address a table's CCW is loaded for: the first device of the configuration that resolves, or SCB 0 of
channel 0 (log 12). -/
def loadTarget (cfg : Config) : ScbId × DevAddr :=
  let addrs := (enabledChannels cfg).flatMap fun c =>
    match channelAt cfg c with
    | none => []
    | some ch => ch.devices.map fun d => devAddrOf c d.1.toFin
  match addrs.findSome? fun a => (findSubchannel cfg a).map fun id => (id, a) with
  | some r => r
  | none => (⟨0, 0⟩, 0)

/-- Where a table's CCW is placed (log 12). -/
def loadAddress : Addr := 0x100

/-- The SCB with which the very next load fetches the CCW at `loadAddress`: bound, idle, key 0, no status (log 12). -/
def loadScb (cfg : Config) (a : DevAddr) : Scb :=
  { dev := some a, bind := findDevice cfg a, caw := loadAddress }

/-- A CCW placed in memory and the load of it requested next (log 12). -/
def placeCcw (w0 w1 : Word) (s : State) : State :=
  let t := loadTarget s.cfg
  let s := ((s.setWord loadAddress w0).setWord (loadAddress + 4) w1).setScb t.1 (loadScb s.cfg t.2)
  { s with requests := .loadCcw t.1 true :: s.requests }

/-- A CPU instruction word requested next (log 12). -/
def placeInstruction (w : Word) (s : State) : State := { s with requests := .instruction w :: s.requests }

end Sys2Proof.Machine
end

