-- ==== Sys2Proof/Machine/Step.lean ====
section
/-! DEFINITION. One step: the next request of an agent, as one atomic transition (spec/10_state.md R20). -/

namespace Sys2Proof.Machine

/-- What a fetch leads to: the instruction run, or the outcome without one. -/
def runFetched : FetchResult → Host.Outcome State Fault Refusal
  | .run i s => exec i s
  | .outcome o => o

/-- One step. A configuration outside the limits is refused (spec/93_implementation_defined.md item 17); with no request the
block does nothing (R20, R261); else the next request runs. -/
def step (s : State) : Host.Outcome State Fault Refusal :=
  if configWf s.cfg then
    match s.requests with
    | [] => .next s
    | r :: rest => runFetched (fetchRequest r { s with requests := rest })
  else .refused .configuration

/-- The state with an instruction of the opcode table stored where the next step fetches it: the CPU's word as the next request,
or a CCW in memory with its load as the next request (log 12). -/
def State.withFetchWord (s : State) (nbits w : Nat) : State :=
  let ws := Sys2Proof.tableWords nbits w
  match Sys2Proof.tableSource nbits w with
  | .cpu => placeInstruction ws.1 s
  | .channel => placeCcw ws.1 ws.2 s

end Sys2Proof.Machine
end

