-- ==== Sys2Proof/Safety.lean ====
section
/-! DEFINITION. The terms statements about the machine are written in: what an operation leaves as it was (frames), what a
stored CSW and a loaded CCW are, the situations rules speak of, and the invariants of the machine. -/

namespace Sys2Proof.Machine

/-! ## Frames: what is as before -/

/-- The configuration, the CPU's registers, the agents' requests and the loader's arguments are as before. -/
structure KeepsPlatform (s t : State) : Prop where
  cfg : t.cfg = s.cfg
  gr : t.gr = s.gr
  requests : t.requests = s.requests
  loader : t.loader = s.loader

/-- No call-out was made to a device, and no answer taken (spec/10_state.md R31). -/
structure KeepsCalls (s t : State) : Prop where
  callOuts : t.callOuts = s.callOuts
  commandAnswers : t.commandAnswers = s.commandAnswers
  startIoAnswers : t.startIoAnswers = s.startIoAnswers
  haltIoAnswers : t.haltIoAnswers = s.haltIoAnswers
  draws : t.draws = s.draws

/-- The pending-status table and its channel flags are as before (spec/10_state.md R32). -/
structure KeepsPending (s t : State) : Prop where
  pend : ∀ a, t.pendAt a = s.pendAt a
  chpend : t.chpend = s.chpend

/-- Every byte of memory is as before. -/
def KeepsMemory (s t : State) : Prop := ∀ x, t.byteAt x = s.byteAt x

/-- Every byte of memory outside `P` is as before. -/
def KeepsMemoryBut (P : Nat → Prop) (s t : State) : Prop := ∀ x, ¬ P x → t.byteAt x = s.byteAt x

/-- Every SCB is as before. -/
def KeepsScbs (s t : State) : Prop := ∀ j, t.scb j = s.scb j

/-- Every SCB but `id` is as before. -/
def KeepsScbsBut (id : ScbId) (s t : State) : Prop := ∀ j, j ≠ id → t.scb j = s.scb j

/-- Every storage key is as before. -/
def KeepsKeys (s t : State) : Prop := ∀ p, t.keyAt p = s.keyAt p

/-- Of a storage key only the referenced bit may have been set: memory was only read (spec/20_memory.md R51, R56). -/
def KeepsReadKeys (s t : State) : Prop := ∀ p, t.keyAt p = s.keyAt p ∨ t.keyAt p = s.keyAt p ||| 0x04

/-- Of a storage key only the referenced bit, or the referenced and changed bits, may have been set (spec/20_memory.md R51,
R56). -/
def KeepsAccessKeys (s t : State) : Prop :=
  ∀ p, t.keyAt p = s.keyAt p ∨ t.keyAt p = s.keyAt p ||| 0x04 ∨ t.keyAt p = s.keyAt p ||| 0x06

/-- All that lies outside the SCBs and the block's flags is as before, IRQ, the storage keys and the last answer apart. -/
structure KeepsOutside (s t : State) : Prop where
  platform : KeepsPlatform s t
  calls : KeepsCalls s t
  pending : KeepsPending s t
  loading : t.loading = s.loading
  memory : KeepsMemory s t

/-- What a CCW load, which only reads memory, leaves as before: everything but its SCB, IRQ, the storage keys' referenced bits, the
last answer, and the call-out it may make to its device. -/
structure LoadFrame (id : ScbId) (s t : State) : Prop where
  platform : KeepsPlatform s t
  pending : KeepsPending s t
  loading : t.loading = s.loading
  memory : KeepsMemory s t
  others : KeepsScbsBut id s t
  keys : KeepsReadKeys s t
  startIoAnswers : t.startIoAnswers = s.startIoAnswers
  haltIoAnswers : t.haltIoAnswers = s.haltIoAnswers

/-- The device at `a` was sent the command `op` by `start_command`, once, and no other call-out was made (spec/10_state.md
R31). -/
structure CalledStart (a : DevAddr) (op : Byte) (s t : State) : Prop where
  callOuts : t.callOuts = s.callOuts ++ [CallOut.startCommand a op]
  commandAnswers : t.commandAnswers = s.commandAnswers.tail
  startIoAnswers : t.startIoAnswers = s.startIoAnswers
  haltIoAnswers : t.haltIoAnswers = s.haltIoAnswers
  draws : t.draws = if s.commandAnswers = [] then s.draws + 1 else s.draws

/-! ## Memory -/

/-- The eight bytes of the CSW (spec/20_memory.md R61). -/
def inCsw (cfg : Config) (x : Nat) : Prop := cfg.cswAddr.toNat ≤ x ∧ x < cfg.cswAddr.toNat + 8

/-- The four bytes of the aligned word of an address (spec/20_memory.md R57). -/
def inWordOf (a : Addr) (x : Nat) : Prop := a.toNat / 4 * 4 ≤ x ∧ x < a.toNat / 4 * 4 + 4

/-- The CSW holds `w0` and `w1`, its page is marked referenced and changed, and the rest of memory and of the storage keys is as
before (spec/20_memory.md R56, R61). -/
structure StoresCsw (w0 w1 : Word) (s t : State) : Prop where
  first : t.wordAt s.cfg.cswAddr = w0
  second : t.wordAt (s.cfg.cswAddr + 4) = w1
  memory : KeepsMemoryBut (inCsw s.cfg) s t
  keys : ∀ p, t.keyAt p = if p = pageOf s.cfg.cswAddr then s.keyAt p ||| 0x06 else s.keyAt p

/-- The eight bytes at an address. -/
def eightBytes (s : State) (a : Addr) : List Byte :=
  [s.byteAt a.toNat, s.byteAt (a.toNat + 1), s.byteAt (a.toNat + 2), s.byteAt (a.toNat + 3), s.byteAt (a.toNat + 4),
   s.byteAt (a.toNat + 5), s.byteAt (a.toNat + 6), s.byteAt (a.toNat + 7)]

/-! ## The resolver -/

/-- The address selects the SCB number `k` of the channel of its top nibble (spec/40_resolver.md R100, R101). -/
def Selects (cfg : Config) (a : DevAddr) (k : Nat) : Prop :=
  ∃ id, findSubchannel cfg a = some id ∧ id.chan.val = a.toNat / 256 ∧ id.sub.val = k

/-! ## CCW loads -/

/-- `i` is a CCW with the fields `f` and a command for the device: WRITE, READ, CONTROL, SENSE or READ BACKWARD
(spec/30_encoding.md R77). -/
def CommandCcw (i : Instr) (f : CcwFields) : Prop :=
  i = .ccwWrite f ∨ i = .ccwRead f ∨ i = .ccwControl f ∨ i = .ccwSense f ∨ i = .ccwRdbwd f

/-- `i` is any channel command word. -/
def ChannelCcw (i : Instr) : Prop := i.source = .channel

/-- The second word of the CCW at `caw` and, with IDA, the first IDAW can be read, the count is not 0 and the reserved bits
pass: steps 6 and 7 succeed (spec/41_ccw_loader.md R119, R122). -/
structure FieldsLoad (s : State) (key : BitVec 4) (second : Addr) (f : CcwFields) : Prop where
  second : accessFault s key second false = none
  count : f.count ≠ 0
  reserved : s.cfg.reservedFlagCheck = true → f.flags.extractLsb' 0 2 = 0
  idaw : (flagsOfByte f.flags).ida = true → s.cfg.idaFeature = true → accessFault s key f.data false = none

/-- The flags a CCW installs: its own, SLI inherited along a data chain, IDA dropped without the feature
(spec/41_ccw_loader.md R120, R122). -/
def loadedFlags (cfg : Config) (prev : CcwFlags) (f : CcwFields) : CcwFlags :=
  { flagsOfByte f.flags with
    sli := (flagsOfByte f.flags).sli || (prev.cd && prev.sli)
    ida := (flagsOfByte f.flags).ida && cfg.idaFeature }

/-- An SCB whose fetch address was at the second word of the CCW `f`, after steps 5 to 7: address, count, flags, fetch address,
first indirect cursor and register tags (spec/41_ccw_loader.md R118, R119, R120, R122). -/
def loadedScb (s : State) (second : Addr) (f : CcwFields) (b : Scb) : Scb :=
  { b with
    addr := f.data
    count := f.count
    flags := loadedFlags s.cfg b.flags f
    caw := second + 4
    iaddr := if (loadedFlags s.cfg b.flags f).ida then (s.wordAt f.data).extractLsb' 0 24 else b.iaddr
    boff := none
    dirty := false
    chend := false }

/-- Step 9 on an SCB: PCI raised if PCIF is set, and PCIF cleared (spec/41_ccw_loader.md R127). -/
def pciRaised (b : Scb) : Scb :=
  if b.flags.pcif then { b with status := b.status ||| stPCI, flags := { b.flags with pcif := false } } else b

/-- Steps 8 and 9 on an SCB whose device answered `st` with neither busy nor error: the answer merged, and with channel end
the command cleared and SLI forced (spec/41_ccw_loader.md R123, R126, R127). -/
def commandAccepted (st : Byte) (b : Scb) : Scb :=
  let b := { b with status := b.status ||| deviceByte st }
  pciRaised (if anyBits st dvCE then { b with cmd := 0, flags := { b.flags with sli := true } } else b)

/-- Whether an accepted command raises IRQ: channel end together with device end, or PCIF (R126, R127). -/
def acceptedRaisesIrq (st : Byte) (flags : CcwFlags) : Bool := (anyBits st dvCE && anyBits st dvDE) || flags.pcif

/-- A device answer with neither busy nor an error-class bit. -/
def accepts (st : Byte) : Bool := !anyBits st dvBUSY && !anyBits st errClass

/-- `chan_fault` on an SCB: the bit and CE set, the program ended, the register's bytes discarded (spec/41_ccw_loader.md R112). -/
def faultedScb (bit : Half) (b : Scb) : Scb :=
  { b with
    status := b.status ||| bit ||| stCE
    cmd := 0
    flags := { b.flags with cd := false, cc := false }
    chainHeld := false
    boff := none
    dirty := false }

/-! ## Transfers -/

/-- `a` owns the SCB `id`, whose command transfers in direction `dir` and which has no channel error: the preamble of a transfer
succeeds (spec/42_transfer.md R140). -/
structure Transfers (dir : Direction) (a : DevAddr) (id : ScbId) (s : State) : Prop where
  found : findSubchannel s.cfg a = some id
  bound : (s.scb id).dev = some a
  noError : anyBits (s.scb id).status chanErr = false
  direction : matchesDirection dir (s.scb id).cmd = true

/-- The word the register holds once it is filled (spec/42_transfer.md R148, R150). -/
def registerWord (s : State) (b : Scb) : Word := if b.boff = none then s.wordAt b.position else b.buf

/-- The offset of the register's current byte once it is filled (R142, R148). -/
def registerOffset (b : Scb) : BitVec 2 := b.boff.getD (b.position.extractLsb' 0 2)

/-- The offset is that of the register's last byte: 3 forward, 0 for READ BACKWARD (R143). -/
def lastOffset (cmd : Byte) (k : BitVec 2) : Bool := if isBackward cmd then k == 0 else k == 3

/-- The register's tag after the byte at offset `k` (R143). -/
def nextOffset (cmd : Byte) (k : BitVec 2) : Option (BitVec 2) :=
  if lastOffset cmd k then none else if isBackward cmd then some (k - 1) else some (k + 1)

/-- The position moved by one byte and one byte counted: with IDA the cursor moves, else the data address; READ BACKWARD moves
down (R143, R154). -/
def movedScb (b : Scb) : Scb :=
  { b with
    addr := if b.flags.ida then b.addr else if isBackward b.cmd then b.addr - 1 else b.addr + 1
    iaddr := if b.flags.ida then (if isBackward b.cmd then b.iaddr - 1 else b.iaddr + 1) else b.iaddr
    count := b.count - 1 }

/-- This byte is the last of a CCW that chains data (R158). -/
def lastOfDataChain (b : Scb) : Prop := b.count = 1 ∧ b.flags.cd = true

/-- After this byte the indirect cursor enters another page while bytes remain (R155, R156). -/
def needsNextIdaw (b : Scb) : Prop := b.crosses = true ∧ 1 < b.count.toNat

/-- The register once the byte `x` has taken its place in it (R151). -/
def storedWord (s : State) (b : Scb) (x : Byte) : Word := setWordByte (registerWord s b) (registerOffset b) x

/-- The fault of the flush of a dirty register in the word of the position, if the register is dirty and the word may not be
written (R152). -/
def flushFault (s : State) (b : Scb) : Option MemFault :=
  if b.dirty then accessFault s b.key b.position true else none

/-- A dirty register that can be stored in the word of the position (R152). -/
def flushes (s : State) (b : Scb) : Prop := b.dirty = true ∧ accessFault s b.key b.position true = none

/-- The SCB after the flush of a dirty register: clean, or with the fault recorded and the register's bytes lost (R152;
spec/43_status.md R171; spec/44_io_instructions.md R218). -/
def flushedScb (s : State) (b : Scb) : Scb :=
  match flushFault s b with
  | some e => faultedScb e.bit b
  | none => { b with dirty := false }

/-- The SCB of `t` is `b`, which has just entered another page, with the next IDAW taken: the pointer on by 4, the cursor on the
IDAW's page with its low 11 bits kept; or the fault of that IDAW recorded (R155, R156). The IDAW is that of `t`'s memory, and `s`
is the state before the byte. -/
structure TakesNextIdaw (id : ScbId) (b : Scb) (s t : State) : Prop where
  taken : accessFault s b.key (b.addr + 4) false = none →
    t.irq = s.irq ∧ ∃ cursor : Addr, t.scb id = { b with addr := b.addr + 4, iaddr := cursor } ∧
      pageOf cursor = pageOf ((t.wordAt (b.addr + 4)).extractLsb' 0 24) ∧
      cursor.toNat % 2048 = b.iaddr.toNat % 2048 ∧ b.iaddr.toNat % 2048 = (if isBackward b.cmd then 2047 else 0)
  faulted : ∀ e, accessFault s b.key (b.addr + 4) false = some e →
    t.irq = true ∧ t.scb id = faultedScb e.bit { b with addr := b.addr + 4 }

/-! ## The scan -/

/-- A chain to continue: held, or an ended command with CC and no channel error (spec/43_status.md R186, R187). -/
def chaining (b : Scb) : Prop :=
  b.chainHeld = true ∨ (b.status &&& stCE ≠ 0 ∧ b.cmd = 0 ∧ b.flags.cc = true ∧ b.status &&& chanErr = 0)

/-- A chain that the scan continues: its device end is there (spec/43_status.md R186, R187). -/
def continues (b : Scb) : Prop := b.dev ≠ none ∧ chaining b ∧ b.status &&& stDE ≠ 0

/-- A completed program: channel end, the command ended, no chain to continue (spec/43_status.md R187, R188). -/
def completed (b : Scb) : Prop :=
  b.status &&& stCE ≠ 0 ∧ b.cmd = 0 ∧ b.chainHeld = false ∧ (b.flags.cc = false ∨ b.status &&& chanErr ≠ 0)

/-- A PCI of the device `a` on channel `c` may be delivered: enabled, its channel unmasked, and no boot-load of another device
(spec/43_status.md R185, R190). -/
def pciEnabled (s : State) (mask : Half) (enabled : Bool) (a : DevAddr) (c : Fin 16) : Prop :=
  enabled = true ∧ maskBit s.cfg mask c = true ∧ (s.loading = none ∨ s.loading = some a)

/-- A completed program of the device `a` on channel `c` may be delivered: during a boot-load the loading device's alone, whatever
the enable and the mask (spec/43_status.md R188, R190). -/
def completionEnabled (s : State) (mask : Half) (enabled : Bool) (a : DevAddr) (c : Fin 16) : Prop :=
  match s.loading with
  | some l => a = l
  | none => enabled = true ∧ maskBit s.cfg mask c = true

/-- The scan delivers a condition of this SCB if it comes to it: a PCI or a completed program that neither the enable, nor the mask,
nor a boot-load holds back (spec/43_status.md R185, R188; spec/60_exceptions.md R241). -/
def deliverable (s : State) (mask : Half) (enabled : Bool) (id : ScbId) : Prop :=
  ∃ a, (s.scb id).dev = some a ∧
    ((s.scb id).status &&& stPCI ≠ 0 ∧ pciEnabled s mask enabled a id.chan ∨
      completed (s.scb id) ∧ completionEnabled s mask enabled a id.chan)

/-- What a scan that has passed by the SCBs `ids`, delivering nothing, leaves as before: with no chain that continues among them
everything but IRQ; else everything but IRQ, the SCBs of those chains, the storage keys' referenced bits, and the call-outs of
their loads (spec/43_status.md R185, R186, R187; spec/60_exceptions.md R245). -/
structure PassesBy (ids : List ScbId) (s t : State) : Prop where
  platform : KeepsPlatform s t
  pending : KeepsPending s t
  loading : t.loading = s.loading
  memory : KeepsMemory s t
  keys : KeepsReadKeys s t
  startIoAnswers : t.startIoAnswers = s.startIoAnswers
  haltIoAnswers : t.haltIoAnswers = s.haltIoAnswers
  scbs : ∀ j, (j ∉ ids ∨ ¬ continues (s.scb j)) → t.scb j = s.scb j
  quiet : (∀ j ∈ ids, ¬ continues (s.scb j)) → { t with irq := s.irq } = s

/-! ## The CPU's instructions -/

/-- The instruction's second byte is accepted (spec/30_encoding.md R70). -/
def acceptsI2 (s : State) (i2 : Byte) : Prop := s.cfg.ignoreI2 = true ∨ i2 = 0

/-- SCB and device of an address are both there (spec/44_io_instructions.md R201). -/
def Resolves (s : State) (a : DevAddr) (id : ScbId) (dev : Binding) : Prop :=
  findSubchannel s.cfg a = some id ∧ findDevice s.cfg a = some dev

/-- Error-class status: attention, unit check or unit exception, or a channel error bit (spec/44_io_instructions.md R210). -/
def hasErrorStatus (b : Scb) : Prop := b.status &&& 0x833F ≠ 0

/-- A program is running or held (spec/10_state.md R29). -/
def running (b : Scb) : Prop := b.cmd ≠ 0 ∨ b.chainHeld = true

/-- The SCB a start binds: prior status cleared, key and fetch address from the CAW (spec/44_io_instructions.md R206). -/
def boundScb (a : DevAddr) (dev : Binding) (key : BitVec 4) (caw : Addr) (b : Scb) : Scb :=
  { dev := some a, bind := some dev, caw := caw, key := key, addr := b.addr, iaddr := b.iaddr, buf := b.buf }

/-- The SCB freed: its last program's address, count, key, buffer and status stay (spec/43_status.md R184). -/
def freedScb (b : Scb) : Scb :=
  { caw := b.caw, addr := b.addr, iaddr := b.iaddr, count := b.count, key := b.key, buf := b.buf, status := b.status }

/-! ## Invariants -/

/-- The four sparse maps are in canonical form. -/
def CanonicalForm (s : State) : Prop :=
  Memory.wf s.mem = true ∧ mapWf 0 s.skey = true ∧ mapWf 0 s.pend = true ∧ mapWf idleScb s.scbs = true

/-- An SCB bound to no device has no binding and is idle; one bound to a device is the one its address selects and holds that
device's binding (spec/10_state.md R28; spec/40_resolver.md R101, R104). -/
def BindingOk (cfg : Config) (id : ScbId) (b : Scb) : Prop :=
  (b.dev = none → b.bind = none ∧ b.cmd = 0 ∧ b.chainHeld = false) ∧
  (∀ a, b.dev = some a → findSubchannel cfg a = some id ∧ (findDevice cfg a).isSome = true ∧ b.bind = findDevice cfg a)

/-- Every SCB's binding is right. -/
def BindingsOk (s : State) : Prop := ∀ id, BindingOk s.cfg id (s.scb id)

/-- The buffered data register of an SCB: a dirty one is not tagged empty and belongs to an input command or an ended one; while
a command is active its offset is that of the position, and with SKIP an input command leaves it empty (spec/10_state.md R26,
R30; spec/42_transfer.md R142, R147). -/
def RegisterOk (b : Scb) : Prop :=
  (b.dirty = true → b.boff ≠ none ∧ (isInput b.cmd = true ∨ b.cmd = 0)) ∧
  (b.cmd ≠ 0 → ∀ k, b.boff = some k → k = b.position.extractLsb' 0 2) ∧
  (b.flags.skip = true → isInput b.cmd = true → b.boff = none)

/-- Every SCB's register is right. -/
def RegistersOk (s : State) : Prop := ∀ id, RegisterOk (s.scb id)

/-- A pending status is flagged for its channel, and a flagged channel keeps IRQ set (spec/10_state.md R32;
spec/43_status.md R191). -/
def PendingVisible (s : State) : Prop :=
  (∀ a, s.pendAt a ≠ 0 → s.chpendAt (chanOf a) = true) ∧ (s.chpend ≠ 0 → s.irq = true)

/-- An undelivered PCI of a bound SCB keeps IRQ set (spec/43_status.md R191). -/
def PciVisible (s : State) : Prop :=
  ∀ id, (s.scb id).dev ≠ none → anyBits (s.scb id).status stPCI = true → s.irq = true

end Sys2Proof.Machine
end

