-- ==== Sys2Proof/Certificates/Slice0/Obligations.lean ====
section
/-! DEFINITION. The statements for the provers. Each docstring names the rules of spec/ it formalises; "log n" is the assumption
log, where a clause is the model's own choice. -/

open Sys2Proof Sys2Proof.Machine

/-! ## Decoding and encoding -/

/-- Decoding the bytes of a well-formed instruction, with any bytes after them, gives the instruction back, with every field at
every value (30_encoding.md R70, R74, R78, R85). -/
def Obligations.DecodeEncodeAgree : Prop :=
  ∀ (i : Instr) (rest : List Byte), i.wellFormed = true → decode i.source (encodeBytes i ++ rest) = .ok i

/-- What the decoder accepts is well formed, belongs to the stream it was read from, and its encoding is the bytes it was read
from: each byte string has one meaning (30_encoding.md R70, R74, R85, R87). -/
def Obligations.EncodeDecodeAgree : Prop :=
  ∀ (src : Source) (bs : List Byte) (i : Instr), decode src bs = .ok i →
    i.wellFormed = true ∧ i.source = src ∧ encodeBytes i = bs.take (match src with | .cpu => 4 | .channel => 8) ∧
    (encodeBytes i).length = (match src with | .cpu => 4 | .channel => 8)

/-- Words written out from the encodings of 30_encoding.md R70, R71, R74, R77, R78, as memory holds their bytes (R57). -/
def Obligations.WrittenWordsDecode : Prop :=
  decode .cpu [0x9C, 0x00, 0x10, 0x0C] = .ok (.sio 0x00 1 0x00C) ∧
  decode .cpu [0x9D, 0x00, 0x00, 0x0C] = .ok (.tio 0x00 0 0x00C) ∧
  decode .cpu [0x9E, 0x5A, 0xF1, 0x23] = .ok (.hio 0x5A 15 0x123) ∧
  decode .cpu [0x9F, 0x00, 0x21, 0x00] = .ok (.tch 0x00 2 0x100) ∧
  decode .channel [0x01, 0x00, 0x10, 0x00, 0x00, 0x00, 0x00, 0x04] =
    .ok (.ccwWrite { cmd := 0x01, data := 0x001000, flags := 0x00, unused := 0x00, count := 4 }) ∧
  decode .channel [0x02, 0x00, 0x10, 0x00, 0x60, 0x00, 0x00, 0x18] =
    .ok (.ccwRead { cmd := 0x02, data := 0x001000, flags := 0x60, unused := 0x00, count := 24 }) ∧
  decode .channel [0x1B, 0x00, 0x00, 0x05, 0x40, 0xFF, 0x00, 0x01] =
    .ok (.ccwControl { cmd := 0x1B, data := 0x000005, flags := 0x40, unused := 0xFF, count := 1 }) ∧
  decode .channel [0xE4, 0x00, 0x30, 0x00, 0x20, 0x00, 0x00, 0x06] =
    .ok (.ccwSense { cmd := 0xE4, data := 0x003000, flags := 0x20, unused := 0x00, count := 6 }) ∧
  decode .channel [0x08, 0x00, 0x02, 0x00, 0x12, 0x34, 0x56, 0x78] = .ok (.ccwTic 0x08 0x000200 0x12345678) ∧
  decode .channel [0x0C, 0x00, 0x40, 0x03, 0x00, 0x00, 0x00, 0x04] =
    .ok (.ccwRdbwd { cmd := 0x0C, data := 0x004003, flags := 0x00, unused := 0x00, count := 4 }) ∧
  decode .channel [0x00, 0x00, 0x10, 0x00, 0x00, 0x00, 0x00, 0x08] =
    .ok (.ccwInvalid { cmd := 0x00, data := 0x001000, flags := 0x00, unused := 0x00, count := 8 })

/-- Opcodes 0x9C to 0x9F are SIO, TIO, HIO and TCH with I2, B1 and D1 from their fields; any other opcode is refused by the step
that meets it (30_encoding.md R70, R71). -/
def Obligations.ChannelControlOpcodes : Prop :=
  ∀ (op i2 : Byte) (b1 : BitVec 4) (d1 : BitVec 12),
    (op = 0x9C → decodeCpu (op ++ i2 ++ b1 ++ d1) = .ok (.sio i2 b1 d1)) ∧
    (op = 0x9D → decodeCpu (op ++ i2 ++ b1 ++ d1) = .ok (.tio i2 b1 d1)) ∧
    (op = 0x9E → decodeCpu (op ++ i2 ++ b1 ++ d1) = .ok (.hio i2 b1 d1)) ∧
    (op = 0x9F → decodeCpu (op ++ i2 ++ b1 ++ d1) = .ok (.tch i2 b1 d1)) ∧
    (¬ (op = 0x9C ∨ op = 0x9D ∨ op = 0x9E ∨ op = 0x9F) → ∀ (s : State) (rest : List Request),
      configWf s.cfg = true → s.requests = .instruction (op ++ i2 ++ b1 ++ d1) :: rest →
      step s = .refused (.notChannelControl op))

/-- The classes of command codes by their bit patterns, their directions and address steps (30_encoding.md R77). -/
def Obligations.CommandCodeClasses : Prop :=
  ∀ op : Byte,
    (classOf op = .invalid ↔ op &&& 0x0F = 0x00) ∧ (classOf op = .tic ↔ op &&& 0x0F = 0x08) ∧
    (classOf op = .write ↔ op &&& 0x03 = 0x01) ∧ (classOf op = .read ↔ op &&& 0x03 = 0x02) ∧
    (classOf op = .control ↔ op &&& 0x03 = 0x03) ∧ (classOf op = .sense ↔ op &&& 0x0F = 0x04) ∧
    (classOf op = .rdbwd ↔ op &&& 0x0F = 0x0C) ∧
    (isOutput op = true ↔ classOf op = .write ∨ classOf op = .control) ∧
    (isInput op = true ↔ classOf op = .read ∨ classOf op = .sense ∨ classOf op = .rdbwd) ∧
    (isBackward op = true ↔ classOf op = .rdbwd)

/-! ## Memory -/

/-- An access faults with an addressing error exactly when it lies at or beyond the memory size, and otherwise with a protection
error exactly when the key is not 0, the feature is present, the page's access key differs and, for a read, the page is
fetch-protected (20_memory.md R50, R51, R53, R54). -/
def Obligations.AccessFaultsExactlyWhen : Prop :=
  ∀ (s : State) (key : BitVec 4) (a : Addr) (isWrite : Bool), configWf s.cfg = true →
    (accessFault s key a isWrite = some .addressing ↔ s.cfg.memSize ≤ a.toNat) ∧
    (accessFault s key a isWrite = some .protection ↔
      a.toNat < s.cfg.memSize ∧ key ≠ 0 ∧ s.cfg.protFeature = true ∧
      (s.keyAt (a.toNat / 2048)).extractLsb' 4 4 ≠ key ∧
      (isWrite = true ∨ (s.keyAt (a.toNat / 2048)).getLsbD 3 = true))

/-- Memory words are big-endian. A read that does not fault answers the four bytes of the aligned word, the lowest address in bits
31 to 24, marks the page referenced and changes nothing else; a write that does not fault stores the word's four bytes the same
way, marks the page referenced and changed, and changes nothing else; an access that faults answers the fault
(20_memory.md R50, R56, R57, R58, R62). -/
def Obligations.MemoryWordsAreBigEndian : Prop :=
  ∀ (s : State) (key : BitVec 4) (a : Addr) (b0 b1 b2 b3 : Byte),
    (accessFault s key a false = none →
      ∃ w t, readWord s key a = .ok (w, t) ∧
        w = s.byteAt (a.toNat / 4 * 4) ++ s.byteAt (a.toNat / 4 * 4 + 1) ++ s.byteAt (a.toNat / 4 * 4 + 2) ++
          s.byteAt (a.toNat / 4 * 4 + 3) ∧
        (∀ p, t.keyAt p = if p = a.toNat / 2048 then s.keyAt p ||| 0x04 else s.keyAt p) ∧
        { t with skey := s.skey } = s) ∧
    (accessFault s key a true = none →
      ∃ t, writeWord s key a (b0 ++ b1 ++ b2 ++ b3) = .ok t ∧
        t.byteAt (a.toNat / 4 * 4) = b0 ∧ t.byteAt (a.toNat / 4 * 4 + 1) = b1 ∧
        t.byteAt (a.toNat / 4 * 4 + 2) = b2 ∧ t.byteAt (a.toNat / 4 * 4 + 3) = b3 ∧
        KeepsMemoryBut (inWordOf a) s t ∧
        (∀ p, t.keyAt p = if p = a.toNat / 2048 then s.keyAt p ||| 0x06 else s.keyAt p) ∧
        { t with skey := s.skey, mem := s.mem } = s) ∧
    (∀ e, accessFault s key a false = some e → readWord s key a = .error e) ∧
    (∀ e, accessFault s key a true = some e → writeWord s key a (b0 ++ b1 ++ b2 ++ b3) = .error e)

/-! ## The step -/

/-- A step with a CPU instruction word next runs exec of the instruction the word decodes to, at the state with that request
taken (10_state.md R20; 30_encoding.md R70; log 5). -/
def Obligations.StepRunsCpuInstruction : Prop :=
  ∀ (s : State) (w : Word) (rest : List Request) (i : Instr), configWf s.cfg = true →
    s.requests = .instruction w :: rest → decode .cpu (bytesOfWord w) = .ok i →
    step s = exec i { s with requests := rest }

/-- A step with a CCW load of a bound SCB next, its chain not held, its fetch address aligned, no error bit set and the CCW's
first word readable, runs exec of the instruction the eight bytes there decode to, at the state with the request taken, the
load's arguments in `loader`, the status-modifier skip made and the page marked referenced (41_ccw_loader.md R114, R115, R116,
R117; 30_encoding.md R74; log 9, log 10). -/
def Obligations.StepRunsFetchedCcw : Prop :=
  ∀ (s : State) (id : ScbId) (ticAllowed : Bool) (rest : List Request) (i : Instr) (caw : Addr), configWf s.cfg = true →
    s.requests = .loadCcw id ticAllowed :: rest → (s.scb id).dev ≠ none → (s.scb id).chainHeld = false →
    (s.scb id).caw.toNat % 8 = 0 → anyBits (s.scb id).status chanErr = false →
    caw = (if (s.scb id).status &&& stSM ≠ 0 then (s.scb id).caw + 8 else (s.scb id).caw) →
    accessFault s (s.scb id).key caw false = none → decode .channel (eightBytes s caw) = .ok i →
    ∃ u, step s = exec i u ∧ u.requests = rest ∧ u.loader = { id := id, ticAllowed := ticAllowed } ∧
      u.scb id = { s.scb id with caw := caw, status := (s.scb id).status &&& ~~~stSM } ∧
      (∀ p, u.keyAt p = if p = caw.toNat / 2048 then s.keyAt p ||| 0x04 else s.keyAt p) ∧
      { u with requests := s.requests, loader := s.loader, skey := s.skey, scbs := s.scbs } = s ∧ KeepsScbsBut id s u

/-- A load that cannot fetch runs no instruction: a misaligned fetch address is a program check, an error bit already set aborts
with nothing changed, a first word that cannot be read is a fault, with the status-modifier skip made and its bit cleared where it
was set; each ends the load (41_ccw_loader.md R114, R115, R116, R117; 20_memory.md R65). That a load is requested on its own, with no
flush of a dirty register before it, is the model's choice (log 9). -/
def Obligations.FailedFetchEndsTheLoad : Prop :=
  ∀ (s : State) (id : ScbId) (ticAllowed : Bool) (rest : List Request) (b : Scb), configWf s.cfg = true →
    s.requests = .loadCcw id ticAllowed :: rest → b = s.scb id → b.dev ≠ none → b.chainHeld = false →
    (b.caw.toNat % 8 ≠ 0 →
      ∃ t, step s = .next t ∧ t.result = .load (.fail .check) ∧ t.irq = true ∧
        t.scb id = faultedScb stPROG b ∧ KeepsScbsBut id s t ∧ KeepsMemory s t ∧ KeepsKeys s t ∧
        KeepsCalls s t) ∧
    (b.caw.toNat % 8 = 0 → anyBits b.status chanErr = true →
      step s = .next { s with requests := rest, loader := { id := id, ticAllowed := ticAllowed },
                              result := .load (.fail .abort) }) ∧
    (b.caw.toNat % 8 = 0 → anyBits b.status chanErr = false →
      ∀ caw e, caw = (if b.status &&& stSM ≠ 0 then b.caw + 8 else b.caw) → accessFault s b.key caw false = some e →
        ∃ t, step s = .next t ∧ t.result = .load (.fail .check) ∧ t.irq = true ∧
          t.scb id = faultedScb e.bit { b with caw := caw, status := b.status &&& ~~~stSM } ∧ KeepsScbsBut id s t ∧
          KeepsMemory s t ∧ KeepsKeys s t ∧ KeepsCalls s t)

/-- A step with an operation of an agent next is that operation, whole, with its answer; with no request the block does nothing;
a configuration outside the limits is refused (10_state.md R20; 70_reset_and_hazards.md R261; log 5, log 13). -/
def Obligations.StepRunsAgentOperation : Prop :=
  ∀ (s : State) (rest : List Request),
    (configWf s.cfg = false → step s = .refused .configuration) ∧
    (configWf s.cfg = true → s.requests = [] → step s = .next s) ∧
    (configWf s.cfg = true → ∀ u, u = { s with requests := rest } →
      (∀ a, s.requests = .readByte a :: rest → step s = .next ((readByte a u).1.answer (readByte a u).2)) ∧
      (∀ a b, s.requests = .writeByte a b :: rest → step s = .next ((writeByte a b u).1.answer (writeByte a b u).2)) ∧
      (∀ a fl, s.requests = .channelEnd a fl :: rest → step s = .next ((channelEnd a fl u).answer .nothing)) ∧
      (∀ a fl, s.requests = .postAttention a fl :: rest → step s = .next ((postAttention a fl u).answer .nothing)) ∧
      (∀ m e, s.requests = .scan m e :: rest → step s = .next ((scan m e u).1.answer (.address (scan m e u).2))) ∧
      (∀ a c, s.requests = .bootStart a c :: rest →
        step s = .next ((bootStart a c u).1.answer (.cc (bootStart a c u).2))) ∧
      (s.requests = .endBoot :: rest → step s = .next ({ u with loading := none }.answer .nothing)))

/-- The only fault is a CCW load of an SCB bound to no device (41_ccw_loader.md R110, its operands; 60_exceptions.md R230;
log 9): the step's fault is the model's choice. -/
def Obligations.StepFaultsOnlyOnUnboundLoad : Prop :=
  ∀ (s : State) (f : Fault), configWf s.cfg = true →
    (step s = .fault f ↔
      ∃ id ticAllowed rest, s.requests = .loadCcw id ticAllowed :: rest ∧ (s.scb id).dev = none)

/-! ## Recording a fault, and the loads of CCWs -/

/-- `chan_fault` sets the fault's bit and CE, clears command, chaining, held mark and register, and raises IRQ
(41_ccw_loader.md R112). -/
def Obligations.ChannelFaultRecorded : Prop :=
  ∀ (s : State) (id : ScbId) (bit : Half),
    (chanFault id bit s).scb id = faultedScb bit (s.scb id) ∧ (chanFault id bit s).irq = true ∧
    KeepsOutside s (chanFault id bit s) ∧ KeepsScbsBut id s (chanFault id bit s) ∧ KeepsKeys s (chanFault id bit s)

/-- WRITE, READ, CONTROL, SENSE and READ BACKWARD as a new command complete: with fields that load and a device that answers
neither busy nor an error, the command is adopted, the fields installed, the device called once with the command code, its
answer merged (channel end ends the command at once), PCI raised, and the load answers Ok (41_ccw_loader.md R118, R119, R120,
R122, R123, R126, R127). -/
def Obligations.NewCommandStarts : Prop :=
  ∀ (s : State) (i : Instr) (f : CcwFields) (a : DevAddr) (id : ScbId) (b : Scb) (st : Byte), CommandCcw i f →
    id = s.loader.id → b = s.scb id → b.dev = some a → (findDevice s.cfg a).isSome = true → b.flags.cd = false →
    FieldsLoad s b.key (b.caw + 4) f → st = (startCommand a f.cmd s).1 → accepts st = true →
    ∃ t, exec i s = .next t ∧ t.result = .load .ok ∧
      t.scb id = commandAccepted st (loadedScb s (b.caw + 4) f { b with cmd := f.cmd }) ∧
      t.irq = (s.irq || acceptedRaisesIrq st (loadedFlags s.cfg b.flags f)) ∧
      CalledStart a f.cmd s t ∧ LoadFrame id s t ∧
      (∀ p, t.keyAt p =
        if p = pageOf (b.caw + 4) ∨ (p = pageOf f.data ∧ (loadedFlags s.cfg b.flags f).ida = true)
        then s.keyAt p ||| 0x04 else s.keyAt p)

/-- A device may turn a new command away. Busy holds the chain if the CCW left had CC, and fails the load otherwise; IRQ stays as it
was and no PCI is raised, though the CCW has PCIF: that clause is the model's choice, the pseudocode of R124 against the prose of
R127 (log 21). An error class (and not busy) ends the program, channel end set, chaining and command cleared, IRQ raised, and fails
the load. The answer is merged into the device byte in each case (41_ccw_loader.md R123, R124, R125). -/
def Obligations.DeviceMayTurnACommandAway : Prop :=
  ∀ (s : State) (i : Instr) (f : CcwFields) (a : DevAddr) (id : ScbId) (b l : Scb) (st : Byte), CommandCcw i f →
    id = s.loader.id → b = s.scb id → b.dev = some a → (findDevice s.cfg a).isSome = true → b.flags.cd = false →
    FieldsLoad s b.key (b.caw + 4) f → st = (startCommand a f.cmd s).1 → accepts st = false →
    l = loadedScb s (b.caw + 4) f { b with cmd := f.cmd } →
    ∃ t, exec i s = .next t ∧ CalledStart a f.cmd s t ∧ LoadFrame id s t ∧
      (st &&& dvBUSY ≠ 0 → b.flags.cc = true → t.irq = s.irq ∧ t.result = .load .ok ∧
        t.scb id = { l with status := l.status ||| deviceByte st, chainHeld := true }) ∧
      (st &&& dvBUSY ≠ 0 → b.flags.cc = false → t.irq = s.irq ∧ t.result = .load (.fail .busy) ∧
        t.scb id = { l with status := l.status ||| deviceByte st, cmd := 0 }) ∧
      (st &&& dvBUSY = 0 → t.irq = true ∧ t.result = .load (.fail .devError) ∧
        t.scb id = { l with status := l.status ||| deviceByte st ||| stCE, cmd := 0,
                            flags := { l.flags with cd := false, cc := false } })

/-- A CCW that continues a data chain, of any class but TIC, completes: it installs address, count and flags, keeps the command,
inherits SLI, calls no device, and raises PCI (41_ccw_loader.md R120, R122, R127, R136, R137; 30_encoding.md R84). -/
def Obligations.DataChainedCcwKeepsCommand : Prop :=
  ∀ (s : State) (i : Instr) (f : CcwFields) (id : ScbId) (b : Scb), CommandCcw i f ∨ i = .ccwInvalid f →
    id = s.loader.id → b = s.scb id → b.dev ≠ none → b.flags.cd = true → FieldsLoad s b.key (b.caw + 4) f →
    ∃ t, exec i s = .next t ∧ t.result = .load .ok ∧ t.scb id = pciRaised (loadedScb s (b.caw + 4) f b) ∧
      (t.scb id).cmd = b.cmd ∧ t.irq = (s.irq || (loadedFlags s.cfg b.flags f).pcif) ∧ KeepsCalls s t ∧
      LoadFrame id s t

/-- What ends a program at the load of a CCW, with the fetch address and count it leaves. A command code of class INVALID as a new
command is a program check. A second word that cannot be read is its fault; in one that can, a count of 0 is a program check, and
so are non-zero reserved bits where the option is on: the new flags and count are not installed. A first IDAW that cannot be read
is its fault, with all the CCW's fields installed but the indirect cursor. No device is called (41_ccw_loader.md R112, R118, R119,
R120, R122, R136; 20_memory.md R65; 60_exceptions.md R231). -/
def Obligations.MalformedCcwEndsTheProgram : Prop :=
  ∀ (s : State) (i : Instr) (f : CcwFields) (id : ScbId) (b l : Scb), id = s.loader.id → b = s.scb id → b.dev ≠ none →
    l = { b with caw := b.caw + 4, addr := f.data } →
    (b.flags.cd = false →
      ∃ t, exec (.ccwInvalid f) s = .next t ∧ t.result = .load (.fail .check) ∧ t.irq = true ∧
        t.scb id = faultedScb stPROG { b with caw := b.caw + 4 } ∧ KeepsCalls s t ∧ LoadFrame id s t ∧ KeepsKeys s t) ∧
    ((CommandCcw i f ∨ (i = .ccwInvalid f ∧ b.flags.cd = true)) →
      (∀ e, accessFault s b.key (b.caw + 4) false = some e →
        ∃ t, exec i s = .next t ∧ t.result = .load (.fail .check) ∧ t.irq = true ∧ t.scb id = faultedScb e.bit l ∧
          KeepsCalls s t ∧ LoadFrame id s t ∧ KeepsKeys s t) ∧
      (accessFault s b.key (b.caw + 4) false = none →
        (f.count = 0 ∨ (s.cfg.reservedFlagCheck = true ∧ f.flags.extractLsb' 0 2 ≠ 0)) →
        ∃ t, exec i s = .next t ∧ t.result = .load (.fail .check) ∧ t.irq = true ∧ t.scb id = faultedScb stPROG l ∧
          KeepsCalls s t ∧ LoadFrame id s t) ∧
      (accessFault s b.key (b.caw + 4) false = none → f.count ≠ 0 →
        (s.cfg.reservedFlagCheck = true → f.flags.extractLsb' 0 2 = 0) → (flagsOfByte f.flags).ida = true →
        s.cfg.idaFeature = true → ∀ e, accessFault s b.key f.data false = some e →
        ∃ t, exec i s = .next t ∧ t.result = .load (.fail .check) ∧ t.irq = true ∧ KeepsCalls s t ∧ LoadFrame id s t ∧
          t.scb id = faultedScb e.bit { loadedScb s (b.caw + 4) f b with iaddr := b.iaddr }))

/-- A TIC that is not allowed is a program check and calls no device; an allowed one whose target is a TIC, or misaligned,
likewise, with the fetch address at the target; a target whose first word cannot be read is its fault, at the same fetch address
(41_ccw_loader.md R112, R114, R117, R121, R130; 20_memory.md R65; 60_exceptions.md R231). -/
def Obligations.TicPlacementIsChecked : Prop :=
  ∀ (s : State) (cmd : Byte) (target : Addr) (second : Word) (id : ScbId) (b : Scb), id = s.loader.id → b = s.scb id →
    b.dev ≠ none →
    (s.loader.ticAllowed = false →
      ∃ t, exec (.ccwTic cmd target second) s = .next t ∧ t.result = .load (.fail .check) ∧ t.irq = true ∧
        t.scb id = faultedScb stPROG b ∧ KeepsCalls s t ∧ LoadFrame id s t ∧ KeepsKeys s t) ∧
    (s.loader.ticAllowed = true → target.toNat % 8 = 0 → anyBits b.status (chanErr ||| stSM) = false →
      accessFault s b.key target false = none → classOf (s.byteAt target.toNat) = .tic →
      ∃ t, exec (.ccwTic cmd target second) s = .next t ∧ t.result = .load (.fail .check) ∧ t.irq = true ∧
        t.scb id = faultedScb stPROG { b with caw := target } ∧ KeepsCalls s t ∧ LoadFrame id s t) ∧
    (s.loader.ticAllowed = true → target.toNat % 8 ≠ 0 →
      ∃ t, exec (.ccwTic cmd target second) s = .next t ∧ t.result = .load (.fail .check) ∧ t.irq = true ∧
        t.scb id = faultedScb stPROG { b with caw := target } ∧ KeepsCalls s t ∧ LoadFrame id s t ∧ KeepsKeys s t) ∧
    (s.loader.ticAllowed = true → target.toNat % 8 = 0 → anyBits b.status (chanErr ||| stSM) = false →
      ∀ e, accessFault s b.key target false = some e →
      ∃ t, exec (.ccwTic cmd target second) s = .next t ∧ t.result = .load (.fail .check) ∧ t.irq = true ∧
        t.scb id = faultedScb e.bit { b with caw := target } ∧ KeepsCalls s t ∧ LoadFrame id s t ∧ KeepsKeys s t)

/-- An allowed TIC redirects the fetch address and runs the CCW at its target, whatever its second word holds: the same step as
that CCW's own at the state with the fetch address redirected and the target's page marked referenced; flags, count and
addresses of the SCB are those before the TIC (41_ccw_loader.md R121, R130). -/
def Obligations.TicRunsItsTarget : Prop :=
  ∀ (s : State) (cmd : Byte) (target : Addr) (second : Word) (i : Instr) (id : ScbId) (b : Scb),
    id = s.loader.id → b = s.scb id → b.dev ≠ none → s.loader.ticAllowed = true → target.toNat % 8 = 0 →
    anyBits b.status (chanErr ||| stSM) = false → accessFault s b.key target false = none →
    decode .channel (eightBytes s target) = .ok i → classOf (s.byteAt target.toNat) ≠ .tic →
    ∃ u t, exec (.ccwTic cmd target second) s = exec i u ∧ exec i u = .next t ∧ u.scb id = { b with caw := target } ∧
      (∀ p, u.keyAt p = if p = target.toNat / 2048 then s.keyAt p ||| 0x04 else s.keyAt p) ∧
      { u with skey := s.skey, scbs := s.scbs } = s ∧ KeepsScbsBut id s u ∧ LoadFrame id s t

/-- An allowed TIC whose target is a new command for a device that accepts it completes, and starts that command: the fetch
address is then past the target's CCW (41_ccw_loader.md R118, R119, R120, R121, R123, R126, R127, R130). -/
def Obligations.TicStartsTheCommandAtItsTarget : Prop :=
  ∀ (s : State) (cmd : Byte) (target : Addr) (second : Word) (i : Instr) (f : CcwFields) (a : DevAddr) (id : ScbId)
    (b : Scb) (st : Byte), CommandCcw i f →
    id = s.loader.id → b = s.scb id → b.dev = some a → (findDevice s.cfg a).isSome = true → b.flags.cd = false →
    s.loader.ticAllowed = true → target.toNat % 8 = 0 → anyBits b.status (chanErr ||| stSM) = false →
    accessFault s b.key target false = none → decode .channel (eightBytes s target) = .ok i →
    FieldsLoad s b.key (target + 4) f → st = (startCommand a f.cmd s).1 → accepts st = true →
    ∃ t, exec (.ccwTic cmd target second) s = .next t ∧ t.result = .load .ok ∧
      t.scb id = commandAccepted st (loadedScb s (target + 4) f { b with cmd := f.cmd }) ∧
      t.irq = (s.irq || acceptedRaisesIrq st (loadedFlags s.cfg b.flags f)) ∧
      CalledStart a f.cmd s t ∧ LoadFrame id s t

/-- A held chain resumes without a fetch: the device is called again with the SCB's command, its old device byte cleared first; busy
again holds it again, an error class ends the program. The command is the one decoded when the chain was held, but command byte 0
where a device that breaks its contract has called `channel_end` for the held SCB (R274 (3), log 20). The model's choices: the load
is a step of its own, with no flush before it (log 9); the PCI of the held CCW is raised at the resume that is accepted, and a busy
answer keeps PCIF and raises nothing, against the prose of R127 (log 21) (41_ccw_loader.md R113, R123, R124, R125, R126, R127;
70_reset_and_hazards.md R274). -/
def Obligations.HeldChainResumes : Prop :=
  ∀ (s : State) (id : ScbId) (ticAllowed : Bool) (rest : List Request) (a : DevAddr) (b r : Scb) (st : Byte),
    configWf s.cfg = true → s.requests = .loadCcw id ticAllowed :: rest → b = s.scb id → b.dev = some a →
    b.chainHeld = true → (findDevice s.cfg a).isSome = true → st = (startCommand a b.cmd s).1 →
    r = { b with chainHeld := false, status := b.status &&& 0x00FF } →
    ∃ t, step s = .next t ∧ CalledStart a b.cmd s t ∧ KeepsScbsBut id s t ∧ KeepsMemory s t ∧ KeepsKeys s t ∧
      (st &&& dvBUSY ≠ 0 →
        t.result = .load .ok ∧ t.scb id = { b with status := r.status ||| deviceByte st } ∧ t.irq = s.irq) ∧
      (accepts st = true →
        t.result = .load .ok ∧ t.scb id = commandAccepted st r ∧ t.irq = (s.irq || acceptedRaisesIrq st b.flags)) ∧
      (st &&& dvBUSY = 0 → st &&& errClass ≠ 0 →
        t.result = .load (.fail .devError) ∧ t.irq = true ∧
        t.scb id = { r with status := r.status ||| deviceByte st ||| stCE, cmd := 0,
                            flags := { r.flags with cd := false, cc := false } })

/-- The frame of every channel command word: exec answers a next state for a bound SCB, and changes nothing but that SCB, IRQ,
the storage keys' referenced bits and the answer; memory is only read, so no changed bit is set; at most one device call is made, a
`start_command` (41_ccw_loader.md R110; 20_memory.md R56). -/
def Obligations.CcwChangesOnlyItsSubchannel : Prop :=
  ∀ (s : State) (i : Instr), ChannelCcw i → (s.scb s.loader.id).dev ≠ none →
    ∃ t r, exec i s = .next t ∧ t.result = .load r ∧ LoadFrame s.loader.id s t ∧
      (t.scb s.loader.id).dev = (s.scb s.loader.id).dev ∧ (t.scb s.loader.id).bind = (s.scb s.loader.id).bind ∧
      (t.scb s.loader.id).key = (s.scb s.loader.id).key ∧ (t.scb s.loader.id).buf = (s.scb s.loader.id).buf ∧
      (s.irq = true → t.irq = true) ∧
      (KeepsCalls s t ∨ ∃ a op, (s.scb s.loader.id).dev = some a ∧ CalledStart a op s t)

/-! ## Byte transfers -/

/-- A transfer for an address with no SCB, one the SCB is not bound to, an SCB with an error bit or a command of the other
direction is Done and changes no state. A byte asked for or offered when the count is 0 and the CCW does not chain data is Done
too: channel end, incorrect length unless SLI, the chain-ended tag, and nothing else changes (42_transfer.md R140, R144, R145). -/
def Obligations.TransferThatMovesNoByte : Prop :=
  ∀ (s : State) (a : DevAddr) (x : Byte),
    ((∀ id, findSubchannel s.cfg a = some id →
        (s.scb id).dev ≠ some a ∨ anyBits (s.scb id).status chanErr = true ∨ isOutput (s.scb id).cmd = false) →
      readByte a s = (s, .done)) ∧
    ((∀ id, findSubchannel s.cfg a = some id →
        (s.scb id).dev ≠ some a ∨ anyBits (s.scb id).status chanErr = true ∨ isInput (s.scb id).cmd = false) →
      writeByte a x s = (s, .done)) ∧
    (∀ id b t, b = s.scb id → b.count = 0 → b.flags.cd = false →
      t = s.setScb id { b with status := b.status ||| stCE ||| (if b.flags.sli then 0 else stIL), chend := true } →
      (Transfers .out a id s → readByte a s = (t, .done)) ∧ (Transfers .input a id s → writeByte a x s = (t, .done)))

/-- A `read_byte` that finds bytes left gives the byte of memory at the position when the register is empty, and the register's
byte at its offset when it is not; position, offset and count move by one; memory is only read, and only to fill the register.
The CCW's last byte before a data chain and the entry into another page of IDA are stated apart (42_transfer.md R141, R142,
R143, R148, R149, R154). -/
def Obligations.ReadByteDeliversTheByte : Prop :=
  ∀ (s : State) (a : DevAddr) (id : ScbId) (b : Scb), Transfers .out a id s → b = s.scb id → b.count ≠ 0 →
    ¬ lastOfDataChain b → ¬ needsNextIdaw b →
    (b.boff = none → accessFault s b.key b.position false = none) →
    ∃ t x, readByte a s = (t, .byte x) ∧ x = wordByte (registerWord s b) (registerOffset b) ∧
      (b.boff = none → x = s.byteAt b.position.toNat) ∧
      t.scb id = { movedScb b with buf := registerWord s b, boff := nextOffset b.cmd (registerOffset b),
                                   dirty := if b.boff = none then false else b.dirty } ∧
      t.irq = s.irq ∧ KeepsOutside s t ∧ KeepsScbsBut id s t ∧
      (∀ p, t.keyAt p =
        if b.boff = none ∧ p = b.position.toNat / 2048 then s.keyAt p ||| 0x04 else s.keyAt p)

/-- A `write_byte` that finds bytes left, without SKIP, and does not reach the register's last byte: the byte takes its place in
the register, which keeps the word's other bytes and is dirty; memory is not stored to (42_transfer.md R142, R143, R150, R151,
R154). -/
def Obligations.WriteByteHoldsTheByte : Prop :=
  ∀ (s : State) (a : DevAddr) (x : Byte) (id : ScbId) (b : Scb), Transfers .input a id s → b = s.scb id → b.count ≠ 0 →
    b.flags.skip = false → ¬ lastOfDataChain b → ¬ needsNextIdaw b →
    (b.boff = none → accessFault s b.key b.position true = none) → lastOffset b.cmd (registerOffset b) = false →
    ∃ t, writeByte a x s = (t, .ok) ∧
      t.scb id = { movedScb b with buf := setWordByte (registerWord s b) (registerOffset b) x,
                                   boff := nextOffset b.cmd (registerOffset b), dirty := true } ∧
      t.irq = s.irq ∧ KeepsOutside s t ∧ KeepsScbsBut id s t ∧
      (∀ p, t.keyAt p =
        if b.boff = none ∧ p = b.position.toNat / 2048 then s.keyAt p ||| 0x04 else s.keyAt p)

/-- A `write_byte` that reaches the register's last byte stores the register in the word of that byte, at once: the byte is in
memory, the word's other bytes are the register's, no other byte changes, and the register is clean and empty
(42_transfer.md R143, R150, R151, R152, R153, R154). -/
def Obligations.WriteByteFlushesTheFullWord : Prop :=
  ∀ (s : State) (a : DevAddr) (x : Byte) (id : ScbId) (b : Scb), Transfers .input a id s → b = s.scb id → b.count ≠ 0 →
    b.flags.skip = false → ¬ lastOfDataChain b → ¬ needsNextIdaw b →
    accessFault s b.key b.position true = none → lastOffset b.cmd (registerOffset b) = true →
    ∃ t, writeByte a x s = (t, .ok) ∧
      t.wordAt b.position = setWordByte (registerWord s b) (registerOffset b) x ∧
      KeepsMemoryBut (inWordOf b.position) s t ∧
      t.scb id = { movedScb b with buf := setWordByte (registerWord s b) (registerOffset b) x, boff := none,
                                   dirty := false } ∧
      t.irq = s.irq ∧ KeepsScbsBut id s t ∧ KeepsPlatform s t ∧ KeepsCalls s t ∧ KeepsPending s t ∧
      t.loading = s.loading ∧
      (∀ p, t.keyAt p = if p = b.position.toNat / 2048 then s.keyAt p ||| 0x06 else s.keyAt p)

/-- A byte skipped by an input command with SKIP is counted and discarded: no memory access, no register, no key bit
(42_transfer.md R147, R154). -/
def Obligations.SkippedByteTouchesNoMemory : Prop :=
  ∀ (s : State) (a : DevAddr) (x : Byte) (id : ScbId) (b : Scb), Transfers .input a id s → b = s.scb id → b.count ≠ 0 →
    b.flags.skip = true → ¬ lastOfDataChain b → ¬ needsNextIdaw b →
    ∃ t, writeByte a x s = (t, .ok) ∧ t.scb id = movedScb b ∧ t.irq = s.irq ∧ KeepsOutside s t ∧
      KeepsScbsBut id s t ∧ KeepsKeys s t

/-- An access fault ends the program and the transfer: a `read_byte` that cannot fill its register, a `write_byte` whose word may
not be written, is Done, the fault recorded, the byte not counted, and no byte of memory changes. The word's permission is checked
where the register is filled, and again where the register's last byte flushes it: there the byte was already put into the
register, whose bytes are lost to memory (42_transfer.md R148, R150, R152, R153; 60_exceptions.md R232; 20_memory.md R65). -/
def Obligations.TransferFaultIsDone : Prop :=
  ∀ (s : State) (a : DevAddr) (x : Byte) (id : ScbId) (b : Scb) (e : MemFault), b = s.scb id → b.count ≠ 0 →
    (Transfers .out a id s → b.boff = none → accessFault s b.key b.position false = some e →
      ∃ t, readByte a s = (t, .done) ∧ t.scb id = faultedScb e.bit b ∧ t.irq = true ∧ KeepsOutside s t ∧
        KeepsScbsBut id s t ∧ KeepsKeys s t) ∧
    (Transfers .input a id s → b.flags.skip = false → accessFault s b.key b.position true = some e →
      (b.boff = none →
        ∃ t, writeByte a x s = (t, .done) ∧ t.scb id = faultedScb e.bit b ∧ t.irq = true ∧ KeepsOutside s t ∧
          KeepsScbsBut id s t ∧ KeepsKeys s t) ∧
      (∀ k, b.boff = some k → lastOffset b.cmd k = true →
        ∃ t, writeByte a x s = (t, .done) ∧ t.scb id = faultedScb e.bit { b with buf := setWordByte b.buf k x } ∧
          t.irq = true ∧ KeepsOutside s t ∧ KeepsScbsBut id s t ∧ KeepsKeys s t))

/-- Every byte transferred or skipped counts exactly once, whatever the CCW's flags, unless it is the last before a data chain:
a call that finds a count and succeeds leaves it one less; a call that is Done leaves it as it was (42_transfer.md R154, R162). -/
def Obligations.EveryByteCountsOnce : Prop :=
  ∀ (s t : State) (a : DevAddr) (id : ScbId) (r : OpResult), findSubchannel s.cfg a = some id → (s.scb id).count ≠ 0 →
    ¬ lastOfDataChain (s.scb id) → (readByte a s = (t, r) ∨ ∃ x, writeByte a x s = (t, r)) →
    ((r = .ok ∨ ∃ x, r = .byte x) → (t.scb id).count.toNat + 1 = (s.scb id).count.toNat) ∧
    (r = .done → (t.scb id).count = (s.scb id).count)

/-- Entering another page with bytes left, a call moves its byte as any other, and then fetches the next IDAW: the pointer moves by
4, the cursor takes the IDAW's page and keeps its low 11 bits; an IDAW that cannot be read is recorded as a fault and the call
still succeeds. A `read_byte`, its register filled first if empty; a skipped `write_byte`, which accesses no other word; and a
stored `write_byte`, in whose state the register is right: the crossing is at the register's last byte, so the word of the byte is
stored before the IDAW is fetched, from the memory the store leaves (42_transfer.md R143, R147, R148, R149, R150, R151, R152,
R153, R154, R155, R156). -/
def Obligations.PageCrossingTakesTheNextIdaw : Prop :=
  ∀ (s : State) (a : DevAddr) (x : Byte) (id : ScbId) (b : Scb), b = s.scb id → needsNextIdaw b →
    (Transfers .out a id s → (b.boff = none → accessFault s b.key b.position false = none) →
      ∃ t, readByte a s = (t, .byte (wordByte (registerWord s b) (registerOffset b))) ∧
        TakesNextIdaw id { movedScb b with buf := registerWord s b, boff := nextOffset b.cmd (registerOffset b),
                                           dirty := if b.boff = none then false else b.dirty } s t ∧
        KeepsOutside s t ∧ KeepsScbsBut id s t ∧
        (∀ p, t.keyAt p =
          if (b.boff = none ∧ p = pageOf b.position) ∨
            (accessFault s b.key (b.addr + 4) false = none ∧ p = pageOf (b.addr + 4))
          then s.keyAt p ||| 0x04 else s.keyAt p)) ∧
    (Transfers .input a id s → b.flags.skip = true →
      ∃ t, writeByte a x s = (t, .ok) ∧ TakesNextIdaw id (movedScb b) s t ∧ KeepsOutside s t ∧ KeepsScbsBut id s t ∧
        (∀ p, t.keyAt p =
          if accessFault s b.key (b.addr + 4) false = none ∧ p = pageOf (b.addr + 4)
          then s.keyAt p ||| 0x04 else s.keyAt p)) ∧
    (Transfers .input a id s → b.flags.skip = false → RegisterOk b → accessFault s b.key b.position true = none →
      ∃ t, writeByte a x s = (t, .ok) ∧ t.wordAt b.position = storedWord s b x ∧
        KeepsMemoryBut (inWordOf b.position) s t ∧
        TakesNextIdaw id { movedScb b with buf := storedWord s b x, boff := none, dirty := false } s t ∧
        KeepsScbsBut id s t ∧ KeepsPlatform s t ∧ KeepsCalls s t ∧ KeepsPending s t ∧ t.loading = s.loading ∧
        (∀ p, t.keyAt p =
          if p = pageOf b.position then s.keyAt p ||| 0x06
          else if accessFault s b.key (b.addr + 4) false = none ∧ p = pageOf (b.addr + 4)
          then s.keyAt p ||| 0x04 else s.keyAt p))

/-- Data chaining is transparent. A load made while the CCW left has CD (and no chain is held) calls no device; it keeps the command
where it succeeds or is aborted, and clears it where a check fails. The last byte of a CCW that chains data makes that load at once,
after the byte and with the register stored if dirty, and the call succeeds whatever the load answers. A `read_byte`, its register
filled first if empty; a stored `write_byte`, in whose state the register is right: the byte is in memory, the word's other bytes
are the register's, before the load; a skipped `write_byte`, which accesses no memory. Where the dirty register may not be stored
any more, its fault is recorded instead of the load. A call that finds the count 0 under CD makes the load first, and goes on as on
the state the load leaves, or is Done where it fails (41_ccw_loader.md R118, R137; 42_transfer.md R144, R146, R147, R149, R151, R152,
R154, R158, R163). -/
def Obligations.DataChainingIsTransparent : Prop :=
  ∀ (s : State) (id : ScbId) (b : Scb), b = s.scb id →
    (∀ ticAllowed t r, b.flags.cd = true → b.chainHeld = false → loadNextCcw id ticAllowed s = (t, r) →
      KeepsCalls s t ∧ LoadFrame id s t ∧
      (((r = .ok ∨ r = .fail .abort) ∧ (t.scb id).cmd = b.cmd) ∨ (r = .fail .check ∧ (t.scb id).cmd = 0))) ∧
    (∀ a, Transfers .out a id s → lastOfDataChain b → (b.boff ≠ none → b.dirty = false) →
      (b.boff = none → accessFault s b.key b.position false = none) →
      ∃ u, readByte a s = ((loadNextCcw id true u).1, .byte (wordByte (registerWord s b) (registerOffset b))) ∧
        u.scb id = { movedScb b with buf := registerWord s b, boff := nextOffset b.cmd (registerOffset b),
                                     dirty := false } ∧
        u.irq = s.irq ∧ KeepsOutside s u ∧ KeepsScbsBut id s u ∧
        (∀ p, u.keyAt p = if b.boff = none ∧ p = pageOf b.position then s.keyAt p ||| 0x04 else s.keyAt p)) ∧
    (∀ a x, Transfers .input a id s → lastOfDataChain b → b.flags.skip = false → RegisterOk b →
      (accessFault s b.key b.position true = none →
        ∃ u, writeByte a x s = ((loadNextCcw id true u).1, .ok) ∧ u.wordAt b.position = storedWord s b x ∧
          KeepsMemoryBut (inWordOf b.position) s u ∧
          u.scb id = { movedScb b with buf := storedWord s b x, boff := nextOffset b.cmd (registerOffset b),
                                       dirty := false } ∧
          u.irq = s.irq ∧ KeepsScbsBut id s u ∧ KeepsPlatform s u ∧ KeepsCalls s u ∧ KeepsPending s u ∧
          u.loading = s.loading ∧
          (∀ p, u.keyAt p = if p = pageOf b.position then s.keyAt p ||| 0x06 else s.keyAt p)) ∧
      (∀ e, accessFault s b.key b.position true = some e → b.boff ≠ none →
        lastOffset b.cmd (registerOffset b) = false →
        ∃ t, writeByte a x s = (t, .ok) ∧ t.scb id = faultedScb e.bit { movedScb b with buf := storedWord s b x } ∧
          t.irq = true ∧ KeepsOutside s t ∧ KeepsScbsBut id s t ∧ KeepsKeys s t)) ∧
    (∀ a x, Transfers .input a id s → lastOfDataChain b → b.flags.skip = true → b.dirty = false →
      writeByte a x s = ((loadNextCcw id true (s.setScb id (movedScb b))).1, .ok)) ∧
    (∀ a x t r, b.count = 0 → b.flags.cd = true → b.chainHeld = false → b.dirty = false →
      loadNextCcw id true s = (t, r) →
      (Transfers .out a id s → readByte a s = if r = .ok then readByte a t else (t, .done)) ∧
      (Transfers .input a id s → writeByte a x s = if r = .ok then writeByte a x t else (t, .done)))

/-- A `write_byte` that finds bytes left stores to no byte of memory outside the word of its position, whatever the flags and
the outcome, in a state whose registers are right (42_transfer.md R146, R152, R153, R171). -/
def Obligations.WriteByteStoresOnlyItsWord : Prop :=
  ∀ (s : State) (a : DevAddr) (x : Byte) (id : ScbId), RegistersOk s → findSubchannel s.cfg a = some id →
    (s.scb id).count ≠ 0 →
    KeepsMemoryBut (inWordOf (s.scb id).position) s (writeByte a x s).1 ∧ KeepsScbsBut id s (writeByte a x s).1 ∧
    KeepsPlatform s (writeByte a x s).1 ∧ KeepsPending s (writeByte a x s).1 ∧
    (writeByte a x s).1.loading = s.loading

/-! ## Device callbacks and the delivery of status -/

/-- `channel_end` of an address that owns no SCB changes nothing; of one that does, it flushes a dirty register (where its word may
not be written any more the fault is recorded and the bytes are lost), then sets channel end and the device's flags, incorrect
length for a residual count without SLI, clears the command, the chaining flags on an error class and the DE_CLEAR_MASK flags on
device end, and raises IRQ (43_status.md R170, R171, R172, R173, R174, R175; 42_transfer.md R152). -/
def Obligations.ChannelEndEndsTheCommand : Prop :=
  ∀ (s : State) (a : DevAddr) (fl : Half),
    ((∀ id, findSubchannel s.cfg a = some id → (s.scb id).dev ≠ some a) → channelEnd a fl s = s) ∧
    (∀ id b l t, findSubchannel s.cfg a = some id → b = s.scb id → b.dev = some a → l = flushedScb s b →
      t = channelEnd a fl s →
      t.irq = true ∧
      t.scb id = { l with
        status := l.status ||| stCE ||| fl ||| (if b.count ≠ 0 ∧ b.flags.sli = false then stIL else 0)
        cmd := 0
        flags := CcwFlags.without
          (if fl &&& 0x8300 ≠ 0 then { l.flags with cd := false, cc := false } else l.flags)
          (if fl &&& stDE ≠ 0 then s.cfg.deClearMask else noFlags) } ∧
      (flushes s b → t.wordAt b.position = b.buf) ∧
      KeepsMemoryBut (fun x => flushes s b ∧ inWordOf b.position x) s t ∧
      (∀ p, (flushes s b ∧ p = pageOf b.position → t.keyAt p = s.keyAt p ||| 0x06) ∧
        (¬ (flushes s b ∧ p = pageOf b.position) → t.keyAt p = s.keyAt p)) ∧
      KeepsScbsBut id s t ∧ KeepsPlatform s t ∧ KeepsCalls s t ∧ KeepsPending s t ∧ t.loading = s.loading)

/-- `post_attention` merges its flags into the SCB that is bound to the address and is held or at channel end without device end;
otherwise it records them in the pending-status table and flags the channel; it always raises IRQ (43_status.md R177, R178,
R179). That it flags the channel with flags 0 too, where the table's entry stays 0, is the model's choice (log 22). -/
def Obligations.PostAttentionMergesOrRecords : Prop :=
  ∀ (s : State) (a : DevAddr) (fl : Byte) (t : State), t = postAttention a fl s →
    t.irq = true ∧ KeepsPlatform s t ∧ KeepsCalls s t ∧ t.loading = s.loading ∧ KeepsMemory s t ∧ KeepsKeys s t ∧
    (∀ id b, findSubchannel s.cfg a = some id → b = s.scb id → b.dev = some a →
      (b.chainHeld = true ∨ (b.status &&& stCE ≠ 0 ∧ b.status &&& stDE = 0)) →
      t.scb id = { b with status := b.status ||| deviceByte fl } ∧ KeepsScbsBut id s t ∧ KeepsPending s t) ∧
    ((∀ id, findSubchannel s.cfg a = some id → (s.scb id).dev ≠ some a ∨
        ((s.scb id).chainHeld = false ∧ ((s.scb id).status &&& stCE = 0 ∨ (s.scb id).status &&& stDE ≠ 0))) →
      KeepsScbs s t ∧ (∀ d, t.pendAt d = if d = a then s.pendAt a ||| fl else s.pendAt d) ∧
      (∀ c, t.chpendAt c = if c = chanOf a then true else s.chpendAt c))

/-- `collect` stores the SCB's CSW and, at channel end, frees the SCB; `caw`, `addr`, `iaddr`, `count`, `key` and `buf` stay
(43_status.md R180, R184). -/
def Obligations.CollectFreesAnEndedProgram : Prop :=
  ∀ (s : State) (id : ScbId) (b : Scb) (t : State), configWf s.cfg = true → b = s.scb id → t = collect id s →
    StoresCsw (b.key ++ 0#4 ++ b.caw) (b.status ++ b.count) s t ∧
    (b.status &&& stCE ≠ 0 → t.scb id = freedScb { b with status := 0 }) ∧
    (b.status &&& stCE = 0 → t.scb id = { b with status := if b.status &&& stPCI ≠ 0 then b.status &&& ~~~stPCI else 0 }) ∧
    KeepsScbsBut id s t ∧ KeepsPlatform s t ∧ KeepsCalls s t ∧ KeepsPending s t ∧ t.loading = s.loading ∧ t.irq = s.irq

/-! ## The scan -/

/-- The SCBs that the scan visits are those of enabled channels, in the order channel ascending, then SCB ascending, each once: the
one SCB of a selector or of a block multiplexer without extended mode, the 32 of one with it, the NSUB of a multiplexer
(43_status.md R185, R192; 10_state.md R23; 60_exceptions.md R245). -/
def Obligations.ScanOrderIsAscending : Prop :=
  ∀ (cfg : Config), channelsWf cfg.channels = true →
    (scanOrder cfg).Pairwise (fun i j => i.index < j.index) ∧
    (∀ id, id ∈ scanOrder cfg ↔ ∃ ch, cfg.channels[id.chan.val]? = some ch ∧ ch.enabled = true ∧
      ((ch.kind = .selector ∨ ch.kind = .blockMux false) ∧ id.sub.val = 0 ∨
        ch.kind = .blockMux true ∧ id.sub.val < 32 ∨ ∃ n, ch.kind = .mux n ∧ id.sub.val < n))

/-- The scan delivers the first SCB, in its order, that has a PCI or a completed program it may deliver: its CSW is stored, IRQ
raised, its address returned. The SCBs before it are passed by: those whose PCI or completion the enable, the mask or a boot-load
holds back, and chains, which wait without device end and continue with it; that changes no later SCB. A PCI comes first of its
SCB's conditions, and where the program still runs only PCI is cleared; with channel end the status is cleared and the SCB freed. A
completion, with no PCI or one held back (as in a boot-load), also clears the pending entry of its address, and CHPEND is
recomputed (43_status.md R182, R183, R184, R185, R188, R190, R191, R192; 60_exceptions.md R242, R245, R248, R251). -/
def Obligations.ScanDeliversTheFirstDeliverable : Prop :=
  ∀ (s u : State) (mask : Half) (enabled : Bool) (before after : List ScbId) (id : ScbId) (a : DevAddr) (b : Scb),
    configWf s.cfg = true → s.irq = true → scanOrder s.cfg = before ++ id :: after →
    (∀ j ∈ before, ¬ deliverable s mask enabled j) → b = s.scb id → b.dev = some a →
    u = (scanScbs mask enabled before { s with irq := false }).1 →
    PassesBy before s u ∧ u.scb id = b ∧
    (b.status &&& stPCI ≠ 0 → pciEnabled s mask enabled a id.chan →
      ∃ t, scan mask enabled s = (t, some a) ∧ t.irq = true ∧
        StoresCsw (b.key ++ 0#4 ++ b.caw) (b.status ++ b.count) u t ∧
        (b.status &&& stCE = 0 → t.scb id = { b with status := b.status &&& ~~~stPCI }) ∧
        (b.status &&& stCE ≠ 0 → t.scb id = freedScb { b with status := 0 }) ∧
        KeepsScbsBut id u t ∧ KeepsPlatform s t ∧ KeepsCalls u t ∧ KeepsPending s t ∧ t.loading = s.loading) ∧
    ((b.status &&& stPCI = 0 ∨ ¬ pciEnabled s mask enabled a id.chan) → completed b →
      completionEnabled s mask enabled a id.chan →
      ∃ t, scan mask enabled s = (t, some a) ∧ t.irq = true ∧
        StoresCsw (b.key ++ 0#4 ++ b.caw) (b.status ++ b.count) u t ∧ t.scb id = freedScb { b with status := 0 } ∧
        t.pendAt a = 0 ∧ (∀ d, d ≠ a → t.pendAt d = s.pendAt d) ∧
        (t.chpendAt (chanOf a) = true ↔ ∃ d, d ≠ a ∧ chanOf d = chanOf a ∧ s.pendAt d ≠ 0) ∧
        (∀ c, c ≠ chanOf a → t.chpendAt c = s.chpendAt c) ∧
        KeepsScbsBut id u t ∧ KeepsPlatform s t ∧ KeepsCalls u t ∧ t.loading = s.loading)

/-- What the scan does at one SCB that chains, with no PCI or one held back, which raises IRQ: a held chain, or an ended command with
CC and no channel error, waits without device end, neither continued nor reported; with it, the next command is loaded (a command
chain first clears its status but PCI and status modifier) and IRQ raised; no address is returned. The PCI held back stands after
either, to be delivered later (43_status.md R185, R186, R187, R191; 41_ccw_loader.md R138). -/
def Obligations.ScanContinuesAChainAtDeviceEnd : Prop :=
  ∀ (s v : State) (mask : Half) (enabled : Bool) (id : ScbId) (a : DevAddr) (b : Scb), b = s.scb id → b.dev = some a →
    (b.status &&& stPCI = 0 ∨ ¬ pciEnabled s mask enabled a id.chan) →
    v = (if b.status &&& stPCI = 0 then s else s.raiseIrq) →
    (b.chainHeld = true →
      scanScb mask enabled id s =
        (if b.status &&& stDE = 0 then v else (loadNextCcw id true v).1.raiseIrq, none)) ∧
    (b.chainHeld = false → b.status &&& stCE ≠ 0 → b.cmd = 0 → b.flags.cc = true → b.status &&& chanErr = 0 →
      scanScb mask enabled id s =
        (if b.status &&& stDE = 0 then v
         else (loadNextCcw id true (v.setScb id { b with status := b.status &&& (stPCI ||| stSM) })).1.raiseIrq, none)) ∧
    (chaining b → b.status &&& stPCI ≠ 0 →
      (scanScb mask enabled id s).1.irq = true ∧ ((scanScb mask enabled id s).1.scb id).status &&& stPCI ≠ 0)

/-- Where the scan may deliver no SCB's condition, all of them passed by, an enabled scan delivers the pending status with the
lowest address among the flagged, enabled and unmasked channels: a synthesized CSW stored, the entry cleared and CHPEND recomputed,
IRQ raised, the address returned (43_status.md R181, R183, R185, R189, R190, R191; 60_exceptions.md R245). -/
def Obligations.ScanFallsBackToPendingStatus : Prop :=
  ∀ (s u : State) (mask : Half) (a : DevAddr), configWf s.cfg = true → s.irq = true →
    (∀ j ∈ scanOrder s.cfg, ¬ deliverable s mask true j) →
    u = (scanScbs mask true (scanOrder s.cfg) { s with irq := false }).1 →
    (enabledChannel s.cfg (chanOf a)).isSome = true → s.chpendAt (chanOf a) = true → s.pendAt a ≠ 0 →
    pciEnabled s mask true a (chanOf a) →
    (∀ d, d.toNat < a.toNat → enabledChannel s.cfg (chanOf d) = none ∨ s.chpendAt (chanOf d) = false ∨ s.pendAt d = 0 ∨
      ¬ pciEnabled s mask true d (chanOf d)) →
    PassesBy (scanOrder s.cfg) s u ∧
    ∃ t, scan mask true s = (t, some a) ∧ t.irq = true ∧ StoresCsw 0 (s.pendAt a ++ 0#24) u t ∧
      (∀ d, t.pendAt d = if d = a then 0 else s.pendAt d) ∧
      (t.chpendAt (chanOf a) = true ↔ ∃ d, d ≠ a ∧ chanOf d = chanOf a ∧ s.pendAt d ≠ 0) ∧
      (∀ c, c ≠ chanOf a → t.chpendAt c = s.chpendAt c) ∧ KeepsScbs u t ∧ KeepsPlatform s t ∧ KeepsCalls u t ∧
      t.loading = s.loading

/-- A scan that returns no address, where no chain that is to continue has its device end, stores nothing: memory and SCBs stay, and
IRQ stays set exactly if a PCI, a completed program or a flagged channel was left; a chain that waits for its device end does not
keep it set (43_status.md R185, R186, R187, R191). -/
def Obligations.UndeliveredStatusKeepsIrq : Prop :=
  ∀ (s t : State) (mask : Half) (enabled : Bool), s.irq = true →
    (∀ j ∈ scanOrder s.cfg, (s.scb j).dev = none ∨ ¬ chaining (s.scb j) ∨ (s.scb j).status &&& stDE = 0) →
    scan mask enabled s = (t, none) →
    { t with irq := s.irq } = s ∧
    (t.irq = true ↔ s.chpend ≠ 0 ∨ ∃ j ∈ scanOrder s.cfg, (s.scb j).dev ≠ none ∧
      ((s.scb j).status &&& stPCI ≠ 0 ∨
        ((s.scb j).status &&& stCE ≠ 0 ∧ (s.scb j).cmd = 0 ∧ ¬ chaining (s.scb j))))

/-! ## The CPU's channel-control instructions -/

/-- The device address of a channel-control instruction is the low 12 bits of `(B1 = 0 ? 0 : GR[B1]) + D1`. With IGNORE_I2 false a
second byte that is not 0 is refused; otherwise the instruction answers a condition code, in every state
(30_encoding.md R70, R72, R73; 44_io_instructions.md R200, R208, R215, R221). -/
def Obligations.OperandsOfTheInstructions : Prop :=
  ∀ (s : State) (i : Instr) (i2 : Byte) (b1 : BitVec 4) (d1 : BitVec 12),
    (deviceAddress s b1 d1).toNat = ((if b1.toNat = 0 then 0 else s.gr[b1.toNat].toNat) + d1.toNat) % 4096 ∧
    ((i = .sio i2 b1 d1 ∨ i = .tio i2 b1 d1 ∨ i = .hio i2 b1 d1 ∨ i = .tch i2 b1 d1) →
      (acceptsI2 s i2 → ∃ t cc, exec i s = .next t ∧ t.result = .cc cc) ∧
      (¬ acceptsI2 s i2 → exec i s = .refused (.secondByte i2)))

/-- SIO, TIO and HIO answer 3, before any state is touched, where the address has no SCB or no device. What the resolver answers: a
channel that is absent or disabled has neither; on an enabled one the device is the binding of the address's low byte, and the SCB
is number 0 of a selector or of a block multiplexer without extended mode, number `a[7:3]` with it, and on a multiplexer the low
byte if below NSUB, else the fold if below NSUB, else none. The fold is `(a >> 4) & 7` but where the configuration says otherwise
(44_io_instructions.md R201, R209, R216; 40_resolver.md R100, R101, R102, R103, R104). -/
def Obligations.UnresolvedAddressAnswersThree : Prop :=
  (∀ (s : State) (i : Instr) (i2 : Byte) (b1 : BitVec 4) (d1 : BitVec 12) (a : DevAddr), acceptsI2 s i2 →
    a = deviceAddress s b1 d1 → (i = .sio i2 b1 d1 ∨ i = .tio i2 b1 d1 ∨ i = .hio i2 b1 d1) →
    (findSubchannel s.cfg a = none ∨ findDevice s.cfg a = none) →
    exec i s = .next (s.answer (.cc 3))) ∧
  (∀ (cfg : Config) (a : DevAddr), channelsWf cfg.channels = true →
    (cfg.channels[a.toNat / 256]? = none → findSubchannel cfg a = none ∧ findDevice cfg a = none) ∧
    (∀ ch, cfg.channels[a.toNat / 256]? = some ch → ch.enabled = false →
      findSubchannel cfg a = none ∧ findDevice cfg a = none) ∧
    (∀ ch, cfg.channels[a.toNat / 256]? = some ch → ch.enabled = true →
      (∀ dev, findDevice cfg a = some dev ↔ (a.extractLsb' 0 8, dev) ∈ ch.devices) ∧
      (ch.kind = .selector ∨ ch.kind = .blockMux false → Selects cfg a 0) ∧
      (ch.kind = .blockMux true → Selects cfg a (a.toNat % 256 / 8)) ∧
      (∀ n, ch.kind = .mux n →
        (a.toNat % 256 < n → Selects cfg a (a.toNat % 256)) ∧
        (n ≤ a.toNat % 256 → muxFold cfg a < n → Selects cfg a (muxFold cfg a)) ∧
        (n ≤ a.toNat % 256 → n ≤ muxFold cfg a → findSubchannel cfg a = none))) ∧
    (cfg.foldOverrides.lookup a = none → muxFold cfg a = a.toNat / 16 % 8) ∧
    (∀ n, cfg.foldOverrides.lookup a = some n → muxFold cfg a = n))

/-- SIO on an SCB that holds a status of its own program that no longer runs, and TIO on one with an error-class status, or with
channel end and no program running, store the CSW, free the SCB at channel end, and answer 1; SIO starts nothing
(44_io_instructions.md R202, R210, R212; 43_status.md R180, R184). -/
def Obligations.SioAndTioCollectTheStatus : Prop :=
  ∀ (s : State) (i : Instr) (i2 : Byte) (b1 : BitVec 4) (d1 : BitVec 12) (a : DevAddr) (id : ScbId) (dev : Binding)
    (b : Scb), configWf s.cfg = true → acceptsI2 s i2 → a = deviceAddress s b1 d1 → Resolves s a id dev → b = s.scb id →
    b.dev = some a →
    (i = .sio i2 b1 d1 ∧ b.status ≠ 0 ∧ ¬ running b ∨
      i = .tio i2 b1 d1 ∧ (hasErrorStatus b ∨ (¬ running b ∧ b.status &&& stCE ≠ 0))) →
    ∃ t, exec i s = .next t ∧ t.result = .cc 1 ∧ StoresCsw (b.key ++ 0#4 ++ b.caw) (b.status ++ b.count) s t ∧
      (b.status &&& stCE ≠ 0 → t.scb id = freedScb { b with status := 0 }) ∧
      (b.status &&& stCE = 0 → t.scb id = { b with status := if b.status &&& stPCI ≠ 0 then b.status &&& ~~~stPCI else 0 }) ∧
      KeepsScbsBut id s t ∧ KeepsPlatform s t ∧ KeepsCalls s t ∧ KeepsPending s t ∧ t.irq = s.irq ∧
      t.loading = s.loading

/-- Answers that change nothing. SIO answers 2 where the SCB runs or holds a program, or is bound to another device. TIO answers 2
where the SCB runs or holds a program with no error status of this address, and where it is another device's with a status and
the address has none pending. HIO answers 0 where the SCB of the address has an error status (44_io_instructions.md R203, R211,
R214, R217). -/
def Obligations.BusyAndStoppedChangeNothing : Prop :=
  ∀ (s : State) (i2 : Byte) (b1 : BitVec 4) (d1 : BitVec 12) (a : DevAddr) (id : ScbId) (dev : Binding) (b : Scb),
    acceptsI2 s i2 → a = deviceAddress s b1 d1 → Resolves s a id dev → b = s.scb id →
    ((running b ∨ (b.dev ≠ none ∧ b.dev ≠ some a)) → exec (.sio i2 b1 d1) s = .next (s.answer (.cc 2))) ∧
    (((running b ∧ (b.dev ≠ some a ∨ ¬ hasErrorStatus b)) ∨
      (¬ running b ∧ b.dev ≠ none ∧ b.dev ≠ some a ∧ b.status ≠ 0 ∧ s.pendAt a = 0)) →
      exec (.tio i2 b1 d1) s = .next (s.answer (.cc 2))) ∧
    (b.dev = some a → hasErrorStatus b → exec (.hio i2 b1 d1) s = .next (s.answer (.cc 0)))

/-- A pending status of the address is taken by SIO on a free SCB, and by TIO on an SCB with nothing of its own to report: stored
as a synthesized CSW, its entry cleared, condition code 1, no device called (44_io_instructions.md R204, R213;
43_status.md R181, R183). -/
def Obligations.PendingStatusIsTaken : Prop :=
  ∀ (s : State) (i : Instr) (i2 : Byte) (b1 : BitVec 4) (d1 : BitVec 12) (a : DevAddr) (id : ScbId) (dev : Binding)
    (b : Scb), configWf s.cfg = true → acceptsI2 s i2 → a = deviceAddress s b1 d1 → Resolves s a id dev → b = s.scb id →
    ¬ running b → s.pendAt a ≠ 0 →
    (i = .sio i2 b1 d1 ∧ (b.dev = none ∨ (b.dev = some a ∧ b.status = 0)) ∨
      i = .tio i2 b1 d1 ∧ (b.dev ≠ some a ∨ (¬ hasErrorStatus b ∧ b.status &&& stCE = 0))) →
    ∃ t, exec i s = .next t ∧ t.result = .cc 1 ∧ StoresCsw 0 (s.pendAt a ++ 0#24) s t ∧
      (∀ d, t.pendAt d = if d = a then 0 else s.pendAt d) ∧
      (t.chpendAt (chanOf a) = true ↔ ∃ d, d ≠ a ∧ chanOf d = chanOf a ∧ s.pendAt d ≠ 0) ∧
      (∀ c, c ≠ chanOf a → t.chpendAt c = s.chpendAt c) ∧ KeepsScbs s t ∧ KeepsPlatform s t ∧ KeepsCalls s t ∧
      t.irq = s.irq ∧ t.loading = s.loading

/-- The `start_io` hook, where the device has it: a busy answer gives 2, any other answer but 0 is stored as a synthesized CSW
and gives 1; in both cases no SCB is touched (44_io_instructions.md R205; 10_state.md R31). -/
def Obligations.StartIoHookMayAnswer : Prop :=
  ∀ (s : State) (i2 : Byte) (b1 : BitVec 4) (d1 : BitVec 12) (a : DevAddr) (id : ScbId) (dev : Binding) (st : Byte),
    configWf s.cfg = true → acceptsI2 s i2 → a = deviceAddress s b1 d1 → Resolves s a id dev →
    ((s.scb id).dev = none ∨ ((s.scb id).dev = some a ∧ (s.scb id).status = 0)) → ¬ running (s.scb id) →
    s.pendAt a = 0 → dev.hasStartIo = true → st = (startIoHook a s).1 → st ≠ 0 →
    ∃ t, exec (.sio i2 b1 d1) s = .next t ∧ t.callOuts = s.callOuts ++ [CallOut.startIo a] ∧ KeepsScbs s t ∧
      KeepsPlatform s t ∧ KeepsPending s t ∧ t.irq = s.irq ∧ t.loading = s.loading ∧
      (st &&& dvBUSY ≠ 0 → t.result = .cc 2 ∧ KeepsMemory s t ∧ KeepsKeys s t) ∧
      (st &&& dvBUSY = 0 → t.result = .cc 1 ∧ StoresCsw 0 (st ++ 0#24) s t)

/-- SIO starts a program: on a free SCB, with no pending status and a hook that does not answer, the SCB is bound to the device
with the CAW's key and address, the first CCW loaded, its command given to the device, and the condition code is 0; memory
and the pending table are as before (44_io_instructions.md R206, R207; 30_encoding.md R79; 41_ccw_loader.md R110). -/
def Obligations.SioStartsTheProgram : Prop :=
  ∀ (s v : State) (i2 : Byte) (b1 : BitVec 4) (d1 : BitVec 12) (a : DevAddr) (id : ScbId) (dev : Binding) (w : Word)
    (key : BitVec 4) (caw : Addr) (i : Instr) (f : CcwFields) (b : Scb) (st : Byte),
    configWf s.cfg = true → acceptsI2 s i2 → a = deviceAddress s b1 d1 → Resolves s a id dev →
    ((s.scb id).dev = none ∨ ((s.scb id).dev = some a ∧ (s.scb id).status = 0)) → ¬ running (s.scb id) →
    s.pendAt a = 0 → (dev.hasStartIo = true → (startIoHook a s).1 = 0) →
    v = (if dev.hasStartIo then (startIoHook a s).2 else s) →
    w = s.wordAt s.cfg.cawAddr → key = w.extractLsb' 28 4 → caw = w.extractLsb' 0 24 → caw.toNat % 8 = 0 →
    accessFault s key caw false = none → decode .channel (eightBytes s caw) = .ok i → CommandCcw i f →
    FieldsLoad s key (caw + 4) f → st = (startCommand a f.cmd v).1 → accepts st = true →
    b = boundScb a dev key caw (s.scb id) →
    ∃ t, exec (.sio i2 b1 d1) s = .next t ∧ t.result = .cc 0 ∧
      t.scb id = commandAccepted st (loadedScb s (caw + 4) f { b with cmd := f.cmd }) ∧
      t.irq = (s.irq || acceptedRaisesIrq st (loadedFlags s.cfg noFlags f)) ∧ CalledStart a f.cmd v t ∧
      KeepsScbsBut id s t ∧ KeepsPlatform s t ∧ KeepsPending s t ∧ KeepsMemory s t ∧ KeepsReadKeys s t ∧
      t.loading = s.loading

/-- SIO of a program whose first load fails, on a device with no `start_io` hook or one that answers 0: the CSW of the SCB as the
load left it is stored, its status cleared as `store_status` clears it (PCI alone, if it stands without channel end; else all), the
SCB is freed, and the condition code is 1 (44_io_instructions.md R205, R206, R207; 43_status.md R180). -/
def Obligations.SioFirstLoadFailureIsStored : Prop :=
  ∀ (s v u : State) (i2 : Byte) (b1 : BitVec 4) (d1 : BitVec 12) (a : DevAddr) (id : ScbId) (dev : Binding) (w : Word)
    (r : FailReason) (p l : Scb),
    configWf s.cfg = true → acceptsI2 s i2 → a = deviceAddress s b1 d1 → Resolves s a id dev →
    ((s.scb id).dev = none ∨ ((s.scb id).dev = some a ∧ (s.scb id).status = 0)) → ¬ running (s.scb id) →
    s.pendAt a = 0 → (dev.hasStartIo = true → (startIoHook a s).1 = 0) →
    v = (if dev.hasStartIo then (startIoHook a s).2 else s) → w = s.wordAt s.cfg.cawAddr →
    p = boundScb a dev (w.extractLsb' 28 4) (w.extractLsb' 0 24) (s.scb id) →
    loadNextCcw id false ((v.markKey (pageOf s.cfg.cawAddr) 0x04).setScb id p) = (u, .fail r) → l = u.scb id →
    ∃ t, exec (.sio i2 b1 d1) s = .next t ∧ t.result = .cc 1 ∧
      StoresCsw (l.key ++ 0#4 ++ l.caw) (l.status ++ l.count) u t ∧
      t.scb id = freedScb { l with status := if l.status &&& stPCI ≠ 0 ∧ l.status &&& stCE = 0
                                             then l.status &&& ~~~stPCI else 0 } ∧
      t.irq = u.irq ∧ KeepsCalls u t ∧ (dev.hasStartIo = true → v.callOuts = s.callOuts ++ [CallOut.startIo a]) ∧
      KeepsMemoryBut (inCsw s.cfg) s t ∧ KeepsScbsBut id s t ∧ KeepsPlatform s t ∧ KeepsPending s t ∧
      t.loading = s.loading

/-- A TIC as the first CCW of a program: SIO answers 1 with program check and channel end in the CSW, at the address of the TIC,
with count 0, and the device is never called (41_ccw_loader.md R111, R121; 44_io_instructions.md R206, R207;
60_exceptions.md R231). -/
def Obligations.SioRefusesATicFirst : Prop :=
  ∀ (s : State) (i2 : Byte) (b1 : BitVec 4) (d1 : BitVec 12) (a : DevAddr) (id : ScbId) (dev : Binding) (w : Word)
    (key : BitVec 4) (caw : Addr),
    configWf s.cfg = true → acceptsI2 s i2 → a = deviceAddress s b1 d1 → Resolves s a id dev →
    ((s.scb id).dev = none ∨ ((s.scb id).dev = some a ∧ (s.scb id).status = 0)) → ¬ running (s.scb id) →
    s.pendAt a = 0 → dev.hasStartIo = false → w = s.wordAt s.cfg.cawAddr → key = w.extractLsb' 28 4 →
    caw = w.extractLsb' 0 24 → caw.toNat % 8 = 0 → accessFault s key caw false = none →
    classOf (s.byteAt caw.toNat) = .tic →
    ∃ t, exec (.sio i2 b1 d1) s = .next t ∧ t.result = .cc 1 ∧ t.wordAt s.cfg.cswAddr = key ++ 0#4 ++ caw ∧
      t.wordAt (s.cfg.cswAddr + 4) = (stPROG ||| stCE) ++ 0#16 ∧ (t.scb id).dev = none ∧ (t.scb id).cmd = 0 ∧
      t.irq = true ∧ KeepsCalls s t ∧ KeepsMemoryBut (inCsw s.cfg) s t ∧ KeepsScbsBut id s t ∧ KeepsPlatform s t ∧
      KeepsPending s t ∧ t.loading = s.loading

/-- TIO of an address with nothing to report asks the device with command byte 0: an error class is stored as a synthesized CSW
and gives 1, busy gives 2, else 0; no SCB is touched (44_io_instructions.md R220). -/
def Obligations.TioAsksTheDevice : Prop :=
  ∀ (s : State) (i2 : Byte) (b1 : BitVec 4) (d1 : BitVec 12) (a : DevAddr) (id : ScbId) (dev : Binding) (b : Scb)
    (st : Byte), configWf s.cfg = true → acceptsI2 s i2 → a = deviceAddress s b1 d1 → Resolves s a id dev → b = s.scb id →
    ¬ running b → s.pendAt a = 0 →
    (b.dev = none ∨ b.status = 0 ∨ (b.dev = some a ∧ ¬ hasErrorStatus b ∧ b.status &&& stCE = 0)) →
    st = (startCommand a 0x00 s).1 →
    ∃ t, exec (.tio i2 b1 d1) s = .next t ∧ CalledStart a 0x00 s t ∧ KeepsScbs s t ∧ KeepsPlatform s t ∧
      KeepsPending s t ∧ t.irq = s.irq ∧ t.loading = s.loading ∧
      (st &&& errClass ≠ 0 → t.result = .cc 1 ∧ StoresCsw 0 (st ++ 0#24) s t) ∧
      (st &&& errClass = 0 →
        t.result = (if st &&& dvBUSY ≠ 0 then .cc 2 else .cc 0) ∧ KeepsMemory s t ∧ KeepsKeys s t)

/-- HIO ends a running or held program: a dirty register is stored in the word of the position (where that word may not be written
any more the fault is recorded and the bytes are lost), channel end set, command and chaining cleared, IRQ raised. With no hook the
CSW is stored with the residual count, the SCB freed, condition code 1; the CSW's words are not the position's. With a `halt_io`
hook its value is the condition code and the status stays in the SCB for the scan (44_io_instructions.md R218, R219; 43_status.md
R180, R184; 42_transfer.md R152). -/
def Obligations.HioStopsTheProgram : Prop :=
  ∀ (s : State) (i2 : Byte) (b1 : BitVec 4) (d1 : BitVec 12) (a : DevAddr) (id : ScbId) (dev : Binding) (b l : Scb),
    configWf s.cfg = true → acceptsI2 s i2 → a = deviceAddress s b1 d1 → Resolves s a id dev → b = s.scb id →
    b.dev = some a → running b → ¬ hasErrorStatus b → l = flushedScb s b →
    ∃ t, exec (.hio i2 b1 d1) s = .next t ∧ t.irq = true ∧ KeepsAccessKeys s t ∧ KeepsScbsBut id s t ∧
      KeepsPlatform s t ∧ KeepsPending s t ∧ t.loading = s.loading ∧
      (dev.hasHaltIo = false →
        t.result = .cc 1 ∧ t.wordAt s.cfg.cswAddr = b.key ++ 0#4 ++ b.caw ∧
        t.wordAt (s.cfg.cswAddr + 4) = (l.status ||| stCE) ++ b.count ∧ t.scb id = freedScb { b with status := 0 } ∧
        (flushes s b → (∀ x, inWordOf b.position x → ¬ inCsw s.cfg x) → t.wordAt b.position = b.buf) ∧
        KeepsMemoryBut (fun x => inCsw s.cfg x ∨ (flushes s b ∧ inWordOf b.position x)) s t ∧ KeepsCalls s t) ∧
      (dev.hasHaltIo = true →
        t.result = .cc (haltIoHook a s).1 ∧ t.callOuts = s.callOuts ++ [CallOut.haltIo a] ∧
        t.commandAnswers = s.commandAnswers ∧ t.startIoAnswers = s.startIoAnswers ∧
        t.haltIoAnswers = s.haltIoAnswers.tail ∧
        t.scb id = { l with status := l.status ||| stCE, cmd := 0, flags := { l.flags with cd := false, cc := false },
                            chainHeld := false } ∧
        (flushes s b → t.wordAt b.position = b.buf) ∧
        KeepsMemoryBut (fun x => flushes s b ∧ inWordOf b.position x) s t)

/-- HIO of an address with no running program: with a `halt_io` hook the hook's value is the condition code and nothing else
changes; without, a status of the SCB bound to the address is stored and the SCB freed at channel end, its status cleared without
(PCI alone, if it stands), and an address with no SCB of its own stores a zero status; both answer 1 (44_io_instructions.md R219;
43_status.md R180, R182, R184). -/
def Obligations.HioWithoutAProgram : Prop :=
  ∀ (s : State) (i2 : Byte) (b1 : BitVec 4) (d1 : BitVec 12) (a : DevAddr) (id : ScbId) (dev : Binding) (b : Scb),
    configWf s.cfg = true → acceptsI2 s i2 → a = deviceAddress s b1 d1 → Resolves s a id dev → b = s.scb id →
    (b.dev ≠ some a ∨ (¬ running b ∧ ¬ hasErrorStatus b)) →
    (dev.hasHaltIo = true →
      exec (.hio i2 b1 d1) s = .next ((haltIoHook a s).2.answer (.cc (haltIoHook a s).1)) ∧
      (haltIoHook a s).2.callOuts = s.callOuts ++ [CallOut.haltIo a]) ∧
    (dev.hasHaltIo = false → b.dev ≠ some a →
      ∃ t, exec (.hio i2 b1 d1) s = .next t ∧ t.result = .cc 1 ∧ StoresCsw 0 0 s t ∧ KeepsScbs s t ∧ KeepsPlatform s t ∧
        KeepsCalls s t ∧ KeepsPending s t ∧ t.irq = s.irq ∧ t.loading = s.loading) ∧
    (dev.hasHaltIo = false → b.dev = some a →
      ∃ t, exec (.hio i2 b1 d1) s = .next t ∧ t.result = .cc 1 ∧
        StoresCsw (b.key ++ 0#4 ++ b.caw) (b.status ++ b.count) s t ∧
        (b.status &&& stCE ≠ 0 → t.scb id = freedScb { b with status := 0 }) ∧
        (b.status &&& stCE = 0 →
          t.scb id = { b with status := if b.status &&& stPCI ≠ 0 then b.status &&& ~~~stPCI else 0 }) ∧
        KeepsScbsBut id s t ∧ KeepsPlatform s t ∧ KeepsCalls s t ∧ KeepsPending s t ∧ t.irq = s.irq ∧ t.loading = s.loading)

/-- TCH answers by the channel alone: 3 where it is absent or disabled, 0 on a multiplexer and on a block multiplexer in extended
mode, else by its one SCB: 2 where it runs, 1 where it is bound with a status, else 0. It changes nothing
(44_io_instructions.md R221, R222, R223, R224). -/
def Obligations.TchAnswersByTheChannel : Prop :=
  ∀ (s : State) (i2 : Byte) (b1 : BitVec 4) (d1 : BitVec 12) (c : Fin 16) (b : Scb), acceptsI2 s i2 →
    c.val = (deviceAddress s b1 d1).toNat / 256 → b = s.scb ⟨c, 0⟩ →
    ∃ cc, exec (.tch i2 b1 d1) s = .next (s.answer (.cc cc)) ∧
      (s.cfg.channels[c.val]? = none → cc = 3) ∧
      (∀ ch, s.cfg.channels[c.val]? = some ch → ch.enabled = false → cc = 3) ∧
      (∀ ch, s.cfg.channels[c.val]? = some ch → ch.enabled = true →
        ((∃ n, ch.kind = .mux n) ∨ ch.kind = .blockMux true → cc = 0) ∧
        (ch.kind = .selector ∨ ch.kind = .blockMux false →
          (running b → cc = 2) ∧ (¬ running b → b.dev ≠ none → b.status ≠ 0 → cc = 1) ∧
          (¬ running b → (b.dev = none ∨ b.status = 0) → cc = 0)))

/-- The frame of the four instructions: configuration, CPU registers, requests, loader, boot-load mode and every SCB but the
address's stay; memory changes at most in the CSW and, for HIO of a dirty register, in the word of its position; no pending
entry but the address's changes (44_io_instructions.md R200, R208, R215, R221). -/
def Obligations.ChannelControlFrame : Prop :=
  ∀ (s t : State) (i : Instr) (i2 : Byte) (b1 : BitVec 4) (d1 : BitVec 12) (a : DevAddr), configWf s.cfg = true →
    a = deviceAddress s b1 d1 → exec i s = .next t →
    (i = .sio i2 b1 d1 ∨ i = .tio i2 b1 d1 ∨ i = .hio i2 b1 d1 ∨ i = .tch i2 b1 d1) →
    KeepsPlatform s t ∧ t.loading = s.loading ∧ KeepsAccessKeys s t ∧
    (∀ j, findSubchannel s.cfg a ≠ some j → t.scb j = s.scb j) ∧
    (∀ d, d ≠ a → t.pendAt d = s.pendAt d) ∧ (∀ c, c ≠ chanOf a → t.chpendAt c = s.chpendAt c) ∧
    ((i = .sio i2 b1 d1 ∨ i = .tio i2 b1 d1) → KeepsMemoryBut (inCsw s.cfg) s t) ∧
    (i = .tch i2 b1 d1 → t = s.answer t.result) ∧
    (i = .hio i2 b1 d1 → KeepsMemoryBut (fun x => inCsw s.cfg x ∨ ∃ id, findSubchannel s.cfg a = some id ∧
      (s.scb id).dirty = true ∧ inWordOf (s.scb id).position x) s t)

/-- The boot start. An address with no SCB or no device answers 3 and changes nothing, LOADING neither. Else boot-load mode is set and
the first CCW loaded at the given address with key 0, without the hook and the pending table: with a device that accepts the command
it answers 0; where the load fails, the CSW of the SCB as the load left it is stored, its status cleared as `store_status` clears it,
the SCB freed, boot-load mode stays set, and it answers 1 (44_io_instructions.md R226; 43_status.md R180; 10_state.md R34). -/
def Obligations.BootStartLoadsTheFirstCcw : Prop :=
  ∀ (s : State) (a : DevAddr) (ccwaddr : Word),
    ((findSubchannel s.cfg a = none ∨ findDevice s.cfg a = none) → bootStart a ccwaddr s = (s, 3)) ∧
    (∀ (id : ScbId) (dev : Binding) (caw : Addr) (b : Scb), Resolves s a id dev → caw = ccwaddr.extractLsb' 0 24 →
      b = boundScb a dev 0 caw (s.scb id) →
      (∀ (i : Instr) (f : CcwFields) (st : Byte), caw.toNat % 8 = 0 → accessFault s 0 caw false = none →
        decode .channel (eightBytes s caw) = .ok i → CommandCcw i f → FieldsLoad s 0 (caw + 4) f →
        st = (startCommand a f.cmd s).1 → accepts st = true →
        ∃ t, bootStart a ccwaddr s = (t, 0) ∧ t.loading = some a ∧
          t.scb id = commandAccepted st (loadedScb s (caw + 4) f { b with cmd := f.cmd }) ∧
          t.irq = (s.irq || acceptedRaisesIrq st (loadedFlags s.cfg noFlags f)) ∧ CalledStart a f.cmd s t ∧
          KeepsScbsBut id s t ∧ KeepsPlatform s t ∧ KeepsPending s t ∧ KeepsMemory s t ∧ KeepsReadKeys s t) ∧
      (∀ (u : State) (r : FailReason) (l : Scb), configWf s.cfg = true →
        loadNextCcw id false ({ s with loading := some a }.setScb id b) = (u, .fail r) → l = u.scb id →
        ∃ t, bootStart a ccwaddr s = (t, 1) ∧ t.loading = some a ∧
          StoresCsw (l.key ++ 0#4 ++ l.caw) (l.status ++ l.count) u t ∧
          t.scb id = freedScb { l with status := if l.status &&& stPCI ≠ 0 ∧ l.status &&& stCE = 0
                                                 then l.status &&& ~~~stPCI else 0 } ∧
          t.irq = u.irq ∧ KeepsCalls u t ∧ KeepsMemoryBut (inCsw s.cfg) s t ∧ KeepsScbsBut id s t ∧
          KeepsPlatform s t ∧ KeepsPending s t ∧ KeepsAccessKeys s t))

/-! ## Invariants, and reset -/

/-- Every step keeps the four sparse maps (memory, storage keys, pending table, SCBs) in canonical form, so that equal contents
are equal data (log 4, log 16: the form is the model's). -/
def Obligations.StepKeepsCanonicalForm : Prop :=
  ∀ (s t : State), CanonicalForm s → step s = .next t → CanonicalForm t

/-- Every step keeps every SCB's binding right: no device means no binding and an idle SCB, and a bound SCB is the one its
address selects and holds that address's binding (10_state.md R24, R28; 40_resolver.md R101, R104). -/
def Obligations.StepKeepsBindings : Prop :=
  ∀ (s t : State), BindingsOk s → step s = .next t → BindingsOk t

/-- Every step keeps every SCB's buffered data register right: a dirty register is not tagged empty and belongs to an input
command or an ended one, an active register's offset is that of the position, SKIP leaves it empty (10_state.md R26, R30;
42_transfer.md R142, R147; 70_reset_and_hazards.md R273). -/
def Obligations.StepKeepsRegisters : Prop :=
  ∀ (s t : State), RegistersOk s → step s = .next t → RegistersOk t

/-- Every step keeps three things visible to the scan: a pending status has its channel flagged, a flagged channel keeps IRQ set,
and an undelivered PCI of a bound SCB keeps IRQ set. Of a completed program nothing is said: after R126 one may wait with IRQ clear
(10_state.md R32; 43_status.md R185, R191). -/
def Obligations.StepKeepsPendingVisible : Prop :=
  ∀ (s t : State), BindingsOk s → PendingVisible s → PciVisible s → step s = .next t → PendingVisible t ∧ PciVisible t

/-- The state after reset has every SCB as R260 says, nothing pending, IRQ clear and no boot-load, and meets the invariants. A
reset request within the limits puts the block there under the new channels, and leaves memory, storage keys and the CPU's
registers; channels outside the limits are refused (70_reset_and_hazards.md R260, R262; the configuration after reset and the
refusal are the model's choices: log 1, log 13). -/
def Obligations.ResetLeavesTheBlockIdle : Prop :=
  (∀ id, State.reset.scb id =
    { dev := none, bind := none, caw := 0, cmd := 0, flags := noFlags, addr := 0, iaddr := 0, count := 0, key := 0,
      buf := 0, boff := none, dirty := false, chend := false, status := 0, chainHeld := false }) ∧
  (∀ a, State.reset.pendAt a = 0) ∧ State.reset.chpend = 0 ∧ State.reset.irq = false ∧ State.reset.loading = none ∧
  configWf State.reset.cfg = true ∧ CanonicalForm State.reset ∧ BindingsOk State.reset ∧ RegistersOk State.reset ∧
  PendingVisible State.reset ∧ PciVisible State.reset ∧
  (∀ (s : State) (cs : List Channel) (rest : List Request), configWf s.cfg = true → s.requests = .reset cs :: rest →
    (channelsWf cs = true → ∃ t, step s = .next t ∧ t.cfg = { s.cfg with channels := cs } ∧
      (∀ id, t.scb id = State.reset.scb id) ∧ (∀ a, t.pendAt a = 0) ∧ t.chpend = 0 ∧ t.irq = false ∧
      t.loading = none ∧ KeepsMemory s t ∧ KeepsKeys s t ∧ t.gr = s.gr ∧ t.requests = rest) ∧
    (channelsWf cs = false → step s = .refused .configuration))
end

