-- ==== Sys2Proof/Laws/Map.lean ====
section
/-! SUPPORT. The sparse maps: a read after a write, and the canonical form every write keeps. -/

namespace Sys2Proof.Machine

variable {α : Type} (d : α) (m : List (Nat × α)) (a b : Nat) (v : α)

theorem mapGet_mapErase : mapGet d (mapErase m a) b = if b = a then d else mapGet d m b := by
  induction m with
  | nil => simp [mapErase, mapGet]
  | cons p m ih =>
    obtain ⟨k, w⟩ := p
    simp only [mapErase, List.filter_cons] at ih ⊢
    by_cases hk : k = a
    · subst hk; simp only [bne_self_eq_false, Bool.false_eq_true, if_false, ih, mapGet]
      by_cases hb : b = k <;> simp [hb]
    · simp only [bne_iff_ne, ne_eq, hk, not_false_eq_true, if_true, mapGet, ih]
      by_cases hb : b = k
      · subst hb; simp [hk]
      · simp [hb]

theorem mapGet_mapInsert : mapGet d (mapInsert m a v) b = if b = a then v else mapGet d m b := by
  induction m with
  | nil => simp [mapInsert, mapGet]
  | cons p m ih =>
    obtain ⟨k, w⟩ := p
    simp only [mapInsert]
    split
    · simp [mapGet]
    · split
      · rename_i h; subst h; simp only [mapGet]; by_cases hb : b = a <;> simp [hb]
      · simp only [mapGet, ih]
        by_cases hb : b = k
        · subst hb; simp [show ¬ b = a by omega]
        · simp [hb]

/-- A read after a write. -/
@[simp] theorem mapGet_mapSet [DecidableEq α] :
    mapGet d (mapSet d m a v) b = if b = a then v else mapGet d m b := by
  unfold mapSet
  split
  · rename_i h; subst h; exact mapGet_mapErase _ _ _ _
  · exact mapGet_mapInsert _ _ _ _ _

theorem mem_mapInsert {m : List (Nat × α)} {a : Nat} {v : α} {p : Nat × α} (h : p ∈ mapInsert m a v) :
    p = (a, v) ∨ p ∈ m := by
  induction m with
  | nil => simpa [mapInsert] using h
  | cons q m ih =>
    obtain ⟨k, w⟩ := q
    simp only [mapInsert] at h
    split at h
    · simpa using h
    · split at h
      · rcases List.mem_cons.1 h with h | h
        · exact .inl h
        · exact .inr (List.mem_cons_of_mem _ h)
      · rcases List.mem_cons.1 h with h | h
        · exact .inr (by simp [h])
        · exact (ih h).imp_right (List.mem_cons_of_mem _)

theorem pairwise_mapInsert {m : List (Nat × α)} (h : m.Pairwise fun p q => p.1 < q.1) :
    (mapInsert m a v).Pairwise fun p q => p.1 < q.1 := by
  induction m with
  | nil => simp [mapInsert]
  | cons q m ih =>
    obtain ⟨k, w⟩ := q
    obtain ⟨hk, hm⟩ := List.pairwise_cons.1 h
    simp only [mapInsert]
    split
    · rename_i hlt
      refine List.pairwise_cons.2 ⟨fun p hp => ?_, h⟩
      rcases List.mem_cons.1 hp with rfl | hp
      · exact hlt
      · exact lt_trans hlt (hk p hp)
    · split
      · rename_i _ he; subst he
        exact List.pairwise_cons.2 ⟨hk, hm⟩
      · refine List.pairwise_cons.2 ⟨fun p hp => ?_, ih hm⟩
        rcases mem_mapInsert hp with rfl | hp
        · show k < a; omega
        · exact hk p hp

/-- Every write keeps the canonical form. -/
theorem mapWf_mapSet [DecidableEq α] (h : mapWf d m = true) : mapWf d (mapSet d m a v) = true := by
  simp only [mapWf, Bool.and_eq_true, decide_eq_true_eq, List.all_eq_true] at h ⊢
  obtain ⟨hp, hv⟩ := h
  unfold mapSet
  split
  · exact ⟨hp.filter _, fun p hq => hv p (List.mem_of_mem_filter hq)⟩
  · rename_i hne
    refine ⟨pairwise_mapInsert a v hp, fun p hq => ?_⟩
    rcases mem_mapInsert hq with rfl | hq
    · exact hne
    · exact hv p hq

@[simp] theorem mapWf_nil [DecidableEq α] : mapWf d ([] : List (Nat × α)) = true := rfl

theorem mapGet_eq_default {m : List (Nat × α)} {a : Nat} (h : ∀ p ∈ m, a < p.1) : mapGet d m a = d := by
  induction m with
  | nil => rfl
  | cons p m ih =>
    have h1 := h p (by simp)
    simp only [mapGet, show ¬ a = p.1 by omega, if_false]
    exact ih fun q hq => h q (List.mem_cons_of_mem _ hq)

/-- Two maps in canonical form that read the same are the same. -/
theorem mapGet_ext [DecidableEq α] {m n : List (Nat × α)} (hm : mapWf d m = true) (hn : mapWf d n = true)
    (h : ∀ a, mapGet d m a = mapGet d n a) : m = n := by
  simp only [mapWf, Bool.and_eq_true, decide_eq_true_eq, List.all_eq_true] at hm hn
  obtain ⟨hm, hmv⟩ := hm
  obtain ⟨hn, hnv⟩ := hn
  induction m generalizing n with
  | nil =>
    cases n with
    | nil => rfl
    | cons q n =>
      have := h q.1
      simp only [mapGet, if_true] at this
      exact absurd this.symm (hnv q (by simp))
  | cons p m ih =>
    obtain ⟨k, w⟩ := p
    obtain ⟨hk, hm'⟩ := List.pairwise_cons.1 hm
    cases n with
    | nil =>
      have := h k
      simp only [mapGet, if_true] at this
      exact absurd this (hmv (k, w) (by simp))
    | cons q n =>
      obtain ⟨l, x⟩ := q
      obtain ⟨hl, hn'⟩ := List.pairwise_cons.1 hn
      have hkl : k = l := by
        rcases lt_trichotomy k l with hlt | rfl | hlt
        · have := h k
          rw [mapGet_eq_default d (m := (l, x) :: n)] at this
          · simp only [mapGet, if_true] at this
            exact absurd this (hmv (k, w) (by simp))
          · intro p hp
            rcases List.mem_cons.1 hp with rfl | hp
            · exact hlt
            · exact lt_trans hlt (hl p hp)
        · rfl
        · have := h l
          rw [mapGet_eq_default d (m := (k, w) :: m)] at this
          · simp only [mapGet, if_true] at this
            exact absurd this.symm (hnv (l, x) (by simp))
          · intro p hp
            rcases List.mem_cons.1 hp with rfl | hp
            · exact hlt
            · exact lt_trans hlt (hk p hp)
      subst hkl
      have hw : w = x := by simpa [mapGet] using h k
      subst hw
      congr 1
      refine ih (fun a => ?_) hm' (fun p hp => hmv p (List.mem_cons_of_mem _ hp)) hn'
        (fun p hp => hnv p (List.mem_cons_of_mem _ hp))
      by_cases ha : a = k
      · subst ha
        rw [mapGet_eq_default d hk, mapGet_eq_default d hl]
      · simpa [mapGet, ha] using h a

end Sys2Proof.Machine
end

