-- ==== Sys2Proof/Laws/State.lean ====
section
/-! SUPPORT. One lemma per field per named update of the state, true by rfl, so that no proof unfolds a record update. -/

namespace Sys2Proof.Machine.State

variable (s : State)

@[simp] theorem setScb_cfg (id : ScbId) (b : Scb) : (s.setScb id b).cfg = s.cfg := rfl
@[simp] theorem setScb_pend (id : ScbId) (b : Scb) : (s.setScb id b).pend = s.pend := rfl
@[simp] theorem setScb_chpend (id : ScbId) (b : Scb) : (s.setScb id b).chpend = s.chpend := rfl
@[simp] theorem setScb_irq (id : ScbId) (b : Scb) : (s.setScb id b).irq = s.irq := rfl
@[simp] theorem setScb_loading (id : ScbId) (b : Scb) : (s.setScb id b).loading = s.loading := rfl
@[simp] theorem setScb_mem (id : ScbId) (b : Scb) : (s.setScb id b).mem = s.mem := rfl
@[simp] theorem setScb_skey (id : ScbId) (b : Scb) : (s.setScb id b).skey = s.skey := rfl
@[simp] theorem setScb_gr (id : ScbId) (b : Scb) : (s.setScb id b).gr = s.gr := rfl
@[simp] theorem setScb_requests (id : ScbId) (b : Scb) : (s.setScb id b).requests = s.requests := rfl
@[simp] theorem setScb_commandAnswers (id : ScbId) (b : Scb) : (s.setScb id b).commandAnswers = s.commandAnswers := rfl
@[simp] theorem setScb_startIoAnswers (id : ScbId) (b : Scb) : (s.setScb id b).startIoAnswers = s.startIoAnswers := rfl
@[simp] theorem setScb_haltIoAnswers (id : ScbId) (b : Scb) : (s.setScb id b).haltIoAnswers = s.haltIoAnswers := rfl
@[simp] theorem setScb_draws (id : ScbId) (b : Scb) : (s.setScb id b).draws = s.draws := rfl
@[simp] theorem setScb_result (id : ScbId) (b : Scb) : (s.setScb id b).result = s.result := rfl
@[simp] theorem setScb_callOuts (id : ScbId) (b : Scb) : (s.setScb id b).callOuts = s.callOuts := rfl
@[simp] theorem setScb_loader (id : ScbId) (b : Scb) : (s.setScb id b).loader = s.loader := rfl

@[simp] theorem updScb_cfg (id : ScbId) (f : Scb → Scb) : (s.updScb id f).cfg = s.cfg := rfl
@[simp] theorem updScb_pend (id : ScbId) (f : Scb → Scb) : (s.updScb id f).pend = s.pend := rfl
@[simp] theorem updScb_chpend (id : ScbId) (f : Scb → Scb) : (s.updScb id f).chpend = s.chpend := rfl
@[simp] theorem updScb_irq (id : ScbId) (f : Scb → Scb) : (s.updScb id f).irq = s.irq := rfl
@[simp] theorem updScb_loading (id : ScbId) (f : Scb → Scb) : (s.updScb id f).loading = s.loading := rfl
@[simp] theorem updScb_mem (id : ScbId) (f : Scb → Scb) : (s.updScb id f).mem = s.mem := rfl
@[simp] theorem updScb_skey (id : ScbId) (f : Scb → Scb) : (s.updScb id f).skey = s.skey := rfl
@[simp] theorem updScb_gr (id : ScbId) (f : Scb → Scb) : (s.updScb id f).gr = s.gr := rfl
@[simp] theorem updScb_requests (id : ScbId) (f : Scb → Scb) : (s.updScb id f).requests = s.requests := rfl
@[simp] theorem updScb_commandAnswers (id : ScbId) (f : Scb → Scb) : (s.updScb id f).commandAnswers = s.commandAnswers := rfl
@[simp] theorem updScb_startIoAnswers (id : ScbId) (f : Scb → Scb) : (s.updScb id f).startIoAnswers = s.startIoAnswers := rfl
@[simp] theorem updScb_haltIoAnswers (id : ScbId) (f : Scb → Scb) : (s.updScb id f).haltIoAnswers = s.haltIoAnswers := rfl
@[simp] theorem updScb_draws (id : ScbId) (f : Scb → Scb) : (s.updScb id f).draws = s.draws := rfl
@[simp] theorem updScb_result (id : ScbId) (f : Scb → Scb) : (s.updScb id f).result = s.result := rfl
@[simp] theorem updScb_callOuts (id : ScbId) (f : Scb → Scb) : (s.updScb id f).callOuts = s.callOuts := rfl
@[simp] theorem updScb_loader (id : ScbId) (f : Scb → Scb) : (s.updScb id f).loader = s.loader := rfl

@[simp] theorem raiseIrq_cfg : (s.raiseIrq).cfg = s.cfg := rfl
@[simp] theorem raiseIrq_scbs : (s.raiseIrq).scbs = s.scbs := rfl
@[simp] theorem raiseIrq_pend : (s.raiseIrq).pend = s.pend := rfl
@[simp] theorem raiseIrq_chpend : (s.raiseIrq).chpend = s.chpend := rfl
@[simp] theorem raiseIrq_loading : (s.raiseIrq).loading = s.loading := rfl
@[simp] theorem raiseIrq_mem : (s.raiseIrq).mem = s.mem := rfl
@[simp] theorem raiseIrq_skey : (s.raiseIrq).skey = s.skey := rfl
@[simp] theorem raiseIrq_gr : (s.raiseIrq).gr = s.gr := rfl
@[simp] theorem raiseIrq_requests : (s.raiseIrq).requests = s.requests := rfl
@[simp] theorem raiseIrq_commandAnswers : (s.raiseIrq).commandAnswers = s.commandAnswers := rfl
@[simp] theorem raiseIrq_startIoAnswers : (s.raiseIrq).startIoAnswers = s.startIoAnswers := rfl
@[simp] theorem raiseIrq_haltIoAnswers : (s.raiseIrq).haltIoAnswers = s.haltIoAnswers := rfl
@[simp] theorem raiseIrq_draws : (s.raiseIrq).draws = s.draws := rfl
@[simp] theorem raiseIrq_result : (s.raiseIrq).result = s.result := rfl
@[simp] theorem raiseIrq_callOuts : (s.raiseIrq).callOuts = s.callOuts := rfl
@[simp] theorem raiseIrq_loader : (s.raiseIrq).loader = s.loader := rfl

@[simp] theorem answer_cfg (r : OpResult) : (s.answer r).cfg = s.cfg := rfl
@[simp] theorem answer_scbs (r : OpResult) : (s.answer r).scbs = s.scbs := rfl
@[simp] theorem answer_pend (r : OpResult) : (s.answer r).pend = s.pend := rfl
@[simp] theorem answer_chpend (r : OpResult) : (s.answer r).chpend = s.chpend := rfl
@[simp] theorem answer_irq (r : OpResult) : (s.answer r).irq = s.irq := rfl
@[simp] theorem answer_loading (r : OpResult) : (s.answer r).loading = s.loading := rfl
@[simp] theorem answer_mem (r : OpResult) : (s.answer r).mem = s.mem := rfl
@[simp] theorem answer_skey (r : OpResult) : (s.answer r).skey = s.skey := rfl
@[simp] theorem answer_gr (r : OpResult) : (s.answer r).gr = s.gr := rfl
@[simp] theorem answer_requests (r : OpResult) : (s.answer r).requests = s.requests := rfl
@[simp] theorem answer_commandAnswers (r : OpResult) : (s.answer r).commandAnswers = s.commandAnswers := rfl
@[simp] theorem answer_startIoAnswers (r : OpResult) : (s.answer r).startIoAnswers = s.startIoAnswers := rfl
@[simp] theorem answer_haltIoAnswers (r : OpResult) : (s.answer r).haltIoAnswers = s.haltIoAnswers := rfl
@[simp] theorem answer_draws (r : OpResult) : (s.answer r).draws = s.draws := rfl
@[simp] theorem answer_callOuts (r : OpResult) : (s.answer r).callOuts = s.callOuts := rfl
@[simp] theorem answer_loader (r : OpResult) : (s.answer r).loader = s.loader := rfl

@[simp] theorem setByte_cfg (a : Nat) (b : Byte) : (s.setByte a b).cfg = s.cfg := rfl
@[simp] theorem setByte_scbs (a : Nat) (b : Byte) : (s.setByte a b).scbs = s.scbs := rfl
@[simp] theorem setByte_pend (a : Nat) (b : Byte) : (s.setByte a b).pend = s.pend := rfl
@[simp] theorem setByte_chpend (a : Nat) (b : Byte) : (s.setByte a b).chpend = s.chpend := rfl
@[simp] theorem setByte_irq (a : Nat) (b : Byte) : (s.setByte a b).irq = s.irq := rfl
@[simp] theorem setByte_loading (a : Nat) (b : Byte) : (s.setByte a b).loading = s.loading := rfl
@[simp] theorem setByte_skey (a : Nat) (b : Byte) : (s.setByte a b).skey = s.skey := rfl
@[simp] theorem setByte_gr (a : Nat) (b : Byte) : (s.setByte a b).gr = s.gr := rfl
@[simp] theorem setByte_requests (a : Nat) (b : Byte) : (s.setByte a b).requests = s.requests := rfl
@[simp] theorem setByte_commandAnswers (a : Nat) (b : Byte) : (s.setByte a b).commandAnswers = s.commandAnswers := rfl
@[simp] theorem setByte_startIoAnswers (a : Nat) (b : Byte) : (s.setByte a b).startIoAnswers = s.startIoAnswers := rfl
@[simp] theorem setByte_haltIoAnswers (a : Nat) (b : Byte) : (s.setByte a b).haltIoAnswers = s.haltIoAnswers := rfl
@[simp] theorem setByte_draws (a : Nat) (b : Byte) : (s.setByte a b).draws = s.draws := rfl
@[simp] theorem setByte_result (a : Nat) (b : Byte) : (s.setByte a b).result = s.result := rfl
@[simp] theorem setByte_callOuts (a : Nat) (b : Byte) : (s.setByte a b).callOuts = s.callOuts := rfl
@[simp] theorem setByte_loader (a : Nat) (b : Byte) : (s.setByte a b).loader = s.loader := rfl

@[simp] theorem setKey_cfg (p : Nat) (k : Byte) : (s.setKey p k).cfg = s.cfg := rfl
@[simp] theorem setKey_scbs (p : Nat) (k : Byte) : (s.setKey p k).scbs = s.scbs := rfl
@[simp] theorem setKey_pend (p : Nat) (k : Byte) : (s.setKey p k).pend = s.pend := rfl
@[simp] theorem setKey_chpend (p : Nat) (k : Byte) : (s.setKey p k).chpend = s.chpend := rfl
@[simp] theorem setKey_irq (p : Nat) (k : Byte) : (s.setKey p k).irq = s.irq := rfl
@[simp] theorem setKey_loading (p : Nat) (k : Byte) : (s.setKey p k).loading = s.loading := rfl
@[simp] theorem setKey_mem (p : Nat) (k : Byte) : (s.setKey p k).mem = s.mem := rfl
@[simp] theorem setKey_gr (p : Nat) (k : Byte) : (s.setKey p k).gr = s.gr := rfl
@[simp] theorem setKey_requests (p : Nat) (k : Byte) : (s.setKey p k).requests = s.requests := rfl
@[simp] theorem setKey_commandAnswers (p : Nat) (k : Byte) : (s.setKey p k).commandAnswers = s.commandAnswers := rfl
@[simp] theorem setKey_startIoAnswers (p : Nat) (k : Byte) : (s.setKey p k).startIoAnswers = s.startIoAnswers := rfl
@[simp] theorem setKey_haltIoAnswers (p : Nat) (k : Byte) : (s.setKey p k).haltIoAnswers = s.haltIoAnswers := rfl
@[simp] theorem setKey_draws (p : Nat) (k : Byte) : (s.setKey p k).draws = s.draws := rfl
@[simp] theorem setKey_result (p : Nat) (k : Byte) : (s.setKey p k).result = s.result := rfl
@[simp] theorem setKey_callOuts (p : Nat) (k : Byte) : (s.setKey p k).callOuts = s.callOuts := rfl
@[simp] theorem setKey_loader (p : Nat) (k : Byte) : (s.setKey p k).loader = s.loader := rfl

@[simp] theorem markKey_cfg (p : Nat) (m : Byte) : (s.markKey p m).cfg = s.cfg := rfl
@[simp] theorem markKey_scbs (p : Nat) (m : Byte) : (s.markKey p m).scbs = s.scbs := rfl
@[simp] theorem markKey_pend (p : Nat) (m : Byte) : (s.markKey p m).pend = s.pend := rfl
@[simp] theorem markKey_chpend (p : Nat) (m : Byte) : (s.markKey p m).chpend = s.chpend := rfl
@[simp] theorem markKey_irq (p : Nat) (m : Byte) : (s.markKey p m).irq = s.irq := rfl
@[simp] theorem markKey_loading (p : Nat) (m : Byte) : (s.markKey p m).loading = s.loading := rfl
@[simp] theorem markKey_mem (p : Nat) (m : Byte) : (s.markKey p m).mem = s.mem := rfl
@[simp] theorem markKey_gr (p : Nat) (m : Byte) : (s.markKey p m).gr = s.gr := rfl
@[simp] theorem markKey_requests (p : Nat) (m : Byte) : (s.markKey p m).requests = s.requests := rfl
@[simp] theorem markKey_commandAnswers (p : Nat) (m : Byte) : (s.markKey p m).commandAnswers = s.commandAnswers := rfl
@[simp] theorem markKey_startIoAnswers (p : Nat) (m : Byte) : (s.markKey p m).startIoAnswers = s.startIoAnswers := rfl
@[simp] theorem markKey_haltIoAnswers (p : Nat) (m : Byte) : (s.markKey p m).haltIoAnswers = s.haltIoAnswers := rfl
@[simp] theorem markKey_draws (p : Nat) (m : Byte) : (s.markKey p m).draws = s.draws := rfl
@[simp] theorem markKey_result (p : Nat) (m : Byte) : (s.markKey p m).result = s.result := rfl
@[simp] theorem markKey_callOuts (p : Nat) (m : Byte) : (s.markKey p m).callOuts = s.callOuts := rfl
@[simp] theorem markKey_loader (p : Nat) (m : Byte) : (s.markKey p m).loader = s.loader := rfl

@[simp] theorem setWord_cfg (a : Addr) (v : Word) : (s.setWord a v).cfg = s.cfg := rfl
@[simp] theorem setWord_scbs (a : Addr) (v : Word) : (s.setWord a v).scbs = s.scbs := rfl
@[simp] theorem setWord_pend (a : Addr) (v : Word) : (s.setWord a v).pend = s.pend := rfl
@[simp] theorem setWord_chpend (a : Addr) (v : Word) : (s.setWord a v).chpend = s.chpend := rfl
@[simp] theorem setWord_irq (a : Addr) (v : Word) : (s.setWord a v).irq = s.irq := rfl
@[simp] theorem setWord_loading (a : Addr) (v : Word) : (s.setWord a v).loading = s.loading := rfl
@[simp] theorem setWord_skey (a : Addr) (v : Word) : (s.setWord a v).skey = s.skey := rfl
@[simp] theorem setWord_gr (a : Addr) (v : Word) : (s.setWord a v).gr = s.gr := rfl
@[simp] theorem setWord_requests (a : Addr) (v : Word) : (s.setWord a v).requests = s.requests := rfl
@[simp] theorem setWord_commandAnswers (a : Addr) (v : Word) : (s.setWord a v).commandAnswers = s.commandAnswers := rfl
@[simp] theorem setWord_startIoAnswers (a : Addr) (v : Word) : (s.setWord a v).startIoAnswers = s.startIoAnswers := rfl
@[simp] theorem setWord_haltIoAnswers (a : Addr) (v : Word) : (s.setWord a v).haltIoAnswers = s.haltIoAnswers := rfl
@[simp] theorem setWord_draws (a : Addr) (v : Word) : (s.setWord a v).draws = s.draws := rfl
@[simp] theorem setWord_result (a : Addr) (v : Word) : (s.setWord a v).result = s.result := rfl
@[simp] theorem setWord_callOuts (a : Addr) (v : Word) : (s.setWord a v).callOuts = s.callOuts := rfl
@[simp] theorem setWord_loader (a : Addr) (v : Word) : (s.setWord a v).loader = s.loader := rfl

@[simp] theorem setPend_cfg (a : DevAddr) (v : Byte) : (s.setPend a v).cfg = s.cfg := rfl
@[simp] theorem setPend_scbs (a : DevAddr) (v : Byte) : (s.setPend a v).scbs = s.scbs := rfl
@[simp] theorem setPend_chpend (a : DevAddr) (v : Byte) : (s.setPend a v).chpend = s.chpend := rfl
@[simp] theorem setPend_irq (a : DevAddr) (v : Byte) : (s.setPend a v).irq = s.irq := rfl
@[simp] theorem setPend_loading (a : DevAddr) (v : Byte) : (s.setPend a v).loading = s.loading := rfl
@[simp] theorem setPend_mem (a : DevAddr) (v : Byte) : (s.setPend a v).mem = s.mem := rfl
@[simp] theorem setPend_skey (a : DevAddr) (v : Byte) : (s.setPend a v).skey = s.skey := rfl
@[simp] theorem setPend_gr (a : DevAddr) (v : Byte) : (s.setPend a v).gr = s.gr := rfl
@[simp] theorem setPend_requests (a : DevAddr) (v : Byte) : (s.setPend a v).requests = s.requests := rfl
@[simp] theorem setPend_commandAnswers (a : DevAddr) (v : Byte) : (s.setPend a v).commandAnswers = s.commandAnswers := rfl
@[simp] theorem setPend_startIoAnswers (a : DevAddr) (v : Byte) : (s.setPend a v).startIoAnswers = s.startIoAnswers := rfl
@[simp] theorem setPend_haltIoAnswers (a : DevAddr) (v : Byte) : (s.setPend a v).haltIoAnswers = s.haltIoAnswers := rfl
@[simp] theorem setPend_draws (a : DevAddr) (v : Byte) : (s.setPend a v).draws = s.draws := rfl
@[simp] theorem setPend_result (a : DevAddr) (v : Byte) : (s.setPend a v).result = s.result := rfl
@[simp] theorem setPend_callOuts (a : DevAddr) (v : Byte) : (s.setPend a v).callOuts = s.callOuts := rfl
@[simp] theorem setPend_loader (a : DevAddr) (v : Byte) : (s.setPend a v).loader = s.loader := rfl

@[simp] theorem setChpend_cfg (c : Fin 16) (v : Bool) : (s.setChpend c v).cfg = s.cfg := rfl
@[simp] theorem setChpend_scbs (c : Fin 16) (v : Bool) : (s.setChpend c v).scbs = s.scbs := rfl
@[simp] theorem setChpend_pend (c : Fin 16) (v : Bool) : (s.setChpend c v).pend = s.pend := rfl
@[simp] theorem setChpend_irq (c : Fin 16) (v : Bool) : (s.setChpend c v).irq = s.irq := rfl
@[simp] theorem setChpend_loading (c : Fin 16) (v : Bool) : (s.setChpend c v).loading = s.loading := rfl
@[simp] theorem setChpend_mem (c : Fin 16) (v : Bool) : (s.setChpend c v).mem = s.mem := rfl
@[simp] theorem setChpend_skey (c : Fin 16) (v : Bool) : (s.setChpend c v).skey = s.skey := rfl
@[simp] theorem setChpend_gr (c : Fin 16) (v : Bool) : (s.setChpend c v).gr = s.gr := rfl
@[simp] theorem setChpend_requests (c : Fin 16) (v : Bool) : (s.setChpend c v).requests = s.requests := rfl
@[simp] theorem setChpend_commandAnswers (c : Fin 16) (v : Bool) : (s.setChpend c v).commandAnswers = s.commandAnswers := rfl
@[simp] theorem setChpend_startIoAnswers (c : Fin 16) (v : Bool) : (s.setChpend c v).startIoAnswers = s.startIoAnswers := rfl
@[simp] theorem setChpend_haltIoAnswers (c : Fin 16) (v : Bool) : (s.setChpend c v).haltIoAnswers = s.haltIoAnswers := rfl
@[simp] theorem setChpend_draws (c : Fin 16) (v : Bool) : (s.setChpend c v).draws = s.draws := rfl
@[simp] theorem setChpend_result (c : Fin 16) (v : Bool) : (s.setChpend c v).result = s.result := rfl
@[simp] theorem setChpend_callOuts (c : Fin 16) (v : Bool) : (s.setChpend c v).callOuts = s.callOuts := rfl
@[simp] theorem setChpend_loader (c : Fin 16) (v : Bool) : (s.setChpend c v).loader = s.loader := rfl

@[simp] theorem raiseIrq_irq : s.raiseIrq.irq = true := rfl
@[simp] theorem answer_result (r : OpResult) : (s.answer r).result = r := rfl

@[simp] theorem byteAt_setScb (id : ScbId) (b : Scb) (x : Nat) : (s.setScb id b).byteAt x = s.byteAt x := rfl
@[simp] theorem keyAt_setScb (id : ScbId) (b : Scb) (q : Nat) : (s.setScb id b).keyAt q = s.keyAt q := rfl
@[simp] theorem pendAt_setScb (id : ScbId) (b : Scb) (d : DevAddr) : (s.setScb id b).pendAt d = s.pendAt d := rfl
@[simp] theorem wordAt_setScb (id : ScbId) (b : Scb) (w : Addr) : (s.setScb id b).wordAt w = s.wordAt w := rfl
@[simp] theorem chpendAt_setScb (id : ScbId) (b : Scb) (e : Fin 16) : (s.setScb id b).chpendAt e = s.chpendAt e := rfl

@[simp] theorem byteAt_updScb (id : ScbId) (f : Scb → Scb) (x : Nat) : (s.updScb id f).byteAt x = s.byteAt x := rfl
@[simp] theorem keyAt_updScb (id : ScbId) (f : Scb → Scb) (q : Nat) : (s.updScb id f).keyAt q = s.keyAt q := rfl
@[simp] theorem pendAt_updScb (id : ScbId) (f : Scb → Scb) (d : DevAddr) : (s.updScb id f).pendAt d = s.pendAt d := rfl
@[simp] theorem wordAt_updScb (id : ScbId) (f : Scb → Scb) (w : Addr) : (s.updScb id f).wordAt w = s.wordAt w := rfl
@[simp] theorem chpendAt_updScb (id : ScbId) (f : Scb → Scb) (e : Fin 16) : (s.updScb id f).chpendAt e = s.chpendAt e := rfl

@[simp] theorem scb_raiseIrq (i : ScbId) : (s.raiseIrq).scb i = s.scb i := rfl
@[simp] theorem byteAt_raiseIrq (x : Nat) : (s.raiseIrq).byteAt x = s.byteAt x := rfl
@[simp] theorem keyAt_raiseIrq (q : Nat) : (s.raiseIrq).keyAt q = s.keyAt q := rfl
@[simp] theorem pendAt_raiseIrq (d : DevAddr) : (s.raiseIrq).pendAt d = s.pendAt d := rfl
@[simp] theorem wordAt_raiseIrq (w : Addr) : (s.raiseIrq).wordAt w = s.wordAt w := rfl
@[simp] theorem chpendAt_raiseIrq (e : Fin 16) : (s.raiseIrq).chpendAt e = s.chpendAt e := rfl

@[simp] theorem scb_answer (r : OpResult) (i : ScbId) : (s.answer r).scb i = s.scb i := rfl
@[simp] theorem byteAt_answer (r : OpResult) (x : Nat) : (s.answer r).byteAt x = s.byteAt x := rfl
@[simp] theorem keyAt_answer (r : OpResult) (q : Nat) : (s.answer r).keyAt q = s.keyAt q := rfl
@[simp] theorem pendAt_answer (r : OpResult) (d : DevAddr) : (s.answer r).pendAt d = s.pendAt d := rfl
@[simp] theorem wordAt_answer (r : OpResult) (w : Addr) : (s.answer r).wordAt w = s.wordAt w := rfl
@[simp] theorem chpendAt_answer (r : OpResult) (e : Fin 16) : (s.answer r).chpendAt e = s.chpendAt e := rfl

@[simp] theorem scb_setByte (a : Nat) (b : Byte) (i : ScbId) : (s.setByte a b).scb i = s.scb i := rfl
@[simp] theorem keyAt_setByte (a : Nat) (b : Byte) (q : Nat) : (s.setByte a b).keyAt q = s.keyAt q := rfl
@[simp] theorem pendAt_setByte (a : Nat) (b : Byte) (d : DevAddr) : (s.setByte a b).pendAt d = s.pendAt d := rfl
@[simp] theorem chpendAt_setByte (a : Nat) (b : Byte) (e : Fin 16) : (s.setByte a b).chpendAt e = s.chpendAt e := rfl

@[simp] theorem scb_setKey (p : Nat) (k : Byte) (i : ScbId) : (s.setKey p k).scb i = s.scb i := rfl
@[simp] theorem byteAt_setKey (p : Nat) (k : Byte) (x : Nat) : (s.setKey p k).byteAt x = s.byteAt x := rfl
@[simp] theorem pendAt_setKey (p : Nat) (k : Byte) (d : DevAddr) : (s.setKey p k).pendAt d = s.pendAt d := rfl
@[simp] theorem wordAt_setKey (p : Nat) (k : Byte) (w : Addr) : (s.setKey p k).wordAt w = s.wordAt w := rfl
@[simp] theorem chpendAt_setKey (p : Nat) (k : Byte) (e : Fin 16) : (s.setKey p k).chpendAt e = s.chpendAt e := rfl

@[simp] theorem scb_markKey (p : Nat) (m : Byte) (i : ScbId) : (s.markKey p m).scb i = s.scb i := rfl
@[simp] theorem byteAt_markKey (p : Nat) (m : Byte) (x : Nat) : (s.markKey p m).byteAt x = s.byteAt x := rfl
@[simp] theorem pendAt_markKey (p : Nat) (m : Byte) (d : DevAddr) : (s.markKey p m).pendAt d = s.pendAt d := rfl
@[simp] theorem wordAt_markKey (p : Nat) (m : Byte) (w : Addr) : (s.markKey p m).wordAt w = s.wordAt w := rfl
@[simp] theorem chpendAt_markKey (p : Nat) (m : Byte) (e : Fin 16) : (s.markKey p m).chpendAt e = s.chpendAt e := rfl

@[simp] theorem scb_setWord (a : Addr) (v : Word) (i : ScbId) : (s.setWord a v).scb i = s.scb i := rfl
@[simp] theorem keyAt_setWord (a : Addr) (v : Word) (q : Nat) : (s.setWord a v).keyAt q = s.keyAt q := rfl
@[simp] theorem pendAt_setWord (a : Addr) (v : Word) (d : DevAddr) : (s.setWord a v).pendAt d = s.pendAt d := rfl
@[simp] theorem chpendAt_setWord (a : Addr) (v : Word) (e : Fin 16) : (s.setWord a v).chpendAt e = s.chpendAt e := rfl

@[simp] theorem scb_setPend (a : DevAddr) (v : Byte) (i : ScbId) : (s.setPend a v).scb i = s.scb i := rfl
@[simp] theorem byteAt_setPend (a : DevAddr) (v : Byte) (x : Nat) : (s.setPend a v).byteAt x = s.byteAt x := rfl
@[simp] theorem keyAt_setPend (a : DevAddr) (v : Byte) (q : Nat) : (s.setPend a v).keyAt q = s.keyAt q := rfl
@[simp] theorem wordAt_setPend (a : DevAddr) (v : Byte) (w : Addr) : (s.setPend a v).wordAt w = s.wordAt w := rfl
@[simp] theorem chpendAt_setPend (a : DevAddr) (v : Byte) (e : Fin 16) : (s.setPend a v).chpendAt e = s.chpendAt e := rfl

@[simp] theorem scb_setChpend (c : Fin 16) (v : Bool) (i : ScbId) : (s.setChpend c v).scb i = s.scb i := rfl
@[simp] theorem byteAt_setChpend (c : Fin 16) (v : Bool) (x : Nat) : (s.setChpend c v).byteAt x = s.byteAt x := rfl
@[simp] theorem keyAt_setChpend (c : Fin 16) (v : Bool) (q : Nat) : (s.setChpend c v).keyAt q = s.keyAt q := rfl
@[simp] theorem pendAt_setChpend (c : Fin 16) (v : Bool) (d : DevAddr) : (s.setChpend c v).pendAt d = s.pendAt d := rfl
@[simp] theorem wordAt_setChpend (c : Fin 16) (v : Bool) (w : Addr) : (s.setChpend c v).wordAt w = s.wordAt w := rfl

@[simp] theorem scb_with_cfg (v) (i : ScbId) : State.scb ({ s with cfg := v }) i = s.scb i := rfl
@[simp] theorem scb_with_pend (v) (i : ScbId) : State.scb ({ s with pend := v }) i = s.scb i := rfl
@[simp] theorem scb_with_chpend (v) (i : ScbId) : State.scb ({ s with chpend := v }) i = s.scb i := rfl
@[simp] theorem scb_with_irq (v) (i : ScbId) : State.scb ({ s with irq := v }) i = s.scb i := rfl
@[simp] theorem scb_with_loading (v) (i : ScbId) : State.scb ({ s with loading := v }) i = s.scb i := rfl
@[simp] theorem scb_with_mem (v) (i : ScbId) : State.scb ({ s with mem := v }) i = s.scb i := rfl
@[simp] theorem scb_with_skey (v) (i : ScbId) : State.scb ({ s with skey := v }) i = s.scb i := rfl
@[simp] theorem scb_with_gr (v) (i : ScbId) : State.scb ({ s with gr := v }) i = s.scb i := rfl
@[simp] theorem scb_with_requests (v) (i : ScbId) : State.scb ({ s with requests := v }) i = s.scb i := rfl
@[simp] theorem scb_with_commandAnswers (v) (i : ScbId) : State.scb ({ s with commandAnswers := v }) i = s.scb i := rfl
@[simp] theorem scb_with_startIoAnswers (v) (i : ScbId) : State.scb ({ s with startIoAnswers := v }) i = s.scb i := rfl
@[simp] theorem scb_with_haltIoAnswers (v) (i : ScbId) : State.scb ({ s with haltIoAnswers := v }) i = s.scb i := rfl
@[simp] theorem scb_with_draws (v) (i : ScbId) : State.scb ({ s with draws := v }) i = s.scb i := rfl
@[simp] theorem scb_with_result (v) (i : ScbId) : State.scb ({ s with result := v }) i = s.scb i := rfl
@[simp] theorem scb_with_callOuts (v) (i : ScbId) : State.scb ({ s with callOuts := v }) i = s.scb i := rfl
@[simp] theorem scb_with_loader (v) (i : ScbId) : State.scb ({ s with loader := v }) i = s.scb i := rfl
@[simp] theorem byteAt_with_cfg (v) (x : Nat) : State.byteAt ({ s with cfg := v }) x = s.byteAt x := rfl
@[simp] theorem byteAt_with_scbs (v) (x : Nat) : State.byteAt ({ s with scbs := v }) x = s.byteAt x := rfl
@[simp] theorem byteAt_with_pend (v) (x : Nat) : State.byteAt ({ s with pend := v }) x = s.byteAt x := rfl
@[simp] theorem byteAt_with_chpend (v) (x : Nat) : State.byteAt ({ s with chpend := v }) x = s.byteAt x := rfl
@[simp] theorem byteAt_with_irq (v) (x : Nat) : State.byteAt ({ s with irq := v }) x = s.byteAt x := rfl
@[simp] theorem byteAt_with_loading (v) (x : Nat) : State.byteAt ({ s with loading := v }) x = s.byteAt x := rfl
@[simp] theorem byteAt_with_skey (v) (x : Nat) : State.byteAt ({ s with skey := v }) x = s.byteAt x := rfl
@[simp] theorem byteAt_with_gr (v) (x : Nat) : State.byteAt ({ s with gr := v }) x = s.byteAt x := rfl
@[simp] theorem byteAt_with_requests (v) (x : Nat) : State.byteAt ({ s with requests := v }) x = s.byteAt x := rfl
@[simp] theorem byteAt_with_commandAnswers (v) (x : Nat) : State.byteAt ({ s with commandAnswers := v }) x = s.byteAt x := rfl
@[simp] theorem byteAt_with_startIoAnswers (v) (x : Nat) : State.byteAt ({ s with startIoAnswers := v }) x = s.byteAt x := rfl
@[simp] theorem byteAt_with_haltIoAnswers (v) (x : Nat) : State.byteAt ({ s with haltIoAnswers := v }) x = s.byteAt x := rfl
@[simp] theorem byteAt_with_draws (v) (x : Nat) : State.byteAt ({ s with draws := v }) x = s.byteAt x := rfl
@[simp] theorem byteAt_with_result (v) (x : Nat) : State.byteAt ({ s with result := v }) x = s.byteAt x := rfl
@[simp] theorem byteAt_with_callOuts (v) (x : Nat) : State.byteAt ({ s with callOuts := v }) x = s.byteAt x := rfl
@[simp] theorem byteAt_with_loader (v) (x : Nat) : State.byteAt ({ s with loader := v }) x = s.byteAt x := rfl
@[simp] theorem keyAt_with_cfg (v) (q : Nat) : State.keyAt ({ s with cfg := v }) q = s.keyAt q := rfl
@[simp] theorem keyAt_with_scbs (v) (q : Nat) : State.keyAt ({ s with scbs := v }) q = s.keyAt q := rfl
@[simp] theorem keyAt_with_pend (v) (q : Nat) : State.keyAt ({ s with pend := v }) q = s.keyAt q := rfl
@[simp] theorem keyAt_with_chpend (v) (q : Nat) : State.keyAt ({ s with chpend := v }) q = s.keyAt q := rfl
@[simp] theorem keyAt_with_irq (v) (q : Nat) : State.keyAt ({ s with irq := v }) q = s.keyAt q := rfl
@[simp] theorem keyAt_with_loading (v) (q : Nat) : State.keyAt ({ s with loading := v }) q = s.keyAt q := rfl
@[simp] theorem keyAt_with_mem (v) (q : Nat) : State.keyAt ({ s with mem := v }) q = s.keyAt q := rfl
@[simp] theorem keyAt_with_gr (v) (q : Nat) : State.keyAt ({ s with gr := v }) q = s.keyAt q := rfl
@[simp] theorem keyAt_with_requests (v) (q : Nat) : State.keyAt ({ s with requests := v }) q = s.keyAt q := rfl
@[simp] theorem keyAt_with_commandAnswers (v) (q : Nat) : State.keyAt ({ s with commandAnswers := v }) q = s.keyAt q := rfl
@[simp] theorem keyAt_with_startIoAnswers (v) (q : Nat) : State.keyAt ({ s with startIoAnswers := v }) q = s.keyAt q := rfl
@[simp] theorem keyAt_with_haltIoAnswers (v) (q : Nat) : State.keyAt ({ s with haltIoAnswers := v }) q = s.keyAt q := rfl
@[simp] theorem keyAt_with_draws (v) (q : Nat) : State.keyAt ({ s with draws := v }) q = s.keyAt q := rfl
@[simp] theorem keyAt_with_result (v) (q : Nat) : State.keyAt ({ s with result := v }) q = s.keyAt q := rfl
@[simp] theorem keyAt_with_callOuts (v) (q : Nat) : State.keyAt ({ s with callOuts := v }) q = s.keyAt q := rfl
@[simp] theorem keyAt_with_loader (v) (q : Nat) : State.keyAt ({ s with loader := v }) q = s.keyAt q := rfl
@[simp] theorem pendAt_with_cfg (v) (d : DevAddr) : State.pendAt ({ s with cfg := v }) d = s.pendAt d := rfl
@[simp] theorem pendAt_with_scbs (v) (d : DevAddr) : State.pendAt ({ s with scbs := v }) d = s.pendAt d := rfl
@[simp] theorem pendAt_with_chpend (v) (d : DevAddr) : State.pendAt ({ s with chpend := v }) d = s.pendAt d := rfl
@[simp] theorem pendAt_with_irq (v) (d : DevAddr) : State.pendAt ({ s with irq := v }) d = s.pendAt d := rfl
@[simp] theorem pendAt_with_loading (v) (d : DevAddr) : State.pendAt ({ s with loading := v }) d = s.pendAt d := rfl
@[simp] theorem pendAt_with_mem (v) (d : DevAddr) : State.pendAt ({ s with mem := v }) d = s.pendAt d := rfl
@[simp] theorem pendAt_with_skey (v) (d : DevAddr) : State.pendAt ({ s with skey := v }) d = s.pendAt d := rfl
@[simp] theorem pendAt_with_gr (v) (d : DevAddr) : State.pendAt ({ s with gr := v }) d = s.pendAt d := rfl
@[simp] theorem pendAt_with_requests (v) (d : DevAddr) : State.pendAt ({ s with requests := v }) d = s.pendAt d := rfl
@[simp] theorem pendAt_with_commandAnswers (v) (d : DevAddr) : State.pendAt ({ s with commandAnswers := v }) d = s.pendAt d := rfl
@[simp] theorem pendAt_with_startIoAnswers (v) (d : DevAddr) : State.pendAt ({ s with startIoAnswers := v }) d = s.pendAt d := rfl
@[simp] theorem pendAt_with_haltIoAnswers (v) (d : DevAddr) : State.pendAt ({ s with haltIoAnswers := v }) d = s.pendAt d := rfl
@[simp] theorem pendAt_with_draws (v) (d : DevAddr) : State.pendAt ({ s with draws := v }) d = s.pendAt d := rfl
@[simp] theorem pendAt_with_result (v) (d : DevAddr) : State.pendAt ({ s with result := v }) d = s.pendAt d := rfl
@[simp] theorem pendAt_with_callOuts (v) (d : DevAddr) : State.pendAt ({ s with callOuts := v }) d = s.pendAt d := rfl
@[simp] theorem pendAt_with_loader (v) (d : DevAddr) : State.pendAt ({ s with loader := v }) d = s.pendAt d := rfl
@[simp] theorem wordAt_with_cfg (v) (w : Addr) : State.wordAt ({ s with cfg := v }) w = s.wordAt w := rfl
@[simp] theorem wordAt_with_scbs (v) (w : Addr) : State.wordAt ({ s with scbs := v }) w = s.wordAt w := rfl
@[simp] theorem wordAt_with_pend (v) (w : Addr) : State.wordAt ({ s with pend := v }) w = s.wordAt w := rfl
@[simp] theorem wordAt_with_chpend (v) (w : Addr) : State.wordAt ({ s with chpend := v }) w = s.wordAt w := rfl
@[simp] theorem wordAt_with_irq (v) (w : Addr) : State.wordAt ({ s with irq := v }) w = s.wordAt w := rfl
@[simp] theorem wordAt_with_loading (v) (w : Addr) : State.wordAt ({ s with loading := v }) w = s.wordAt w := rfl
@[simp] theorem wordAt_with_skey (v) (w : Addr) : State.wordAt ({ s with skey := v }) w = s.wordAt w := rfl
@[simp] theorem wordAt_with_gr (v) (w : Addr) : State.wordAt ({ s with gr := v }) w = s.wordAt w := rfl
@[simp] theorem wordAt_with_requests (v) (w : Addr) : State.wordAt ({ s with requests := v }) w = s.wordAt w := rfl
@[simp] theorem wordAt_with_commandAnswers (v) (w : Addr) : State.wordAt ({ s with commandAnswers := v }) w = s.wordAt w := rfl
@[simp] theorem wordAt_with_startIoAnswers (v) (w : Addr) : State.wordAt ({ s with startIoAnswers := v }) w = s.wordAt w := rfl
@[simp] theorem wordAt_with_haltIoAnswers (v) (w : Addr) : State.wordAt ({ s with haltIoAnswers := v }) w = s.wordAt w := rfl
@[simp] theorem wordAt_with_draws (v) (w : Addr) : State.wordAt ({ s with draws := v }) w = s.wordAt w := rfl
@[simp] theorem wordAt_with_result (v) (w : Addr) : State.wordAt ({ s with result := v }) w = s.wordAt w := rfl
@[simp] theorem wordAt_with_callOuts (v) (w : Addr) : State.wordAt ({ s with callOuts := v }) w = s.wordAt w := rfl
@[simp] theorem wordAt_with_loader (v) (w : Addr) : State.wordAt ({ s with loader := v }) w = s.wordAt w := rfl
@[simp] theorem chpendAt_with_cfg (v) (e : Fin 16) : State.chpendAt ({ s with cfg := v }) e = s.chpendAt e := rfl
@[simp] theorem chpendAt_with_scbs (v) (e : Fin 16) : State.chpendAt ({ s with scbs := v }) e = s.chpendAt e := rfl
@[simp] theorem chpendAt_with_pend (v) (e : Fin 16) : State.chpendAt ({ s with pend := v }) e = s.chpendAt e := rfl
@[simp] theorem chpendAt_with_irq (v) (e : Fin 16) : State.chpendAt ({ s with irq := v }) e = s.chpendAt e := rfl
@[simp] theorem chpendAt_with_loading (v) (e : Fin 16) : State.chpendAt ({ s with loading := v }) e = s.chpendAt e := rfl
@[simp] theorem chpendAt_with_mem (v) (e : Fin 16) : State.chpendAt ({ s with mem := v }) e = s.chpendAt e := rfl
@[simp] theorem chpendAt_with_skey (v) (e : Fin 16) : State.chpendAt ({ s with skey := v }) e = s.chpendAt e := rfl
@[simp] theorem chpendAt_with_gr (v) (e : Fin 16) : State.chpendAt ({ s with gr := v }) e = s.chpendAt e := rfl
@[simp] theorem chpendAt_with_requests (v) (e : Fin 16) : State.chpendAt ({ s with requests := v }) e = s.chpendAt e := rfl
@[simp] theorem chpendAt_with_commandAnswers (v) (e : Fin 16) : State.chpendAt ({ s with commandAnswers := v }) e = s.chpendAt e := rfl
@[simp] theorem chpendAt_with_startIoAnswers (v) (e : Fin 16) : State.chpendAt ({ s with startIoAnswers := v }) e = s.chpendAt e := rfl
@[simp] theorem chpendAt_with_haltIoAnswers (v) (e : Fin 16) : State.chpendAt ({ s with haltIoAnswers := v }) e = s.chpendAt e := rfl
@[simp] theorem chpendAt_with_draws (v) (e : Fin 16) : State.chpendAt ({ s with draws := v }) e = s.chpendAt e := rfl
@[simp] theorem chpendAt_with_result (v) (e : Fin 16) : State.chpendAt ({ s with result := v }) e = s.chpendAt e := rfl
@[simp] theorem chpendAt_with_callOuts (v) (e : Fin 16) : State.chpendAt ({ s with callOuts := v }) e = s.chpendAt e := rfl
@[simp] theorem chpendAt_with_loader (v) (e : Fin 16) : State.chpendAt ({ s with loader := v }) e = s.chpendAt e := rfl

end Sys2Proof.Machine.State
end

