-- ==== Sys2Proof/Laws/Ops.lean ====
section
/-! SUPPORT. What each named operation over the state does: reads after writes, the memory shim (spec/20_memory.md), recording a
fault and delivering a status. -/

namespace Sys2Proof.Machine

/-! ## Subchannel control blocks -/

theorem ScbId.index_inj {i j : ScbId} : i.index = j.index ↔ i = j := by
  obtain ⟨⟨c, hc⟩, ⟨k, hk⟩⟩ := i
  obtain ⟨⟨c', hc'⟩, ⟨k', hk'⟩⟩ := j
  simp only [ScbId.index, ScbId.mk.injEq, Fin.mk.injEq]
  omega

theorem scb_setScb (s : State) (i j : ScbId) (b : Scb) : (s.setScb i b).scb j = if j = i then b else s.scb j := by
  simp [State.scb, State.setScb, ScbId.index_inj]

@[simp] theorem scb_setScb_self (s : State) (i : ScbId) (b : Scb) : (s.setScb i b).scb i = b := by simp [scb_setScb]

theorem scb_updScb (s : State) (i j : ScbId) (f : Scb → Scb) :
    (s.updScb i f).scb j = if j = i then f (s.scb i) else s.scb j := by simp [State.updScb, scb_setScb]

@[simp] theorem scb_updScb_self (s : State) (i : ScbId) (f : Scb → Scb) : (s.updScb i f).scb i = f (s.scb i) := by
  simp [scb_updScb]

theorem scb_updScb_ne (s : State) {i j : ScbId} (f : Scb → Scb) (h : j ≠ i) : (s.updScb i f).scb j = s.scb j := by
  simp [scb_updScb, h]

/-! ## Memory -/

@[simp] theorem byteAt_setByte (s : State) (a x : Nat) (b : Byte) :
    (s.setByte a b).byteAt x = if x = a then b else s.byteAt x := by simp [State.byteAt, State.setByte]

@[simp] theorem keyAt_setKey (s : State) (p q : Nat) (k : Byte) :
    (s.setKey p k).keyAt q = if q = p then k else s.keyAt q := by simp [State.keyAt, State.setKey]

@[simp] theorem keyAt_markKey (s : State) (p q : Nat) (m : Byte) :
    (s.markKey p m).keyAt q = if q = p then s.keyAt q ||| m else s.keyAt q := by
  simp only [State.markKey, keyAt_setKey]
  split
  · rename_i h; rw [h]
  · rfl

@[simp] theorem pendAt_setPend (s : State) (a d : DevAddr) (v : Byte) :
    (s.setPend a v).pendAt d = if d = a then v else s.pendAt d := by
  simp [State.pendAt, State.setPend, ← BitVec.toNat_inj]

theorem wordAddr_toNat (a : Addr) : (wordAddr a).toNat = a.toNat / 4 * 4 := by
  have hm : ∀ i : Nat, i < 24 → (0xFFFFFC#24).getLsbD i = decide (2 ≤ i) := by decide
  have h : wordAddr a = (a >>> 2) <<< 2 := by
    apply BitVec.eq_of_getLsbD_eq
    intro i hi
    show (a &&& 0xFFFFFC#24).getLsbD i = _
    rw [BitVec.getLsbD_and, hm i hi, BitVec.getLsbD_shiftLeft, BitVec.getLsbD_ushiftRight]
    rcases Nat.lt_or_ge i 2 with h2 | h2
    · simp [h2, show ¬ 2 ≤ i by omega]
    · simp [h2, hi, show ¬ i < 2 by omega, show 2 + (i - 2) = i by omega]
  rw [h]
  simp only [BitVec.toNat_shiftLeft, BitVec.toNat_ushiftRight, Nat.shiftRight_eq_div_pow, Nat.shiftLeft_eq]
  have := a.isLt
  omega

/-- The four byte addresses of a word. -/
def inWord (a : Addr) (x : Nat) : Prop := (wordAddr a).toNat ≤ x ∧ x < (wordAddr a).toNat + 4

theorem byteAt_setWord_outside (s : State) (a : Addr) (v : Word) {x : Nat} (h : ¬ inWord a x) :
    (s.setWord a v).byteAt x = s.byteAt x := by
  simp only [inWord, not_and, not_lt] at h
  simp only [State.setWord, byteAt_setByte]
  rw [if_neg (by omega), if_neg (by omega), if_neg (by omega), if_neg (by omega)]

theorem wordByte_join (v : Word) :
    wordOfBytes (wordByte v 0) (wordByte v 1) (wordByte v 2) (wordByte v 3) = v := by
  unfold wordOfBytes wordByte
  ext i hi
  simp only [BitVec.getElem_append, BitVec.getElem_extractLsb']
  split
  · simp [BitVec.getLsbD_eq_getElem hi]
  · split
    · simp; rw [BitVec.getLsbD_eq_getElem (by omega)]; congr 1; omega
    · split
      · simp; rw [BitVec.getLsbD_eq_getElem (by omega)]; congr 1; omega
      · simp; rw [BitVec.getLsbD_eq_getElem (by omega)]; congr 1; omega

/-- A word read back after it was stored. -/
@[simp] theorem wordAt_setWord_self (s : State) (a : Addr) (v : Word) : (s.setWord a v).wordAt a = v := by
  simp only [State.wordAt, State.setWord, byteAt_setByte]
  simp
  exact wordByte_join v

theorem wordAt_congr {s t : State} {a : Addr} (h : ∀ x, inWord a x → t.byteAt x = s.byteAt x) : t.wordAt a = s.wordAt a := by
  unfold State.wordAt
  simp only
  rw [h _ ⟨by omega, by omega⟩, h _ ⟨by omega, by omega⟩, h _ ⟨by omega, by omega⟩, h _ ⟨by omega, by omega⟩]

theorem inWord_unique {a b : Addr} {x : Nat} (ha : inWord a x) (hb : inWord b x) : wordAddr a = wordAddr b := by
  apply BitVec.eq_of_toNat_eq
  simp only [inWord, wordAddr_toNat] at ha hb ⊢
  omega

theorem wordAt_setWord_ne (s : State) {a b : Addr} (v : Word) (h : wordAddr b ≠ wordAddr a) :
    (s.setWord a v).wordAt b = s.wordAt b :=
  wordAt_congr fun _ hx => byteAt_setWord_outside _ _ _ fun ha => h (inWord_unique hx ha)

/-! ## The shim -/

theorem addressingError_iff {s : State} {a : Addr} (h : s.cfg.memSize % 4 = 0) :
    addressingError s a = true ↔ s.cfg.memSize ≤ a.toNat := by
  simp only [addressingError, decide_eq_true_eq, wordAddr_toNat]
  omega

/-- An access check looks at the configuration and the storage keys only. -/
theorem accessFault_congr {s t : State} (hc : t.cfg = s.cfg) (hk : t.skey = s.skey) (k : BitVec 4) (a : Addr) (w : Bool) :
    accessFault t k a w = accessFault s k a w := by
  simp [accessFault, addressingError, protectionError, State.keyAt, hc, hk]

@[simp] theorem accessFault_updScb (s : State) (i : ScbId) (f : Scb → Scb) (k a w) :
    accessFault (s.updScb i f) k a w = accessFault s k a w := accessFault_congr rfl rfl k a w

@[simp] theorem accessFault_raiseIrq (s : State) (k a w) : accessFault s.raiseIrq k a w = accessFault s k a w :=
  accessFault_congr rfl rfl k a w

@[simp] theorem accessFault_answer (s : State) (r k a w) : accessFault (s.answer r) k a w = accessFault s k a w :=
  accessFault_congr rfl rfl k a w

@[simp] theorem accessFault_setWord (s : State) (b v k a w) : accessFault (s.setWord b v) k a w = accessFault s k a w :=
  accessFault_congr rfl rfl k a w

@[simp] theorem accessFault_setPend (s : State) (b v k a w) : accessFault (s.setPend b v) k a w = accessFault s k a w :=
  accessFault_congr rfl rfl k a w

@[simp] theorem accessFault_setChpend (s : State) (b v k a w) :
    accessFault (s.setChpend b v) k a w = accessFault s k a w := accessFault_congr rfl rfl k a w

theorem key_bits_marked (x : Byte) (m : Byte) (h : m = 0x04 ∨ m = 0x06) :
    (x ||| m).extractLsb' 4 4 = x.extractLsb' 4 4 ∧ anyBits (x ||| m) 0x08 = anyBits x 0x08 := by
  rcases h with rfl | rfl <;> revert x <;> decide

/-- Setting referenced or changed bits changes no access check: they take no part in the protection test (R51, R54). -/
@[simp] theorem accessFault_markKey (s : State) (p : Nat) (m : Byte) (h : m = 0x04 ∨ m = 0x06) (k a w) :
    accessFault (s.markKey p m) k a w = accessFault s k a w := by
  have hk : protectionError (s.markKey p m) k a w = protectionError s k a w := by
    simp only [protectionError, keyAt_markKey, State.markKey_cfg]
    split
    · obtain ⟨h1, h2⟩ := key_bits_marked (s.keyAt (pageOf a)) m h
      rw [h1, h2]
    · rfl
  simp only [accessFault, hk]
  rfl

theorem readWord_ok {s : State} {k : BitVec 4} {a : Addr} (h : accessFault s k a false = none) :
    readWord s k a = .ok (s.wordAt a, s.markKey (pageOf a) 0x04) := by simp [readWord, h]

theorem readWord_error {s : State} {k : BitVec 4} {a : Addr} {e : MemFault} (h : accessFault s k a false = some e) :
    readWord s k a = .error e := by simp [readWord, h]

theorem writeWord_ok {s : State} {k : BitVec 4} {a : Addr} {v : Word} (h : accessFault s k a true = none) :
    writeWord s k a v = .ok ((s.setWord a v).markKey (pageOf a) 0x06) := by simp [writeWord, h]

theorem writeWord_error {s : State} {k : BitVec 4} {a : Addr} {v : Word} {e : MemFault}
    (h : accessFault s k a true = some e) : writeWord s k a v = .error e := by simp [writeWord, h]

/-- Everything a read can do: the checks, the word, and the page's referenced bit. -/
theorem readWord_cases (s : State) (k : BitVec 4) (a : Addr) :
    (∃ e, accessFault s k a false = some e ∧ readWord s k a = .error e) ∨
    (accessFault s k a false = none ∧ readWord s k a = .ok (s.wordAt a, s.markKey (pageOf a) 0x04)) := by
  cases h : accessFault s k a false with
  | some e => exact .inl ⟨e, rfl, readWord_error h⟩
  | none => exact .inr ⟨rfl, readWord_ok h⟩

/-- Everything a write can do: the checks, the word stored, and the page's referenced and changed bits. -/
theorem writeWord_cases (s : State) (k : BitVec 4) (a : Addr) (v : Word) :
    (∃ e, accessFault s k a true = some e ∧ writeWord s k a v = .error e) ∨
    (accessFault s k a true = none ∧ writeWord s k a v = .ok ((s.setWord a v).markKey (pageOf a) 0x06)) := by
  cases h : accessFault s k a true with
  | some e => exact .inl ⟨e, rfl, writeWord_error h⟩
  | none => exact .inr ⟨rfl, writeWord_ok h⟩

/-- Key 0 is never protected (R54, R61). -/
theorem accessFault_key_zero (s : State) (a : Addr) (w : Bool) :
    accessFault s 0 a w = if addressingError s a then some .addressing else none := by
  simp [accessFault, protectionError]

/-! ## Limits of the configuration -/

theorem memoryWf_of_configWf {cfg : Config} (h : configWf cfg = true) : memoryWf cfg = true := by
  simp only [configWf, Bool.and_eq_true] at h; exact h.2

theorem memoryWf_iff {cfg : Config} : memoryWf cfg = true ↔
    cfg.memSize % 2048 = 0 ∧ 0x50 ≤ cfg.memSize ∧ cfg.memSize ≤ 2 ^ 24 ∧ cfg.cswAddr.toNat % 8 = 0 ∧
    cfg.cswAddr.toNat + 8 ≤ cfg.memSize ∧ cfg.cawAddr.toNat % 4 = 0 ∧ cfg.cawAddr.toNat + 4 ≤ cfg.memSize := by
  simp [memoryWf, and_assoc]

/-- The architected CSW words can be accessed (R61). -/
theorem cswAddr_access {s : State} (h : memoryWf s.cfg = true) (w : Bool) :
    accessFault s 0 s.cfg.cswAddr w = none ∧ accessFault s 0 (s.cfg.cswAddr + 4) w = none := by
  obtain ⟨h1, -, h3, h4, h5, -, -⟩ := memoryWf_iff.1 h
  have hm : s.cfg.memSize % 4 = 0 := by omega
  have e4 : (s.cfg.cswAddr + 4).toNat = s.cfg.cswAddr.toNat + 4 := by
    rw [BitVec.toNat_add]; simp; omega
  constructor <;> rw [accessFault_key_zero, if_neg] <;> rw [addressingError_iff hm] <;> omega

/-- The architected CAW word can be accessed (R61). -/
theorem cawAddr_access {s : State} (h : memoryWf s.cfg = true) (w : Bool) : accessFault s 0 s.cfg.cawAddr w = none := by
  obtain ⟨h1, -, -, -, -, -, h7⟩ := memoryWf_iff.1 h
  have hm : s.cfg.memSize % 4 = 0 := by omega
  rw [accessFault_key_zero, if_neg]
  rw [addressingError_iff hm]; omega

end Sys2Proof.Machine
end

