-- ==== Sys2Proof/Laws/Canonical.lean ====
section
/-! SUPPORT. The canonical form of memory and of the other sparse maps: reset has it, every operation that writes keeps it
(log 4, log 16). -/

namespace Sys2Proof.Machine

/-- Memory right after reset is in canonical form. -/
theorem reset_memory_wf : Memory.wf State.reset.mem = true := rfl

/-- A store of a byte keeps memory's form. -/
theorem setByte_memory_wf {s : State} (h : Memory.wf s.mem = true) (a : Nat) (b : Byte) :
    Memory.wf (s.setByte a b).mem = true :=
  mapWf_mapSet _ _ _ _ h

/-- A store of a word keeps memory's form. -/
theorem setWord_memory_wf {s : State} (h : Memory.wf s.mem = true) (a : Addr) (v : Word) :
    Memory.wf (s.setWord a v).mem = true :=
  setByte_memory_wf (setByte_memory_wf (setByte_memory_wf (setByte_memory_wf h _ _) _ _) _ _) _ _

/-- `ReadWord` stores nothing. -/
theorem readWord_mem {s t : State} {k : BitVec 4} {a : Addr} {w : Word} (h : readWord s k a = .ok (w, t)) : t.mem = s.mem := by
  unfold readWord at h
  split at h <;> cases h
  rfl

/-- `WriteWord` keeps memory's form. -/
theorem writeWord_memory_wf {s t : State} {k : BitVec 4} {a : Addr} {v : Word} (h : Memory.wf s.mem = true)
    (ht : writeWord s k a v = .ok t) : Memory.wf t.mem = true := by
  unfold writeWord at ht
  split at ht <;> cases ht
  exact setWord_memory_wf h a v

/-- A store at an architected location keeps memory's form. -/
theorem storeArchitected_memory_wf {s : State} (h : Memory.wf s.mem = true) (a : Addr) (v : Word) :
    Memory.wf (storeArchitected s a v).mem = true := by
  unfold storeArchitected
  split
  · rename_i ht; exact writeWord_memory_wf h ht
  · exact h

/-- A store of the CSW keeps memory's form. -/
theorem storeCsw_memory_wf {s : State} (h : Memory.wf s.mem = true) (w0 w1 : Word) :
    Memory.wf (storeCsw w0 w1 s).mem = true :=
  storeArchitected_memory_wf (storeArchitected_memory_wf h _ _) _ _

/-- A store of a storage key keeps the keys' form. -/
theorem setKey_skey_wf {s : State} (h : mapWf 0 s.skey = true) (p : Nat) (k : Byte) : mapWf 0 (s.setKey p k).skey = true :=
  mapWf_mapSet _ _ _ _ h

/-- A store in the pending-status table keeps its form. -/
theorem setPend_pend_wf {s : State} (h : mapWf 0 s.pend = true) (a : DevAddr) (v : Byte) :
    mapWf 0 (s.setPend a v).pend = true :=
  mapWf_mapSet _ _ _ _ h

/-- A store of an SCB keeps the form of the SCBs. -/
theorem setScb_scbs_wf {s : State} (h : mapWf idleScb s.scbs = true) (id : ScbId) (b : Scb) :
    mapWf idleScb (s.setScb id b).scbs = true :=
  mapWf_mapSet _ _ _ _ h

end Sys2Proof.Machine
end

