-- ==== Sys2Proof/Laws/Decode.lean ====
section
/-! SUPPORT. What the decoder gives: the stream, the class and the fields (spec/30_encoding.md R70, R74, R77). -/

namespace Sys2Proof

open Sys2Proof.Machine (classOf wordOfBytes)

/-- Everything `decodeCcw` can give: the CCW of the class of the command code, with the fields of the two words. -/
theorem decodeCcw_cases (w0 w1 : Word) :
    (classOf (ccwFieldsOf w0 w1).cmd = .write ∧ decodeCcw w0 w1 = .ccwWrite (ccwFieldsOf w0 w1)) ∨
    (classOf (ccwFieldsOf w0 w1).cmd = .read ∧ decodeCcw w0 w1 = .ccwRead (ccwFieldsOf w0 w1)) ∨
    (classOf (ccwFieldsOf w0 w1).cmd = .control ∧ decodeCcw w0 w1 = .ccwControl (ccwFieldsOf w0 w1)) ∨
    (classOf (ccwFieldsOf w0 w1).cmd = .sense ∧ decodeCcw w0 w1 = .ccwSense (ccwFieldsOf w0 w1)) ∨
    (classOf (ccwFieldsOf w0 w1).cmd = .rdbwd ∧ decodeCcw w0 w1 = .ccwRdbwd (ccwFieldsOf w0 w1)) ∨
    (classOf (ccwFieldsOf w0 w1).cmd = .invalid ∧ decodeCcw w0 w1 = .ccwInvalid (ccwFieldsOf w0 w1)) ∨
    (classOf (ccwFieldsOf w0 w1).cmd = .tic ∧
      decodeCcw w0 w1 = .ccwTic (ccwFieldsOf w0 w1).cmd (ccwFieldsOf w0 w1).data w1) := by
  unfold decodeCcw
  cases h : classOf (ccwFieldsOf w0 w1).cmd <;> simp [h]

/-- `decodeCcw` gives a CCW. -/
@[simp] theorem decodeCcw_source (w0 w1 : Word) : (decodeCcw w0 w1).source = .channel := by
  rcases decodeCcw_cases w0 w1 with ⟨_, h⟩ | ⟨_, h⟩ | ⟨_, h⟩ | ⟨_, h⟩ | ⟨_, h⟩ | ⟨_, h⟩ | ⟨_, h⟩ <;> rw [h] <;> rfl

/-- `decodeCcw` gives a well-formed instruction. -/
@[simp] theorem decodeCcw_wellFormed (w0 w1 : Word) : (decodeCcw w0 w1).wellFormed = true := by
  rcases decodeCcw_cases w0 w1 with ⟨c, h⟩ | ⟨c, h⟩ | ⟨c, h⟩ | ⟨c, h⟩ | ⟨c, h⟩ | ⟨c, h⟩ | ⟨c, h⟩ <;> rw [h] <;>
    simp [Instr.wellFormed, c]

/-- Everything `decodeCpu` can give: the instruction of the opcode, with the fields of the word, or the opcode refused. -/
theorem decodeCpu_cases (w : Word) :
    (w.extractLsb' 24 8 = 0x9C#8 ∧
      decodeCpu w = .ok (.sio (w.extractLsb' 16 8) (w.extractLsb' 12 4) (w.extractLsb' 0 12))) ∨
    (w.extractLsb' 24 8 = 0x9D#8 ∧
      decodeCpu w = .ok (.tio (w.extractLsb' 16 8) (w.extractLsb' 12 4) (w.extractLsb' 0 12))) ∨
    (w.extractLsb' 24 8 = 0x9E#8 ∧
      decodeCpu w = .ok (.hio (w.extractLsb' 16 8) (w.extractLsb' 12 4) (w.extractLsb' 0 12))) ∨
    (w.extractLsb' 24 8 = 0x9F#8 ∧
      decodeCpu w = .ok (.tch (w.extractLsb' 16 8) (w.extractLsb' 12 4) (w.extractLsb' 0 12))) ∨
    decodeCpu w = .error (.notChannelControl (w.extractLsb' 24 8)) := by
  unfold decodeCpu
  by_cases h1 : w.extractLsb' 24 8 = 0x9C#8
  · exact .inl ⟨h1, by simp [h1]⟩
  by_cases h2 : w.extractLsb' 24 8 = 0x9D#8
  · exact .inr (.inl ⟨h2, by simp [h2]⟩)
  by_cases h3 : w.extractLsb' 24 8 = 0x9E#8
  · exact .inr (.inr (.inl ⟨h3, by simp [h3]⟩))
  by_cases h4 : w.extractLsb' 24 8 = 0x9F#8
  · exact .inr (.inr (.inr (.inl ⟨h4, by simp [h4]⟩)))
  · exact .inr (.inr (.inr (.inr (by simp [h1, h2, h3, h4]))))

/-- What `decodeCpu` accepts is a CPU instruction, and well formed. -/
theorem decodeCpu_ok {w : Word} {i : Instr} (h : decodeCpu w = .ok i) : i.source = .cpu ∧ i.wellFormed = true := by
  rcases decodeCpu_cases w with ⟨_, e⟩ | ⟨_, e⟩ | ⟨_, e⟩ | ⟨_, e⟩ | e <;> rw [e] at h <;> cases h <;> exact ⟨rfl, rfl⟩

end Sys2Proof
end

