-- ==== Sys2Proof/Laws/Frames.lean ====
section
/-! SUPPORT. The frames of Safety.lean are kept along a run of operations, and by each basic update. -/

namespace Sys2Proof.Machine

variable {s t u : State}

theorem KeepsPlatform.refl (s : State) : KeepsPlatform s s := ⟨rfl, rfl, rfl, rfl⟩

theorem KeepsPlatform.trans (h : KeepsPlatform s t) (k : KeepsPlatform t u) : KeepsPlatform s u :=
  ⟨k.cfg.trans h.cfg, k.gr.trans h.gr, k.requests.trans h.requests, k.loader.trans h.loader⟩

theorem KeepsCalls.refl (s : State) : KeepsCalls s s := ⟨rfl, rfl, rfl, rfl, rfl⟩

theorem KeepsCalls.trans (h : KeepsCalls s t) (k : KeepsCalls t u) : KeepsCalls s u :=
  ⟨k.callOuts.trans h.callOuts, k.commandAnswers.trans h.commandAnswers, k.startIoAnswers.trans h.startIoAnswers,
    k.haltIoAnswers.trans h.haltIoAnswers, k.draws.trans h.draws⟩

theorem KeepsPending.refl (s : State) : KeepsPending s s := ⟨fun _ => rfl, rfl⟩

theorem KeepsPending.trans (h : KeepsPending s t) (k : KeepsPending t u) : KeepsPending s u :=
  ⟨fun a => (k.pend a).trans (h.pend a), k.chpend.trans h.chpend⟩

theorem KeepsMemory.refl (s : State) : KeepsMemory s s := fun _ => rfl

theorem KeepsMemory.trans (h : KeepsMemory s t) (k : KeepsMemory t u) : KeepsMemory s u :=
  fun x => (k x).trans (h x)

theorem KeepsMemoryBut.refl (P : Nat → Prop) (s : State) : KeepsMemoryBut P s s := fun _ _ => rfl

theorem KeepsMemoryBut.trans {P : Nat → Prop} (h : KeepsMemoryBut P s t) (k : KeepsMemoryBut P t u) :
    KeepsMemoryBut P s u := fun x hx => (k x hx).trans (h x hx)

theorem KeepsMemory.but (h : KeepsMemory s t) (P : Nat → Prop) : KeepsMemoryBut P s t := fun x _ => h x

theorem KeepsScbs.but (h : KeepsScbs s t) (id : ScbId) : KeepsScbsBut id s t := fun j _ => h j

theorem KeepsScbsBut.refl (id : ScbId) (s : State) : KeepsScbsBut id s s := fun _ _ => rfl

theorem KeepsScbsBut.trans {id : ScbId} (h : KeepsScbsBut id s t) (k : KeepsScbsBut id t u) : KeepsScbsBut id s u :=
  fun j hj => (k j hj).trans (h j hj)

theorem KeepsAccessKeys.refl (s : State) : KeepsAccessKeys s s := fun _ => .inl rfl

theorem KeepsKeys.access (h : KeepsKeys s t) : KeepsAccessKeys s t := fun p => .inl (h p)

theorem marks_compose (k : Byte) : (k ||| 0x04) ||| 0x04 = k ||| 0x04 ∧ (k ||| 0x04) ||| 0x06 = k ||| 0x06 ∧
    (k ||| 0x06) ||| 0x04 = k ||| 0x06 ∧ (k ||| 0x06) ||| 0x06 = k ||| 0x06 := by
  refine ⟨?_, ?_, ?_, ?_⟩ <;> rw [BitVec.or_assoc] <;> rfl

theorem KeepsReadKeys.refl (s : State) : KeepsReadKeys s s := fun _ => .inl rfl

theorem KeepsKeys.read (h : KeepsKeys s t) : KeepsReadKeys s t := fun p => .inl (h p)

theorem KeepsReadKeys.access (h : KeepsReadKeys s t) : KeepsAccessKeys s t := fun p => (h p).imp_right .inl

theorem KeepsReadKeys.trans (h : KeepsReadKeys s t) (k : KeepsReadKeys t u) : KeepsReadKeys s u := by
  intro p
  have m := (marks_compose (s.keyAt p)).1
  rcases h p with h | h <;> rcases k p with k | k <;> rw [k, h] <;> simp only [m] <;> tauto

theorem KeepsReadKeys.mark (s : State) (p : Nat) : KeepsReadKeys s (s.markKey p 0x04) := by
  intro q
  rw [keyAt_markKey]
  split
  · exact .inr rfl
  · exact .inl rfl

theorem KeepsAccessKeys.trans (h : KeepsAccessKeys s t) (k : KeepsAccessKeys t u) : KeepsAccessKeys s u := by
  intro p
  obtain ⟨m1, m2, m3, m4⟩ := marks_compose (s.keyAt p)
  rcases h p with h | h | h <;> rcases k p with k | k | k <;> rw [k, h] <;> simp only [m1, m2, m3, m4] <;> tauto

theorem KeepsAccessKeys.markRead (s : State) (p : Nat) : KeepsAccessKeys s (s.markKey p 0x04) := by
  intro q
  rw [keyAt_markKey]
  split
  · exact .inr (.inl rfl)
  · exact .inl rfl

theorem KeepsAccessKeys.markWrite (s : State) (p : Nat) : KeepsAccessKeys s (s.markKey p 0x06) := by
  intro q
  rw [keyAt_markKey]
  split
  · exact .inr (.inr rfl)
  · exact .inl rfl

theorem KeepsOutside.refl (s : State) : KeepsOutside s s := ⟨.refl s, .refl s, .refl s, rfl, .refl s⟩

theorem KeepsOutside.trans (h : KeepsOutside s t) (k : KeepsOutside t u) : KeepsOutside s u :=
  ⟨h.platform.trans k.platform, h.calls.trans k.calls, h.pending.trans k.pending, k.loading.trans h.loading,
    h.memory.trans k.memory⟩

theorem KeepsOutside.updScb (s : State) (i : ScbId) (f : Scb → Scb) : KeepsOutside s (s.updScb i f) :=
  ⟨⟨rfl, rfl, rfl, rfl⟩, ⟨rfl, rfl, rfl, rfl, rfl⟩, ⟨fun _ => rfl, rfl⟩, rfl, fun _ => rfl⟩

theorem KeepsOutside.raiseIrq (s : State) : KeepsOutside s s.raiseIrq :=
  ⟨⟨rfl, rfl, rfl, rfl⟩, ⟨rfl, rfl, rfl, rfl, rfl⟩, ⟨fun _ => rfl, rfl⟩, rfl, fun _ => rfl⟩

theorem KeepsOutside.markKey (s : State) (p : Nat) (m : Byte) : KeepsOutside s (s.markKey p m) :=
  ⟨⟨rfl, rfl, rfl, rfl⟩, ⟨rfl, rfl, rfl, rfl, rfl⟩, ⟨fun _ => rfl, rfl⟩, rfl, fun _ => rfl⟩

theorem LoadFrame.refl (id : ScbId) (s : State) : LoadFrame id s s :=
  ⟨.refl s, .refl s, rfl, .refl s, .refl id s, .refl s, rfl, rfl⟩

theorem LoadFrame.trans {id : ScbId} (h : LoadFrame id s t) (k : LoadFrame id t u) : LoadFrame id s u :=
  ⟨h.platform.trans k.platform, h.pending.trans k.pending, k.loading.trans h.loading, h.memory.trans k.memory,
    h.others.trans k.others, h.keys.trans k.keys, k.startIoAnswers.trans h.startIoAnswers,
    k.haltIoAnswers.trans h.haltIoAnswers⟩

theorem LoadFrame.updScb (id : ScbId) (s : State) (f : Scb → Scb) : LoadFrame id s (s.updScb id f) :=
  ⟨⟨rfl, rfl, rfl, rfl⟩, ⟨fun _ => rfl, rfl⟩, rfl, fun _ => rfl, fun _ hj => scb_updScb_ne s f hj, fun _ => .inl rfl,
    rfl, rfl⟩

theorem LoadFrame.raiseIrq (id : ScbId) (s : State) : LoadFrame id s s.raiseIrq :=
  ⟨⟨rfl, rfl, rfl, rfl⟩, ⟨fun _ => rfl, rfl⟩, rfl, fun _ => rfl, fun _ _ => rfl, fun _ => .inl rfl, rfl, rfl⟩

theorem LoadFrame.answer (id : ScbId) (s : State) (r : OpResult) : LoadFrame id s (s.answer r) :=
  ⟨⟨rfl, rfl, rfl, rfl⟩, ⟨fun _ => rfl, rfl⟩, rfl, fun _ => rfl, fun _ _ => rfl, fun _ => .inl rfl, rfl, rfl⟩

theorem LoadFrame.markRead (id : ScbId) (s : State) (p : Nat) : LoadFrame id s (s.markKey p 0x04) :=
  ⟨⟨rfl, rfl, rfl, rfl⟩, ⟨fun _ => rfl, rfl⟩, rfl, fun _ => rfl, fun _ _ => rfl, .mark s p, rfl, rfl⟩

/-- A `start_command` is one call-out and takes one answer; nothing else changes. -/
theorem startCommand_called (a : DevAddr) (op : Byte) (s : State) : CalledStart a op s (startCommand a op s).2 := by
  unfold startCommand
  cases h : s.commandAnswers <;> constructor <;> simp [h]

theorem LoadFrame.startCommand (id : ScbId) (a : DevAddr) (op : Byte) (s : State) :
    LoadFrame id s (startCommand a op s).2 := by
  unfold Machine.startCommand
  cases h : s.commandAnswers <;> simp only [] <;>
    exact ⟨⟨rfl, rfl, rfl, rfl⟩, ⟨fun _ => rfl, rfl⟩, rfl, fun _ => rfl, fun _ _ => rfl, fun _ => .inl rfl, rfl, rfl⟩

theorem KeepsKeys.refl (s : State) : KeepsKeys s s := fun _ => rfl

theorem KeepsKeys.trans {s t u : State} (h : KeepsKeys s t) (k : KeepsKeys t u) : KeepsKeys s u :=
  fun p => (k p).trans (h p)

/-- The calls a device saw stay, along operations that call none. -/
theorem CalledStart.trans_keeps {a : DevAddr} {op : Byte} {s t u : State} (h : CalledStart a op s t)
    (k : KeepsCalls t u) : CalledStart a op s u :=
  ⟨k.callOuts.trans h.callOuts, k.commandAnswers.trans h.commandAnswers, k.startIoAnswers.trans h.startIoAnswers,
    k.haltIoAnswers.trans h.haltIoAnswers, k.draws.trans h.draws⟩

theorem CalledStart.of_keeps {a : DevAddr} {op : Byte} {s t u : State} (k : KeepsCalls s t)
    (h : CalledStart a op t u) : CalledStart a op s u := by
  obtain ⟨h1, h2, h3, h4, h5⟩ := h
  refine ⟨?_, ?_, ?_, ?_, ?_⟩
  · rw [h1, k.callOuts]
  · rw [h2, k.commandAnswers]
  · rw [h3, k.startIoAnswers]
  · rw [h4, k.haltIoAnswers]
  · rw [h5, k.commandAnswers, k.draws]

theorem KeepsCalls.updScb (s : State) (i : ScbId) (f : Scb → Scb) : KeepsCalls s (s.updScb i f) := ⟨rfl, rfl, rfl, rfl, rfl⟩

theorem KeepsCalls.raiseIrq (s : State) : KeepsCalls s s.raiseIrq := ⟨rfl, rfl, rfl, rfl, rfl⟩

theorem KeepsCalls.markKey (s : State) (p : Nat) (m : Byte) : KeepsCalls s (s.markKey p m) := ⟨rfl, rfl, rfl, rfl, rfl⟩

theorem KeepsCalls.answer (s : State) (r : OpResult) : KeepsCalls s (s.answer r) := ⟨rfl, rfl, rfl, rfl, rfl⟩

end Sys2Proof.Machine
end

