-- ==== Sys2Proof/Laws/Loader.lean ====
section
/-! SUPPORT. What a CCW load can do (spec/41_ccw_loader.md R110): a property of states that every basic update of a load keeps is
kept by the load. Frames and invariants follow from it without unfolding the load. -/

namespace Sys2Proof.Machine

/-! ## Status bits -/

theorem anyBits_or {n : Nat} (x y m : BitVec n) : anyBits (x ||| y) m = (anyBits x m || anyBits y m) := by
  rw [Bool.eq_iff_iff]
  simp only [anyBits, BitVec.and_or_distrib_right, bne_iff_ne, ne_eq, Bool.or_eq_true]
  change ¬ (_ = 0#n) ↔ ¬ (_ = 0#n) ∨ ¬ (_ = 0#n)
  rw [BitVec.or_eq_zero_iff]
  tauto

theorem anyBits_iff {n : Nat} (x m : BitVec n) : anyBits x m = true ↔ x &&& m ≠ 0 := by simp [anyBits]

theorem anyBits_false_iff {n : Nat} (x m : BitVec n) : anyBits x m = false ↔ x &&& m = 0 := by simp [anyBits]

/-- A device byte holds no PCI. -/
@[simp] theorem anyBits_deviceByte_pci (st : Byte) : anyBits (deviceByte st) stPCI = false := by
  revert st; decide

/-- A mask that keeps the bits of a test keeps the test. -/
theorem anyBits_and_keep {n : Nat} {x y m : BitVec n} (h : y &&& m = m) : anyBits (x &&& y) m = anyBits x m := by
  simp only [anyBits, BitVec.and_assoc, h]

/-! ## Closed properties -/

/-- An update of an SCB that keeps its binding, key and buffer. -/
def KeepsBinding (f : Scb → Scb) : Prop :=
  ∀ b, (f b).dev = b.dev ∧ (f b).bind = b.bind ∧ (f b).key = b.key ∧ (f b).buf = b.buf

/-- An update of an SCB that leaves PCI as it is. -/
def SamePci (f : Scb → Scb) : Prop := ∀ b, anyBits (f b).status stPCI = anyBits b.status stPCI

/-- An update of an SCB that clears no PCI. -/
def ClearsNoPci (f : Scb → Scb) : Prop := ∀ b, anyBits b.status stPCI = true → anyBits (f b).status stPCI = true

/-- A property of states that every basic update of a load for the SCB `id` keeps. -/
structure LoadClosed (id : ScbId) (P : State → Prop) : Prop where
  upd : ∀ s f, KeepsBinding f → SamePci f → P s → P (s.updScb id f)
  updIrq : ∀ s f, KeepsBinding f → ClearsNoPci f → P s → P (s.updScb id f).raiseIrq
  irq : ∀ s, P s → P s.raiseIrq
  mark : ∀ s p, P s → P (s.markKey p 0x04)
  start : ∀ s a op, P s → P (startCommand a op s).2

variable {id : ScbId} {P : State → Prop} (c : LoadClosed id P) {s : State}
include c

theorem LoadClosed.read {k : BitVec 4} {a : Addr} {w : Word} {t : State} (h : readWord s k a = .ok (w, t)) (hs : P s) :
    P t := by
  rcases readWord_cases s k a with ⟨e, _, h'⟩ | ⟨_, h'⟩ <;> rw [h'] at h
  · cases h
  · cases h; exact c.mark _ _ hs

theorem LoadClosed.chanFault (bit : Half) (hs : P s) : P (chanFault id bit s) :=
  c.updIrq _ _ (fun _ => ⟨rfl, rfl, rfl, rfl⟩) (fun b h => by simp [Scb.faulted, anyBits_or, h]) hs

theorem LoadClosed.raisePci (hs : P s) : P (raisePci id s).1 := by
  unfold Machine.raisePci
  split
  · exact c.updIrq _ _ (fun _ => ⟨rfl, rfl, rfl, rfl⟩) (fun b h => by simp [anyBits_or, h]) hs
  · exact hs

theorem LoadClosed.afterStart (chained : Bool) (st : Byte) (hs : P s) : P (afterStart id chained st s).1 := by
  unfold Machine.afterStart
  split
  · split
    · dsimp only; exact c.upd _ _ (fun _ => ⟨rfl, rfl, rfl, rfl⟩) (fun _ => rfl) hs
    · dsimp only; exact c.upd _ _ (fun _ => ⟨rfl, rfl, rfl, rfl⟩) (fun _ => rfl) hs
  · split
    · exact c.updIrq _ _ (fun _ => ⟨rfl, rfl, rfl, rfl⟩) (fun b h => by simp [Scb.endedByError, anyBits_or, h]) hs
    · split
      · apply c.raisePci
        split
        · exact c.updIrq _ _ (fun _ => ⟨rfl, rfl, rfl, rfl⟩) (fun _ h => h) hs
        · exact c.upd _ _ (fun _ => ⟨rfl, rfl, rfl, rfl⟩) (fun _ => rfl) hs
      · exact c.raisePci hs

theorem LoadClosed.dispatch (chained : Bool) (hs : P s) : P (dispatchCommand id chained s).1 := by
  unfold Machine.dispatchCommand
  split
  · exact c.chanFault _ hs
  · split
    · exact c.chanFault _ hs
    · refine c.afterStart _ _ (c.upd _ _ (fun _ => ⟨rfl, rfl, rfl, rfl⟩) (fun b => ?_) (c.start _ _ _ hs))
      simp only [Scb.mergeDevice, anyBits_or, anyBits_deviceByte_pci, Bool.or_false]

theorem LoadClosed.firstIdaw {t : State} (h : loadFirstIdaw id s = .ok t) (hs : P s) : P t := by
  unfold loadFirstIdaw at h
  simp only at h
  split at h
  · split at h
    · split at h
      · cases h
      · rename_i hr; cases h
        exact c.upd _ _ (fun _ => ⟨rfl, rfl, rfl, rfl⟩) (fun _ => rfl) (c.read hr hs)
    · cases h; exact c.upd _ _ (fun _ => ⟨rfl, rfl, rfl, rfl⟩) (fun _ => rfl) hs
  · cases h; exact hs

theorem LoadClosed.fields (new : Bool) (f : CcwFields) (hs : P s) : P (loadFields id new f s).1 := by
  have h1 : P (s.updScb id fun b => { b with addr := f.data }) :=
    c.upd _ _ (fun _ => ⟨rfl, rfl, rfl, rfl⟩) (fun _ => rfl) hs
  unfold loadFields
  simp only
  split
  · exact c.chanFault _ h1
  · rename_i _ _ t hr
    have h2 := c.read hr h1
    split
    · exact c.chanFault _ h2
    · split
      · exact c.chanFault _ h2
      · have h3 := c.upd _ (Scb.installed (s.scb id).flags f) (fun _ => ⟨rfl, rfl, rfl, rfl⟩) (fun _ => rfl) h2
        split
        · exact c.chanFault _ h3
        · rename_i hi
          have h4 := c.firstIdaw hi h3
          split
          · exact c.dispatch _ h4
          · exact c.raisePci h4

theorem LoadClosed.command (f : CcwFields) (hs : P s) : P (loadCommand id f s).1 := by
  have h1 : P (s.updScb id fun b => { b with caw := b.caw + 4 }) :=
    c.upd _ _ (fun _ => ⟨rfl, rfl, rfl, rfl⟩) (fun _ => rfl) hs
  unfold loadCommand
  simp only
  split
  · exact c.fields _ _ h1
  · exact c.fields _ _ (c.upd _ _ (fun _ => ⟨rfl, rfl, rfl, rfl⟩) (fun _ => rfl) h1)

theorem LoadClosed.invalid (f : CcwFields) (hs : P s) : P (loadInvalid id f s).1 := by
  have h1 : P (s.updScb id fun b => { b with caw := b.caw + 4 }) :=
    c.upd _ _ (fun _ => ⟨rfl, rfl, rfl, rfl⟩) (fun _ => rfl) hs
  unfold loadInvalid
  simp only
  split
  · exact c.fields _ _ h1
  · exact c.chanFault _ h1

/-- The state a fetch leads to. -/
def Fetched.state : Fetched → State
  | .stop s _ => s
  | .ccw _ s => s

theorem LoadClosed.fetch (hs : P s) : P (fetchCcw id s).state := by
  unfold fetchCcw
  simp only
  split
  · exact c.chanFault _ hs
  · split
    · exact hs
    · have h1 : P (s.updScb id Scb.skipOnModifier) := by
        refine c.upd _ _ (fun b => ?_) (fun b => ?_) hs
        · unfold Scb.skipOnModifier; split <;> exact ⟨rfl, rfl, rfl, rfl⟩
        · unfold Scb.skipOnModifier; split
          · exact anyBits_and_keep (by decide)
          · rfl
      split
      · exact c.chanFault _ h1
      · rename_i hr; exact c.read hr h1

omit c in
/-- A fetch that leads to an instruction leads to a CCW. -/
theorem fetchCcw_source {i : Instr} {t : State} (h : fetchCcw id s = .ccw i t) : i.source = .channel := by
  unfold fetchCcw at h
  simp only at h
  split at h
  · cases h
  · split at h
    · cases h
    · split at h
      · cases h
      · cases h; exact decodeCcw_source _ _

theorem LoadClosed.ticTarget (i : Instr) (hs : P s) : P (runTicTarget id i s).1 := by
  cases i <;> unfold runTicTarget <;>
    first
    | exact c.command _ hs
    | exact c.invalid _ hs
    | exact c.chanFault _ hs

theorem LoadClosed.tic (ticAllowed : Bool) (target : Addr) (hs : P s) : P (ccwTic id ticAllowed target s).1 := by
  have h1 : P (s.updScb id fun b => { b with caw := target }) :=
    c.upd _ _ (fun _ => ⟨rfl, rfl, rfl, rfl⟩) (fun _ => rfl) hs
  have h2 := c.fetch h1
  unfold ccwTic
  split
  · split
    · rename_i hf; rw [hf] at h2; exact h2
    · rename_i hf; rw [hf] at h2; exact c.ticTarget _ h2
  · exact c.chanFault _ hs

theorem LoadClosed.run (ticAllowed : Bool) (i : Instr) (hs : P s) : P (runCcw id ticAllowed i s).1 := by
  cases i <;> unfold runCcw <;>
    first
    | exact c.command _ hs
    | exact c.invalid _ hs
    | exact c.tic _ _ hs
    | exact c.chanFault _ hs

theorem LoadClosed.begin (hs : P s) : P (beginLoad id s).state := by
  unfold beginLoad
  split
  · refine c.dispatch _ (c.upd _ _ (fun _ => ⟨rfl, rfl, rfl, rfl⟩) (fun _ => anyBits_and_keep (by decide)) hs)
  · exact c.fetch hs

/-- A closed property is kept by a load. -/
theorem LoadClosed.load (ticAllowed : Bool) (hs : P s) : P (loadNextCcw id ticAllowed s).1 := by
  have h := c.begin hs
  unfold loadNextCcw
  split
  · rename_i hb; rw [hb] at h; exact h
  · rename_i hb; rw [hb] at h; exact c.run _ _ h

omit c

/-- The frame of a load. -/
theorem loadFrame_closed (id : ScbId) (s : State) : LoadClosed id (LoadFrame id s) where
  upd _ f _ _ h := h.trans (.updScb id _ f)
  updIrq _ f _ _ h := (h.trans (.updScb id _ f)).trans (.raiseIrq id _)
  irq _ h := h.trans (.raiseIrq id _)
  mark _ p h := h.trans (.markRead id _ p)
  start _ a op h := h.trans (.startCommand id a op _)

/-- A load changes nothing outside its frame. -/
theorem loadNextCcw_frame (id : ScbId) (ticAllowed : Bool) (s : State) : LoadFrame id s (loadNextCcw id ticAllowed s).1 :=
  (loadFrame_closed id s).load ticAllowed (.refl id s)

@[simp] theorem startCommand_scb (a : DevAddr) (op : Byte) (s : State) (j : ScbId) :
    (startCommand a op s).2.scb j = s.scb j := by
  unfold startCommand; cases s.commandAnswers <;> rfl

@[simp] theorem startCommand_irq (a : DevAddr) (op : Byte) (s : State) : (startCommand a op s).2.irq = s.irq := by
  unfold startCommand; cases s.commandAnswers <;> rfl

/-- The binding, key and buffer of an SCB are as another's. -/
def SameBinding (b d : Scb) : Prop := d.dev = b.dev ∧ d.bind = b.bind ∧ d.key = b.key ∧ d.buf = b.buf

theorem sameBinding_closed (id : ScbId) (b : Scb) : LoadClosed id fun s => SameBinding b (s.scb id) where
  upd s f k _ h := by
    obtain ⟨k1, k2, k3, k4⟩ := k (s.scb id)
    simpa [SameBinding, k1, k2, k3, k4] using h
  updIrq s f k _ h := by
    obtain ⟨k1, k2, k3, k4⟩ := k (s.scb id)
    simpa [SameBinding, k1, k2, k3, k4] using h
  irq _ h := h
  mark _ _ h := h
  start _ _ _ h := by simpa using h

/-- A load keeps its SCB's binding, key and buffer. -/
theorem loadNextCcw_binding (id : ScbId) (ticAllowed : Bool) (s : State) :
    SameBinding (s.scb id) ((loadNextCcw id ticAllowed s).1.scb id) :=
  (sameBinding_closed id _).load ticAllowed ⟨rfl, rfl, rfl, rfl⟩

theorem keepsPci_closed (id : ScbId) : LoadClosed id fun s => anyBits (s.scb id).status stPCI = true where
  upd s f _ k h := by rw [scb_updScb_self, k]; exact h
  updIrq s f _ k h := by rw [State.scb_raiseIrq, scb_updScb_self]; exact k _ h
  irq _ h := h
  mark _ _ h := h
  start _ _ _ h := by simpa using h

/-- A load clears no PCI (R116, R123; spec/43_status.md R187). -/
theorem loadNextCcw_pci (id : ScbId) (ticAllowed : Bool) {s : State} (h : anyBits (s.scb id).status stPCI = true) :
    anyBits ((loadNextCcw id ticAllowed s).1.scb id).status stPCI = true :=
  (keepsPci_closed id).load ticAllowed h

/-! ## The steps of a load -/

theorem reserved_iff (b : Byte) : reservedFlagBits b = true ↔ b.extractLsb' 0 2 ≠ 0 := by
  revert b; decide

/-- Steps 5 to 7 of a load whose fields load: the SCB is as `loadedScb` says, and dispatch or step 9 follows. -/
theorem loadFields_ok {s : State} {id : ScbId} {f : CcwFields} {b : Scb} (new : Bool) (hb : s.scb id = b)
    (h : FieldsLoad s b.key b.caw f) :
    ∃ u, loadFields id new f s = (if new then dispatchCommand id b.flags.cc u else raisePci id u) ∧
      u.scb id = loadedScb s b.caw f b ∧ u.irq = s.irq ∧ KeepsCalls s u ∧ LoadFrame id s u ∧
      (∀ p, u.keyAt p =
        if p = pageOf b.caw ∨ (p = pageOf f.data ∧ (loadedFlags s.cfg b.flags f).ida = true)
        then s.keyAt p ||| 0x04 else s.keyAt p) := by
  obtain ⟨h2, hc, hr, hi⟩ := h
  have hr' : (s.cfg.reservedFlagCheck && reservedFlagBits f.flags) = false := by
    cases hx : s.cfg.reservedFlagCheck
    · rfl
    · simp only [Bool.true_and]
      rw [Bool.eq_false_iff, ne_eq, reserved_iff]
      simpa using hr hx
  unfold loadFields
  simp only [scb_updScb_self, hb]
  rw [readWord_ok (by simpa using h2)]
  simp only [State.markKey_cfg, State.updScb_cfg, hc, hr', if_false, Bool.false_eq_true]
  unfold loadFirstIdaw
  simp only [scb_updScb_self, State.scb_markKey, hb, Scb.installed, installedFlags, State.updScb_cfg, State.markKey_cfg]
  by_cases hida : (flagsOfByte f.flags).ida = true
  · by_cases hf : s.cfg.idaFeature = true
    · have ha := hi hida hf
      simp only [hida, hf, if_true]
      rw [readWord_ok (by simpa using ha)]
      refine ⟨_, rfl, ?_, ?_, ?_, ?_, ?_⟩
      · simp [hb, loadedScb, loadedFlags, Scb.installed, installedFlags, hida, hf, idawAddress]
      · simp
      · exact ⟨rfl, rfl, rfl, rfl, rfl⟩
      · exact ((((LoadFrame.updScb id s _).trans (.markRead id _ _)).trans (.updScb id _ _)).trans (.markRead id _ _)).trans
          (.updScb id _ _)
      · intro p
        have e := (marks_compose (s.keyAt p)).1
        have hl : (loadedFlags s.cfg b.flags f).ida = true := by simp [loadedFlags, hida, hf]
        simp only [State.keyAt_updScb, keyAt_markKey, hl, and_true]
        by_cases h1 : p = pageOf f.data
        · by_cases h2 : p = pageOf b.caw
          · rw [if_pos h1, if_pos h2, if_pos (.inl h2), e]
          · rw [if_pos h1, if_neg h2, if_pos (.inr h1)]
        · rw [if_neg h1]; simp only [h1, or_false]
    · simp only [hida, hf, if_true]
      refine ⟨_, rfl, ?_, ?_, ?_, ?_, ?_⟩
      · simp [hb, loadedScb, loadedFlags, Scb.installed, installedFlags, hida, hf]
      · simp
      · exact ⟨rfl, rfl, rfl, rfl, rfl⟩
      · exact ((LoadFrame.updScb id s _).trans (.markRead id _ _)).trans (.updScb id _ _) |>.trans (.updScb id _ _)
      · intro p
        have hl : (loadedFlags s.cfg b.flags f).ida = false := by simp [loadedFlags, hida, hf]
        simp only [State.keyAt_updScb, keyAt_markKey, hl, Bool.false_eq_true, and_false, or_false]
  · simp only [hida]
    refine ⟨_, rfl, ?_, ?_, ?_, ?_, ?_⟩
    · simp [hb, loadedScb, loadedFlags, Scb.installed, installedFlags, hida]
    · simp
    · exact ⟨rfl, rfl, rfl, rfl, rfl⟩
    · exact ((LoadFrame.updScb id s _).trans (.markRead id _ _)).trans (.updScb id _ _)
    · intro p
      have hl : (loadedFlags s.cfg b.flags f).ida = false := by simp [loadedFlags, hida]
      simp only [State.keyAt_updScb, keyAt_markKey, hl, Bool.false_eq_true, and_false, or_false]

@[simp] theorem startCommand_cfg (a : DevAddr) (op : Byte) (s : State) : (startCommand a op s).2.cfg = s.cfg := by
  unfold startCommand; cases s.commandAnswers <;> rfl

theorem startCommand_keys (a : DevAddr) (op : Byte) (s : State) : KeepsKeys s (startCommand a op s).2 := by
  unfold startCommand; cases s.commandAnswers <;> exact fun _ => rfl

theorem startCommand_congr {s t : State} (k : KeepsCalls s t) (a : DevAddr) (op : Byte) :
    (startCommand a op t).1 = (startCommand a op s).1 := by
  unfold startCommand
  simp only [k.commandAnswers, k.draws]
  cases s.commandAnswers <;> rfl

/-- Step 9 (R127). -/
theorem raisePci_spec (id : ScbId) (s : State) :
    ∃ t, raisePci id s = (t, .ok) ∧ t.scb id = pciRaised (s.scb id) ∧ t.irq = (s.irq || (s.scb id).flags.pcif) ∧
      KeepsCalls s t ∧ LoadFrame id s t ∧ KeepsKeys s t := by
  unfold raisePci pciRaised
  split
  · rename_i h
    exact ⟨_, rfl, by simp, by simp [h], ⟨rfl, rfl, rfl, rfl, rfl⟩, (LoadFrame.updScb id s _).trans (.raiseIrq id _),
      fun _ => rfl⟩
  · rename_i h
    exact ⟨_, rfl, by simp, by simp [h], .refl s, .refl id s, fun _ => rfl⟩

theorem accepts_iff (st : Byte) : accepts st = true ↔ anyBits st dvBUSY = false ∧ anyBits st errClass = false := by
  simp [accepts]

/-- A device that accepts a command (R123, R126, R127). -/
theorem dispatch_accepted {id : ScbId} {s : State} {a : DevAddr} {st : Byte} (chained : Bool) (hd : (s.scb id).dev = some a)
    (hf : (findDevice s.cfg a).isSome = true) (hst : st = (startCommand a (s.scb id).cmd s).1) (ha : accepts st = true) :
    ∃ t, dispatchCommand id chained s = (t, .ok) ∧ t.scb id = commandAccepted st (s.scb id) ∧
      t.irq = (s.irq || acceptedRaisesIrq st (s.scb id).flags) ∧ CalledStart a (s.scb id).cmd s t ∧ LoadFrame id s t ∧
      KeepsKeys s t := by
  obtain ⟨b1, b2⟩ := (accepts_iff st).1 ha
  obtain ⟨dev, hdev⟩ := Option.isSome_iff_exists.1 hf
  have hcall := startCommand_called a (s.scb id).cmd s
  have hframe := LoadFrame.startCommand id a (s.scb id).cmd s
  have hkeys := startCommand_keys a (s.scb id).cmd s
  have hs := startCommand_scb a (s.scb id).cmd s id
  have hi := startCommand_irq a (s.scb id).cmd s
  unfold dispatchCommand
  simp only [hd, hdev]
  rw [← hst]
  generalize (startCommand a (s.scb id).cmd s).2 = u at *
  unfold afterStart
  simp only [b1, b2, Bool.false_eq_true, if_false]
  by_cases hce : anyBits st dvCE = true
  · simp only [hce, if_true]
    by_cases hde : anyBits st dvDE = true
    · simp only [hde, if_true]
      obtain ⟨t, h1, h2, h3, h4, h5, h6⟩ := raisePci_spec id
        (((u.updScb id (Scb.mergeDevice st)).updScb id Scb.endedAtOnce).raiseIrq)
      refine ⟨t, h1, ?_, ?_, ?_, ?_, ?_⟩
      · simp [h2, hs, commandAccepted, Scb.mergeDevice, Scb.endedAtOnce, hce]
      · simp [h3, hs, acceptedRaisesIrq, Scb.mergeDevice, Scb.endedAtOnce, hce, hde]
      · exact hcall.trans_keeps ⟨h4.callOuts, h4.commandAnswers, h4.startIoAnswers, h4.haltIoAnswers, h4.draws⟩
      · exact (hframe.trans ((LoadFrame.updScb id _ _).trans (.updScb id _ _))).trans ((LoadFrame.raiseIrq id _).trans h5)
      · exact hkeys.trans (KeepsKeys.trans (fun _ => rfl) h6)
    · simp only [hde, Bool.false_eq_true, if_false]
      obtain ⟨t, h1, h2, h3, h4, h5, h6⟩ := raisePci_spec id
        (((u.updScb id (Scb.mergeDevice st)).updScb id Scb.endedAtOnce))
      refine ⟨t, h1, ?_, ?_, ?_, ?_, ?_⟩
      · simp [h2, hs, commandAccepted, Scb.mergeDevice, Scb.endedAtOnce, hce]
      · simp [h3, hs, hi, acceptedRaisesIrq, Scb.mergeDevice, Scb.endedAtOnce, hde]
      · exact hcall.trans_keeps ⟨h4.callOuts, h4.commandAnswers, h4.startIoAnswers, h4.haltIoAnswers, h4.draws⟩
      · exact (hframe.trans ((LoadFrame.updScb id _ _).trans (.updScb id _ _))).trans h5
      · exact hkeys.trans (KeepsKeys.trans (fun _ => rfl) h6)
  · simp only [hce, Bool.false_eq_true, if_false]
    obtain ⟨t, h1, h2, h3, h4, h5, h6⟩ := raisePci_spec id (u.updScb id (Scb.mergeDevice st))
    refine ⟨t, h1, ?_, ?_, ?_, ?_, ?_⟩
    · simp [h2, hs, commandAccepted, Scb.mergeDevice, hce]
    · simp [h3, hs, hi, acceptedRaisesIrq, Scb.mergeDevice, hce]
    · exact hcall.trans_keeps ⟨h4.callOuts, h4.commandAnswers, h4.startIoAnswers, h4.haltIoAnswers, h4.draws⟩
    · exact (hframe.trans (LoadFrame.updScb id _ _)).trans h5
    · exact hkeys.trans (KeepsKeys.trans (fun _ => rfl) h6)

/-- A device that turns a command away (R123, R124, R125). -/
theorem dispatch_away {id : ScbId} {s : State} {a : DevAddr} {st : Byte} (chained : Bool) (hd : (s.scb id).dev = some a)
    (hf : (findDevice s.cfg a).isSome = true) (hst : st = (startCommand a (s.scb id).cmd s).1) (ha : accepts st = false) :
    ∃ t r, dispatchCommand id chained s = (t, r) ∧ CalledStart a (s.scb id).cmd s t ∧ LoadFrame id s t ∧ KeepsKeys s t ∧
      (st &&& dvBUSY ≠ 0 → chained = true → t.irq = s.irq ∧ r = .ok ∧
        t.scb id = { s.scb id with status := (s.scb id).status ||| deviceByte st, chainHeld := true }) ∧
      (st &&& dvBUSY ≠ 0 → chained = false → t.irq = s.irq ∧ r = .fail .busy ∧
        t.scb id = { s.scb id with status := (s.scb id).status ||| deviceByte st, cmd := 0 }) ∧
      (st &&& dvBUSY = 0 → t.irq = true ∧ r = .fail .devError ∧
        t.scb id = { s.scb id with status := (s.scb id).status ||| deviceByte st ||| stCE, cmd := 0,
                                   flags := { (s.scb id).flags with cd := false, cc := false } }) := by
  obtain ⟨dev, hdev⟩ := Option.isSome_iff_exists.1 hf
  have hcall := startCommand_called a (s.scb id).cmd s
  have hframe := LoadFrame.startCommand id a (s.scb id).cmd s
  have hkeys := startCommand_keys a (s.scb id).cmd s
  have hs := startCommand_scb a (s.scb id).cmd s id
  have hi := startCommand_irq a (s.scb id).cmd s
  unfold dispatchCommand
  simp only [hd, hdev]
  rw [← hst]
  generalize (startCommand a (s.scb id).cmd s).2 = u at *
  unfold afterStart
  by_cases hb : anyBits st dvBUSY = true
  · have hb' := (anyBits_iff _ _).1 hb
    simp only [hb, if_true]
    cases chained
    · refine ⟨_, _, rfl, hcall.trans_keeps ⟨rfl, rfl, rfl, rfl, rfl⟩, ?_, hkeys.trans fun _ => rfl, ?_, ?_, ?_⟩
      · exact hframe.trans ((LoadFrame.updScb id _ _).trans (.updScb id _ _))
      · simp
      · exact fun _ _ => ⟨by simp [hi], by simp, by simp [hs, hd, Scb.mergeDevice]⟩
      · exact fun h => absurd h hb'
    · refine ⟨_, _, rfl, hcall.trans_keeps ⟨rfl, rfl, rfl, rfl, rfl⟩, ?_, hkeys.trans fun _ => rfl, ?_, ?_, ?_⟩
      · exact hframe.trans ((LoadFrame.updScb id _ _).trans (.updScb id _ _))
      · exact fun _ _ => ⟨by simp [hi], by simp, by simp [hs, hd, Scb.mergeDevice]⟩
      · simp
      · exact fun h => absurd h hb'
  · have hb' : anyBits st dvBUSY = false := by simpa using hb
    have he : anyBits st errClass = true := by simpa [accepts, hb'] using ha
    simp only [hb', he, Bool.false_eq_true, if_false, if_true]
    have hz := (anyBits_false_iff _ _).1 hb'
    refine ⟨_, _, rfl, hcall.trans_keeps ⟨rfl, rfl, rfl, rfl, rfl⟩, ?_, hkeys.trans fun _ => rfl, ?_, ?_, ?_⟩
    · exact hframe.trans (((LoadFrame.updScb id _ _).trans (.updScb id _ _)).trans (.raiseIrq id _))
    · exact fun h => absurd hz h
    · exact fun h => absurd hz h
    · exact fun _ => ⟨rfl, by simp, by simp [hs, hd, Scb.mergeDevice, Scb.endedByError, CcwFlags.unchained]⟩

/-- A recorded fault (R112). -/
theorem chanFault_spec (id : ScbId) (bit : Half) (s : State) :
    (chanFault id bit s).scb id = faultedScb bit (s.scb id) ∧ (chanFault id bit s).irq = true ∧
    KeepsOutside s (chanFault id bit s) ∧ LoadFrame id s (chanFault id bit s) ∧ KeepsKeys s (chanFault id bit s) := by
  refine ⟨?_, rfl, ?_, ?_, fun _ => rfl⟩
  · simp [chanFault, Scb.faulted, faultedScb, CcwFlags.unchained]
  · exact (KeepsOutside.updScb s id _).trans (.raiseIrq _)
  · exact (LoadFrame.updScb id s _).trans (.raiseIrq id _)

end Sys2Proof.Machine
end

