-- ==== Sys2Proof/Laws/Transfer.lean ====
section
/-! SUPPORT. What each shared operation of a byte transfer can do, once (spec/42_transfer.md R140..R158). -/

namespace Sys2Proof.Machine

/-- A write that is permitted may also be read: a read checks less (spec/20_memory.md R54, R55). -/
theorem accessFault_read_of_write {s : State} {k : BitVec 4} {a : Addr} (h : accessFault s k a true = none) :
    accessFault s k a false = none := by
  unfold accessFault at *
  split
  · rename_i h1; rw [if_pos h1] at h; cases h
  · rename_i h1; rw [if_neg h1] at h
    split
    · rename_i h2
      have : protectionError s k a true = true := by
        simp only [protectionError, Bool.and_eq_true, Bool.or_eq_true] at h2 ⊢
        exact ⟨h2.1, .inl trivial⟩
      rw [if_pos this] at h; cases h
    · rfl

/-- Setting referenced and changed bits changes no access check (spec/20_memory.md R51, R54). -/
theorem accessFault_kept {s t : State} (hc : t.cfg = s.cfg) (hk : KeepsAccessKeys s t) (k : BitVec 4) (a : Addr) (w : Bool) :
    accessFault t k a w = accessFault s k a w := by
  have h : protectionError t k a w = protectionError s k a w := by
    obtain ⟨h1, h2⟩ := key_bits_marked (s.keyAt (pageOf a)) 0x04 (.inl rfl)
    obtain ⟨h3, h4⟩ := key_bits_marked (s.keyAt (pageOf a)) 0x06 (.inr rfl)
    unfold protectionError
    rcases hk (pageOf a) with h | h | h <;> simp only [h, hc, h1, h2, h3, h4]
  unfold accessFault addressingError
  rw [h, hc]

/-- An access of an address is an access of its word. -/
theorem accessFault_wordAddr (s : State) (k : BitVec 4) (a : Addr) (w : Bool) :
    accessFault s k (wordAddr a) w = accessFault s k a w := by
  have h1 : (wordAddr (wordAddr a)).toNat = (wordAddr a).toNat := by simp only [wordAddr_toNat]; omega
  have h2 : pageOf (wordAddr a) = pageOf a := by simp only [pageOf, wordAddr_toNat]; omega
  unfold accessFault addressingError protectionError
  rw [h1, h2]

theorem setWord_wordAddr (s : State) (a : Addr) (v : Word) : s.setWord (wordAddr a) v = s.setWord a v := by
  have h1 : (wordAddr (wordAddr a)).toNat = (wordAddr a).toNat := by simp only [wordAddr_toNat]; omega
  simp only [State.setWord, h1]

theorem pageOf_wordAddr (a : Addr) : pageOf (wordAddr a) = pageOf a := by simp only [pageOf, wordAddr_toNat]; omega

/-- The preamble (R140). -/
theorem transferScb_iff {a : DevAddr} {dir : Direction} {s : State} {id : ScbId} :
    transferScb a dir s = some id ↔ Transfers dir a id s := by
  unfold transferScb
  constructor
  · intro h
    split at h
    · cases h
    · rename_i j hj
      simp only at h
      split at h
      · cases h
      · split at h
        · cases h
        · split at h
          · cases h
            rename_i h1 h2 h3
            exact ⟨hj, by simpa using h1, by simpa using h2, h3⟩
          · cases h
  · rintro ⟨h1, h2, h3, h4⟩
    simp [h1, h2, h3, h4]

theorem transferScb_none {a : DevAddr} {dir : Direction} {s : State}
    (h : ∀ id, findSubchannel s.cfg a = some id →
      (s.scb id).dev ≠ some a ∨ anyBits (s.scb id).status chanErr = true ∨ matchesDirection dir (s.scb id).cmd = false) :
    transferScb a dir s = none := by
  cases hx : transferScb a dir s with
  | none => rfl
  | some id =>
    obtain ⟨h1, h2, h3, h4⟩ := transferScb_iff.1 hx
    rcases h id h1 with k | k | k
    · exact absurd h2 k
    · rw [h3] at k; cases k
    · rw [h4] at k; cases k

/-- Everything `flush` can do (R152). -/
theorem flush_cases (id : ScbId) (wa : Addr) (s : State) :
    (∃ e, accessFault s (s.scb id).key wa true = some e ∧ flush id wa s = (chanFault id e.bit s, false)) ∨
    (accessFault s (s.scb id).key wa true = none ∧
      flush id wa s = (((s.setWord wa (s.scb id).buf).markKey (pageOf wa) 0x06).updScb id
        (fun b => { b with dirty := false }), true)) := by
  unfold flush
  rcases writeWord_cases s (s.scb id).key wa (s.scb id).buf with ⟨e, h1, h2⟩ | ⟨h1, h2⟩ <;> rw [h2]
  · exact .inl ⟨e, h1, rfl⟩
  · exact .inr ⟨h1, rfl⟩

/-- Everything the flush of a dirty register can do (R146, R152). -/
theorem flushDirty_cases (id : ScbId) (s : State) :
    ((s.scb id).dirty = false ∧ flushDirty id s = (s, true)) ∨
    ((s.scb id).dirty = true ∧ ∃ e, accessFault s (s.scb id).key (s.scb id).position true = some e ∧
      flushDirty id s = (chanFault id e.bit s, false)) ∨
    ((s.scb id).dirty = true ∧ accessFault s (s.scb id).key (s.scb id).position true = none ∧
      flushDirty id s = (((s.setWord (s.scb id).position (s.scb id).buf).markKey (pageOf (s.scb id).position) 0x06).updScb id
        (fun b => { b with dirty := false }), true)) := by
  unfold flushDirty
  cases hd : (s.scb id).dirty
  · exact .inl ⟨rfl, rfl⟩
  · simp only [if_true]
    rcases flush_cases id (wordAddr (s.scb id).position) s with ⟨e, h1, h2⟩ | ⟨h1, h2⟩
    · rw [accessFault_wordAddr] at h1; exact .inr (.inl ⟨trivial, e, h1, h2⟩)
    · rw [accessFault_wordAddr] at h1; rw [setWord_wordAddr, pageOf_wordAddr] at h2
      exact .inr (.inr ⟨trivial, h1, h2⟩)

/-- Everything the filling of the register can do (R148, R150). -/
theorem fill_cases (id : ScbId) (dir : Direction) (s : State) :
    ((s.scb id).boff ≠ none ∧ fill id dir s = (s, true)) ∨
    ((s.scb id).boff = none ∧
      ∃ e, accessFault s (s.scb id).key (s.scb id).position (decide (dir = .input)) = some e ∧
        fill id dir s = (chanFault id e.bit s, false)) ∨
    ((s.scb id).boff = none ∧ accessFault s (s.scb id).key (s.scb id).position (decide (dir = .input)) = none ∧
      fill id dir s = ((s.markKey (pageOf (s.scb id).position) 0x04).updScb id
        (Scb.filled (s.wordAt (s.scb id).position) (s.scb id).position), true)) := by
  unfold fill
  cases hb : (s.scb id).boff with
  | some k => exact .inl ⟨by simp, by simp [hb]⟩
  | none =>
    simp only [hb, Option.isSome_none, Bool.false_eq_true, if_false]
    cases dir with
    | input =>
      simp only [if_true, checkWrite]
      cases hf : accessFault s (s.scb id).key (s.scb id).position true with
      | some e => exact .inr (.inl ⟨trivial, e, by simpa using hf, rfl⟩)
      | none =>
        simp only [readWord_ok (accessFault_read_of_write hf)]
        exact .inr (.inr ⟨trivial, by simpa using hf, trivial⟩)
    | out =>
      simp only [reduceCtorEq, if_false]
      rcases readWord_cases s (s.scb id).key (s.scb id).position with ⟨e, h1, h2⟩ | ⟨h1, h2⟩ <;> simp only [h2]
      · exact .inr (.inl ⟨trivial, e, by simpa using h1, rfl⟩)
      · exact .inr (.inr ⟨trivial, by simpa using h1, trivial⟩)

/-- The position, key, flags, command and count after the filling. -/
theorem Scb.move_eq (b : Scb) :
    ({ b.move with count := b.move.count - 1 } : Scb) = movedScb b := by
  unfold Scb.move movedScb stepAddr
  split <;> simp

theorem needsNextIdaw_iff (b : Scb) :
    (b.crosses && decide (1 < b.count.toNat)) = true ↔ needsNextIdaw b := by
  simp [needsNextIdaw]

theorem mapInsert_mapInsert {α : Type} (m : List (Nat × α)) (a : Nat) (v w : α) :
    mapInsert (mapInsert m a v) a w = mapInsert m a w := by
  induction m with
  | nil => simp [mapInsert]
  | cons p m ih =>
    obtain ⟨k, x⟩ := p
    simp only [mapInsert]
    by_cases h1 : a < k
    · simp [h1, mapInsert]
    · by_cases h2 : a = k
      · simp [h2, mapInsert]
      · simp [h1, h2, mapInsert, ih]

theorem mapErase_mapInsert {α : Type} (m : List (Nat × α)) (a : Nat) (v : α) :
    mapErase (mapInsert m a v) a = mapErase m a := by
  induction m with
  | nil => simp [mapInsert, mapErase]
  | cons p m ih =>
    obtain ⟨k, x⟩ := p
    simp only [mapErase] at ih
    simp only [mapInsert]
    by_cases h1 : a < k
    · simp [h1, mapErase]
    · by_cases h2 : a = k
      · simp [h2, mapErase]
      · simp [h2, h1, mapErase, ih, List.filter_cons]

/-- Two stores of an SCB are the second, where the first is not the idle SCB. -/
theorem setScb_setScb (s : State) (id : ScbId) (b d : Scb) (h : b ≠ idleScb) :
    (s.setScb id b).setScb id d = s.setScb id d := by
  simp only [State.setScb, mapSet, if_neg h]
  split
  · rw [mapErase_mapInsert]
  · rw [mapInsert_mapInsert]

theorem ne_idleScb {b : Scb} {a : DevAddr} (h : b.dev = some a) : b ≠ idleScb := by
  rintro rfl; cases h

theorem atLastByte_some {b : Scb} {k : BitVec 2} (h : b.boff = some k) : b.atLastByte = lastOffset b.cmd k := by
  unfold Scb.atLastByte lastOffset
  rw [h]
  cases isBackward b.cmd <;> simp

theorem advanceOffset_some {b : Scb} {k : BitVec 2} (h : b.boff = some k) :
    b.advanceOffset = { b with boff := nextOffset b.cmd k } := by
  unfold Scb.advanceOffset nextOffset
  rw [atLastByte_some h, h]
  by_cases hl : lastOffset b.cmd k = true
  · simp [hl]
  · cases hb : isBackward b.cmd <;> simp [hl]

/-- The end of a byte that neither crosses a page with bytes left nor is the last before a data chain (R143, R154). -/
theorem finishByte_plain {id : ScbId} {s : State} {a : DevAddr} (hd : (s.scb id).dev = some a)
    (hn : ¬ needsNextIdaw (s.scb id)) (hl : ¬ lastOfDataChain (s.scb id)) :
    finishByte id s = s.updScb id movedScb := by
  have hx : ((s.scb id).crosses && decide (1 < (s.scb id).count.toNat)) = false := by
    rw [Bool.eq_false_iff, ne_eq, needsNextIdaw_iff]; exact hn
  have hu : ((s.updScb id Scb.move).updScb id fun b => { b with count := b.count - 1 }) = s.updScb id movedScb := by
    have hm : ((s.scb id).move).dev = some a := by unfold Scb.move; split <;> exact hd
    simp only [State.updScb, scb_setScb_self]
    rw [setScb_setScb _ _ _ _ (ne_idleScb hm), Scb.move_eq]
  unfold finishByte chainAfterByte
  simp only [hx, Bool.false_eq_true, if_false, hu]
  rw [if_neg]
  simp only [scb_updScb_self, Bool.and_eq_true, beq_iff_eq, not_and]
  intro h
  have h1 : (s.scb id).count - 1 = 0 := h.1
  exact absurd ⟨sub_eq_zero.1 h1, h.2⟩ hl

/-- Everything the fetch of the next IDAW can do (R156). -/
theorem nextIdaw_cases (id : ScbId) (s : State) :
    (∃ e, accessFault s (s.scb id).key ((s.scb id).addr + 4) false = some e ∧
      nextIdaw id s = chanFault id e.bit (s.updScb id fun b => { b with addr := b.addr + 4 })) ∨
    (accessFault s (s.scb id).key ((s.scb id).addr + 4) false = none ∧
      nextIdaw id s = (((s.updScb id fun b => { b with addr := b.addr + 4 }).markKey (pageOf ((s.scb id).addr + 4)) 0x04).updScb
        id fun b => { b with iaddr := onPage (idawAddress (s.wordAt ((s.scb id).addr + 4))) b.iaddr })) := by
  unfold nextIdaw
  rcases readWord_cases (s.updScb id fun b => { b with addr := b.addr + 4 })
    ((s.updScb id fun b => { b with addr := b.addr + 4 }).scb id).key
    ((s.updScb id fun b => { b with addr := b.addr + 4 }).scb id).addr with ⟨e, h1, h2⟩ | ⟨h1, h2⟩ <;> simp only [h2]
  · simp only [scb_updScb_self, accessFault_updScb] at h1
    exact .inl ⟨e, h1, rfl⟩
  · simp only [scb_updScb_self, accessFault_updScb] at h1
    refine .inr ⟨h1, ?_⟩
    simp only [scb_updScb_self, State.wordAt_updScb]

/-- The count and the chain flag of a byte that crosses a page with bytes left. -/
theorem nextIdaw_count (id : ScbId) (s : State) : ((nextIdaw id s).scb id).count = (s.scb id).count := by
  rcases nextIdaw_cases id s with ⟨e, -, h⟩ | ⟨-, h⟩ <;> rw [h]
  · rw [(chanFault_spec id e.bit _).1]; simp [faultedScb]
  · simp

/-- The end of a byte that crosses a page with bytes left (R155, R156). -/
theorem finishByte_crossing {id : ScbId} {s : State} (hn : needsNextIdaw (s.scb id)) :
    finishByte id s = (nextIdaw id (s.updScb id Scb.move)).updScb id fun b => { b with count := b.count - 1 } := by
  have hm : ((s.scb id).move).count = (s.scb id).count := by unfold Scb.move; split <;> rfl
  unfold finishByte chainAfterByte
  simp only [(needsNextIdaw_iff _).2 hn, if_true, scb_updScb_self]
  rw [if_neg]
  simp only [nextIdaw_count, scb_updScb_self, hm, Bool.and_eq_true, beq_iff_eq, not_and]
  intro h
  have h1 : (s.scb id).count - 1 = 0 := h.1
  have h2 := hn.2
  rw [sub_eq_zero.1 h1] at h2
  simp at h2

/-- The last byte before a data chain (R158). -/
theorem finishByte_last {id : ScbId} {s : State} {a : DevAddr} (hd : (s.scb id).dev = some a)
    (hl : lastOfDataChain (s.scb id)) :
    finishByte id s = if anyBits (s.scb id).status chanErr then s.updScb id movedScb
      else (dataChain id (s.updScb id movedScb)).1 := by
  have hx : ((s.scb id).crosses && decide (1 < (s.scb id).count.toNat)) = false := by
    rw [hl.1]; simp
  have hm : ((s.scb id).move).dev = some a := by unfold Scb.move; split <;> exact hd
  have hu : ((s.updScb id Scb.move).updScb id fun b => { b with count := b.count - 1 }) = s.updScb id movedScb := by
    simp only [State.updScb, scb_setScb_self]
    rw [setScb_setScb _ _ _ _ (ne_idleScb hm), Scb.move_eq]
  unfold finishByte chainAfterByte
  simp only [hx, Bool.false_eq_true, if_false, hu]
  have h1 : (movedScb (s.scb id)).count = 0 := by simp [movedScb, hl.1]
  have h2 : (movedScb (s.scb id)).flags.cd = true := hl.2
  have h3 : (movedScb (s.scb id)).status = (s.scb id).status := rfl
  simp only [scb_updScb_self, h1, h2, h3]
  cases anyBits (s.scb id).status chanErr <;> simp

end Sys2Proof.Machine
end

