-- ==== Sys2Proof/Laws/Status.lean ====
section
/-! SUPPORT. What storing and collecting a status, and the pending-status table, can do, once (spec/43_status.md R179..R184). -/

namespace Sys2Proof.Machine

/-- What a store of the CSW leaves as before: everything but memory and the storage keys. -/
structure StoreFrame (s t : State) : Prop where
  platform : KeepsPlatform s t
  calls : KeepsCalls s t
  pending : KeepsPending s t
  loading : t.loading = s.loading
  irq : t.irq = s.irq
  scbs : ∀ j, t.scb j = s.scb j

/-- The two words of the CSW stored (spec/20_memory.md R61). -/
theorem storeCsw_spec {s : State} (h : memoryWf s.cfg = true) (w0 w1 : Word) :
    StoresCsw w0 w1 s (storeCsw w0 w1 s) ∧ StoreFrame s (storeCsw w0 w1 s) := by
  obtain ⟨a0, a1⟩ := cswAddr_access h true
  obtain ⟨h1, -, h3, h4, h5, -, -⟩ := memoryWf_iff.1 h
  have e4 : (s.cfg.cswAddr + 4).toNat = s.cfg.cswAddr.toNat + 4 := by
    rw [BitVec.toNat_add]; simp; omega
  have hp : pageOf (s.cfg.cswAddr + 4) = pageOf s.cfg.cswAddr := by simp only [pageOf, e4]; omega
  have ha : wordAddr s.cfg.cswAddr ≠ wordAddr (s.cfg.cswAddr + 4) := by
    intro hx
    have := congrArg BitVec.toNat hx
    simp only [wordAddr_toNat, e4] at this
    omega
  have hw : storeCsw w0 w1 s = (((s.setWord s.cfg.cswAddr w0).markKey (pageOf s.cfg.cswAddr) 0x06).setWord
      (s.cfg.cswAddr + 4) w1).markKey (pageOf s.cfg.cswAddr) 0x06 := by
    unfold storeCsw storeArchitected
    rw [writeWord_ok a0]
    simp only
    rw [writeWord_ok (by rw [accessFault_markKey _ _ _ (.inr rfl), accessFault_setWord]; exact a1), hp]
  rw [hw]
  refine ⟨⟨?_, ?_, ?_, ?_⟩, ?_⟩
  · rw [State.wordAt_markKey, wordAt_setWord_ne _ _ ha, State.wordAt_markKey, wordAt_setWord_self]
  · rw [State.wordAt_markKey, wordAt_setWord_self]
  · intro x hx
    rw [State.byteAt_markKey, byteAt_setWord_outside, State.byteAt_markKey, byteAt_setWord_outside]
    · intro hi; apply hx; simp only [inWord, wordAddr_toNat] at hi; unfold inCsw; omega
    · intro hi; apply hx; simp only [inWord, wordAddr_toNat, e4] at hi; unfold inCsw; omega
  · intro p
    have e := (marks_compose (s.keyAt p)).2.2.2
    simp only [keyAt_markKey, State.keyAt_setWord]
    split
    · exact e
    · rfl
  · exact ⟨⟨by simp, by simp, by simp, by simp⟩, ⟨by simp, by simp, by simp, by simp, by simp⟩,
      ⟨fun _ => by simp, by simp⟩, by simp, by simp, fun _ => by simp⟩

/-- The SCB that `collect` leaves (R180, R184). -/
def collectedScb (b : Scb) : Scb :=
  if anyBits b.status stCE then freedScb { b with status := 0 } else { b with status := storedStatus b.status }

/-- Everything `collect` does (R184). -/
theorem collect_spec {s : State} (h : memoryWf s.cfg = true) (id : ScbId) :
    StoresCsw (s.scb id).csw0 (s.scb id).csw1 s (collect id s) ∧ (collect id s).scb id = collectedScb (s.scb id) ∧
      KeepsScbsBut id s (collect id s) ∧ KeepsPlatform s (collect id s) ∧ KeepsCalls s (collect id s) ∧
      KeepsPending s (collect id s) ∧ (collect id s).loading = s.loading ∧ (collect id s).irq = s.irq := by
  obtain ⟨h1, h2⟩ := storeCsw_spec h (s.scb id).csw0 (s.scb id).csw1
  unfold collect storeStatus collectedScb
  generalize storeCsw (s.scb id).csw0 (s.scb id).csw1 s = u at h1 h2
  simp only
  split
  · rename_i hce
    refine ⟨⟨h1.first, h1.second, h1.memory, h1.keys⟩, ?_, ?_, ⟨h2.platform.cfg, h2.platform.gr, h2.platform.requests,
      h2.platform.loader⟩, ⟨h2.calls.callOuts, h2.calls.commandAnswers, h2.calls.startIoAnswers, h2.calls.haltIoAnswers,
      h2.calls.draws⟩, ⟨h2.pending.pend, h2.pending.chpend⟩, h2.loading, h2.irq⟩
    · rw [scb_updScb_self, scb_updScb_self, h2.scbs]
      simp only [Scb.unbind, storedStatus, hce, Bool.not_true, Bool.and_false, freedScb, Bool.false_eq_true, if_false]
      rfl
    · intro j hj; rw [scb_updScb_ne _ _ hj, scb_updScb_ne _ _ hj, h2.scbs]
  · refine ⟨⟨h1.first, h1.second, h1.memory, h1.keys⟩, ?_, ?_, ⟨h2.platform.cfg, h2.platform.gr, h2.platform.requests,
      h2.platform.loader⟩, ⟨h2.calls.callOuts, h2.calls.commandAnswers, h2.calls.startIoAnswers, h2.calls.haltIoAnswers,
      h2.calls.draws⟩, ⟨h2.pending.pend, h2.pending.chpend⟩, h2.loading, h2.irq⟩
    · rw [scb_updScb_self, h2.scbs]
    · intro j hj; rw [scb_updScb_ne _ _ hj, h2.scbs]

theorem chanOf_val (a : DevAddr) : (chanOf a).val = a.toNat / 256 := by
  have := a.isLt
  show (a.extractLsb' 8 4).toNat = _
  rw [BitVec.extractLsb'_toNat, Nat.shiftRight_eq_div_pow]; omega

theorem devAddrOf_toNat (c : Fin 16) (lo : Fin 256) : (devAddrOf c lo).toNat = c.val * 256 + lo.val := by
  simp only [devAddrOf, BitVec.toNat_ofNat]; have := c.isLt; have := lo.isLt; omega

/-- The addresses of a channel (R72). -/
theorem chanOf_iff (a : DevAddr) (c : Fin 16) : chanOf a = c ↔ ∃ lo, a = devAddrOf c lo := by
  constructor
  · rintro rfl
    refine ⟨⟨a.toNat % 256, Nat.mod_lt _ (by decide)⟩, BitVec.eq_of_toNat_eq ?_⟩
    rw [devAddrOf_toNat, chanOf_val]; simp only; omega
  · rintro ⟨lo, rfl⟩
    apply Fin.ext
    rw [chanOf_val, devAddrOf_toNat]; have := lo.isLt; omega

theorem anyPending_iff (s : State) (c : Fin 16) : s.anyPending c = true ↔ ∃ d, chanOf d = c ∧ s.pendAt d ≠ 0 := by
  unfold State.anyPending
  simp only [List.any_eq_true, List.mem_finRange, true_and, bne_iff_ne, ne_eq]
  constructor
  · rintro ⟨lo, h⟩; exact ⟨_, (chanOf_iff _ _).2 ⟨lo, rfl⟩, h⟩
  · rintro ⟨d, h, hd⟩
    obtain ⟨lo, rfl⟩ := (chanOf_iff _ _).1 h
    exact ⟨lo, hd⟩

theorem chpendAt_setChpend (s : State) (c d : Fin 16) (v : Bool) :
    (s.setChpend c v).chpendAt d = if d = c then v else s.chpendAt d := by
  have hbit : (1#16 <<< c.val).getLsbD d.val = decide (d = c) := by revert c d; decide
  unfold State.setChpend State.chpendAt
  have hd := d.isLt
  cases v
  · simp only [Bool.false_eq_true, if_false, BitVec.getLsbD_and, BitVec.getLsbD_not, hbit]
    by_cases h : d = c <;> simp [h]
  · simp only [if_true, BitVec.getLsbD_or, hbit]
    by_cases h : d = c <;> simp [h]

/-- Everything `clear_pend` does (R183). -/
theorem clearPend_spec (a : DevAddr) (s : State) :
    (∀ d, (clearPend a s).pendAt d = if d = a then 0 else s.pendAt d) ∧
      ((clearPend a s).chpendAt (chanOf a) = true ↔ ∃ d, d ≠ a ∧ chanOf d = chanOf a ∧ s.pendAt d ≠ 0) ∧
      (∀ c, c ≠ chanOf a → (clearPend a s).chpendAt c = s.chpendAt c) := by
  unfold clearPend
  refine ⟨fun d => by simp, ?_, fun c hc => by rw [chpendAt_setChpend, if_neg hc]; rfl⟩
  simp only
  rw [chpendAt_setChpend, if_pos rfl, anyPending_iff]
  constructor
  · rintro ⟨d, h1, h2⟩
    rw [pendAt_setPend] at h2
    by_cases h : d = a
    · rw [if_pos h] at h2; exact absurd rfl h2
    · rw [if_neg h] at h2; exact ⟨d, h, h1, h2⟩
  · rintro ⟨d, h1, h2, h3⟩
    exact ⟨d, h2, by rw [pendAt_setPend, if_neg h1]; exact h3⟩

end Sys2Proof.Machine
end

