-- ==== Sys2Proof/Laws/ChannelControl.lean ====
section
/-! SUPPORT. What the CPU's channel-control operations are built of, once (spec/44_io_instructions.md R200..R226). -/

namespace Sys2Proof.Machine

/-- The second byte is accepted or the instruction refused (spec/30_encoding.md R70). -/
theorem refusesI2_iff (s : State) (i2 : Byte) : refusesI2 s i2 = false ↔ acceptsI2 s i2 := by
  unfold refusesI2 acceptsI2
  cases s.cfg.ignoreI2 <;> simp

/-- The outcome with an accepted second byte. -/
theorem ccOutcome_ok {s : State} {i2 : Byte} (h : acceptsI2 s i2) (r : State × BitVec 2) :
    ccOutcome i2 s r = .next (r.1.answer (.cc r.2)) := by
  unfold ccOutcome; rw [(refusesI2_iff _ _).2 h]; simp

/-- A next state of an instruction is its operation's, with the condition code answered. -/
theorem ccOutcome_next {i2 : Byte} {s t : State} {r : State × BitVec 2} (h : ccOutcome i2 s r = .next t) :
    t = r.1.answer (.cc r.2) := by
  unfold ccOutcome at h
  split at h
  · cases h
  · cases h; rfl

/-- An address with SCB and device resolves (R201). -/
theorem resolve_some {s : State} {a : DevAddr} {id : ScbId} {dev : Binding} (h : Resolves s a id dev) :
    resolve s a = some (id, dev) := by
  unfold resolve; rw [h.1, h.2]

/-- What `resolve` can answer. -/
theorem resolve_cases (s : State) (a : DevAddr) : resolve s a = none ∨
      ∃ id dev, resolve s a = some (id, dev) ∧ findSubchannel s.cfg a = some id := by
  unfold resolve
  cases findSubchannel s.cfg a <;> cases findDevice s.cfg a <;> simp

/-- `mid_program` (spec/10_state.md R29). -/
theorem midProgram_iff (b : Scb) : b.midProgram = true ↔ running b := by
  unfold Scb.midProgram running; simp

/-- `mid_program` false. -/
theorem midProgram_false (b : Scb) : b.midProgram = false ↔ ¬ running b := by
  rw [← midProgram_iff]; simp

/-- The error-class status (R210). -/
theorem errorStatus_iff (b : Scb) : errorStatus b.status = true ↔ hasErrorStatus b := by
  unfold errorStatus hasErrorStatus; rw [anyBits_iff]; rfl

/-- No error-class status. -/
theorem errorStatus_false (b : Scb) : errorStatus b.status = false ↔ ¬ hasErrorStatus b := by
  rw [← errorStatus_iff]; simp

/-- SIO on a free SCB with no pending status comes to the hook and the start (R200, R205). -/
theorem sio_start {s : State} {i2 : Byte} {b1 : BitVec 4} {d1 : BitVec 12} {a : DevAddr} {id : ScbId} {dev : Binding}
    (h2 : acceptsI2 s i2) (ha : a = deviceAddress s b1 d1) (hR : Resolves s a id dev)
    (hd : (s.scb id).dev = none ∨ ((s.scb id).dev = some a ∧ (s.scb id).status = 0)) (hr : ¬ running (s.scb id))
    (hp : s.pendAt a = 0) :
    exec (.sio i2 b1 d1) s = .next ((startWithHook a id dev s).1.answer (.cc (startWithHook a id dev s).2)) := by
  simp only [exec, execSio, ccOutcome_ok h2, startIo, ← ha, resolve_some hR]
  rw [if_neg, if_neg, if_neg (by simp [hp])]
  · rintro (h | ⟨h, h'⟩)
    · exact hr ((midProgram_iff _).1 h)
    · rcases hd with hd | hd
      · exact h hd
      · exact h' hd.1
  · rintro ⟨h, h', -⟩
    rcases hd with hd | hd
    · rw [hd] at h; cases h
    · exact h' hd.2

/-- What a hook call does: the call-out recorded, an answer taken. -/
structure HookFrame (c : CallOut) (s t : State) : Prop where
  callOuts : t.callOuts = s.callOuts ++ [c]
  rest : { t with callOuts := s.callOuts, startIoAnswers := s.startIoAnswers,
                  haltIoAnswers := s.haltIoAnswers, draws := s.draws } = s

/-- The `start_io` hook (spec/10_state.md R31). -/
theorem startIoHook_frame (a : DevAddr) (s : State) : HookFrame (.startIo a) s (startIoHook a s).2 := by
  unfold startIoHook
  cases h : s.startIoAnswers <;> exact ⟨rfl, rfl⟩

/-- The `halt_io` hook (spec/10_state.md R31). -/
theorem haltIoHook_frame (a : DevAddr) (s : State) : HookFrame (.haltIo a) s (haltIoHook a s).2 := by
  unfold haltIoHook
  cases h : s.haltIoAnswers <;> exact ⟨rfl, rfl⟩

/-- A hook call leaves every other field. -/
theorem HookFrame.eqs {c : CallOut} {s t : State} (h : HookFrame c s t) :
    t.cfg = s.cfg ∧ t.scbs = s.scbs ∧ t.pend = s.pend ∧ t.chpend = s.chpend ∧ t.irq = s.irq ∧
    t.loading = s.loading ∧
    t.mem = s.mem ∧ t.skey = s.skey ∧ t.gr = s.gr ∧ t.requests = s.requests ∧ t.loader = s.loader ∧ t.commandAnswers = s.commandAnswers := by
  have e := h.rest
  refine ⟨?_, ?_, ?_, ?_, ?_, ?_, ?_, ?_, ?_, ?_, ?_, ?_⟩ <;> rw [← e]

/-- The SCB a start binds (R206). -/
theorem started_eq (a : DevAddr) (dev : Binding) (key : BitVec 4) (caw : Addr) (b : Scb) :
    Scb.started a dev key caw b = boundScb a dev key caw b := by
  unfold Scb.started boundScb; rfl

/-- A first load that succeeds answers 0 (R207). -/
theorem firstLoad_ok {s t : State} {id : ScbId} (h : loadNextCcw id false s = (t, .ok)) : firstLoad id s = (t, 0) := by
  unfold firstLoad; rw [h]

/-- The CAW read (R206). -/
theorem readArchitected_caw {s : State} (h : memoryWf s.cfg = true) : readArchitected s s.cfg.cawAddr = (s.wordAt s.cfg.cawAddr, s.markKey (pageOf s.cfg.cawAddr) 0x04) := by
  unfold readArchitected; rw [readWord_ok (cawAddr_access h false)]

/-- A hook call changes no access check. -/
theorem accessFault_hook {c : CallOut} {s t : State} (h : HookFrame c s t) (k : BitVec 4) (a : Addr) (w : Bool) :
    accessFault t k a w = accessFault s k a w :=
  accessFault_congr h.eqs.1 h.eqs.2.2.2.2.2.2.2.1 k a w

end Sys2Proof.Machine
end

