-- ==== Sys2Proof/Laws/Moves.lean ====
section
/-! SUPPORT. What a byte transfer does up to the end of its byte, what that end does at a page and at a data chain, and what a
load made under CD keeps: one lemma each (spec/42_transfer.md R143..R158; spec/41_ccw_loader.md R137). -/

namespace Sys2Proof.Machine

/-! ## The byte -/

/-- A call that finds a count goes on (R144). -/
theorem atCountZero_of_count {id : ScbId} {dir : Direction} {s : State} (h : (s.scb id).count ≠ 0) :
    atCountZero id dir s = (s, true) := by unfold atCountZero; rw [if_pos h]

/-- Marking a page referenced, or referenced and changed, as a condition on the page says. -/
theorem KeepsAccessKeys.of_mark {s u : State} {P : Nat → Prop} [DecidablePred P] {m : Byte} (hm : m = 0x04 ∨ m = 0x06)
    (h : ∀ p, u.keyAt p = if P p then s.keyAt p ||| m else s.keyAt p) : KeepsAccessKeys s u := by
  intro p
  rw [h]
  split
  · rcases hm with rfl | rfl
    · exact .inr (.inl rfl)
    · exact .inr (.inr rfl)
  · exact .inl rfl

/-- The register once filled, where the access it needs is permitted (R148, R150). -/
theorem fill_ok {s : State} {id : ScbId} {b : Scb} (hb : b = s.scb id) (dir : Direction)
    (hf : b.boff = none → accessFault s b.key b.position (decide (dir = .input)) = none) :
    ∃ u, fill id dir s = (u, true) ∧
      u.scb id = { b with buf := registerWord s b, boff := some (registerOffset b),
                          dirty := if b.boff = none then false else b.dirty } ∧
      u.irq = s.irq ∧ KeepsOutside s u ∧ KeepsScbsBut id s u ∧
      (∀ p, u.keyAt p = if b.boff = none ∧ p = pageOf b.position then s.keyAt p ||| 0x04 else s.keyAt p) := by
  subst hb
  rcases fill_cases id dir s with ⟨h1, h2⟩ | ⟨h1, e, h2, h3⟩ | ⟨h1, h2, h3⟩
  · obtain ⟨k, hk⟩ := Option.ne_none_iff_exists'.1 h1
    refine ⟨s, h2, ?_, rfl, .refl s, .refl id s, fun p => by simp [hk]⟩
    simp only [registerWord, registerOffset, hk, reduceCtorEq, if_false, Option.getD_some]
    rw [← hk]
  · rw [hf h1] at h2; cases h2
  · refine ⟨_, h3, ?_, rfl, (KeepsOutside.markKey s _ _).trans (.updScb _ id _), ?_, fun p => by simp [h1]⟩
    · simp [h1, registerWord, registerOffset, Scb.filled, byteOffset]
    · intro j hj; simp [scb_updScb, hj]

/-- A `read_byte` that finds a count and may fill its register: the byte, and the state whose byte ends (R148, R149). -/
theorem readByte_moves {s : State} {a : DevAddr} {id : ScbId} {b : Scb} (hT : Transfers .out a id s) (hb : b = s.scb id)
    (hc : b.count ≠ 0) (hf : b.boff = none → accessFault s b.key b.position false = none) :
    ∃ u, readByte a s = (finishByte id u, .byte (wordByte (registerWord s b) (registerOffset b))) ∧
      u.scb id = { b with buf := registerWord s b, boff := nextOffset b.cmd (registerOffset b),
                          dirty := if b.boff = none then false else b.dirty } ∧
      u.irq = s.irq ∧ KeepsOutside s u ∧ KeepsScbsBut id s u ∧
      (∀ p, u.keyAt p = if b.boff = none ∧ p = pageOf b.position then s.keyAt p ||| 0x04 else s.keyAt p) := by
  obtain ⟨u, h1, h2, h3, h4, h5, h6⟩ := fill_ok hb .out (by simpa using hf)
  subst hb
  unfold readByte
  simp only [transferScb_iff.2 hT, atCountZero_of_count hc, h1]
  refine ⟨u.updScb id Scb.advanceOffset, ?_, ?_, h3, h4.trans (.updScb _ id _), ?_, h6⟩
  · rw [h2]; rfl
  · rw [scb_updScb_self, advanceOffset_some (k := registerOffset (s.scb id)) (by rw [h2]), h2]
  · intro j hj; rw [scb_updScb_ne _ _ hj]; exact h5 j hj

/-- A stored `write_byte` before the register's last byte: the state whose byte ends (R150, R151). -/
theorem writeByte_holds {s : State} {a : DevAddr} {x : Byte} {id : ScbId} {b : Scb} (hT : Transfers .input a id s)
    (hb : b = s.scb id) (hc : b.count ≠ 0) (hs : b.flags.skip = false)
    (hf : b.boff = none → accessFault s b.key b.position true = none) (hl : lastOffset b.cmd (registerOffset b) = false) :
    ∃ u, writeByte a x s = (finishByte id u, .ok) ∧
      u.scb id = { b with buf := storedWord s b x, boff := nextOffset b.cmd (registerOffset b), dirty := true } ∧
      u.irq = s.irq ∧ KeepsOutside s u ∧ KeepsScbsBut id s u ∧
      (∀ p, u.keyAt p = if b.boff = none ∧ p = pageOf b.position then s.keyAt p ||| 0x04 else s.keyAt p) := by
  obtain ⟨u, h1, h2, h3, h4, h5, h6⟩ := fill_ok hb .input (by simpa using hf)
  subst hb
  have hoff : ((u.scb id).putByte x).boff = some (registerOffset (s.scb id)) := by rw [h2]; rfl
  have hlast : ((u.scb id).putByte x).atLastByte = false := by rw [atLastByte_some hoff, h2]; exact hl
  unfold writeByte
  simp only [transferScb_iff.2 hT, atCountZero_of_count hc, hs, Bool.false_eq_true, if_false]
  unfold storeByte flushIfExhausted
  simp only [h1, scb_updScb_self, hlast, Bool.false_eq_true, if_false]
  refine ⟨_, rfl, ?_, h3, (h4.trans (.updScb _ id _)).trans (.updScb _ id _), ?_, h6⟩
  · rw [scb_updScb_self, scb_updScb_self, advanceOffset_some hoff, h2]; rfl
  · intro j hj; rw [scb_updScb_ne _ _ hj, scb_updScb_ne _ _ hj]; exact h5 j hj

/-- A stored `write_byte` of the register's last byte: the state whose byte ends, the word stored (R150, R151, R153). -/
theorem writeByte_flushes {s : State} {a : DevAddr} {x : Byte} {id : ScbId} {b : Scb} (hT : Transfers .input a id s)
    (hb : b = s.scb id) (hc : b.count ≠ 0) (hs : b.flags.skip = false) (hf : accessFault s b.key b.position true = none)
    (hl : lastOffset b.cmd (registerOffset b) = true) :
    ∃ u, writeByte a x s = (finishByte id u, .ok) ∧
      u.scb id = { b with buf := storedWord s b x, boff := none, dirty := false } ∧
      u.wordAt b.position = storedWord s b x ∧ KeepsMemoryBut (inWordOf b.position) s u ∧
      u.irq = s.irq ∧ KeepsScbsBut id s u ∧ KeepsPlatform s u ∧ KeepsCalls s u ∧ KeepsPending s u ∧
      u.loading = s.loading ∧
      (∀ p, u.keyAt p = if p = pageOf b.position then s.keyAt p ||| 0x06 else s.keyAt p) := by
  obtain ⟨u, h1, h2, h3, h4, h5, h6⟩ := fill_ok hb .input (by simpa using fun _ => hf)
  have hfu : accessFault (u.updScb id (Scb.putByte x)) b.key b.position true = none := by
    rw [accessFault_updScb, accessFault_kept h4.platform.cfg (.of_mark (.inl rfl) h6), hf]
  subst hb
  have hoff : ((u.scb id).putByte x).boff = some (registerOffset (s.scb id)) := by rw [h2]; rfl
  have hlast : ((u.scb id).putByte x).atLastByte = true := by rw [atLastByte_some hoff, h2]; exact hl
  have hpos : ((u.scb id).putByte x).position = (s.scb id).position := by rw [h2]; rfl
  have hkey : ((u.scb id).putByte x).key = (s.scb id).key := by rw [h2]; rfl
  have hbuf : ((u.scb id).putByte x).buf = storedWord s (s.scb id) x := by rw [h2]; rfl
  unfold writeByte
  simp only [transferScb_iff.2 hT, atCountZero_of_count hc, hs, Bool.false_eq_true, if_false]
  unfold storeByte flushIfExhausted
  simp only [h1, scb_updScb_self, hlast, if_true, hpos]
  rcases flush_cases id (wordAddr (s.scb id).position) (u.updScb id (Scb.putByte x)) with ⟨e, g1, g2⟩ | ⟨g1, g2⟩
  · rw [accessFault_wordAddr, scb_updScb_self, hkey, hfu] at g1; cases g1
  · rw [setWord_wordAddr, pageOf_wordAddr, scb_updScb_self, hbuf] at g2
    simp only [g2]
    refine ⟨_, rfl, ?_, by simp, ?_, by simpa using h3, ?_, h4.platform.trans ⟨by simp, by simp, by simp, by simp⟩,
      h4.calls.trans ⟨by simp, by simp, by simp, by simp, by simp⟩, h4.pending.trans ⟨fun _ => by simp, by simp⟩,
      by simpa using h4.loading, ?_⟩
    · simp only [scb_updScb_self, State.scb_markKey, State.scb_setWord]
      rw [advanceOffset_some (k := registerOffset (s.scb id)) (by rw [h2]; rfl), h2]
      simp [Scb.putByte, nextOffset, hl, storedWord]
    · intro y hy
      rw [State.byteAt_updScb, State.byteAt_updScb, State.byteAt_markKey,
        byteAt_setWord_outside _ _ _ (by simpa [inWord, inWordOf, wordAddr_toNat] using hy), State.byteAt_updScb]
      exact h4.memory y
    · intro j hj; simp [scb_updScb, hj]; exact h5 j hj
    · intro p
      simp only [State.keyAt_updScb, keyAt_markKey, State.keyAt_setWord, h6]
      by_cases hp : p = pageOf (s.scb id).position
      · simp only [hp, if_true]
        split
        · exact (marks_compose _).2.1
        · rfl
      · simp [hp]

/-- A stored `write_byte` of the register's last byte whose word may not be written any more (R152, R153). -/
theorem writeByte_flushFault {s : State} {a : DevAddr} {x : Byte} {id : ScbId} {b : Scb} {e : MemFault} {k : BitVec 2}
    (hT : Transfers .input a id s) (hb : b = s.scb id) (hc : b.count ≠ 0) (hs : b.flags.skip = false) (hk : b.boff = some k)
    (hf : accessFault s b.key b.position true = some e) (hl : lastOffset b.cmd k = true) :
    writeByte a x s = (chanFault id e.bit (s.updScb id (Scb.putByte x)), .done) := by
  subst hb
  have hfill : fill id .input s = (s, true) := by unfold fill; simp [hk]
  have hlast : ((s.scb id).putByte x).atLastByte = true := by
    rw [atLastByte_some (b := (s.scb id).putByte x) hk]; exact hl
  have hpos : ((s.scb id).putByte x).position = (s.scb id).position := rfl
  have hkey : ((s.scb id).putByte x).key = (s.scb id).key := rfl
  unfold writeByte
  simp only [transferScb_iff.2 hT, atCountZero_of_count hc, hs, Bool.false_eq_true, if_false]
  unfold storeByte flushIfExhausted
  simp only [hfill, scb_updScb_self, hlast, if_true, hpos]
  rcases flush_cases id (wordAddr (s.scb id).position) (s.updScb id (Scb.putByte x)) with ⟨e', g1, g2⟩ | ⟨g1, g2⟩ <;>
    rw [accessFault_wordAddr, scb_updScb_self, accessFault_updScb, hkey, hf] at g1 <;> cases g1
  simp only [g2]

/-- All that the flush of a dirty register does (R146, R152). -/
theorem flushDirty_spec (id : ScbId) (s : State) (b : Scb) (hb : b = s.scb id) :
    ((flushDirty id s).1.scb id) = flushedScb s b ∧ (flushes s b → (flushDirty id s).1.wordAt b.position = b.buf) ∧
    KeepsMemoryBut (fun x => flushes s b ∧ inWordOf b.position x) s (flushDirty id s).1 ∧
    (∀ p, (flushes s b ∧ p = pageOf b.position → (flushDirty id s).1.keyAt p = s.keyAt p ||| 0x06) ∧
      (¬ (flushes s b ∧ p = pageOf b.position) → (flushDirty id s).1.keyAt p = s.keyAt p)) ∧
    KeepsScbsBut id s (flushDirty id s).1 ∧ KeepsPlatform s (flushDirty id s).1 ∧ KeepsCalls s (flushDirty id s).1 ∧
    KeepsPending s (flushDirty id s).1 ∧ (flushDirty id s).1.loading = s.loading := by
  subst hb
  rcases flushDirty_cases id s with ⟨h1, h2⟩ | ⟨h1, e, h2, h3⟩ | ⟨h1, h2, h3⟩
  · have hn : ¬ flushes s (s.scb id) := fun h => Bool.false_ne_true (h1.symm.trans h.1)
    rw [h2]
    refine ⟨?_, fun h => absurd h hn, fun _ _ => rfl, fun p => ⟨fun h => absurd h.1 hn, fun _ => rfl⟩, .refl _ _, .refl _,
      .refl _, .refl _, rfl⟩
    simp only [flushedScb, flushFault, h1, Bool.false_eq_true, if_false]
    rw [← h1]
  · have hn : ¬ flushes s (s.scb id) := fun h => Option.some_ne_none e (h2.symm.trans h.2)
    obtain ⟨k1, k2, k3, k4, k5⟩ := chanFault_spec id e.bit s
    rw [h3]
    refine ⟨?_, fun h => absurd h hn, fun x _ => k3.memory x, fun p => ⟨fun h => absurd h.1 hn, fun _ => k5 p⟩, k4.others,
      k3.platform, k3.calls, k3.pending, k3.loading⟩
    simp only [flushedScb, flushFault, h1, if_true, h2]; exact k1
  · have hy : flushes s (s.scb id) := ⟨h1, h2⟩
    rw [h3]
    refine ⟨?_, fun _ => by simp, fun x hx => ?_, fun p => ?_, fun j hj => ?_, ⟨by simp, by simp, by simp, by simp⟩,
      ⟨by simp, by simp, by simp, by simp, by simp⟩, ⟨fun _ => by simp, by simp⟩, by simp⟩
    · simp only [flushedScb, flushFault, h1, if_true, h2, scb_updScb_self, State.scb_markKey, State.scb_setWord]
    · rw [State.byteAt_updScb, State.byteAt_markKey]
      exact byteAt_setWord_outside _ _ _ fun h => hx ⟨hy, by simpa [inWord, inWordOf, wordAddr_toNat] using h⟩
    · simp only [State.keyAt_updScb, keyAt_markKey, State.keyAt_setWord, hy, true_and]
      exact ⟨fun h => if_pos h, fun h => if_neg h⟩
    · rw [scb_updScb_ne _ _ hj, State.scb_markKey, State.scb_setWord]

/-! ## The page -/

/-- The page of one address, the low 11 bits of another (R156). -/
theorem onPage_spec (p l : Addr) : pageOf (onPage p l) = pageOf p ∧ (onPage p l).toNat % 2048 = l.toNat % 2048 := by
  have m1 : ∀ i : Nat, i < 24 → (0xFFF800#24).getLsbD i = decide (11 ≤ i) := by decide
  have m2 : ∀ i : Nat, i < 24 → (0x7FF#24).getLsbD i = decide (i < 11) := by decide
  constructor
  · have h : onPage p l >>> 11 = p >>> 11 := by
      apply BitVec.eq_of_getLsbD_eq
      intro i hi
      rw [BitVec.getLsbD_ushiftRight, BitVec.getLsbD_ushiftRight]
      by_cases h : 11 + i < 24
      · show ((p &&& 0xFFF800#24) ||| (l &&& 0x7FF#24)).getLsbD (11 + i) = _
        rw [BitVec.getLsbD_or, BitVec.getLsbD_and, BitVec.getLsbD_and, m1 _ h, m2 _ h]
        simp
      · rw [BitVec.getLsbD_of_ge _ _ (by omega), BitVec.getLsbD_of_ge _ _ (by omega)]
    have := congrArg BitVec.toNat h
    simpa [pageOf, BitVec.toNat_ushiftRight, Nat.shiftRight_eq_div_pow] using this
  · have h : (onPage p l).setWidth 11 = l.setWidth 11 := by
      apply BitVec.eq_of_getLsbD_eq
      intro i hi
      rw [BitVec.getLsbD_setWidth, BitVec.getLsbD_setWidth]
      show (decide (i < 11) && ((p &&& 0xFFF800#24) ||| (l &&& 0x7FF#24)).getLsbD i) = _
      rw [BitVec.getLsbD_or, BitVec.getLsbD_and, BitVec.getLsbD_and, m1 _ (by omega), m2 _ (by omega)]
      simp [hi, show ¬ 11 ≤ i by omega]
    have := congrArg BitVec.toNat h
    simpa [BitVec.toNat_setWidth] using this

/-- A step that changes the page leaves it at the edge it came in by (R155). -/
theorem stepAddr_entersPage {cmd : Byte} {y : Addr} (h : pageOf y ≠ pageOf (stepAddr cmd y)) :
    (stepAddr cmd y).toNat % 2048 = if isBackward cmd then 2047 else 0 := by
  have := y.isLt
  unfold pageOf stepAddr at h
  unfold stepAddr
  cases hb : isBackward cmd
  · simp only [hb, Bool.false_eq_true, if_false] at h ⊢
    have h1 : (y + 1).toNat = (y.toNat + 1) % 2 ^ 24 := by rw [BitVec.toNat_add]; rfl
    omega
  · simp only [hb, if_true] at h ⊢
    have h1 : (y - 1).toNat = (y.toNat + (2 ^ 24 - 1)) % 2 ^ 24 := by rw [BitVec.toNat_sub]; congr 1; simp; omega
    omega

/-- The end of a byte that enters another page with bytes left (R155, R156). -/
theorem finishByte_entersPage {s : State} {id : ScbId} {b : Scb} (hb : b = s.scb id) (hn : needsNextIdaw b) :
    TakesNextIdaw id (movedScb b) s (finishByte id s) ∧ KeepsOutside s (finishByte id s) ∧
    KeepsScbsBut id s (finishByte id s) ∧
    (∀ p, (finishByte id s).keyAt p =
      if accessFault s b.key (b.addr + 4) false = none ∧ p = pageOf (b.addr + 4)
      then s.keyAt p ||| 0x04 else s.keyAt p) := by
  have hx : b.flags.ida = true ∧ pageOf b.iaddr ≠ pageOf (stepAddr b.cmd b.iaddr) := by
    simpa [Scb.crosses] using hn.1
  have hmove : b.move = { b with iaddr := stepAddr b.cmd b.iaddr } := by unfold Scb.move; rw [if_pos hx.1]
  have hmoved : movedScb b = { b with iaddr := stepAddr b.cmd b.iaddr, count := b.count - 1 } := by
    rw [← Scb.move_eq, hmove]
  have hlow := stepAddr_entersPage hx.2
  rw [finishByte_crossing (by rw [← hb]; exact hn), hmoved]
  rcases nextIdaw_cases id (s.updScb id Scb.move) with ⟨e, h1, h2⟩ | ⟨h1, h2⟩ <;>
    simp only [scb_updScb_self, ← hb, hmove, accessFault_updScb, State.wordAt_updScb] at h1 h2 <;> rw [h2]
  · obtain ⟨k1, -, k3, -, -⟩ :=
      chanFault_spec id e.bit ((s.updScb id Scb.move).updScb id fun b => { b with addr := b.addr + 4 })
    refine ⟨⟨fun h => ?_, fun e' h => ?_⟩, ?_, fun j hj => by simp [chanFault, scb_updScb, hj], fun p => ?_⟩
    · exact absurd (h1.symm.trans h) (Option.some_ne_none e)
    · cases h1.symm.trans h
      refine ⟨rfl, ?_⟩
      rw [scb_updScb_self, k1]
      simp [faultedScb, ← hb, hmove]
    · exact (((KeepsOutside.updScb s id _).trans (.updScb _ id _)).trans k3).trans (.updScb _ id _)
    · rw [h1]; simp [chanFault]
  · refine ⟨⟨fun _ => ⟨rfl, onPage (idawAddress (s.wordAt (b.addr + 4))) (stepAddr b.cmd b.iaddr), ?_, ?_, (onPage_spec _ _).2,
        hlow⟩, fun e' h => ?_⟩, ?_,
      fun j hj => by simp [scb_updScb, hj], fun p => by rw [h1]; simp⟩
    · simp [← hb, hmove]
    · exact (onPage_spec _ _).1
    · exact absurd (h.symm.trans h1) (Option.some_ne_none e')
    · exact ((((KeepsOutside.updScb s id _).trans (.updScb _ id _)).trans (.markKey _ _ _)).trans (.updScb _ id _)).trans
        (.updScb _ id _)

/-! ## The data chain -/

/-- What a load made under CD leaves of its calls, command, count and channel errors, against the state before it. -/
structure Chained (id : ScbId) (s : State) (r : State × LoadResult) : Prop where
  calls : KeepsCalls s r.1
  cmd : ((r.2 = .ok ∨ r.2 = .fail .abort) ∧ (r.1.scb id).cmd = (s.scb id).cmd) ∨
    (r.2 = .fail .check ∧ (r.1.scb id).cmd = 0)
  ok : r.2 = .ok → (r.1.scb id).count ≠ 0 ∧ anyBits (r.1.scb id).status chanErr = anyBits (s.scb id).status chanErr

section
variable {id : ScbId} {s u : State} {r : State × LoadResult}

/-- A load that a check fails (R112). -/
theorem Chained.fail (bit : Half) (h : KeepsCalls s u) : Chained id s (failCheck id bit u) :=
  ⟨h.trans ⟨rfl, rfl, rfl, rfl, rfl⟩, .inr ⟨rfl, by rw [failCheck, (chanFault_spec id bit u).1]; rfl⟩, fun h => by cases h⟩

/-- What went before the load and kept calls, command and channel errors. -/
theorem Chained.before (h : Chained id u r) (hk : KeepsCalls s u) (hc : (u.scb id).cmd = (s.scb id).cmd)
    (hs : anyBits (u.scb id).status chanErr = anyBits (s.scb id).status chanErr) : Chained id s r :=
  ⟨hk.trans h.calls, by rw [← hc]; exact h.cmd, fun k => ⟨(h.ok k).1, (h.ok k).2.trans hs⟩⟩

/-- An update of the SCB before the load that keeps command and status. -/
theorem Chained.upd {f : Scb → Scb} (h : Chained id (s.updScb id f) r)
    (hf : ∀ b, (f b).cmd = b.cmd ∧ (f b).status = b.status) : Chained id s r :=
  h.before ⟨rfl, rfl, rfl, rfl, rfl⟩ (by rw [scb_updScb_self, (hf _).1]) (by rw [scb_updScb_self, (hf _).2])

/-- Raising PCI sets no channel error (R127). -/
theorem pciRaised_keeps (b : Scb) : anyBits (pciRaised b).status chanErr = anyBits b.status chanErr ∧
    (pciRaised b).cmd = b.cmd ∧ (pciRaised b).count = b.count := by
  unfold pciRaised
  split
  · exact ⟨(anyBits_or _ _ _).trans (by rw [show anyBits stPCI chanErr = false by decide, Bool.or_false]), rfl, rfl⟩
  · exact ⟨rfl, rfl, rfl⟩

/-- The first IDAW changes no command, status or count (R122). -/
theorem loadFirstIdaw_keeps (h : loadFirstIdaw id s = .ok u) : KeepsCalls s u ∧ (u.scb id).cmd = (s.scb id).cmd ∧
    (u.scb id).status = (s.scb id).status ∧ (u.scb id).count = (s.scb id).count := by
  unfold loadFirstIdaw at h
  simp only at h
  split at h
  · split at h
    · rcases readWord_cases s (s.scb id).key (s.scb id).addr with ⟨e, -, h'⟩ | ⟨-, h'⟩ <;> simp only [h'] at h <;> cases h
      exact ⟨⟨rfl, rfl, rfl, rfl, rfl⟩, by simp, by simp, by simp⟩
    · cases h; exact ⟨⟨rfl, rfl, rfl, rfl, rfl⟩, by simp, by simp, by simp⟩
  · cases h; exact ⟨⟨rfl, rfl, rfl, rfl, rfl⟩, by simp, by simp, by simp⟩

/-- Steps 5 to 9 of a load that continues a data chain (R118 to R122, R127, R137). -/
theorem loadFields_chained (f : CcwFields) : Chained id s (loadFields id false f s) := by
  refine Chained.upd (f := fun b => { b with addr := f.data }) ?_ fun _ => ⟨rfl, rfl⟩
  unfold loadFields
  simp only
  generalize s.updScb id (fun b => { b with addr := f.data }) = v
  rcases readWord_cases v (v.scb id).key (v.scb id).caw with ⟨e, -, h⟩ | ⟨-, h⟩ <;> simp only [h]
  · exact .fail _ (.refl _)
  · split
    · exact .fail _ ⟨rfl, rfl, rfl, rfl, rfl⟩
    · rename_i hc
      split
      · exact .fail _ ⟨rfl, rfl, rfl, rfl, rfl⟩
      · split
        · exact .fail _ ⟨rfl, rfl, rfl, rfl, rfl⟩
        · rename_i w hw
          obtain ⟨k1, k2, k3, k4⟩ := loadFirstIdaw_keeps hw
          obtain ⟨t, h1, h2, -, h4, -, -⟩ := raisePci_spec id w
          obtain ⟨q1, q2, q3⟩ := pciRaised_keeps (w.scb id)
          simp only [Bool.false_eq_true, if_false, h1]
          have k0 : KeepsCalls v w := ⟨k1.callOuts, k1.commandAnswers, k1.startIoAnswers, k1.haltIoAnswers, k1.draws⟩
          refine ⟨k0.trans h4, .inl ⟨.inl rfl, ?_⟩, fun _ => ⟨?_, ?_⟩⟩ <;>
            simp only [h2, q1, q2, q3, k2, k3, k4, scb_updScb_self, State.scb_markKey, Scb.installed]
          exact hc

/-- A command code in a data chain (R84, R118). -/
theorem loadCommand_chained (f : CcwFields) (hcd : (s.scb id).flags.cd = true) : Chained id s (loadCommand id f s) := by
  unfold loadCommand
  simp only [scb_updScb_self, hcd, if_true]
  exact (loadFields_chained f).upd fun _ => ⟨rfl, rfl⟩

/-- A command code of class INVALID in a data chain (R84, R136). -/
theorem loadInvalid_chained (f : CcwFields) (hcd : (s.scb id).flags.cd = true) : Chained id s (loadInvalid id f s) := by
  unfold loadInvalid
  simp only [scb_updScb_self, hcd, if_true]
  exact (loadFields_chained f).upd fun _ => ⟨rfl, rfl⟩

/-- The status-modifier skip changes no channel error (R116). -/
theorem skipOnModifier_keeps (b : Scb) : b.skipOnModifier.cmd = b.cmd ∧ b.skipOnModifier.flags = b.flags ∧
    anyBits b.skipOnModifier.status chanErr = anyBits b.status chanErr := by
  unfold Scb.skipOnModifier
  split
  · refine ⟨rfl, rfl, ?_⟩
    show anyBits (b.status &&& ~~~stSM) chanErr = _
    unfold anyBits
    rw [BitVec.and_assoc, show ~~~stSM &&& chanErr = chanErr by decide]
  · exact ⟨rfl, rfl, rfl⟩

/-- A fetch under CD (R114 to R117). -/
theorem fetchCcw_chained (id : ScbId) (s : State) :
    (∃ u r, fetchCcw id s = .stop u r ∧ Chained id s (u, r)) ∨
    (∃ i u, fetchCcw id s = .ccw i u ∧ KeepsCalls s u ∧ (u.scb id).cmd = (s.scb id).cmd ∧
      (u.scb id).flags = (s.scb id).flags ∧
      anyBits (u.scb id).status chanErr = anyBits (s.scb id).status chanErr) := by
  unfold fetchCcw
  simp only
  split
  · exact .inl ⟨_, _, rfl, Chained.fail _ (.refl _)⟩
  · split
    · exact .inl ⟨_, _, rfl, .refl _, .inl ⟨.inr rfl, rfl⟩, fun h => by cases h⟩
    · rcases readWord_cases (s.updScb id Scb.skipOnModifier) (s.scb id).key
        ((s.updScb id Scb.skipOnModifier).scb id).caw with ⟨e, -, h⟩ | ⟨-, h⟩ <;> rw [h]
      · exact .inl ⟨_, _, rfl, Chained.fail _ ⟨rfl, rfl, rfl, rfl, rfl⟩⟩
      · refine .inr ⟨_, _, rfl, ⟨rfl, rfl, rfl, rfl, rfl⟩, ?_, ?_, ?_⟩ <;> simp [skipOnModifier_keeps]

/-- The CCW a TIC leads to, in a data chain (R121). -/
theorem runTicTarget_chained (i : Instr) (hcd : (s.scb id).flags.cd = true) : Chained id s (runTicTarget id i s) := by
  cases i <;> unfold runTicTarget <;>
    first
    | exact loadCommand_chained _ hcd
    | exact loadInvalid_chained _ hcd
    | exact Chained.fail _ (.refl _)

/-- A TIC in a data chain (R121, R130). -/
theorem ccwTic_chained (ticAllowed : Bool) (target : Addr) (hcd : (s.scb id).flags.cd = true) :
    Chained id s (ccwTic id ticAllowed target s) := by
  unfold ccwTic
  split
  · refine Chained.upd (f := fun b => { b with caw := target }) ?_ fun _ => ⟨rfl, rfl⟩
    rcases fetchCcw_chained id (s.updScb id fun b => { b with caw := target }) with ⟨v, r, h, q⟩ | ⟨i, v, h, q1, q2, q3, q4⟩ <;>
      simp only [h]
    · exact q
    · exact (runTicTarget_chained i (by rw [q3, scb_updScb_self]; exact hcd)).before q1 q2 q4
  · exact Chained.fail _ (.refl _)

/-- A load made while the CCW left has CD and no chain is held calls no device and keeps the command, or clears it where a check
fails (R84, R110, R137). -/
theorem loadNextCcw_chained (id : ScbId) (ticAllowed : Bool) (s : State) (hcd : (s.scb id).flags.cd = true)
    (hh : (s.scb id).chainHeld = false) : Chained id s (loadNextCcw id ticAllowed s) := by
  unfold loadNextCcw beginLoad
  simp only [hh, Bool.false_eq_true, if_false]
  rcases fetchCcw_chained id s with ⟨v, r, h, q⟩ | ⟨i, v, h, q1, q2, q3, q4⟩ <;> simp only [h]
  · exact q
  · refine Chained.before ?_ q1 q2 q4
    have hcd' : (v.scb id).flags.cd = true := by rw [q3]; exact hcd
    cases i <;> unfold runCcw <;>
      first
      | exact loadCommand_chained _ hcd'
      | exact loadInvalid_chained _ hcd'
      | exact ccwTic_chained _ _ hcd'
      | exact Chained.fail _ (.refl _)

end

/-- The end of the last byte before a data chain, with no channel error (R158). -/
theorem finishByte_chains {s : State} {id : ScbId} {a : DevAddr} (hd : (s.scb id).dev = some a)
    (hl : lastOfDataChain (s.scb id)) (he : anyBits (s.scb id).status chanErr = false) :
    finishByte id s = (dataChain id (s.updScb id movedScb)).1 := by rw [finishByte_last hd hl, he]; rfl

/-- A data chain with a clean register is its load (R146). -/
theorem dataChain_clean {id : ScbId} {s : State} (h : (s.scb id).dirty = false) :
    dataChain id s = ((loadNextCcw id true s).1, (loadNextCcw id true s).2 == .ok) := by
  unfold dataChain flushDirty; simp [h]

end Sys2Proof.Machine
end

