-- ==== Sys2Proof/Laws/PerInstr.lean ====
section
/-! SUPPORT. Families of statements over every instruction: one lemma per constructor. -/

namespace Sys2Proof.Laws

/-- The bytes an instruction takes (spec/30_encoding.md R85): 4 in the CPU's stream, 8 in a channel program. -/
def Length.Statement (i : Instr) : Prop :=
  (encodeBytes i).length = (match i.source with | .cpu => 4 | .channel => 8)

theorem Length.sio (i2 : Byte) (b1 : BitVec 4) (d1 : BitVec 12) : Length.Statement (.sio i2 b1 d1) := rfl

theorem Length.tio (i2 : Byte) (b1 : BitVec 4) (d1 : BitVec 12) : Length.Statement (.tio i2 b1 d1) := rfl

theorem Length.hio (i2 : Byte) (b1 : BitVec 4) (d1 : BitVec 12) : Length.Statement (.hio i2 b1 d1) := rfl

theorem Length.tch (i2 : Byte) (b1 : BitVec 4) (d1 : BitVec 12) : Length.Statement (.tch i2 b1 d1) := rfl

theorem Length.ccwWrite (f : CcwFields) : Length.Statement (.ccwWrite f) := rfl

theorem Length.ccwRead (f : CcwFields) : Length.Statement (.ccwRead f) := rfl

theorem Length.ccwControl (f : CcwFields) : Length.Statement (.ccwControl f) := rfl

theorem Length.ccwSense (f : CcwFields) : Length.Statement (.ccwSense f) := rfl

theorem Length.ccwTic (cmd : Byte) (target : Addr) (second : Word) : Length.Statement (.ccwTic cmd target second) := rfl

theorem Length.ccwRdbwd (f : CcwFields) : Length.Statement (.ccwRdbwd f) := rfl

theorem Length.ccwInvalid (f : CcwFields) : Length.Statement (.ccwInvalid f) := rfl

end Sys2Proof.Laws
end

