-- ==== Sys2Proof/Laws/Scan.lean ====
section
/-! SUPPORT. What the scan can do, SCB by SCB and in its fallback, once (spec/43_status.md R185..R192). -/

namespace Sys2Proof.Machine

/-- A test of two masks at once. -/
theorem anyBits_or_right {n : Nat} (x y m : BitVec n) : anyBits m (x ||| y) = (anyBits m x || anyBits m y) := by
  have h := anyBits_or x y m
  have c : ∀ p q : BitVec n, anyBits p q = anyBits q p := fun p q => by simp [anyBits, BitVec.and_comm]
  rw [c, h, c x, c y]

theorem PassesBy.refl (ids : List ScbId) (s : State) : PassesBy ids s s :=
  ⟨.refl s, .refl s, rfl, .refl s, .refl s, rfl, rfl, fun _ _ => rfl, fun _ => rfl⟩

/-- IRQ is no part of what a scan that passes by leaves as before. -/
theorem PassesBy.with_irq {ids : List ScbId} {s t : State} (h : PassesBy ids s t) (v : Bool) : PassesBy ids s { t with irq := v } :=
  ⟨⟨h.platform.cfg, h.platform.gr, h.platform.requests, h.platform.loader⟩, ⟨h.pending.pend, h.pending.chpend⟩, h.loading,
    h.memory, h.keys, h.startIoAnswers, h.haltIoAnswers, h.scbs, h.quiet⟩

/-- It does not matter either what IRQ was before: the scan clears it on entry (R191). -/
theorem PassesBy.of_irq {ids : List ScbId} {s t : State} {v : Bool} (h : PassesBy ids { s with irq := v } t) :
    PassesBy ids s t :=
  ⟨⟨h.platform.cfg, h.platform.gr, h.platform.requests, h.platform.loader⟩, ⟨h.pending.pend, h.pending.chpend⟩, h.loading,
    h.memory, h.keys, h.startIoAnswers, h.haltIoAnswers, h.scbs,
    fun hq => congrArg (fun x : State => { x with irq := s.irq }) (h.quiet hq)⟩

/-- A load for a chain that continues passes it by. -/
theorem PassesBy.load {id : ScbId} {s t : State} (hc : continues (s.scb id)) (h : LoadFrame id s t) : PassesBy [id] s t := by
  refine ⟨h.platform, h.pending, h.loading, h.memory, h.keys, h.startIoAnswers, h.haltIoAnswers, fun j hj => h.others j ?_,
    fun hq => absurd hc (hq id (by simp))⟩
  rintro rfl
  rcases hj with hj | hj
  · exact hj (by simp)
  · exact hj hc

/-- Passing by one SCB and then by others, each once. -/
theorem PassesBy.cons {i : ScbId} {l : List ScbId} {s t u : State} (hi : i ∉ l) (h : PassesBy [i] s t) (k : PassesBy l t u) :
    PassesBy (i :: l) s u := by
  have keep (j : ScbId) (hj : j ∈ l) : t.scb j = s.scb j :=
    h.scbs j (.inl fun hx => hi (by rw [List.mem_singleton] at hx; rw [← hx]; exact hj))
  refine ⟨h.platform.trans k.platform, h.pending.trans k.pending, k.loading.trans h.loading, h.memory.trans k.memory,
    h.keys.trans k.keys, k.startIoAnswers.trans h.startIoAnswers, k.haltIoAnswers.trans h.haltIoAnswers, fun j hj => ?_,
    fun hq => ?_⟩
  · by_cases hm : j ∈ l
    · have hc : ¬ continues (s.scb j) := hj.resolve_left fun h => h (by simp [hm])
      rw [k.scbs j (.inr (by rw [keep j hm]; exact hc)), keep j hm]
    · rw [k.scbs j (.inl hm)]
      exact h.scbs j (hj.imp_left fun hx hy => hx (by rw [List.mem_singleton] at hy; simp [hy]))
  · have h1 := h.quiet fun j hj => hq j (by rw [List.mem_singleton] at hj; simp [hj])
    have h2 := k.quiet fun j hj => by rw [keep j hj]; exact hq j (by simp [hj])
    rw [← h1, ← h2]

theorem maskedOn_iff (s : State) (a : DevAddr) (c : Fin 16) (m : Half) (e : Bool) :
    maskedOn s a c m e = true ↔ pciEnabled s m e a c := by
  unfold maskedOn pciEnabled
  simp [and_assoc]

theorem allowed_iff (s : State) (a : DevAddr) (c : Fin 16) (m : Half) (e : Bool) :
    allowed s a c m e = true ↔ completionEnabled s m e a c := by
  unfold allowed completionEnabled
  cases s.loading <;> simp

/-- The scan of a completed program (R188, R191). -/
theorem scanAfterPci_completed {s : State} {a : DevAddr} {m : Half} {e : Bool} {id : ScbId} (h : completed (s.scb id)) :
    scanAfterPci a id m e s = scanComplete a id m e s := by
  obtain ⟨h1, h2, h3, h4⟩ := h
  have hc : (s.scb id).chains = false := by
    unfold Scb.chains
    rcases h4 with h4 | h4
    · rw [h4]; rfl
    · rw [(anyBits_iff _ _).2 h4]; simp
  unfold scanAfterPci
  simp [h2, h3, hc, (anyBits_iff _ _).2 h1]

/-- The scan of an SCB after its PCI, with no completed program to deliver, delivers nothing and passes it by (R186, R187,
R191). -/
theorem scanAfterPci_passes {s : State} {a : DevAddr} {m : Half} {e : Bool} {id : ScbId} (hd : (s.scb id).dev = some a)
    (h : completed (s.scb id) → ¬ completionEnabled s m e a id.chan) :
    (scanAfterPci a id m e s).2 = none ∧ PassesBy [id] s (scanAfterPci a id m e s).1 := by
  have hd' : (s.scb id).dev ≠ none := by rw [hd]; simp
  by_cases hc : completed (s.scb id)
  · rw [scanAfterPci_completed hc]
    unfold scanComplete
    rw [if_neg (by rw [allowed_iff]; exact h hc)]
    exact ⟨rfl, (PassesBy.refl _ _).with_irq true⟩
  · unfold scanAfterPci
    simp only
    split
    · rename_i hh
      refine ⟨rfl, ?_⟩
      unfold scanHeld
      split
      · rename_i hde
        exact .load ⟨hd', .inl hh, (anyBits_iff _ _).1 hde⟩ ((loadNextCcw_frame id true s).trans (.raiseIrq id _))
      · exact .refl _ _
    · rename_i hh
      split
      · rename_i hx
        simp only [Bool.and_eq_true, beq_iff_eq, anyBits_iff] at hx
        have hch : (s.scb id).flags.cc = true ∧ (s.scb id).status &&& chanErr = 0 := by
          by_contra hn
          refine hc ⟨hx.1, hx.2, by simpa using hh, ?_⟩
          by_cases hcc : (s.scb id).flags.cc = true
          · exact .inr fun h0 => hn ⟨hcc, h0⟩
          · exact .inl (by simpa using hcc)
        rw [if_pos (by unfold Scb.chains; rw [hch.1, (anyBits_false_iff _ _).2 hch.2]; rfl)]
        refine ⟨rfl, ?_⟩
        unfold scanChain
        split
        · rename_i hde
          exact .load ⟨hd', .inr ⟨hx.1, hx.2, hch.1, hch.2⟩, (anyBits_iff _ _).1 hde⟩
            (((LoadFrame.updScb id s Scb.continued).trans (loadNextCcw_frame id true _)).trans (.raiseIrq id _))
        · exact .refl _ _
      · exact ⟨rfl, .refl _ _⟩

/-- The scan of an SCB with nothing it may deliver delivers nothing and passes it by (R185). -/
theorem scanScb_passes {s : State} {m : Half} {e : Bool} {id : ScbId} (h : ¬ deliverable s m e id) :
    (scanScb m e id s).2 = none ∧ PassesBy [id] s (scanScb m e id s).1 := by
  unfold scanScb
  simp only
  split
  · exact ⟨rfl, .refl _ _⟩
  · rename_i a hd
    have hc : completed (s.scb id) → ¬ completionEnabled s m e a id.chan := fun h1 h2 => h ⟨a, hd, .inr ⟨h1, h2⟩⟩
    split
    · rename_i hp
      rw [if_neg fun hm => h ⟨a, hd, .inl ⟨(anyBits_iff _ _).1 hp, (maskedOn_iff _ _ _ _ _).1 hm⟩⟩]
      obtain ⟨h1, h2⟩ := scanAfterPci_passes (s := s.raiseIrq) (m := m) (e := e) (id := id) (a := a) hd hc
      exact ⟨h1, PassesBy.of_irq (v := true) h2⟩
    · exact scanAfterPci_passes hd hc

/-- The scan of SCBs with nothing it may deliver, each once, delivers nothing and passes them by (R185, R245). -/
theorem scanScbs_passes {m : Half} {e : Bool} {l : List ScbId} {s : State} (hn : l.Nodup)
    (h : ∀ j ∈ l, ¬ deliverable s m e j) : (scanScbs m e l s).2 = none ∧ PassesBy l s (scanScbs m e l s).1 := by
  induction l generalizing s with
  | nil => exact ⟨rfl, .refl _ _⟩
  | cons i l ih =>
    rw [List.nodup_cons] at hn
    obtain ⟨h1, h2⟩ := scanScb_passes (h i (by simp))
    obtain ⟨k1, k2⟩ := ih (s := (scanScb m e i s).1) hn.2 fun j hj hx => by
      have hs : (scanScb m e i s).1.scb j = s.scb j :=
        h2.scbs j (.inl fun hx => hn.1 (by rw [List.mem_singleton] at hx; rw [← hx]; exact hj))
      refine h j (by simp [hj]) ?_
      simpa only [deliverable, pciEnabled, completionEnabled, hs, h2.platform.cfg, h2.loading] using hx
    have he : scanScbs m e (i :: l) s = scanScbs m e l (scanScb m e i s).1 := by
      simp only [scanScbs]
      generalize scanScb m e i s = r at h1
      obtain ⟨t, o⟩ := r
      simp only at h1
      rw [h1]
    rw [he]
    exact ⟨k1, h2.cons hn.1 k2⟩

/-- A scan that delivers nothing for the first SCBs goes on with the others (R185). -/
theorem scanScbs_append {m : Half} {e : Bool} {before rest : List ScbId} {s : State} (h : (scanScbs m e before s).2 = none) :
    scanScbs m e (before ++ rest) s = scanScbs m e rest (scanScbs m e before s).1 := by
  induction before generalizing s with
  | nil => rfl
  | cons i l ih =>
    simp only [List.cons_append, scanScbs] at h ⊢
    split at h
    · cases h
    · exact ih h

/-- The scan delivers what the first SCB with something it may deliver delivers, from the state the SCBs before it leave
(R185). -/
theorem scan_delivers {s u : State} {mask : Half} {e : Bool} {before after : List ScbId} {id : ScbId} {a : DevAddr} {t : State}
    (hi : s.irq = true) (ho : scanOrder s.cfg = before ++ id :: after)
    (hu : scanScbs mask e before { s with irq := false } = (u, none)) (ht : scanScb mask e id u = (t, some a)) :
    scan mask e s = (t, some a) := by
  unfold scan
  rw [if_pos hi, ho, scanScbs_append (by rw [hu]), hu]
  simp only [scanScbs]
  rw [ht]

/-- The scan visits each SCB once (R185). -/
theorem scanOrder_nodup (cfg : Config) : (scanOrder cfg).Nodup := by
  have hin : ∀ c, ∀ i ∈ channelScbs cfg c, i.chan = c := by
    intro c i hi
    unfold channelScbs at hi
    split at hi
    · cases hi
    · simp only [List.mem_map] at hi; obtain ⟨k, -, rfl⟩ := hi; rfl
  unfold scanOrder List.Nodup
  rw [List.pairwise_flatMap]
  constructor
  · intro c _
    unfold channelScbs
    split
    · exact List.Pairwise.nil
    · rw [List.pairwise_map]
      refine List.Pairwise.filter _ ((List.nodup_finRange 256).imp fun h hx => h ?_)
      exact congrArg ScbId.sub hx
  · refine List.Pairwise.filter _ ((List.nodup_finRange 16).imp fun {c d} h => ?_)
    rintro i hi j hj rfl
    exact h ((hin _ i hi).symm.trans (hin _ i hj))

/-- What is left of a status with PCI and no channel end (R182). -/
theorem storedStatus_pci {st : Half} (h : st &&& stPCI ≠ 0) (h2 : st &&& stCE = 0) : storedStatus st = st &&& ~~~stPCI := by
  unfold storedStatus
  rw [(anyBits_iff _ _).2 h, (anyBits_false_iff _ _).2 h2]; rfl

/-- The scan of an SCB that delivers nothing keeps IRQ set, or changed nothing and met no PCI (R191). -/
theorem scanScb_none {s t : State} {m : Half} {e : Bool} {id : ScbId} (h : scanScb m e id s = (t, none)) :
    t.irq = true ∨ (t = s ∧ ((s.scb id).dev = none ∨ anyBits (s.scb id).status stPCI = false)) := by
  have after (a : DevAddr) (u : State) (h : scanAfterPci a id m e u = (t, none)) : t.irq = true ∨ t = u := by
    unfold scanAfterPci at h
    simp only at h
    split at h
    · unfold scanHeld at h
      split at h
      · cases h; exact .inl rfl
      · cases h; exact .inr rfl
    · split at h
      · split at h
        · unfold scanChain at h
          split at h
          · cases h; exact .inl rfl
          · cases h; exact .inr rfl
        · unfold scanComplete at h
          split at h
          · cases h
          · cases h; exact .inl rfl
      · cases h; exact .inr rfl
  unfold scanScb at h
  simp only at h
  split at h
  · rename_i hd; cases h; exact .inr ⟨rfl, .inl hd⟩
  · split at h
    · split at h
      · cases h
      · rcases after _ _ h with h | h
        · exact .inl h
        · rw [h]; exact .inl rfl
    · rename_i hp
      rcases after _ _ h with h | h
      · exact .inl h
      · exact .inr ⟨h, .inr (by simpa using hp)⟩

/-- The scan of SCBs that delivers nothing keeps IRQ set, or changed nothing and met no PCI (R191). -/
theorem scanScbs_none {m : Half} {e : Bool} {l : List ScbId} {s t : State} (h : scanScbs m e l s = (t, none)) :
    t.irq = true ∨ (t = s ∧ ∀ id ∈ l, (s.scb id).dev = none ∨ anyBits (s.scb id).status stPCI = false) := by
  induction l generalizing s with
  | nil => cases h; exact .inr ⟨rfl, fun _ h => by cases h⟩
  | cons i l ih =>
    simp only [scanScbs] at h
    split at h
    · cases h
    · rename_i u hu
      rcases ih h with h1 | ⟨rfl, h1⟩
      · exact .inl h1
      · rcases scanScb_none hu with h2 | ⟨rfl, h2⟩
        · exact .inl h2
        · refine .inr ⟨rfl, fun id hid => ?_⟩
          rcases List.mem_cons.1 hid with rfl | hid
          · exact h2
          · exact h1 id hid

/-- The scan of an SCB that delivers raises IRQ (R185). -/
theorem scanScb_some {s t : State} {m : Half} {e : Bool} {id : ScbId} {a : DevAddr}
    (h : scanScb m e id s = (t, some a)) : t.irq = true := by
  have after (b : DevAddr) (u : State) (h : scanAfterPci b id m e u = (t, some a)) : t.irq = true := by
    unfold scanAfterPci at h
    simp only at h
    split at h
    · cases h
    · split at h
      · split at h
        · cases h
        · unfold scanComplete at h
          split at h
          · cases h; rfl
          · cases h
      · cases h
  unfold scanScb at h
  simp only at h
  split at h
  · cases h
  · split at h
    · split at h
      · cases h; rfl
      · exact after _ _ h
    · exact after _ _ h

/-- The scan of SCBs that delivers raises IRQ (R185). -/
theorem scanScbs_some {m : Half} {e : Bool} {l : List ScbId} {s t : State} {a : DevAddr}
    (h : scanScbs m e l s = (t, some a)) : t.irq = true := by
  induction l generalizing s with
  | nil => cases h
  | cons i l ih =>
    simp only [scanScbs] at h
    split at h
    · rename_i u b hu; cases h; exact scanScb_some hu
    · exact ih h

/-- The fallback looks at addresses in ascending order (R189). -/
theorem fallbackOrder_sorted (s : State) : (fallbackOrder s).Pairwise (fun a b => a.toNat < b.toNat) := by
  unfold fallbackOrder
  rw [List.pairwise_flatMap]
  constructor
  · intro c _
    rw [List.pairwise_map]
    refine (List.pairwise_lt_finRange 256).imp fun h => ?_
    rw [devAddrOf_toNat, devAddrOf_toNat]; have := Fin.lt_def.1 h; omega
  · refine List.Pairwise.filter _ (List.Pairwise.filter _ ?_)
    refine (List.pairwise_lt_finRange 16).imp fun {c d} h => ?_
    intro x hx y hy
    simp only [List.mem_map, List.mem_finRange, true_and] at hx hy
    obtain ⟨i, rfl⟩ := hx
    obtain ⟨j, rfl⟩ := hy
    rw [devAddrOf_toNat, devAddrOf_toNat]; have := Fin.lt_def.1 h; have := i.isLt; omega

/-- The fallback looks at the addresses of the flagged, enabled channels (R189). -/
theorem mem_fallbackOrder (s : State) (a : DevAddr) :
    a ∈ fallbackOrder s ↔ (enabledChannel s.cfg (chanOf a)).isSome = true ∧ s.chpendAt (chanOf a) = true := by
  unfold fallbackOrder enabledChannels
  simp only [List.mem_flatMap, List.mem_filter, List.mem_finRange, true_and, List.mem_map]
  constructor
  · rintro ⟨c, ⟨h1, h2⟩, lo, rfl⟩
    rw [(chanOf_iff _ c).2 ⟨lo, rfl⟩]; exact ⟨h1, h2⟩
  · rintro ⟨h1, h2⟩
    obtain ⟨lo, h⟩ := (chanOf_iff a _).1 rfl
    exact ⟨chanOf a, ⟨h1, h2⟩, lo, h.symm⟩

/-- In an ascending list, what `find?` gives is the lowest address with the property. -/
theorem find_ascending {l : List DevAddr} {p : DevAddr → Bool} {a : DevAddr} (hs : l.Pairwise (fun a b => a.toNat < b.toNat))
    (ha : a ∈ l) (hp : p a = true) (h : ∀ d ∈ l, d.toNat < a.toNat → p d = false) : l.find? p = some a := by
  induction l with
  | nil => cases ha
  | cons x l ih =>
    rw [List.pairwise_cons] at hs
    rcases List.mem_cons.1 ha with rfl | ha
    · simp [List.find?, hp]
    · rw [List.find?_cons, h x (by simp) (hs.1 a ha)]
      exact ih hs.2 ha fun d hd => h d (by simp [hd])

end Sys2Proof.Machine
end

