-- ==== Sys2Proof/Laws/Step.lean ====
section
/-! SUPPORT. What a step that loads a CCW does: it is `load_next_ccw` (spec/41_ccw_loader.md R110). -/

namespace Sys2Proof.Machine

/-- exec of a CCW for a bound SCB is its load. -/
theorem exec_run {u : State} {i : Instr} (hi : i.source = .channel) (hr : loadReady u = true) :
    exec i u = .next ((runCcw u.loader.id u.loader.ticAllowed i u).1.answer
      (.load (runCcw u.loader.id u.loader.ticAllowed i u).2)) := by
  cases i <;> first
    | (cases hi; done)
    | simp [exec, execCcwWrite, execCcwRead, execCcwControl, execCcwSense, execCcwTic, execCcwRdbwd, execCcwInvalid,
        loadOutcome, hr, runCcw]

/-- A load request's next state is that of `load_next_ccw` with the load's arguments in `loader`. -/
theorem step_load (s : State) (id : ScbId) (tic : Bool) (t : State) (h : runFetched (fetchLoad id tic s) = .next t) :
    (s.scb id).dev ≠ none ∧
      t = (loadNextCcw id tic { s with loader := { id := id, ticAllowed := tic } }).1.answer
        (.load (loadNextCcw id tic { s with loader := { id := id, ticAllowed := tic } }).2) := by
  unfold fetchLoad at h
  simp only at h
  split at h
  · rename_i hr
    have hd : (s.scb id).dev ≠ none := by
      have : (s.scb id).dev.isSome = true := hr
      intro hx; rw [hx] at this; cases this
    refine ⟨hd, ?_⟩
    generalize hs' : ({ s with loader := { id := id, ticAllowed := tic } } : State) = s' at *
    have hL := loadFrame_closed id s'
    have hld : s'.loader = { id := id, ticAllowed := tic } := by rw [← hs']
    have hn : ∀ r, beginLoad id s' = r →
        loadNextCcw id tic s' = (match r with | .stop s r => (s, r) | .ccw i s => runCcw id tic i s) :=
      fun r h => by subst h; rfl
    split at h
    · rename_i u r hb
      rw [hn _ hb]
      cases h; rfl
    · rename_i i u hb
      rw [hn _ hb]
      have hF : LoadFrame id s' u := by
        have := hL.begin (.refl id s'); rw [hb] at this; exact this
      have hB := (sameBinding_closed id (s'.scb id)).begin (s := s') ⟨rfl, rfl, rfl, rfl⟩
      rw [hb] at hB
      have hu : u.loader = { id := id, ticAllowed := tic } := hF.platform.loader.trans hld
      have hru : loadReady u = true := by
        unfold loadReady
        rw [hu]
        have : (s'.scb id).dev.isSome = true := by unfold loadReady at hr; rw [hld] at hr; exact hr
        rw [← this]; exact congrArg Option.isSome hB.1
      have hsrc : i.source = .channel := by
        unfold beginLoad at hb
        split at hb
        · cases hb
        · exact fetchCcw_source hb
      have h' : exec i u = .next t := h
      rw [exec_run hsrc hru, hu] at h'
      cases h'; rfl
  · cases h

end Sys2Proof.Machine
end

