-- ==== Sys2Proof/Tests/Slice0.lean ====
section
/-! SUPPORT. The model's own tests: words written out from the encodings, ill-formed terms, single steps with the values of
spec/95_test_vectors.md, and for each statement with hypotheses states and operands that meet them all. -/

namespace Sys2Proof.Tests

open Sys2Proof.Machine

set_option Elab.async false

/-! ## Decoding: words written out from spec/30_encoding.md R70, R71, R74, R77, R78; E1 to E8 of spec/95_test_vectors.md -/

theorem test_decode_sio : decode .cpu [0x9C, 0x00, 0x00, 0x0C] = .ok (.sio 0x00 0 0x00C) := by decide +kernel
theorem test_decode_tio : decode .cpu [0x9D, 0x00, 0x10, 0xC5] = .ok (.tio 0x00 1 0x0C5) := by decide +kernel
theorem test_decode_hio : decode .cpu [0x9E, 0x00, 0xF0, 0x00] = .ok (.hio 0x00 15 0x000) := by decide +kernel
theorem test_decode_tch : decode .cpu [0x9F, 0x00, 0x01, 0x00] = .ok (.tch 0x00 0 0x100) := by decide +kernel
theorem test_decode_other : decode .cpu [0x9B, 0x00, 0x00, 0x0C] = .error (.notChannelControl 0x9B) := by decide +kernel
theorem test_decode_short : decode .cpu [0x9C, 0x00, 0x00] = .error .tooShort := by decide +kernel

theorem test_decode_write : decode .channel [0x01, 0x00, 0x02, 0x00, 0x00, 0x00, 0x00, 0x04] =
    .ok (.ccwWrite { cmd := 0x01, data := 0x000200, flags := 0x00, unused := 0x00, count := 4 }) := by decide +kernel
theorem test_decode_read : decode .channel [0x02, 0x00, 0x10, 0x00, 0x60, 0x00, 0x00, 0x18] =
    .ok (.ccwRead { cmd := 0x02, data := 0x001000, flags := 0x60, unused := 0x00, count := 24 }) := by decide +kernel
theorem test_decode_control : decode .channel [0x03, 0x00, 0x00, 0x00, 0x03, 0xFF, 0x00, 0x01] =
    .ok (.ccwControl { cmd := 0x03, data := 0x000000, flags := 0x03, unused := 0xFF, count := 1 }) := by decide +kernel
theorem test_decode_sense : decode .channel [0x04, 0x00, 0x03, 0x00, 0x20, 0x00, 0x00, 0x01] =
    .ok (.ccwSense { cmd := 0x04, data := 0x000300, flags := 0x20, unused := 0x00, count := 1 }) := by decide +kernel
theorem test_decode_tic : decode .channel [0x08, 0x00, 0x02, 0x00, 0xDE, 0xAD, 0xBE, 0xEF] =
    .ok (.ccwTic 0x08 0x000200 0xDEADBEEF) := by decide +kernel
theorem test_decode_rdbwd : decode .channel [0x0C, 0x00, 0x40, 0x03, 0xFC, 0x00, 0xFF, 0xFF] =
    .ok (.ccwRdbwd { cmd := 0x0C, data := 0x004003, flags := 0xFC, unused := 0x00, count := 65535 }) := by decide +kernel
theorem test_decode_invalid : decode .channel [0xF0, 0x00, 0x10, 0x00, 0x00, 0x00, 0x00, 0x01] =
    .ok (.ccwInvalid { cmd := 0xF0, data := 0x001000, flags := 0x00, unused := 0x00, count := 1 }) := by decide +kernel

/-- E7: all six flags of the flags byte 0xFC; E8: none of 0x03. -/
theorem test_flags : flagsOfByte 0xFC = { cd := true, cc := true, sli := true, skip := true, pcif := true, ida := true } ∧
    flagsOfByte 0x03 = noFlags := by decide +kernel

/-- The table of command classes of spec/95_test_vectors.md section 2.2. -/
theorem test_classes : [0x00, 0x01, 0x02, 0x03, 0x04, 0x08, 0x09, 0x0C, 0x10, 0x14, 0x18, 0x1C, 0x27, 0xF0, 0xFE].map classOf =
    [.invalid, .write, .read, .control, .sense, .tic, .write, .rdbwd, .invalid, .sense, .tic, .rdbwd, .control, .invalid,
     .read] := by decide +kernel

/-- The decoder of the opcode table: a 32-bit CPU word, a CCW's first word alone, and a CCW's two words. -/
theorem test_decode_table : decodeTableWord 32 0x9D0010C5 = some (.tio 0x00 1 0x0C5) ∧
    decodeTableWord 32 0x02001000 =
      some (.ccwRead { cmd := 0x02, data := 0x001000, flags := 0, unused := 0, count := 0 }) ∧
    decodeTableWord 64 0x6000001802001000 =
      some (.ccwRead { cmd := 0x02, data := 0x001000, flags := 0x60, unused := 0, count := 24 }) := by decide +kernel

/-! ## WellFormed: for each check an ill-formed term, refused, and a well-formed one -/

/-- A CCW's fields with a command code. -/
def fieldsOf (cmd : Byte) : CcwFields := { cmd := cmd, data := 0x001000, flags := 0, unused := 0, count := 1 }

theorem test_illformed_write : (Instr.ccwWrite (fieldsOf 0x02)).wellFormed = false := by decide +kernel
theorem test_illformed_read : (Instr.ccwRead (fieldsOf 0x01)).wellFormed = false := by decide +kernel
theorem test_illformed_control : (Instr.ccwControl (fieldsOf 0x01)).wellFormed = false := by decide +kernel
theorem test_illformed_sense : (Instr.ccwSense (fieldsOf 0x0C)).wellFormed = false := by decide +kernel
theorem test_illformed_tic : (Instr.ccwTic 0x04 0x200 0).wellFormed = false := by decide +kernel
theorem test_illformed_rdbwd : (Instr.ccwRdbwd (fieldsOf 0x08)).wellFormed = false := by decide +kernel
theorem test_illformed_invalid : (Instr.ccwInvalid (fieldsOf 0x01)).wellFormed = false := by decide +kernel

/-- DecodeEncodeAgree: a well-formed term of every constructor. -/
theorem witness_DecodeEncodeAgree : [Instr.sio 0xFF 15 0xFFF, .tio 0 0 0, .hio 1 2 3, .tch 0 15 0xFFF, .ccwWrite (fieldsOf 0xFD),
    .ccwRead (fieldsOf 0xFE), .ccwControl (fieldsOf 0xFF), .ccwSense (fieldsOf 0xF4), .ccwTic 0xF8 0xFFFFFF 0xFFFFFFFF,
    .ccwRdbwd (fieldsOf 0xFC), .ccwInvalid (fieldsOf 0xF0)].all Instr.wellFormed = true := by decide +kernel

/-! ## Small states -/

/-- Words stored in memory. -/
def withWords (l : List (Addr × Word)) (s : State) : State := l.foldl (fun s p => s.setWord p.1 p.2) s

/-- SCB 0 of the selector channel 0, that of 0x00C. -/
def sel : ScbId := ⟨0, 0⟩

/-- The device at 0x00C. -/
def dev0 : Binding := { device := 0 }

/-- An SCB bound to 0x00C whose next CCW is at 0x100. -/
def atCcw : Scb := { dev := some 0x00C, bind := some dev0, caw := 0x100 }

/-- A WRITE running, three bytes left at 0x400. -/
def writing : Scb := { atCcw with caw := 0x108, cmd := 0x01, addr := 0x400, count := 3 }

/-- A READ running, four bytes left at 0x500. -/
def reading : Scb := { atCcw with caw := 0x108, cmd := 0x02, addr := 0x500, count := 4 }

/-- A completed program: channel end and device end. -/
def ended : Scb := { atCcw with caw := 0x108, status := 0x0C00 }

/-- The state after reset with an SCB in 0x00C's place. -/
def on (b : Scb) : State := State.reset.setScb sel b

/-- The address 0x00C selects SCB 0 of channel 0 (RS1). -/
theorem cfg0_sel : findSubchannel Config.cfg0 0x00C = some sel := by decide +kernel

/-- The state in which a CCW is executed for an SCB, with the device's next answer. -/
def ready (b : Scb) (st : Byte) : State := { on b with commandAnswers := [st] }

/-- One step of a machine with one request. -/
def run (r : Request) (s : State) : Option State :=
  match step { s with requests := [r] } with
  | .next t => some t
  | .fault _ => none
  | .refused _ => none

/-- The answer of one step. -/
def answerOf (r : Request) (s : State) : Option OpResult := (run r s).map State.result

/-- The CSW after one step. -/
def cswOf (r : Request) (s : State) : Option (Word × Word) := (run r s).map fun t => (t.wordAt 0x40, t.wordAt 0x44)

/-- The SCB of 0x00C after one step. -/
def scbOf (r : Request) (s : State) : Option Scb := (run r s).map fun t => t.scb sel

/-- A READ of four bytes to 0x500 at 0x100, the CAW pointing at it. -/
def readProgram : State := withWords [(0x48, 0x00000100), (0x100, 0x02000500), (0x104, 0x00000004)] State.reset

/-- The fields of that READ. -/
def readFields : CcwFields := { cmd := 0x02, data := 0x000500, flags := 0, unused := 0, count := 4 }

/-! ## Steps of the CPU's instructions, with the values of spec/95_test_vectors.md section 1 and 2.7 -/

/-- W1: SIO of a READ answers 0 and leaves the SCB running it. -/
theorem test_sio_starts : answerOf (.instruction 0x9C00000C) { readProgram with commandAnswers := [0] } = some (.cc 0) ∧
    scbOf (.instruction 0x9C00000C) { readProgram with commandAnswers := [0] } =
      some { atCcw with caw := 0x108, cmd := 0x02, addr := 0x500, count := 4 } := by decide +kernel

/-- W4: a TIC as the first CCW gives 1 and the CSW of a program check. -/
theorem test_sio_tic_first : answerOf (.instruction 0x9C00000C)
      (withWords [(0x48, 0x00000100), (0x100, 0x08000200)] State.reset) = some (.cc 1) ∧
    cswOf (.instruction 0x9C00000C) (withWords [(0x48, 0x00000100), (0x100, 0x08000200)] State.reset) =
      some (0x00000100, 0x08200000) := by decide +kernel

/-- S3: TIO of a completed program gives 1, stores the CSW and frees the SCB. -/
theorem test_tio_collects : answerOf (.instruction 0x9D00000C) (on ended) = some (.cc 1) ∧
    cswOf (.instruction 0x9D00000C) (on ended) = some (0x00000108, 0x0C000000) ∧
    scbOf (.instruction 0x9D00000C) (on ended) = some { caw := 0x108 } := by decide +kernel

/-- IO-T7: TIO of an idle address asks the device. -/
theorem test_tio_asks :
    cswOf (.instruction 0x9D00000C) { State.reset with commandAnswers := [0x02] } = some (0, 0x02000000) ∧
    [(0x02 : Byte), 0x10, 0x00, 0x40].map (fun st => answerOf (.instruction 0x9D00000C) (ready idleScb st)) =
      [some (.cc 1), some (.cc 2), some (.cc 0), some (.cc 0)] := by decide +kernel

/-- IO-H3: HIO of a running READ stores its register and a CSW with the residual count. -/
theorem test_hio_stops :
    cswOf (.instruction 0x9E00000C) (on { reading with addr := 0x302, count := 8, boff := some 2, dirty := true,
                                                       buf := 0x1122FFFF }) = some (0x00000108, 0x08000008) ∧
    (run (.instruction 0x9E00000C) (on { reading with addr := 0x302, count := 8, boff := some 2, dirty := true,
                                                      buf := 0x1122FFFF })).map (fun t => (t.wordAt 0x300, t.irq)) =
      some (0x1122FFFF, true) := by decide +kernel

/-- IO-H5 and IO-H1: HIO of an idle address stores a zero CSW; an address with no device answers 3. -/
theorem test_hio_idle : answerOf (.instruction 0x9E00000C) (withWords [(0x44, 0xFFFFFFFF)] State.reset) = some (.cc 1) ∧
    cswOf (.instruction 0x9E00000C) (withWords [(0x44, 0xFFFFFFFF)] State.reset) = some (0, 0) ∧
    answerOf (.instruction 0x9E00000D) State.reset = some (.cc 3) := by decide +kernel

/-- IO-C1, IO-C2, IO-C3: TCH of a disabled channel, an absent one, the multiplexer, and the selector idle, running and with a
status. -/
theorem test_tch : answerOf (.instruction 0x9F000300) State.reset = some (.cc 3) ∧
    answerOf (.instruction 0x9F000500) State.reset = some (.cc 3) ∧
    answerOf (.instruction 0x9F000100) State.reset = some (.cc 0) ∧
    answerOf (.instruction 0x9F000000) State.reset = some (.cc 0) ∧
    answerOf (.instruction 0x9F0000FF) (on reading) = some (.cc 2) ∧
    answerOf (.instruction 0x9F0000FF) (on ended) = some (.cc 1) := by decide +kernel

/-! ## Loads of CCWs -/

/-- A load of the CCW at 0x100. -/
def loads (w0 w1 : Word) (b : Scb) (st : Byte) : Option Scb :=
  scbOf (.loadCcw sel true) (withWords [(0x100, w0), (0x104, w1)] (ready b st))

/-- W2, W1: WRITE and READ start a command. -/
theorem test_ccw_write_read :
    loads 0x01000400 0x00000003 atCcw 0x00 = some writing ∧ loads 0x02000500 0x00000004 atCcw 0x00 = some reading := by
  decide +kernel

/-- S2: CONTROL answered with channel and device end ends at once and keeps CC; SLI is forced. P4: SENSE. -/
theorem test_ccw_control_sense :
    loads 0x03000000 0x40000001 atCcw 0x0C = some { ended with count := 1, flags := { cc := true, sli := true } } ∧
    loads 0x04000300 0x20000001 atCcw 0x00 =
      some { atCcw with caw := 0x108, cmd := 0x04, addr := 0x300, count := 1, flags := { sli := true } } := by decide +kernel

/-- E7: READ BACKWARD; L5: an invalid code is a program check. -/
theorem test_ccw_rdbwd_invalid :
    loads 0x0C004003 0x0000FFFF atCcw 0x00 =
      some { atCcw with caw := 0x108, cmd := 0x0C, addr := 0x4003, count := 65535 } ∧
    loads 0x10000300 0x00000001 atCcw 0x00 = some { atCcw with caw := 0x104, status := 0x0820 } := by decide +kernel

/-- P4: a TIC to 0x200 runs the CCW there; L3: a TIC to a TIC is a program check. -/
theorem test_ccw_tic :
    scbOf (.loadCcw sel true) (withWords [(0x100, 0x08000200), (0x200, 0x04000300), (0x204, 0x20000001)] (ready atCcw 0)) =
      some { atCcw with caw := 0x208, cmd := 0x04, addr := 0x300, count := 1, flags := { sli := true } } ∧
    scbOf (.loadCcw sel true) (withWords [(0x100, 0x08000200), (0x200, 0x08000300)] (on atCcw)) =
      some { atCcw with caw := 0x200, status := 0x0820 } := by decide +kernel

/-! ## Transfers, callbacks and the scan -/

/-- W2: a byte read from memory; with the count exhausted, Done with channel end and incorrect length. -/
theorem test_read_byte : answerOf (.readByte 0x00C) (withWords [(0x400, 0x0A0B0C0D)] (on writing)) = some (.byte 0x0A) ∧
    scbOf (.readByte 0x00C) (on { writing with count := 0 }) =
      some { writing with count := 0, status := 0x0840, chend := true } := by decide +kernel

/-- W3, P2: a byte held in the register; the last byte of a data chain stores the register and loads the next CCW, no device
called. -/
theorem test_write_byte :
    scbOf (.writeByte 0x00C 0x11) (withWords [(0x500, 0xAABBCCDD)] (on reading)) =
      some { reading with addr := 0x501, count := 3, buf := 0x11BBCCDD, boff := some 1, dirty := true } ∧
    (run (.writeByte 0x00C 0x22) (withWords [(0x108, 0x02000400), (0x10C, 0x20000004)] (on { reading with
        addr := 0x301, count := 1, flags := { cd := true }, buf := 0x11000000, boff := some 1, dirty := true }))).map
      (fun t => (t.wordAt 0x300, (t.scb sel).addr, (t.scb sel).count, t.callOuts)) =
      some (0x11220000, 0x400, 4, []) := by decide +kernel

/-- W2: channel end with a residual count of 2. -/
theorem test_channel_end : (scbOf (.channelEnd 0x00C 0x0400) (on { writing with count := 2 })).map (fun b => (b.status, b.cmd)) =
    some (0x0C40, 0) := by decide +kernel

/-- ST4 and ST10: an unsolicited status is recorded, and delivered by a scan. -/
theorem test_pending : (run (.postAttention 0x10A 0x80) State.reset).map
      (fun t => (t.pendAt 0x10A, t.chpend, t.irq)) = some (0x80, 0x0002, true) ∧
    (run (.scan 0xFFFF true) (postAttention 0x10A 0x80 State.reset)).map
      (fun t => (t.result, t.wordAt 0x40, t.wordAt 0x44, t.chpend)) =
      some (.address (some 0x10A), 0, 0x80000000, 0) := by decide +kernel

/-- IO-B3: a boot start at a misaligned address. -/
theorem test_boot_misaligned : (run (.bootStart 0x00C 0x0000000C) State.reset).map
    (fun t => (t.result, t.wordAt 0x40, t.wordAt 0x44, t.loading)) =
    some (.cc 1, 0x0000000C, 0x08200000, some 0x00C) := by decide +kernel

/-- An instruction of the opcode table placed is run by the very next step. -/
theorem test_with_fetch_word :
    (match step (State.reset.withFetchWord 32 0x9F000100) with | .next t => some t.result | _ => none) = some (.cc 0) ∧
    (match step (State.reset.withFetchWord 64 0x0000000100001000) with | .next t => some t.result | _ => none) =
      some (.load (.fail .check)) := by decide +kernel

/-! ## For each statement with hypotheses: states and operands that meet them all together, clause by clause -/

theorem witness_EncodeDecodeAgree : decode .cpu [0x9E, 0x5A, 0xF1, 0x23] = .ok (.hio 0x5A 15 0x123) ∧
    decode .channel [0x08, 0x00, 0x02, 0x00, 0x12, 0x34, 0x56, 0x78] = .ok (.ccwTic 0x08 0x000200 0x12345678) := by decide +kernel

/-- The refused opcodes next to the four, and their request. -/
theorem witness_ChannelControlOpcodes :
    (¬ ((0x9B : Byte) = 0x9C ∨ (0x9B : Byte) = 0x9D ∨ (0x9B : Byte) = 0x9E ∨ (0x9B : Byte) = 0x9F)) ∧
    (¬ ((0xA0 : Byte) = 0x9C ∨ (0xA0 : Byte) = 0x9D ∨ (0xA0 : Byte) = 0x9E ∨ (0xA0 : Byte) = 0x9F)) ∧
    configWf State.reset.cfg = true ∧
    ({ State.reset with requests := [.instruction ((0xA0 : Byte) ++ (0 : Byte) ++ (0 : BitVec 4) ++ (12 : BitVec 12))] } :
      State).requests = [.instruction ((0xA0 : Byte) ++ (0 : Byte) ++ (0 : BitVec 4) ++ (12 : BitVec 12))] := by decide +kernel

/-- A configuration within the limits; the edge of memory; M1 to M5 of spec/95_test_vectors.md. -/
theorem witness_AccessFaultsExactlyWhen : configWf State.reset.cfg = true ∧
    accessFault State.reset 0 0xFFFF false = none ∧ accessFault State.reset 0 0x10000 false = some .addressing ∧
    accessFault (State.reset.setKey 1 0x38) 0 0x800 true = none ∧ accessFault (State.reset.setKey 1 0x20) 2 0x800 true = none ∧
    accessFault (State.reset.setKey 1 0x30) 2 0x800 false = none ∧
    accessFault (State.reset.setKey 1 0x30) 2 0x800 true = some .protection ∧
    accessFault (State.reset.setKey 1 0x38) 2 0x800 false = some .protection ∧
    accessFault (State.reset.setKey 1 0x38) 2 0x7FF false = none := by decide +kernel

theorem witness_MemoryWordsAreBigEndian : accessFault State.reset 0 0xFFFF false = none ∧
    accessFault State.reset 0 0xFFFF true = none ∧ accessFault State.reset 0 0x10000 true = some .addressing ∧
    accessFault (State.reset.setKey 1 0x38) 2 0x800 false = some .protection := by decide +kernel

theorem witness_StepRunsCpuInstruction : configWf State.reset.cfg = true ∧
    ({ State.reset with requests := [.instruction 0x9D0010C5] } : State).requests = [.instruction 0x9D0010C5] ∧
    decode .cpu (bytesOfWord 0x9D0010C5) = .ok (.tio 0x00 1 0x0C5) := by decide +kernel

/-- A CCW at the fetch address, and one reached past a status-modifier skip. -/
theorem witness_StepRunsFetchedCcw : configWf (on atCcw).cfg = true ∧ ((on atCcw).scb sel).dev ≠ none ∧
    ((on atCcw).scb sel).chainHeld = false ∧ ((on atCcw).scb sel).caw.toNat % 8 = 0 ∧
    anyBits ((on atCcw).scb sel).status chanErr = false ∧ ((on atCcw).scb sel).status &&& stSM = 0 ∧
    accessFault (on atCcw) 0 0x100 false = none ∧
    decode .channel (eightBytes (withWords [(0x100, 0x02000500), (0x104, 0x00000004)] (on atCcw)) 0x100) =
      .ok (.ccwRead readFields) ∧
    ((on { atCcw with status := 0x4C00 }).scb sel).status &&& stSM ≠ 0 ∧
    anyBits ((on { atCcw with status := 0x4C00 }).scb sel).status chanErr = false ∧
    accessFault (on { atCcw with status := 0x4C00 }) 0 (0x100 + 8) false = none := by decide +kernel

/-- A misaligned fetch address; an error bit; an address past memory and a protected page; an address past memory that a
status-modifier skip reaches. -/
theorem witness_FailedFetchEndsTheLoad :
    ((on { atCcw with caw := 0x104 }).scb sel).caw.toNat % 8 ≠ 0 ∧
    (((on { atCcw with status := 0x0820 }).scb sel).caw.toNat % 8 = 0 ∧
      anyBits ((on { atCcw with status := 0x0820 }).scb sel).status chanErr = true) ∧
    (anyBits ((on { atCcw with caw := 0x10000 }).scb sel).status (chanErr ||| stSM) = false ∧
      accessFault (on { atCcw with caw := 0x10000 }) 0 0x10000 false = some .addressing) ∧
    (anyBits ((on { atCcw with key := 2 }).scb sel).status (chanErr ||| stSM) = false ∧
      accessFault ((on { atCcw with key := 2 }).setKey 0 0x38) 2 0x100 false = some .protection) ∧
    (anyBits ((on { atCcw with caw := 0xFFF8, status := 0x4C00 }).scb sel).status chanErr = false ∧
      ((on { atCcw with caw := 0xFFF8, status := 0x4C00 }).scb sel).status &&& stSM ≠ 0 ∧
      accessFault (on { atCcw with caw := 0xFFF8, status := 0x4C00 }) 0 (0xFFF8 + 8) false = some .addressing) := by
  decide +kernel

/-- The same skip: the fault is at the address skipped to, the bit is cleared (R116, R117). -/
theorem test_skip_fault : scbOf (.loadCcw sel true) (on { atCcw with caw := 0xFFF8, status := 0x4C00 }) =
    some { atCcw with caw := 0x10000, status := 0x0C20 } := by decide +kernel

theorem witness_StepRunsAgentOperation :
    configWf { Config.cfg0 with channels := [] } = false ∧ configWf State.reset.cfg = true ∧ State.reset.requests = [] ∧
    ({ State.reset with requests := [.scan 0xFFFF true] } : State).requests = [.scan 0xFFFF true] := by decide +kernel

theorem witness_StepFaultsOnlyOnUnboundLoad : configWf State.reset.cfg = true ∧ (State.reset.scb sel).dev = none ∧
    step { State.reset with requests := [.loadCcw sel true] } = .fault .loaderUnbound :=
  ⟨by decide +kernel, by decide +kernel, rfl⟩

/-! ### Loads of CCWs -/

/-- The fields of a CCW that load at its second word, where no access can fault. -/
theorem fieldsLoad_of {s : State} {second : Addr} {f : CcwFields} (h1 : accessFault s 0 second false = none)
    (h2 : f.count ≠ 0) (h3 : s.cfg.reservedFlagCheck = false) (h4 : accessFault s 0 f.data false = none) :
    FieldsLoad s 0 second f :=
  ⟨h1, h2, fun h => absurd (h3.symm.trans h) (by decide), fun _ _ => h4⟩

/-- An accepted READ, and one whose device ends it at once, with indirect addressing and PCI. -/
theorem witness_NewCommandStarts :
    (CommandCcw (.ccwRead readFields) readFields ∧ sel = (ready atCcw 0).loader.id ∧ atCcw = (ready atCcw 0).scb sel ∧
      atCcw.dev = some 0x00C ∧ (findDevice (ready atCcw 0).cfg 0x00C).isSome = true ∧ atCcw.flags.cd = false ∧
      FieldsLoad (ready atCcw 0) atCcw.key (atCcw.caw + 4) readFields ∧
      0x00 = (startCommand 0x00C readFields.cmd (ready atCcw 0)).1 ∧ accepts 0x00 = true) ∧
    (FieldsLoad (ready atCcw 0x0C) atCcw.key (atCcw.caw + 4) { readFields with flags := 0x0C } ∧
      0x0C = (startCommand 0x00C readFields.cmd (ready atCcw 0x0C)).1 ∧ accepts 0x0C = true) :=
  ⟨⟨.inr (.inl rfl), by decide +kernel, by decide +kernel, rfl, by decide +kernel, rfl,
      fieldsLoad_of (by decide +kernel) (by decide +kernel) rfl (by decide +kernel), rfl, by decide +kernel⟩,
    fieldsLoad_of (by decide +kernel) (by decide +kernel) rfl (by decide +kernel), rfl, by decide +kernel⟩

/-- Busy under a command chain, busy without one, busy with an error, and an error alone. -/
theorem witness_DeviceMayTurnACommandAway :
    FieldsLoad (ready atCcw 0x10) atCcw.key (atCcw.caw + 4) readFields ∧
    [(0x10 : Byte), 0x92, 0x02, 0x80, 0x01].all (fun st => accepts st == false &&
      (startCommand 0x00C 0x02 (ready atCcw st)).1 == st) = true ∧
    ((0x10 : Byte) &&& dvBUSY ≠ 0 ∧ ({ atCcw with flags := { cc := true } } : Scb).flags.cc = true) ∧
    ((0x92 : Byte) &&& dvBUSY ≠ 0 ∧ atCcw.flags.cc = false) ∧ (0x02 : Byte) &&& dvBUSY = 0 :=
  ⟨fieldsLoad_of (by decide +kernel) (by decide +kernel) rfl (by decide +kernel), by decide +kernel⟩

/-- A data chain continued by a READ and by a code of class INVALID. -/
theorem witness_DataChainedCcwKeepsCommand (i : Instr)
    (hi : i = .ccwRead readFields ∨ i = .ccwInvalid readFields) :
    (CommandCcw i readFields ∨ i = .ccwInvalid readFields) ∧ sel = (on { reading with flags := { cd := true } }).loader.id ∧
    ({ reading with flags := { cd := true } } : Scb) = (on { reading with flags := { cd := true } }).scb sel ∧
    FieldsLoad (on { reading with flags := { cd := true } }) reading.key (reading.caw + 4) readFields :=
  ⟨hi.imp (fun h => .inr (.inl h)) id, by decide +kernel, by decide +kernel,
    fieldsLoad_of (by decide +kernel) (by decide +kernel) rfl (by decide +kernel)⟩

/-- A first IDAW past memory: every field of the CCW stands but the chaining flags (R120, R122). -/
theorem test_idaw_fault :
    loads 0x02010000 0xFC000004 { atCcw with iaddr := 0x123, boff := some 1 } 0 =
      some { atCcw with caw := 0x108, addr := 0x10000, iaddr := 0x123, count := 4, status := 0x0820,
                        flags := { sli := true, skip := true, pcif := true, ida := true } } := by decide +kernel

/-- A new INVALID; a protected second word; a count of 0; reserved bits under the option; an IDAW past memory. -/
theorem witness_MalformedCcwEndsTheProgram :
    (atCcw = (on atCcw).scb sel ∧ sel = (on atCcw).loader.id ∧ atCcw.dev ≠ none ∧ atCcw.flags.cd = false) ∧
    accessFault ((on { atCcw with key := 2 }).setKey 0 0x38) 2 (atCcw.caw + 4) false = some .protection ∧
    (accessFault (on atCcw) 0 (atCcw.caw + 4) false = none ∧ ({ readFields with count := 0 } : CcwFields).count = 0) ∧
    (({ readFields with flags := 0x01 } : CcwFields).flags.extractLsb' 0 2 ≠ 0 ∧
      ({ Config.cfg0 with reservedFlagCheck := true } : Config).reservedFlagCheck = true) ∧
    (readFields.count ≠ 0 ∧ (on atCcw).cfg.reservedFlagCheck = false ∧ (flagsOfByte 0x04).ida = true ∧
      (on atCcw).cfg.idaFeature = true ∧ accessFault (on atCcw) 0 0x10000 false = some .addressing) := by decide +kernel

/-- A TIC that is not allowed; one to a TIC; one to a misaligned address; one to an address past memory. -/
theorem witness_TicPlacementIsChecked :
    (sel = (on atCcw).loader.id ∧ atCcw = (on atCcw).scb sel ∧ atCcw.dev ≠ none ∧ (on atCcw).loader.ticAllowed = false) ∧
    (({ on atCcw with loader := { id := sel, ticAllowed := true } } : State).loader.ticAllowed = true ∧
      (0x200 : Addr).toNat % 8 = 0 ∧ anyBits atCcw.status (chanErr ||| stSM) = false ∧
      accessFault (on atCcw) 0 0x200 false = none ∧
      classOf ((withWords [(0x200, 0x18000000)] (on atCcw)).byteAt 0x200) = .tic) ∧
    (0x201 : Addr).toNat % 8 ≠ 0 ∧
    ((0x10000 : Addr).toNat % 8 = 0 ∧ accessFault (on atCcw) 0 0x10000 false = some .addressing) := by decide +kernel

/-- An allowed TIC to a READ. -/
theorem witness_TicRunsItsTarget :
    ({ on atCcw with loader := { id := sel, ticAllowed := true } } : State).loader.ticAllowed = true ∧ atCcw.dev ≠ none ∧
    (0x200 : Addr).toNat % 8 = 0 ∧ anyBits atCcw.status (chanErr ||| stSM) = false ∧
    accessFault (on atCcw) 0 0x200 false = none ∧
    decode .channel (eightBytes (withWords [(0x200, 0x02000500), (0x204, 0x00000004)] (on atCcw)) 0x200) =
      .ok (.ccwRead readFields) ∧
    classOf ((withWords [(0x200, 0x02000500), (0x204, 0x00000004)] (on atCcw)).byteAt 0x200) ≠ .tic := by decide +kernel

/-- The same TIC, with a device that accepts. -/
theorem witness_TicStartsTheCommandAtItsTarget :
    CommandCcw (.ccwRead readFields) readFields ∧ atCcw.dev = some 0x00C ∧ atCcw.flags.cd = false ∧
    (findDevice (ready atCcw 0).cfg 0x00C).isSome = true ∧
    FieldsLoad (ready atCcw 0) atCcw.key (0x200 + 4) readFields ∧
    0x00 = (startCommand 0x00C readFields.cmd (ready atCcw 0)).1 ∧ accepts 0x00 = true :=
  ⟨.inr (.inl rfl), rfl, rfl, by decide +kernel,
    fieldsLoad_of (by decide +kernel) (by decide +kernel) rfl (by decide +kernel), rfl, by decide +kernel⟩

/-- A held WRITE, its device busy again, accepting, and answering an error. -/
theorem witness_HeldChainResumes :
    [(0x10 : Byte), 0x00, 0x02].map (fun st =>
      let s := ready { writing with chainHeld := true, status := 0x1400 } st
      (configWf s.cfg, (s.scb sel).dev, (s.scb sel).chainHeld, (findDevice s.cfg 0x00C).isSome,
        (startCommand 0x00C 0x01 s).1 == st, accepts st)) =
      [(true, some 0x00C, true, true, true, false), (true, some 0x00C, true, true, true, true),
       (true, some 0x00C, true, true, true, false)] := by decide +kernel

/-- R274 (3): a device that calls `channel_end` for a held SCB clears its command; the resume dispatches command byte 0. -/
theorem test_held_broken : (run (.loadCcw sel true)
      { channelEnd 0x00C 0x0400 (on { writing with chainHeld := true, status := 0x1000 }) with commandAnswers := [0] }).map
      (fun t => (t.callOuts, (t.scb sel).cmd)) = some ([CallOut.startCommand 0x00C 0x00], 0) := by decide +kernel

theorem witness_CcwChangesOnlyItsSubchannel : ChannelCcw (.ccwTic 0x08 0x200 0) ∧ ChannelCcw (.ccwWrite readFields) ∧
    ((on atCcw).scb (on atCcw).loader.id).dev ≠ none := ⟨rfl, rfl, by decide +kernel⟩

/-! ### Transfers -/

/-- The preamble of a transfer succeeds for an SCB of 0x00C with no error and a command of the direction. -/
theorem transfers_on {dir : Direction} {b : Scb} (h1 : b.dev = some 0x00C) (h2 : anyBits b.status chanErr = false)
    (h3 : matchesDirection dir b.cmd = true) : Transfers dir 0x00C sel (on b) := by
  have e : (on b).scb sel = b := scb_setScb_self _ _ _
  exact ⟨cfg0_sel, by rw [e, h1], by rw [e, h2], by rw [e, h3]⟩

/-- A disabled channel; another device's address; an error bit; the other direction; a count of 0. -/
theorem witness_TransferThatMovesNoByte : findSubchannel State.reset.cfg 0x300 = none ∧
    (findSubchannel (on writing).cfg 0x00D = some sel ∧ ((on writing).scb sel).dev ≠ some 0x00D) ∧
    anyBits ((on { writing with status := 0x0820 }).scb sel).status chanErr = true ∧
    isInput ((on writing).scb sel).cmd = false ∧ isOutput ((on reading).scb sel).cmd = false ∧
    (Transfers .out 0x00C sel (on { writing with count := 0 }) ∧ Transfers .input 0x00C sel (on { reading with count := 0 })) :=
  ⟨by decide +kernel, by decide +kernel, by decide +kernel, by decide +kernel, by decide +kernel, transfers_on rfl rfl (by decide +kernel),
    transfers_on rfl rfl (by decide +kernel)⟩

/-- An empty register, and one at its last byte. -/
theorem witness_ReadByteDeliversTheByte (b : Scb) (h : b = writing ∨ b = { writing with addr := 0x403, boff := some 3 }) :
    Transfers .out 0x00C sel (on b) ∧ b = (on b).scb sel ∧ b.count ≠ 0 ∧ ¬ lastOfDataChain b ∧ ¬ needsNextIdaw b ∧
    (b.boff = none → accessFault (on b) b.key b.position false = none) := by
  rcases h with rfl | rfl <;> refine ⟨transfers_on rfl rfl (by decide +kernel), by decide +kernel, by decide +kernel, ?_, ?_, ?_⟩ <;>
    (try unfold lastOfDataChain) <;> (try unfold needsNextIdaw) <;> decide +kernel

theorem witness_WriteByteHoldsTheByte (b : Scb) (h : b = reading ∨ b = { reading with addr := 0x502, boff := some 2 }) :
    Transfers .input 0x00C sel (on b) ∧ b = (on b).scb sel ∧ b.count ≠ 0 ∧ b.flags.skip = false ∧ ¬ lastOfDataChain b ∧
    ¬ needsNextIdaw b ∧ (b.boff = none → accessFault (on b) b.key b.position true = none) ∧
    lastOffset b.cmd (registerOffset b) = false := by
  rcases h with rfl | rfl <;>
    refine ⟨transfers_on rfl rfl (by decide +kernel), by decide +kernel, by decide +kernel, by decide +kernel, ?_, ?_, ?_, ?_⟩ <;>
    (try unfold lastOfDataChain) <;> (try unfold needsNextIdaw) <;> decide +kernel

theorem witness_WriteByteFlushesTheFullWord (b : Scb)
    (h : b = { reading with addr := 0x503 } ∨ b = { reading with addr := 0x503, boff := some 3 }) :
    Transfers .input 0x00C sel (on b) ∧ b = (on b).scb sel ∧ b.count ≠ 0 ∧ b.flags.skip = false ∧ ¬ lastOfDataChain b ∧
    ¬ needsNextIdaw b ∧ accessFault (on b) b.key b.position true = none ∧ lastOffset b.cmd (registerOffset b) = true := by
  rcases h with rfl | rfl <;>
    refine ⟨transfers_on rfl rfl (by decide +kernel), by decide +kernel, by decide +kernel, by decide +kernel, ?_, ?_, ?_, ?_⟩ <;>
    (try unfold lastOfDataChain) <;> (try unfold needsNextIdaw) <;> decide +kernel

theorem witness_SkippedByteTouchesNoMemory :
    Transfers .input 0x00C sel (on { reading with flags := { skip := true } }) ∧
    ({ reading with flags := { skip := true } } : Scb) = (on { reading with flags := { skip := true } }).scb sel ∧
    reading.count ≠ 0 ∧ ¬ lastOfDataChain { reading with flags := { skip := true } } ∧
    ¬ needsNextIdaw { reading with flags := { skip := true } } := by
  refine ⟨transfers_on rfl rfl (by decide +kernel), by decide +kernel, by decide +kernel, ?_, ?_⟩ <;> (try unfold lastOfDataChain) <;>
    (try unfold needsNextIdaw) <;> decide +kernel

/-- T6's READ BACKWARD after its first byte. -/
def crossingBack : Scb :=
  { atCcw with caw := 0x108, cmd := 0x0C, addr := 0x180, iaddr := 0x1000, count := 3, flags := { ida := true },
               buf := 0x00010000, boff := some 0, dirty := true }

/-- A WRITE that chains data at its last byte. -/
def chainWrite : Scb := { writing with addr := 0x403, count := 1, flags := { cd := true }, boff := some 3 }

/-- A READ that chains data at its last byte, its register dirty. -/
def chainRead (p : Addr) (k : BitVec 2) : Scb :=
  { reading with addr := p, count := 1, flags := { cd := true }, buf := 0x01EEEEEE, boff := some k, dirty := true }

/-- A READ that skips and chains data at its last byte. -/
def chainSkip : Scb := { reading with count := 1, flags := { cd := true, skip := true } }

/-- T10's addressing error and W5's protection error; T11: a flush at the register's last byte, forward and backward, in a page
whose key was changed. -/
theorem witness_TransferFaultIsDone :
    (Transfers .out 0x00C sel (on { writing with addr := 0x10000 }) ∧
      accessFault (on { writing with addr := 0x10000 }) 0 0x10000 false = some .addressing) ∧
    (Transfers .input 0x00C sel (on { reading with addr := 0x800, key := 2 }) ∧
      accessFault ((on { reading with addr := 0x800, key := 2 }).setKey 1 0x30) 2 0x800 true = some .protection) ∧
    (reading.count ≠ 0 ∧ reading.boff = none ∧ reading.flags.skip = false) ∧
    (accessFault ((on { reading with addr := 0x803, key := 2 }).setKey 1 0x30) 2 0x803 true = some .protection ∧
      lastOffset 0x02 3 = true ∧ lastOffset 0x0C 0 = true) ∧
    (writeByte 0x00C 0x55 ((on { reading with addr := 0x803, key := 2, boff := some 3, dirty := true }).setKey 1 0x30)).2 =
      .done ∧
    ((writeByte 0x00C 0x55 ((on { reading with addr := 0x803, key := 2, boff := some 3, dirty := true }).setKey 1 0x30)).1.scb
      sel).count = 4 :=
  ⟨⟨transfers_on rfl rfl (by decide +kernel), by decide +kernel⟩, ⟨transfers_on rfl rfl (by decide +kernel), by decide +kernel⟩,
    by decide +kernel, by decide +kernel, by decide +kernel, by decide +kernel⟩

/-- A byte that is given, the last of a CCW, and a call that is Done. -/
theorem witness_EveryByteCountsOnce : findSubchannel (on writing).cfg 0x00C = some sel ∧
    ¬ lastOfDataChain { writing with count := 1 } ∧
    (readByte 0x00C (on { writing with count := 1 })).2 = .byte 0 ∧
    (writeByte 0x00C 0x55 (on reading)).2 = .ok ∧ (readByte 0x00C (on { writing with addr := 0x10000 })).2 = .done := by
  unfold lastOfDataChain; decide +kernel

/-- A WRITE at the last byte of a page, its register full and empty; a skipping READ whose next IDAW cannot be read; T6's READ
BACKWARD at the first byte of a page, its register right, which stores the word. -/
theorem witness_PageCrossingTakesTheNextIdaw :
    (∀ o, o = none ∨ o = some 3 →
      Transfers .out 0x00C sel (on { writing with flags := { ida := true }, iaddr := 0x7FF, boff := o }) ∧
      needsNextIdaw { writing with flags := { ida := true }, iaddr := 0x7FF, boff := o }) ∧
    (accessFault (on writing) 0 0x7FF false = none ∧ accessFault (on writing) 0 (0x400 + 4) false = none) ∧
    (Transfers .input 0x00C sel (on { reading with addr := 0xFFFC, flags := { ida := true, skip := true }, iaddr := 0x7FF }) ∧
      needsNextIdaw { reading with addr := 0xFFFC, flags := { ida := true, skip := true }, iaddr := 0x7FF } ∧
      accessFault (on reading) 0 (0xFFFC + 4) false = some .addressing) ∧
    (Transfers .input 0x00C sel (on crossingBack) ∧ needsNextIdaw crossingBack ∧ RegisterOk crossingBack ∧
      crossingBack.flags.skip = false ∧ accessFault (on crossingBack) 0 0x1000 true = none) := by
  refine ⟨fun o ho => ?_, by decide +kernel, ⟨transfers_on rfl rfl (by decide +kernel), ?_⟩,
    transfers_on rfl rfl (by decide +kernel), ?_, ⟨fun _ => ?_, fun _ k h => ?_, fun h => ?_⟩, by decide +kernel, by decide +kernel⟩
  · rcases ho with rfl | rfl <;> refine ⟨transfers_on rfl rfl (by decide +kernel), ?_⟩ <;> unfold needsNextIdaw <;> decide +kernel
  · unfold needsNextIdaw; decide +kernel
  · unfold needsNextIdaw; decide +kernel
  · decide +kernel
  · cases h; decide +kernel
  · cases h

/-- T6: the second byte of the READ BACKWARD stores the word of 0x1000 and takes the next IDAW. -/
theorem test_crossing_store : (run (.writeByte 0x00C 0x02) (withWords [(0x184, 0x00003000)] (on crossingBack))).map (fun t =>
    (t.wordAt 0x1000, (t.scb sel).iaddr, (t.scb sel).addr, (t.scb sel).boff)) =
    some (0x02010000, 0x37FF, 0x184, none) := by decide +kernel

/-- A load under CD that succeeds, one that a check fails, and one that is aborted; a `read_byte` with a full and an empty register;
a stored `write_byte` at the register's last byte and before it, in a page that may be written and in one whose key was changed; a
skipped one; a count of 0. -/
theorem witness_DataChainingIsTransparent :
    (chainWrite.flags.cd = true ∧ chainWrite.chainHeld = false ∧
      (loadNextCcw sel true (withWords [(0x108, 0x01000400), (0x10C, 0x00000004)] (on chainWrite))).2 = .ok ∧
      (loadNextCcw sel true (on chainWrite)).2 = .fail .check ∧
      (loadNextCcw sel true (on { chainWrite with status := 0x0020 })).2 = .fail .abort) ∧
    (∀ b, b = chainWrite ∨ b = { chainWrite with boff := none } → Transfers .out 0x00C sel (on b) ∧ lastOfDataChain b) ∧
    (chainWrite.dirty = false ∧ accessFault (on chainWrite) 0 chainWrite.position false = none) ∧
    (∀ b, b = chainRead 0x501 1 ∨ b = chainRead 0x503 3 → Transfers .input 0x00C sel (on b) ∧ lastOfDataChain b ∧
      b.flags.skip = false ∧ RegisterOk b ∧ accessFault (on b) b.key b.position true = none) ∧
    (lastOffset 0x02 1 = false ∧ (chainRead 0x501 1).boff ≠ none ∧
      accessFault ((on { chainRead 0x501 1 with key := 2 }).setKey 0 0x30) 2 0x501 true = some .protection) ∧
    (Transfers .input 0x00C sel (on chainSkip) ∧ lastOfDataChain chainSkip ∧ chainSkip.dirty = false) ∧
    (Transfers .out 0x00C sel (on { chainWrite with count := 0 }) ∧
      Transfers .input 0x00C sel (on { chainSkip with count := 0 })) := by
  refine ⟨by decide +kernel, fun b h => ?_, by decide +kernel, fun b h => ?_,
    by decide +kernel, ⟨transfers_on rfl rfl (by decide +kernel), ⟨rfl, rfl⟩, rfl⟩, transfers_on rfl rfl (by decide +kernel),
    transfers_on rfl rfl (by decide +kernel)⟩
  · rcases h with rfl | rfl <;> exact ⟨transfers_on rfl rfl (by decide +kernel), ⟨rfl, rfl⟩⟩
  · rcases h with rfl | rfl <;>
    exact ⟨transfers_on rfl rfl (by decide +kernel), ⟨rfl, rfl⟩, rfl,
      ⟨fun _ => by decide +kernel, fun _ k h => by cases h; decide +kernel, fun h => by cases h⟩, by decide +kernel⟩

/-- T15: the last byte of a data chain stores the dirty register and has loaded the next CCW. -/
theorem test_chain_store :
    (run (.writeByte 0x00C 0x02) (withWords [(0x108, 0x02000400), (0x10C, 0x00000002)] (on (chainRead 0x501 1)))).map
      (fun t => (t.wordAt 0x500, (t.scb sel).addr, (t.scb sel).count, (t.scb sel).caw, (t.scb sel).boff)) =
      some (0x0102EEEE, 0x400, 2, 0x110, none) := by decide +kernel

/-- The registers of the state after reset are right, and stay so with a right SCB. -/
theorem registersOk_on (b : Scb) (h : RegisterOk b) : RegistersOk (on b) := by
  intro id
  unfold on
  rw [scb_setScb]
  split
  · exact h
  · show RegisterOk idleScb
    exact ⟨fun h => absurd h (by decide), fun h => absurd rfl h, fun _ _ => rfl⟩

theorem witness_WriteByteStoresOnlyItsWord : RegistersOk (on reading) ∧ findSubchannel (on reading).cfg 0x00C = some sel ∧
    ((on reading).scb sel).count ≠ 0 :=
  ⟨registersOk_on _ ⟨fun h => absurd h (by decide), fun _ _ h => (by cases h), fun h => absurd h (by decide)⟩,
    by decide +kernel, by decide +kernel⟩

/-! ### Callbacks and the scan -/

/-- A READ with a byte held for a page of key 2. -/
def heldByte : Scb := { reading with addr := 0x801, count := 3, key := 2, buf := 0x11000000, boff := some 1, dirty := true }

/-- An address that owns no SCB; one that does, with a clean register, with a dirty one that can be stored, and with one that can
not, T11's. -/
theorem witness_ChannelEndEndsTheCommand :
    (findSubchannel (on reading).cfg 0x00D = some sel ∧ ((on reading).scb sel).dev ≠ some 0x00D) ∧
    (findSubchannel (on reading).cfg 0x00C = some sel ∧ ((on reading).scb sel).dev = some 0x00C ∧
      flushFault (on reading) reading = none) ∧
    accessFault (on { reading with boff := some 1, dirty := true, addr := 0x501 }) 0 0x501 true = none ∧
    (flushFault ((on heldByte).setKey 1 0x30) heldByte = some .protection ∧
      (channelEnd 0x00C 0x0400 ((on heldByte).setKey 1 0x30)).scb sel =
        { heldByte with status := 0x0C50, cmd := 0, boff := none, dirty := false }) := by decide +kernel

/-- A held SCB, one at channel end without device end, and one with both. -/
theorem witness_PostAttentionMergesOrRecords : findSubchannel (on reading).cfg 0x00C = some sel ∧
    ((on { writing with chainHeld := true }).scb sel).chainHeld = true ∧
    (((on { ended with status := 0x0800 }).scb sel).status &&& stCE ≠ 0 ∧
      ((on { ended with status := 0x0800 }).scb sel).status &&& stDE = 0) ∧
    (((on ended).scb sel).chainHeld = false ∧ ((on ended).scb sel).status &&& stDE ≠ 0) ∧
    findSubchannel State.reset.cfg 0x305 = none := by decide +kernel

theorem witness_CollectFreesAnEndedProgram : configWf (on ended).cfg = true ∧ ended.status &&& stCE ≠ 0 ∧
    ({ reading with status := 0x0080 } : Scb).status &&& stCE = 0 := by decide +kernel

/-- SCBs of each kind of channel, at the ends of their ranges. -/
theorem witness_ScanOrderIsAscending : channelsWf Config.cfg0.channels = true ∧
    (scanOrder Config.cfg0).take 3 = [⟨0, 0⟩, ⟨1, 0⟩, ⟨1, 1⟩] ∧
    [(⟨0, 0⟩ : ScbId), ⟨0, 1⟩, ⟨1, 15⟩, ⟨1, 16⟩, ⟨2, 31⟩, ⟨2, 32⟩, ⟨3, 0⟩].map (fun id => decide (id ∈ scanOrder Config.cfg0)) =
      [true, false, true, false, true, false, false] := by decide +kernel

/-- An SCB of 0x00C on channel 0 and a completed program of 0x104 on channel 1. -/
def two (b : Scb) (l : Option DevAddr) : State :=
  { ((on b).setScb ⟨1, 4⟩ { ended with dev := some 0x104 }).raiseIrq with loading := l }

/-- The SCBs the scan visits before 0x104's. -/
def beforeTwo : List ScbId := [⟨0, 0⟩, ⟨1, 0⟩, ⟨1, 1⟩, ⟨1, 2⟩, ⟨1, 3⟩]

/-- ST7: with mask 0x0002 the scan passes by the SCB of channel 0 and delivers 0x104; the next returns none with IRQ set; with mask
0x0003 it delivers 0x00C. -/
theorem test_scan_mask : (scan 0x0002 true (two ended none)).2 = some 0x104 ∧
    (scan 0x0002 true (two ended none)).1.irq = true ∧ (scan 0x0002 true (on ended).raiseIrq).2 = none ∧
    (scan 0x0002 true (on ended).raiseIrq).1.irq = true ∧ (scan 0x0003 true (two ended none)).2 = some 0x00C := by
  decide +kernel

/-- ST9: in a boot-load of 0x00C, neither enabled nor unmasked, the scan delivers nothing of 0x104 and then 0x00C. -/
theorem test_scan_boot : (scan 0 false (two { reading with status := 0 } (some 0x00C))).2 = none ∧
    (scan 0 false (two { ended with count := 24 } (some 0x00C))).2 = some 0x00C ∧
    (scan 0 false (two { ended with count := 24 } (some 0x00C))).1.wordAt 0x44 = 0x0C000018 := by decide +kernel

/-- An SCB whose PCI and completion are not delivered. -/
theorem not_deliverable {s : State} {m : Half} {e : Bool} {id : ScbId} {a : DevAddr} (hd : (s.scb id).dev = some a)
    (h : ¬ ((s.scb id).status &&& stPCI ≠ 0 ∧ maskedOn s a id.chan m e = true))
    (h2 : ¬ (completed (s.scb id) ∧ allowed s a id.chan m e = true)) : ¬ deliverable s m e id := by
  rintro ⟨c, hc, hx⟩
  rw [hd] at hc
  cases hc
  rw [maskedOn_iff] at h
  rw [allowed_iff] at h2
  exact hx.elim h h2

theorem not_deliverable_free {s : State} {m : Half} {e : Bool} {id : ScbId} (hd : (s.scb id).dev = none) :
    ¬ deliverable s m e id := by
  rintro ⟨c, hc, -⟩
  rw [hd] at hc
  cases hc

/-- The SCBs before 0x104's, 0x00C's first: completed and masked off (ST7), and in a boot-load of 0x104 (ST9's restriction); a PCI
masked off; chains that wait for device end, held and not; a held chain that continues. -/
theorem witness_passed_by (p : Scb × Half × Option DevAddr)
    (hp : p ∈ [(ended, 0x0002, none), (ended, 0x0003, some 0x104), ({ reading with status := 0x0080 }, 0x0002, none),
      ({ writing with chainHeld := true, status := 0x1000 }, 0x0003, none),
      ({ ended with status := 0x0800, flags := { cc := true } }, 0x0003, none),
      ({ writing with chainHeld := true, status := 0x1400 }, 0x0003, none)]) :
    ∀ j ∈ beforeTwo, ¬ deliverable (two p.1 p.2.2) p.2.1 true j := by
  intro j hj
  simp only [List.mem_cons, List.not_mem_nil, or_false] at hp
  simp only [beforeTwo, List.mem_cons, List.not_mem_nil, or_false] at hj
  rcases hj with rfl | rfl | rfl | rfl | rfl
  · rcases hp with rfl | rfl | rfl | rfl | rfl | rfl <;>
      exact not_deliverable (a := 0x00C) (by decide +kernel) (by decide +kernel) (by unfold completed; decide +kernel)
  all_goals exact not_deliverable_free (by rcases hp with rfl | rfl | rfl | rfl | rfl | rfl <;> decide +kernel)

/-- A PCI of a running program and of an ended one, and a completed program, each first in the scan's order; a completed program
after the SCBs of `witness_passed_by`; one whose PCI is held back while its completion is not, in its boot-load. -/
theorem witness_ScanDeliversTheFirstDeliverable : configWf (on ended).cfg = true ∧ (on ended).raiseIrq.irq = true ∧
    scanOrder (on ended).cfg = [] ++ sel :: (scanOrder Config.cfg0).tail ∧ ended.dev = some 0x00C ∧
    pciEnabled (on ended) 0x0001 true 0x00C sel.chan ∧
    (({ reading with status := 0x0080 } : Scb).status &&& stPCI ≠ 0 ∧
      ({ reading with status := 0x0080 } : Scb).status &&& stCE = 0) ∧
    (({ ended with status := 0x0C80 } : Scb).status &&& stPCI ≠ 0 ∧
      ({ ended with status := 0x0C80 } : Scb).status &&& stCE ≠ 0) ∧
    (ended.status &&& stPCI = 0 ∧ completed ended ∧ completionEnabled (on ended) 0x0001 true 0x00C sel.chan) ∧
    (scanOrder (two ended none).cfg = beforeTwo ++ ⟨1, 4⟩ :: (scanOrder Config.cfg0).drop 6 ∧
      ((two ended none).scb ⟨1, 4⟩).dev = some 0x104 ∧
      completionEnabled (two ended none) 0x0002 true 0x104 1 ∧ completionEnabled (two ended (some 0x104)) 0 false 0x104 1) ∧
    (¬ pciEnabled (two { ended with status := 0x0C80 } (some 0x00C)) 0 false 0x00C sel.chan ∧
      completed { ended with status := 0x0C80 } ∧
      completionEnabled (two { ended with status := 0x0C80 } (some 0x00C)) 0 false 0x00C sel.chan ∧
      (scan 0 false (two { ended with status := 0x0C80 } (some 0x00C))).1.wordAt 0x44 = 0x0C800000) := by
  refine ⟨by decide +kernel, by decide +kernel, by decide +kernel, rfl, ⟨rfl, by decide +kernel, .inl rfl⟩, by decide +kernel,
    by decide +kernel, ⟨by decide +kernel, ?_, ⟨rfl, by decide +kernel⟩⟩,
    ⟨by decide +kernel, by decide +kernel, ⟨rfl, by decide +kernel⟩, rfl⟩, fun h => absurd h.1 (by decide), ?_, rfl,
    by decide +kernel⟩ <;> (unfold completed; decide +kernel)

/-- A held chain whose PCI the mask holds back: without device end it waits, with it it resumes and is accepted; IRQ is set and the
PCI stands (R185, R187). A command chain keeps it through its next CCW. -/
theorem test_scan_pci_held_back :
    [(0x1080 : Half), 0x1480].map (fun st =>
      let t := (scanScb 0 true sel (ready { writing with chainHeld := true, status := st } 0)).1
      (t.irq, (t.scb sel).chainHeld, (t.scb sel).status)) = [(true, true, 0x1080), (true, false, 0x0080)] ∧
    [(0x0C80 : Half)].map (fun st =>
      let t := (scanScb 0 true sel (withWords [(0x108, 0x01000400), (0x10C, 0x00000003)]
        (ready { ended with status := st, flags := { cc := true } } 0))).1
      (t.irq, (t.scb sel).cmd, (t.scb sel).status)) = [(true, 0x01, 0x0080)] := by decide +kernel

/-- A held chain and a command chain, with and without device end; the same with a PCI that the mask holds back. -/
theorem witness_ScanContinuesAChainAtDeviceEnd :
    (({ writing with chainHeld := true, status := 0x1000 } : Scb).status &&& stDE = 0 ∧
      ({ writing with chainHeld := true, status := 0x1400 } : Scb).status &&& stDE ≠ 0 ∧
      ({ writing with chainHeld := true, status := 0x1400 } : Scb).status &&& stPCI = 0 ∧ writing.dev ≠ none) ∧
    (({ ended with flags := { cc := true } } : Scb).chainHeld = false ∧ ended.status &&& stCE ≠ 0 ∧ ended.cmd = 0 ∧
      ended.status &&& chanErr = 0 ∧ ended.status &&& stDE ≠ 0) ∧
    (¬ pciEnabled (on writing) 0 true 0x00C sel.chan ∧ writing.dev = some 0x00C ∧
      chaining { writing with chainHeld := true, status := 0x1080 } ∧
      chaining { ended with status := 0x0C80, flags := { cc := true } } ∧
      ({ ended with status := 0x0C80, flags := { cc := true } } : Scb).status &&& stPCI ≠ 0) :=
  ⟨by decide +kernel, by decide +kernel, fun h => absurd h.2.1 (by decide +kernel), rfl, .inl rfl,
    .inr (by decide +kernel), by decide +kernel⟩

/-- An SCB of 0x00C and a pending status of 0x10A. -/
def pendingTwo (b : Scb) : State := postAttention 0x10A 0x80 (on b).raiseIrq

/-- An unsolicited status of 0x10A, with a completed program masked off and with a chain that waits for device end. -/
theorem witness_ScanFallsBackToPendingStatus (b : Scb) (h : b = ended ∨ b = { writing with chainHeld := true, status := 0x1000 }) :
    configWf (pendingTwo b).cfg = true ∧ (pendingTwo b).irq = true ∧
    (∀ j ∈ scanOrder (pendingTwo b).cfg, ¬ deliverable (pendingTwo b) 0x0002 true j) ∧
    (enabledChannel (pendingTwo b).cfg (chanOf 0x10A)).isSome = true ∧ (pendingTwo b).chpendAt (chanOf 0x10A) = true ∧
    (pendingTwo b).pendAt 0x10A ≠ 0 ∧ pciEnabled (pendingTwo b) 0x0002 true 0x10A (chanOf 0x10A) ∧
    (∀ d : DevAddr, d.toNat < (0x10A : DevAddr).toNat → (pendingTwo b).pendAt d = 0) := by
  have e (d : DevAddr) : (pendingTwo b).pendAt d = (State.reset.setPend 0x10A 0x80).pendAt d := by
    have : (pendingTwo b).pend = (State.reset.setPend 0x10A 0x80).pend := by rcases h with rfl | rfl <;> decide +kernel
    unfold State.pendAt; rw [this]
  refine ⟨by rcases h with rfl | rfl <;> decide +kernel, by rcases h with rfl | rfl <;> decide +kernel, fun j hj => ?_,
    by rcases h with rfl | rfl <;> decide +kernel, by rcases h with rfl | rfl <;> decide +kernel, by rw [e]; decide +kernel,
    ⟨rfl, by rcases h with rfl | rfl <;> decide +kernel, .inl (by rcases h with rfl | rfl <;> decide +kernel)⟩, fun d hd => ?_⟩
  · by_cases hs : j = sel
    · subst hs
      rcases h with rfl | rfl <;>
        exact not_deliverable (a := 0x00C) (by decide +kernel) (by decide +kernel) (by unfold completed; decide +kernel)
    · refine not_deliverable_free ?_
      have hscb : (pendingTwo b).scb j = (on b).scb j := by
        have : (pendingTwo b).scbs = (on b).scbs := by rcases h with rfl | rfl <;> decide +kernel
        unfold State.scb; rw [this]
      rw [hscb, on, scb_setScb, if_neg hs]; rfl
  · have hne : d ≠ 0x10A := by rintro rfl; omega
    rw [e, pendAt_setPend, if_neg hne]; rfl

/-- ST8: a completed program with interrupts disabled; a scan of nothing; a running program with CC; a held chain and an ended
command with CC, both without device end, which keep no IRQ. -/
theorem witness_UndeliveredStatusKeepsIrq : (on ended).raiseIrq.irq = true ∧
    (scan 0xFFFF false (on ended).raiseIrq).2 = none ∧ (scan 0xFFFF true State.reset.raiseIrq).2 = none ∧
    (scan 0xFFFF false (on ended).raiseIrq).1.irq = true ∧
    (¬ chaining ended ∧ ¬ chaining { reading with flags := { cc := true } }) ∧
    [{ reading with flags := { cc := true } }, { writing with chainHeld := true, status := 0x1000 },
      { ended with status := 0x0800, flags := { cc := true } }].all (fun b =>
        decide (b.status &&& stDE = 0) && (scan 0xFFFF true (on b).raiseIrq).2.isNone &&
        !(scan 0xFFFF true (on b).raiseIrq).1.irq) = true := by
  unfold chaining; decide +kernel

/-! ### The CPU's instructions -/

/-- With the second byte ignored, and with it refused. -/
theorem witness_OperandsOfTheInstructions : acceptsI2 State.reset 0xFF ∧
    ¬ acceptsI2 { State.reset with cfg := { Config.cfg0 with ignoreI2 := false } } 0x01 := by
  unfold acceptsI2; decide +kernel

/-- CFG0 with four subchannels on channel 1. -/
def nsub4 : Config :=
  { Config.cfg0 with channels := Config.cfg0.channels.map fun c => if c.kind = .mux 16 then { c with kind := .mux 4 } else c }

/-- No SCB, and no device; CFG0's channels at the meeting points of the resolver's clauses (RS1 and on), and with NSUB = 4. -/
theorem witness_UnresolvedAddressAnswersThree : acceptsI2 State.reset 0 ∧
    (deviceAddress State.reset 0 0x305 = 0x305 ∧ findSubchannel State.reset.cfg 0x305 = none) ∧
    (deviceAddress State.reset 0 0x00D = 0x00D ∧ findDevice State.reset.cfg 0x00D = none) ∧
    channelsWf Config.cfg0.channels = true ∧
    [(0x0FF : DevAddr), 0x104, 0x10F, 0x110, 0x1C5, 0x1F0, 0x200, 0x207, 0x208, 0x2FF, 0x300, 0x400].map
        (fun a => (findSubchannel Config.cfg0 a).map fun id => (id.chan.val, id.sub.val)) =
      [some (0, 0), some (1, 4), some (1, 15), some (1, 1), some (1, 4), some (1, 7), some (2, 0), some (2, 0), some (2, 1),
       some (2, 31), none, none] ∧
    [(0x103 : DevAddr), 0x104, 0x135, 0x1C5, 0x1F0].map (fun a => (findSubchannel nsub4 a).map fun id => id.sub.val) =
      [some 3, some 0, some 3, none, none] ∧
    (muxFold { nsub4 with foldOverrides := [(0x1C5, 2)] } 0x1C5 = 2 ∧ findDevice Config.cfg0 0x00C = some dev0) := by
  unfold acceptsI2; decide +kernel

/-- The address 0x00C resolves. -/
theorem resolves_on (b : Scb) : Resolves (on b) 0x00C sel dev0 :=
  ⟨cfg0_sel, show findDevice Config.cfg0 0x00C = some dev0 by decide +kernel⟩

/-- A completed program, with and without channel end; an error status; channel end alone. -/
theorem witness_SioAndTioCollectTheStatus : configWf (on ended).cfg = true ∧ Resolves (on ended) 0x00C sel dev0 ∧
    0x00C = deviceAddress (on ended) 0 0x00C ∧
    (ended.dev = some 0x00C ∧ ended.status ≠ 0 ∧ ¬ running ended ∧ ended.status &&& stCE ≠ 0) ∧
    (hasErrorStatus { reading with status := 0x0200 } ∧ ({ reading with status := 0x0200 } : Scb).status &&& stCE = 0) := by
  refine ⟨by decide +kernel, resolves_on _, by decide +kernel, ?_, ?_⟩ <;> (try unfold hasErrorStatus) <;> (try unfold running) <;>
    decide +kernel

/-- A running program, another device's status on a shared SCB, and an error status. -/
theorem witness_BusyAndStoppedChangeNothing : Resolves (on reading) 0x00C sel dev0 ∧ running reading ∧
    ¬ hasErrorStatus reading ∧
    (findSubchannel State.reset.cfg 0x104 = some ⟨1, 4⟩ ∧ findSubchannel State.reset.cfg 0x1C5 = some ⟨1, 4⟩ ∧
      (findDevice State.reset.cfg 0x1C5).isSome = true ∧
      ¬ running { ended with dev := some 0x104 } ∧ ({ ended with dev := some 0x104 } : Scb).status ≠ 0 ∧
      State.reset.pendAt 0x1C5 = 0) ∧ hasErrorStatus { ended with status := 0x0820 } := by
  refine ⟨resolves_on _, ?_, ?_, ?_, ?_⟩ <;> (try unfold hasErrorStatus) <;> (try unfold running) <;> decide +kernel

/-- A free SCB, one bound with status 0, and another device's, with a pending status of the address. -/
theorem witness_PendingStatusIsTaken : (postAttention 0x00C 0x80 State.reset).pendAt 0x00C ≠ 0 ∧
    Resolves (postAttention 0x00C 0x80 State.reset) 0x00C sel dev0 ∧
    ((postAttention 0x00C 0x80 State.reset).scb sel).dev = none ∧ ¬ running idleScb ∧
    (¬ running atCcw ∧ atCcw.dev = some 0x00C ∧ atCcw.status = 0 ∧ ¬ hasErrorStatus atCcw) := by
  refine ⟨by decide +kernel, ⟨by decide +kernel, by decide +kernel⟩, by decide +kernel, ?_, ?_⟩ <;> (try unfold running) <;>
    (try unfold hasErrorStatus) <;> decide +kernel

/-- CFG0 with both hooks on the device at 0x00C. -/
def hooked : State :=
  { State.reset with
    cfg := { Config.cfg0 with channels := [{ kind := .selector, enabled := true,
                                             devices := [(0x0C, { dev0 with hasStartIo := true, hasHaltIo := true })] }] } }

/-- A hook that answers busy, and one that answers a status. -/
theorem witness_StartIoHookMayAnswer : configWf hooked.cfg = true ∧
    Resolves hooked 0x00C sel { dev0 with hasStartIo := true, hasHaltIo := true } ∧ (hooked.scb sel).dev = none ∧
    ¬ running (hooked.scb sel) ∧ hooked.pendAt 0x00C = 0 ∧
    (startIoHook 0x00C { hooked with startIoAnswers := [0x10] }).1 = 0x10 ∧
    (startIoHook 0x00C { hooked with startIoAnswers := [0x0C] }).1 = 0x0C := by
  refine ⟨by decide +kernel, ⟨by decide +kernel, by decide +kernel⟩, by decide +kernel, ?_, ?_⟩ <;> (try unfold running) <;>
    decide +kernel

/-- W1's program, its device accepting. -/
theorem witness_SioStartsTheProgram : configWf readProgram.cfg = true ∧ acceptsI2 readProgram 0 ∧
    0x00C = deviceAddress readProgram 0 0x00C ∧ Resolves readProgram 0x00C sel dev0 ∧ (readProgram.scb sel).dev = none ∧
    ¬ running (readProgram.scb sel) ∧ readProgram.pendAt 0x00C = 0 ∧ dev0.hasStartIo = false ∧
    readProgram.wordAt readProgram.cfg.cawAddr = 0x00000100 ∧ accessFault readProgram 0 0x100 false = none ∧
    decode .channel (eightBytes readProgram 0x100) = .ok (.ccwRead readFields) ∧ CommandCcw (.ccwRead readFields) readFields ∧
    FieldsLoad readProgram 0 (0x100 + 4) readFields ∧
    (startCommand 0x00C readFields.cmd { readProgram with commandAnswers := [0] }).1 = 0 ∧ accepts 0 = true := by
  refine ⟨by decide +kernel, .inl (by decide +kernel), by decide +kernel, ⟨by decide +kernel, by decide +kernel⟩,
    by decide +kernel, ?_, by decide +kernel, rfl, by decide +kernel, by decide +kernel, by decide +kernel, .inr (.inl rfl),
    fieldsLoad_of (by decide +kernel) (by decide +kernel) (by decide +kernel) (by decide +kernel), by decide +kernel,
    by decide +kernel⟩
  unfold running; decide +kernel

/-- The same program with a count of 0: the first load fails, with no hook and with a hook that answers 0; a device that answers
busy. -/
theorem witness_SioFirstLoadFailureIsStored :
    (loadNextCcw sel false (((withWords [(0x104, 0)] readProgram).markKey (pageOf 0x48) 0x04).setScb sel
      (boundScb 0x00C dev0 0 0x100 idleScb))).2 = .fail .check ∧
    (startIoHook 0x00C { hooked with startIoAnswers := [0] }).1 = 0 ∧
    (loadNextCcw sel false ((({ readProgram with commandAnswers := [0x10] } : State).markKey (pageOf 0x48) 0x04).setScb sel
      (boundScb 0x00C dev0 0 0x100 idleScb))).2 = .fail .busy := by decide +kernel

/-- W4's program. -/
theorem witness_SioRefusesATicFirst :
    (withWords [(0x48, 0x00000100), (0x100, 0x08000200)] State.reset).wordAt 0x48 = 0x00000100 ∧
    classOf ((withWords [(0x48, 0x00000100), (0x100, 0x08000200)] State.reset).byteAt 0x100) = .tic ∧
    accessFault State.reset 0 0x100 false = none ∧ ¬ running (State.reset.scb sel) ∧ dev0.hasStartIo = false := by
  unfold running; decide +kernel

/-- An idle address, and one bound with status 0; the four answers of IO-T7. -/
theorem witness_TioAsksTheDevice : ¬ running idleScb ∧ (on idleScb).pendAt 0x00C = 0 ∧ Resolves (on idleScb) 0x00C sel dev0 ∧
    ((on idleScb).scb sel).dev = none ∧ [(0x02 : Byte), 0x10, 0x00, 0x40].all (fun st =>
      (startCommand 0x00C 0x00 (ready idleScb st)).1 == st) = true := by
  refine ⟨?_, by decide +kernel, resolves_on _, by decide +kernel, by decide +kernel⟩; unfold running; decide +kernel

/-- A running READ with a dirty register that can be stored, outside the CSW, with and without a hook, one that can not be stored
any more, and a held WRITE. -/
theorem witness_HioStopsTheProgram :
    (Resolves (on { reading with addr := 0x501, boff := some 1, dirty := true }) 0x00C sel dev0 ∧
      Resolves hooked 0x00C sel { dev0 with hasStartIo := true, hasHaltIo := true }) ∧ running reading ∧
    ¬ hasErrorStatus reading ∧ running { writing with chainHeld := true } ∧ dev0.hasHaltIo = false ∧
    flushes (on { reading with addr := 0x501, boff := some 1, dirty := true })
      { reading with addr := 0x501, boff := some 1, dirty := true } ∧
    flushFault ((on heldByte).setKey 1 0x30) heldByte = some .protection ∧
    (∀ x, inWordOf 0x501 x → ¬ inCsw Config.cfg0 x) := by
  refine ⟨⟨resolves_on _, ⟨by decide +kernel, by decide +kernel⟩⟩, ?_, ?_, ?_, rfl, ⟨rfl, by decide +kernel⟩, by decide +kernel,
    fun x h h' => ?_⟩
  · unfold running; decide +kernel
  · unfold hasErrorStatus; decide +kernel
  · unfold running; decide +kernel
  · have c : Config.cfg0.cswAddr.toNat = 0x40 := by decide +kernel
    have p : (0x501 : Addr).toNat = 0x501 := by decide +kernel
    unfold inWordOf at h; unfold inCsw at h'; rw [c] at h'; rw [p] at h; omega

/-- IO-H4: a hook that answers 2 on a running READ. -/
theorem test_hio_hook : (run (.instruction 0x9E00000C) { hooked.setScb sel { reading with count := 10 } with
      haltIoAnswers := [2] }).map (fun t => (t.result, (t.scb sel).status, (t.scb sel).cmd, t.irq, t.callOuts)) =
    some (.cc 2, 0x0800, 0, true, [CallOut.haltIo 0x00C]) := by decide +kernel

/-- An idle address with and without a hook; a completed program; a bound SCB with no channel end, with and without a PCI. -/
theorem witness_HioWithoutAProgram : Resolves hooked 0x00C sel { dev0 with hasStartIo := true, hasHaltIo := true } ∧
    Resolves (on ended) 0x00C sel dev0 ∧ Resolves (on idleScb) 0x00C sel dev0 ∧ idleScb.dev ≠ some 0x00C ∧
    ¬ running ended ∧ ¬ hasErrorStatus ended ∧
    (¬ running { atCcw with status := 0x0480 } ∧ ¬ hasErrorStatus { atCcw with status := 0x0480 } ∧
      ({ atCcw with status := 0x0480 } : Scb).status &&& stCE = 0 ∧ atCcw.status &&& stCE = 0) := by
  refine ⟨⟨by decide +kernel, by decide +kernel⟩, resolves_on _, resolves_on _, by decide +kernel, ?_, ?_, ?_, ?_,
    by decide +kernel⟩ <;>
    (first | (unfold running; decide +kernel) | (unfold hasErrorStatus; decide +kernel))

/-- An absent channel, the disabled one, the multiplexer, the extended block multiplexer, and the selector idle, running and
with a status. -/
theorem witness_TchAnswersByTheChannel : chanOf (deviceAddress State.reset 0 0x400) = 4 ∧
    channelAt Config.cfg0 4 = none ∧ (channelAt Config.cfg0 3).map Channel.enabled = some false ∧
    (channelAt Config.cfg0 1).map Channel.kind = some (.mux 16) ∧
    (channelAt Config.cfg0 2).map Channel.kind = some (.blockMux true) ∧
    (channelAt Config.cfg0 0).map Channel.kind = some .selector ∧
    running reading ∧ (¬ running ended ∧ ended.dev ≠ none ∧ ended.status ≠ 0) ∧ ¬ running idleScb := by
  unfold running; decide +kernel

/-- Each instruction answers a next state. -/
theorem witness_ChannelControlFrame : configWf (on idleScb).cfg = true ∧
    (∃ t, exec (.sio 0 0 0x00C) (on reading) = .next t) ∧ (∃ t, exec (.tio 0 0 0x00C) (on reading) = .next t) ∧
    (∃ t, exec (.hio 0 0 0x00C) (on reading) = .next t) ∧ (∃ t, exec (.tch 0 0 0x00C) (on reading) = .next t) :=
  have h : acceptsI2 (on reading) 0 := .inl rfl
  ⟨by decide +kernel, ⟨_, ccOutcome_ok h _⟩, ⟨_, ccOutcome_ok h _⟩, ⟨_, ccOutcome_ok h _⟩, ⟨_, ccOutcome_ok h _⟩⟩

/-- IO-B2: a boot start of an address with no device answers 3 and leaves LOADING. -/
theorem test_boot_unresolved : (run (.bootStart 0x00D 8) { State.reset with loading := some 0x104 }).map
    (fun t => (t.result, t.loading)) = some (.cc 3, some 0x104) := by decide +kernel

/-- IO-B2's address; IO-B3's load; W1's program at a boot start. -/
theorem witness_BootStartLoadsTheFirstCcw : findDevice State.reset.cfg 0x00D = none ∧
    (configWf State.reset.cfg = true ∧ Resolves State.reset 0x00C sel dev0 ∧
      (loadNextCcw sel false (({ State.reset with loading := some 0x00C } : State).setScb sel
        (boundScb 0x00C dev0 0 0x00C idleScb))).2 = .fail .check) ∧ Resolves readProgram 0x00C sel dev0 ∧
    accessFault readProgram 0 0x100 false = none ∧
    decode .channel (eightBytes readProgram 0x100) = .ok (.ccwRead readFields) ∧ CommandCcw (.ccwRead readFields) readFields ∧
    FieldsLoad readProgram 0 (0x100 + 4) readFields ∧
    (startCommand 0x00C readFields.cmd { readProgram with commandAnswers := [0] }).1 = 0 :=
  ⟨by decide +kernel, ⟨by decide +kernel, ⟨by decide +kernel, by decide +kernel⟩, by decide +kernel⟩,
    ⟨by decide +kernel, by decide +kernel⟩, by decide +kernel, by decide +kernel, .inr (.inl rfl),
    fieldsLoad_of (by decide +kernel) (by decide +kernel) (by decide +kernel) (by decide +kernel), by decide +kernel⟩

/-! ### Invariants -/

theorem witness_StepKeepsCanonicalForm : CanonicalForm State.reset ∧ step State.reset = .next State.reset :=
  ⟨⟨reset_memory_wf, rfl, rfl, rfl⟩, rfl⟩

/-- The bindings with one SCB bound. -/
theorem witness_StepKeepsBindings : BindingsOk (on reading) := by
  intro id
  unfold on
  rw [scb_setScb]
  split
  · rename_i h
    subst h
    refine ⟨fun h => absurd h (by decide), fun a ha => ?_⟩
    cases ha
    exact ⟨by decide +kernel, by decide +kernel, by decide +kernel⟩
  · exact ⟨fun _ => ⟨rfl, rfl, rfl⟩, fun a ha => by cases ha⟩

theorem witness_StepKeepsRegisters : RegistersOk (on { reading with addr := 0x501, boff := some 1, dirty := true }) :=
  registersOk_on _ ⟨fun _ => by decide +kernel, fun _ k h => (by cases h; decide +kernel), fun h => absurd h (by decide)⟩

/-- A pending status and a running program. -/
theorem witness_StepKeepsPendingVisible :
    BindingsOk (on reading) ∧ PendingVisible (postAttention 0x10A 0x80 State.reset) ∧
    PendingVisible (on reading) ∧ PciVisible (on reading) := by
  refine ⟨witness_StepKeepsBindings, ⟨fun a h => ?_, fun _ => rfl⟩, ⟨fun a h => absurd rfl h, fun h => absurd rfl h⟩,
    fun id hd hp => ?_⟩
  · by_cases e : a = 0x10A
    · subst e; decide +kernel
    · have e1 : (postAttention 0x10A 0x80 State.reset).pend = (State.reset.setPend 0x10A 0x80).pend := by decide +kernel
      have e2 : (postAttention 0x10A 0x80 State.reset).pendAt a = (State.reset.setPend 0x10A 0x80).pendAt a := by
        unfold State.pendAt; rw [e1]
      rw [e2, pendAt_setPend, if_neg e] at h
      exact absurd rfl h
  · unfold on at hp
    rw [scb_setScb] at hp
    split at hp
    · exact absurd hp (by decide +kernel)
    · exact absurd (show anyBits idleScb.status stPCI = true from hp) (by decide +kernel)

/-- A reset request within the limits and one outside them. -/
theorem witness_ResetLeavesTheBlockIdle : configWf State.reset.cfg = true ∧ channelsWf Config.cfg0.channels = true ∧
    channelsWf [] = false ∧ channelsWf [{ kind := .mux 257, enabled := true, devices := [] }] = false := by decide +kernel

end Sys2Proof.Tests
end

section
/-!
What every step keeps. A property of states that each basic update keeps, and each CCW load, is kept by every operation of the
block and so by every step: this walk through the operations is made once, here, and each invariant then only says that the basic
updates keep it.
-/

namespace Sys2Proof.Machine

/-! ## Closed properties -/

/-- All that the invariants speak of is as before: at most inputs, outputs, the CPU's registers, LOADING and the loader's arguments
differ. -/
structure SameBlock (s t : State) : Prop where
  cfg : t.cfg = s.cfg
  scbs : t.scbs = s.scbs
  pend : t.pend = s.pend
  chpend : t.chpend = s.chpend
  irq : t.irq = s.irq
  mem : t.mem = s.mem
  skey : t.skey = s.skey

theorem SameBlock.scb {s t : State} (h : SameBlock s t) (j : ScbId) : t.scb j = s.scb j := by
  unfold State.scb; rw [h.scbs]

section
variable (s : State)

theorem SameBlock.requests (l : List Request) : SameBlock s { s with requests := l } := ⟨rfl, rfl, rfl, rfl, rfl, rfl, rfl⟩
theorem SameBlock.loading (a : Option DevAddr) : SameBlock s { s with loading := a } := ⟨rfl, rfl, rfl, rfl, rfl, rfl, rfl⟩
theorem SameBlock.loader (l : LoaderCursor) : SameBlock s { s with loader := l } := ⟨rfl, rfl, rfl, rfl, rfl, rfl, rfl⟩
theorem SameBlock.gr (v : Vector Word 16) : SameBlock s { s with gr := v } := ⟨rfl, rfl, rfl, rfl, rfl, rfl, rfl⟩
theorem SameBlock.answer (r : OpResult) : SameBlock s (s.answer r) := ⟨rfl, rfl, rfl, rfl, rfl, rfl, rfl⟩

end

theorem SameBlock.startCommand (a : DevAddr) (op : Byte) (s : State) : SameBlock s (startCommand a op s).2 := by
  unfold Machine.startCommand
  cases s.commandAnswers <;> exact ⟨rfl, rfl, rfl, rfl, rfl, rfl, rfl⟩

theorem HookFrame.sameBlock {c : CallOut} {s t : State} (h : HookFrame c s t) : SameBlock s t := by
  obtain ⟨hcfg, hscbs, hpend, hchpend, hirq, -, hmem, hskey, -⟩ := h.eqs
  exact ⟨hcfg, hscbs, hpend, hchpend, hirq, hmem, hskey⟩

/-- An SCB `b` becomes `d`: its binding stays, and the two are related by `R`. -/
structure Edit (R : Scb → Scb → Prop) (b d : Scb) : Prop where
  dev : d.dev = b.dev
  bind : d.bind = b.bind
  rel : R b d

/-- PCI is not newly set. -/
def NoNewPci (b d : Scb) : Prop := anyBits d.status stPCI = true → anyBits b.status stPCI = true

/-- A property of states that every basic update outside the CCW loads keeps. Of an edit of a bound SCB it may ask `R`, and that it
sets no PCI unless IRQ is set. -/
structure OpClosed (R : Scb → Scb → Prop) (P : State → Prop) : Prop where
  same : ∀ {s t}, SameBlock s t → P s → P t
  irq : ∀ {s}, P s → P s.raiseIrq
  byte : ∀ {s} a b, P s → P (s.setByte a b)
  key : ∀ {s} p k, P s → P (s.setKey p k)
  edit : ∀ {s id f}, (s.scb id).dev ≠ none → Edit R (s.scb id) (f (s.scb id)) →
    (s.irq = true ∨ NoNewPci (s.scb id) (f (s.scb id))) → P s → P (s.updScb id f)
  free : ∀ {s} id, P s → P (s.updScb id Scb.unbind)
  bind : ∀ {s a id dev} key caw, Resolves s a id dev → P s → P (s.updScb id (Scb.started a dev key caw))
  record : ∀ {s} a fl, P s → P (recordPending a fl s).raiseIrq
  clear : ∀ {s} a, P s → P (clearPend a s)
  reset : ∀ {s} cs, P s → P (resetBlock cs s)

/-- The register of the SCB is right after the edit if it was before. -/
def KeepsRegister (b d : Scb) : Prop := RegisterOk b → RegisterOk d

/-- A property of states that every basic update keeps, and every CCW load of a bound SCB. Of edits it may ask that they keep the
register right; a load sets the register aside and empties it, so it is one step here. -/
structure StepClosed (P : State → Prop) : Prop extends OpClosed KeepsRegister P where
  load : ∀ {s id} tic, (s.scb id).dev ≠ none → P s → P (loadNextCcw id tic s).1

/-- The property holds and the SCB is bound. -/
def Bound (id : ScbId) (P : State → Prop) (s : State) : Prop := P s ∧ (s.scb id).dev ≠ none

section
variable {R : Scb → Scb → Prop} {P : State → Prop} (c : OpClosed R P) {s : State} {id : ScbId}
include c

/-- An edit of the bound SCB that sets no PCI. -/
theorem OpClosed.upd {f : Scb → Scb} (hf : Edit R (s.scb id) (f (s.scb id))) (hp : NoNewPci (s.scb id) (f (s.scb id)))
    (h : Bound id P s) : Bound id P (s.updScb id f) :=
  ⟨c.edit h.2 hf (.inr hp) h.1, by rw [scb_updScb_self, hf.dev]; exact h.2⟩

/-- An edit of the bound SCB, with IRQ raised. -/
theorem OpClosed.updIrq {f : Scb → Scb} (hf : Edit R (s.scb id) (f (s.scb id))) (h : Bound id P s) :
    Bound id P (s.updScb id f).raiseIrq :=
  ⟨c.edit (s := s.raiseIrq) h.2 hf (.inl rfl) (c.irq h.1), by rw [State.scb_raiseIrq, scb_updScb_self, hf.dev]; exact h.2⟩

end

/-- A closed property that asks nothing more of edits is kept by loads (Laws/Loader.lean). -/
theorem OpClosed.loadClosed {P : State → Prop} (c : OpClosed (fun _ _ => True) P) (id : ScbId) :
    LoadClosed id (Bound id P) where
  upd s f k p h := by
    obtain ⟨hdev, hbind, -⟩ := k (s.scb id)
    exact c.upd ⟨hdev, hbind, trivial⟩ (fun hd => by rwa [p] at hd) h
  updIrq s f k _ h := by
    obtain ⟨hdev, hbind, -⟩ := k (s.scb id)
    exact c.updIrq ⟨hdev, hbind, trivial⟩ h
  irq _ h := ⟨c.irq h.1, h.2⟩
  mark _ _ h := ⟨c.key _ _ h.1, h.2⟩
  start s a op h := ⟨c.same (.startCommand a op s) h.1, by rw [startCommand_scb]; exact h.2⟩

/-- A closed property that asks nothing more of edits is closed under steps. -/
theorem OpClosed.stepClosed {P : State → Prop} (c : OpClosed (fun _ _ => True) P) : StepClosed P where
  same := c.same
  irq := c.irq
  byte := c.byte
  key := c.key
  edit hd hf := c.edit hd ⟨hf.dev, hf.bind, trivial⟩
  free := c.free
  bind := c.bind
  record := c.record
  clear := c.clear
  reset := c.reset
  load tic hd hs := ((c.loadClosed _).load tic ⟨hs, hd⟩).1

/-! ## The register under edits -/

/-- Command 0 is no input command (spec/30_encoding.md R77). -/
theorem not_isInput_zero : isInput 0 = false := by decide

/-- An empty, clean register is right. -/
theorem registerOk_of_empty {b : Scb} (ho : b.boff = none) (hd : b.dirty = false) : RegisterOk b := by
  refine ⟨fun h => ?_, fun _ k h => ?_, fun _ _ => ho⟩
  · rw [hd] at h; cases h
  · rw [ho] at h; cases h

/-- The register stays right where it, the command, the position and SKIP stay. -/
theorem RegisterOk.untouched {b d : Scb} (h : RegisterOk b) (ho : d.boff = b.boff) (hd : d.dirty = b.dirty)
    (hc : d.cmd = b.cmd) (hp : d.position = b.position) (hs : d.flags.skip = b.flags.skip) : RegisterOk d := by
  unfold RegisterOk
  rw [ho, hd, hc, hp, hs]
  exact h

/-- The register stays right where it stays and the command ends. -/
theorem RegisterOk.ended {b d : Scb} (h : RegisterOk b) (ho : d.boff = b.boff) (hd : d.dirty = b.dirty)
    (hc : d.cmd = 0) : RegisterOk d := by
  obtain ⟨hdirty, -, -⟩ := h
  unfold RegisterOk
  rw [ho, hd, hc, not_isInput_zero]
  exact ⟨fun h => ⟨(hdirty h).1, .inr rfl⟩, fun h => absurd rfl h, fun _ h => absurd h (by decide)⟩

/-- An edit that flushes the register. -/
theorem KeepsRegister.clean (b : Scb) : KeepsRegister b { b with dirty := false } :=
  fun ⟨_, hoff, hskip⟩ => ⟨fun h => (by cases h), hoff, hskip⟩

theorem Edit.faulted (bit : Half) (b : Scb) : Edit KeepsRegister b (b.faulted bit) :=
  ⟨rfl, rfl, fun _ => registerOk_of_empty rfl rfl⟩

theorem Edit.clean (b : Scb) : Edit KeepsRegister b { b with dirty := false } := ⟨rfl, rfl, .clean b⟩

theorem Edit.status (st : Half) (b : Scb) : Edit KeepsRegister b { b with status := st } :=
  ⟨rfl, rfl, fun h => h.untouched rfl rfl rfl rfl rfl⟩

theorem Edit.count (n : Half) (b : Scb) : Edit KeepsRegister b { b with count := n } :=
  ⟨rfl, rfl, fun h => h.untouched rfl rfl rfl rfl rfl⟩

theorem Edit.countExhausted (b : Scb) : Edit KeepsRegister b b.countExhausted :=
  ⟨rfl, rfl, fun h => h.untouched rfl rfl rfl rfl rfl⟩

theorem Edit.halted (b : Scb) : Edit KeepsRegister b b.halted := ⟨rfl, rfl, fun h => h.ended rfl rfl rfl⟩

theorem Edit.channelEnded (m : CcwFlags) (fl : Half) (b : Scb) : Edit KeepsRegister b (b.channelEnded m fl) :=
  ⟨rfl, rfl, fun h => h.ended rfl rfl rfl⟩

/-- Filling an empty register, not under SKIP of an input command (R142, R147). -/
theorem Edit.filled (w : Word) {b : Scb} (hs : b.flags.skip = true → isInput b.cmd = true → False) :
    Edit KeepsRegister b (b.filled w b.position) :=
  ⟨rfl, rfl, fun _ => ⟨fun h => (by cases h), fun _ _ h => (by cases h; rfl), fun h k => (hs h k).elim⟩⟩

/-- A byte put into a filled register of an input command (R151). -/
theorem Edit.putByte (x : Byte) {b : Scb} (ho : b.boff ≠ none) (hi : isInput b.cmd = true) :
    Edit KeepsRegister b (b.putByte x) :=
  ⟨rfl, rfl, fun ⟨_, hoff, hskip⟩ => ⟨fun _ => ⟨ho, .inl hi⟩, hoff, hskip⟩⟩

/-- With IDA the position is the cursor, so the IDAW's address may change (R141). -/
theorem Edit.nextIdawAddr {b : Scb} (h : b.flags.ida = true) : Edit KeepsRegister b { b with addr := b.addr + 4 } :=
  ⟨rfl, rfl, fun hr => hr.untouched rfl rfl rfl (by simp [Scb.position, h]) rfl⟩

theorem byteOffset_val (a : Addr) : (byteOffset a).toNat = a.toNat % 4 := by
  simp [byteOffset, BitVec.extractLsb'_toNat]

/-- The cursor's page is replaced, its offset in the word is not (R156). -/
theorem byteOffset_onPage (p l : Addr) : byteOffset (onPage p l) = byteOffset l := by
  have h := (onPage_spec p l).2
  apply BitVec.eq_of_toNat_eq
  rw [byteOffset_val, byteOffset_val]
  omega

theorem Edit.cursor (p : Addr) (b : Scb) : Edit KeepsRegister b { b with iaddr := onPage p b.iaddr } := by
  refine ⟨rfl, rfl, fun ⟨hdirty, hoff, hskip⟩ => ⟨hdirty, fun hc k hk => (hoff hc k hk).trans ?_, hskip⟩⟩
  change byteOffset _ = byteOffset _
  unfold Scb.position
  dsimp only
  split
  · exact (byteOffset_onPage p b.iaddr).symm
  · rfl

/-- One byte on, the offset is one on too, modulo 4 (R143). -/
theorem byteOffset_stepAddr (cmd : Byte) (a : Addr) :
    byteOffset (stepAddr cmd a) = if isBackward cmd then byteOffset a - 1 else byteOffset a + 1 := by
  have ha := a.isLt
  have hv := byteOffset_val a
  unfold stepAddr
  split <;> apply BitVec.eq_of_toNat_eq <;> rw [byteOffset_val] <;> bv_omega

theorem Scb.move_cmd (b : Scb) : b.move.cmd = b.cmd := by unfold Scb.move; split <;> rfl
theorem Scb.move_flags (b : Scb) : b.move.flags = b.flags := by unfold Scb.move; split <;> rfl
theorem Scb.move_boff (b : Scb) : b.move.boff = b.boff := by unfold Scb.move; split <;> rfl
theorem Scb.move_dirty (b : Scb) : b.move.dirty = b.dirty := by unfold Scb.move; split <;> rfl
theorem Scb.move_dev (b : Scb) : b.move.dev = b.dev := by unfold Scb.move; split <;> rfl
theorem Scb.move_bind (b : Scb) : b.move.bind = b.bind := by unfold Scb.move; split <;> rfl
theorem Scb.move_status (b : Scb) : b.move.status = b.status := by unfold Scb.move; split <;> rfl

theorem Scb.move_position (b : Scb) : b.move.position = stepAddr b.cmd b.position := by
  unfold Scb.move Scb.position; split <;> simp [*]

theorem advanceOffset_none {b : Scb} (h : b.boff = none) : b.advanceOffset = b := by
  have hl : b.atLastByte = false := by unfold Scb.atLastByte; rw [h]; split <;> rfl
  unfold Scb.advanceOffset
  rw [hl, h, ← h]
  cases b; cases h; rfl

/-- Register and position move on together; a dirty register is not left behind at its last byte (R143). -/
theorem KeepsRegister.advanced {b : Scb} (hl : b.dirty = true → b.atLastByte = false) :
    KeepsRegister b b.advanceOffset.move := by
  rintro ⟨hdirty, hoff, hskip⟩
  cases hb : b.boff with
  | none =>
    have hd : b.dirty = false := by
      cases h : b.dirty
      · rfl
      · exact absurd hb (hdirty h).1
    rw [advanceOffset_none hb]
    exact registerOk_of_empty (by rw [Scb.move_boff, hb]) (by rw [Scb.move_dirty, hd])
  | some k =>
    rw [advanceOffset_some hb]
    unfold RegisterOk
    rw [Scb.move_dirty, Scb.move_boff, Scb.move_cmd, Scb.move_flags, Scb.move_position]
    refine ⟨fun h => ⟨?_, (hdirty h).2⟩, fun hc j hj => ?_, fun h1 h2 => ?_⟩
    · have hlast := hl h
      rw [atLastByte_some hb] at hlast
      simp only [nextOffset, hlast, Bool.false_eq_true, if_false]
      split <;> simp
    · have hk : k = byteOffset b.position := hoff hc k hb
      refine Eq.trans ?_ (byteOffset_stepAddr b.cmd b.position).symm
      rw [← hk]
      unfold nextOffset at hj
      split at hj
      · cases hj
      · split at hj <;> rename_i hback
        · rw [if_pos hback]; exact (Option.some.inj hj).symm
        · rw [if_neg hback]; exact (Option.some.inj hj).symm
    · exact absurd (hskip h1 h2) (by rw [hb]; simp)

theorem Edit.advanced {b : Scb} (hl : RegisterOk b → b.dirty = true → b.atLastByte = false) :
    Edit KeepsRegister b b.advanceOffset.move := by
  refine ⟨?_, ?_, fun h => KeepsRegister.advanced (hl h) h⟩
  · rw [Scb.move_dev]; unfold Scb.advanceOffset; split <;> rfl
  · rw [Scb.move_bind]; unfold Scb.advanceOffset; split <;> rfl

/-- With SKIP the position of an input command moves past an empty register (R147). -/
theorem Edit.skipped {b : Scb} (hs : b.flags.skip = true) (hi : isInput b.cmd = true) : Edit KeepsRegister b b.move := by
  refine ⟨b.move_dev, b.move_bind, fun ⟨hdirty, _, hskip⟩ => ?_⟩
  have ho := hskip hs hi
  refine registerOk_of_empty (by rw [Scb.move_boff, ho]) ?_
  rw [Scb.move_dirty]
  cases hd : b.dirty
  · rfl
  · exact absurd ho (hdirty hd).1

/-! ## Storing

From here on, operation by operation in the order of the model: a closed property is kept, and with it, where the operation works on
a bound SCB, that the SCB is bound. -/

section
variable {P : State → Prop} (c : StepClosed P) {s t : State} {id : ScbId}
include c

theorem StepClosed.setWord (a : Addr) (v : Word) (h : P s) : P (s.setWord a v) :=
  c.byte _ _ (c.byte _ _ (c.byte _ _ (c.byte _ _ h)))

theorem StepClosed.markKey (p : Nat) (m : Byte) (h : P s) : P (s.markKey p m) := c.key _ _ h

theorem StepClosed.storeArchitected (a : Addr) (v : Word) (h : P s) : P (storeArchitected s a v) := by
  unfold Machine.storeArchitected
  rcases writeWord_cases s 0 a v with ⟨e, -, hw⟩ | ⟨-, hw⟩ <;> rw [hw]
  · exact h
  · exact c.markKey _ _ (c.setWord _ _ h)

theorem StepClosed.storeCsw (w0 w1 : Word) (h : P s) : P (storeCsw w0 w1 s) :=
  c.storeArchitected _ _ (c.storeArchitected _ _ h)

theorem StepClosed.storeSynth (d : Byte) (h : P s) : P (storeSynth d s) := c.storeCsw _ _ h

omit c in
@[simp] theorem scb_storeArchitected (s : State) (a : Addr) (v : Word) (j : ScbId) :
    (Machine.storeArchitected s a v).scb j = s.scb j := by
  unfold Machine.storeArchitected
  rcases writeWord_cases s 0 a v with ⟨e, -, hw⟩ | ⟨-, hw⟩
  · rw [hw]
  · rw [hw]; rfl

omit c in
@[simp] theorem scb_storeCsw (w0 w1 : Word) (s : State) (j : ScbId) : (Machine.storeCsw w0 w1 s).scb j = s.scb j := by
  unfold Machine.storeCsw; simp

omit c in
/-- What `store_status` leaves holds no PCI (R182). -/
theorem storedStatus_noPci (st : Half) : anyBits (storedStatus st) stPCI = false := by
  unfold storedStatus
  split
  · rw [anyBits_false_iff, BitVec.and_assoc, show ~~~stPCI &&& stPCI = 0 by decide]; simp
  · rfl

theorem StepClosed.storeStatus (h : Bound id P s) : Bound id P (storeStatus id s) := by
  have hb : Bound id P (Machine.storeCsw (s.scb id).csw0 (s.scb id).csw1 s) :=
    ⟨c.storeCsw _ _ h.1, by rw [scb_storeCsw]; exact h.2⟩
  refine c.upd (Edit.status _ _) (fun hp => ?_) hb
  rw [storedStatus_noPci] at hp; cases hp

theorem StepClosed.collect (h : Bound id P s) : P (collect id s) := by
  have hs := c.storeStatus h
  unfold Machine.collect
  dsimp only
  split
  · exact c.free id hs.1
  · exact hs.1

/-! ## Faults, flushes and loads -/

theorem StepClosed.chanFault (bit : Half) (h : Bound id P s) : Bound id P (chanFault id bit s) :=
  c.updIrq (Edit.faulted bit _) h

theorem StepClosed.loaded (tic : Bool) (h : Bound id P s) : Bound id P (loadNextCcw id tic s).1 :=
  ⟨c.load tic h.2 h.1, by rw [(loadNextCcw_binding id tic s).1]; exact h.2⟩

theorem StepClosed.flush (wa : Addr) (h : Bound id P s) : Bound id P (flush id wa s).1 := by
  rcases flush_cases id wa s with ⟨e, -, hf⟩ | ⟨-, hf⟩ <;> rw [hf]
  · exact c.chanFault _ h
  · have hw : Bound id P ((s.setWord wa (s.scb id).buf).markKey (pageOf wa) 0x06) :=
      ⟨c.markKey _ _ (c.setWord _ _ h.1), by rw [State.scb_markKey, State.scb_setWord]; exact h.2⟩
    exact c.upd (f := fun b => { b with dirty := false }) (Edit.clean _) (fun hp => hp) hw

theorem StepClosed.flushDirty (h : Bound id P s) : Bound id P (flushDirty id s).1 := by
  unfold Machine.flushDirty
  split
  · exact c.flush _ h
  · exact h

theorem StepClosed.flushIfExhausted (h : Bound id P s) : Bound id P (flushIfExhausted id s).1 := by
  unfold Machine.flushIfExhausted
  split
  · exact c.flush _ h
  · exact h

theorem StepClosed.dataChain (h : Bound id P s) : Bound id P (dataChain id s).1 := by
  have hf := c.flushDirty h
  unfold Machine.dataChain
  split <;> rename_i hx <;> simp only [hx] at hf ⊢
  · exact hf
  · exact c.loaded true hf

/-! ## Transfers -/

theorem StepClosed.atCountZero (dir : Direction) (h : Bound id P s) : Bound id P (atCountZero id dir s).1 := by
  unfold Machine.atCountZero
  split
  · exact h
  · split
    · refine c.upd (Edit.countExhausted _) (fun hp => ?_) h
      have hil : anyBits (if (s.scb id).flags.sli then 0 else stIL) stPCI = false := by split <;> decide
      rw [Scb.countExhausted, anyBits_or, anyBits_or, hil] at hp
      simpa [show anyBits stCE stPCI = false by decide] using hp
    · have hd := c.dataChain h
      split <;> rename_i hx <;> rw [hx] at hd <;> exact hd

omit c in
/-- A call that goes on to transfer a byte still has a command of its direction (R140, R146). -/
theorem atCountZero_direction {dir : Direction} (hm : matchesDirection dir (s.scb id).cmd = true)
    (h : Machine.atCountZero id dir s = (t, true)) : matchesDirection dir (t.scb id).cmd = true := by
  unfold Machine.atCountZero at h
  split at h
  · cases h; exact hm
  · split at h
    · cases h
    · split at h
      · cases h
      · rename_i hx
        simp only [Prod.mk.injEq, Bool.and_eq_true] at h
        obtain ⟨rfl, hd, -⟩ := h
        exact hd

theorem StepClosed.fill (dir : Direction) (hs : (s.scb id).flags.skip = true → isInput (s.scb id).cmd = true → False)
    (h : Bound id P s) : Bound id P (fill id dir s).1 := by
  rcases fill_cases id dir s with ⟨-, hf⟩ | ⟨-, e, -, hf⟩ | ⟨-, -, hf⟩ <;> rw [hf]
  · exact h
  · exact c.chanFault _ h
  · exact c.upd (Edit.filled _ hs) (fun hp => hp) ⟨c.markKey _ _ h.1, h.2⟩

omit c in
/-- A fill that succeeds leaves a register that is not empty, and the command. -/
theorem fill_filled {dir : Direction} (h : Machine.fill id dir s = (t, true)) :
    (t.scb id).boff ≠ none ∧ (t.scb id).cmd = (s.scb id).cmd := by
  rcases fill_cases id dir s with ⟨ho, hf⟩ | ⟨-, e, -, hf⟩ | ⟨-, -, hf⟩ <;> rw [hf] at h <;> cases h
  · exact ⟨ho, rfl⟩
  · simp [Scb.filled]

theorem StepClosed.nextIdaw (hi : (s.scb id).flags.ida = true) (h : Bound id P s) : Bound id P (nextIdaw id s) := by
  have ha := c.upd (f := fun b => { b with addr := b.addr + 4 }) (Edit.nextIdawAddr hi) (fun hp => hp) h
  rcases nextIdaw_cases id s with ⟨e, -, hn⟩ | ⟨-, hn⟩ <;> rw [hn]
  · exact c.chanFault _ ha
  · exact c.upd (Edit.cursor _ _) (fun hp => hp) ⟨c.markKey _ _ ha.1, ha.2⟩

theorem StepClosed.chainAfterByte (h : Bound id P s) : Bound id P (chainAfterByte id s) := by
  unfold Machine.chainAfterByte
  dsimp only
  split
  · exact c.dataChain h
  · exact h

/-- The end of a byte, from the state whose position has moved (R143, R156, R158). -/
theorem StepClosed.finishByte (h : Bound id P (s.updScb id Scb.move)) : Bound id P (finishByte id s) := by
  have hn : Bound id P (if (s.scb id).crosses && decide (1 < (s.scb id).count.toNat)
      then Machine.nextIdaw id (s.updScb id Scb.move) else s.updScb id Scb.move) := by
    split
    · rename_i hx
      refine c.nextIdaw ?_ h
      rw [scb_updScb_self, Scb.move_flags]
      simp only [Scb.crosses, Bool.and_eq_true] at hx
      obtain ⟨⟨hida, -⟩, -⟩ := hx
      exact hida
    · exact h
  exact c.chainAfterByte (c.upd (f := fun b => { b with count := b.count - 1 }) (Edit.count _ _) (fun hp => hp) hn)

omit c in
/-- Two edits of a bound SCB are one, where the first keeps it bound. -/
theorem updScb_updScb {f g : Scb → Scb} (h : (f (s.scb id)).dev ≠ none) :
    (s.updScb id f).updScb id g = s.updScb id fun b => g (f b) := by
  obtain ⟨a, ha⟩ := Option.ne_none_iff_exists'.1 h
  simp only [State.updScb, scb_setScb_self]
  exact setScb_setScb _ _ _ _ (ne_idleScb ha)

/-- A byte whose register offset moves on with the position (R143). -/
theorem StepClosed.finishAdvanced (hl : RegisterOk (s.scb id) → (s.scb id).dirty = true → (s.scb id).atLastByte = false)
    (h : Bound id P s) : Bound id P (Machine.finishByte id (s.updScb id Scb.advanceOffset)) := by
  have he := Edit.advanced hl
  apply c.finishByte
  rw [updScb_updScb (by rw [← Scb.move_dev, he.dev]; exact h.2)]
  refine c.upd he (fun hp => ?_) h
  rw [Scb.move_status] at hp
  unfold Scb.advanceOffset at hp
  split at hp <;> exact hp

omit c in
/-- No command is of both directions (spec/30_encoding.md R77). -/
theorem not_isInput_of_output {cmd : Byte} (h : matchesDirection .out cmd = true) : isInput cmd = false := by
  unfold matchesDirection isOutput at h
  unfold isInput
  cases hc : classOf cmd <;> simp [hc] at h ⊢

omit c in
/-- The register of an output command is clean (R26). -/
theorem RegisterOk.clean_of_output {b : Scb} (h : RegisterOk b) (hm : matchesDirection .out b.cmd = true) :
    b.dirty = false := by
  obtain ⟨hdirty, -⟩ := h
  cases hd : b.dirty
  · rfl
  · rcases (hdirty hd).2 with hi | hi
    · rw [not_isInput_of_output hm] at hi; cases hi
    · rw [hi] at hm; exact absurd hm (by decide)

theorem StepClosed.readByte (a : DevAddr) (h : P s) : P (readByte a s).1 := by
  unfold Machine.readByte
  split
  · exact h
  · rename_i id ht
    obtain ⟨-, hbound, -, hdir⟩ := transferScb_iff.1 ht
    have hz := c.atCountZero .out ⟨h, by rw [hbound]; simp⟩
    split <;> rename_i hx <;> simp only [hx] at hz ⊢
    · exact hz.1
    · have hout := atCountZero_direction hdir hx
      have hf := c.fill .out (fun _ hi => by rw [not_isInput_of_output hout] at hi; cases hi) hz
      split <;> rename_i hy <;> simp only [hy] at hf ⊢
      · exact hf.1
      · rw [← (fill_filled hy).2] at hout
        have hb := c.finishAdvanced (fun hr hd => by rw [hr.clean_of_output hout] at hd; cases hd) hf
        exact hb.1

omit c in
/-- What goes on after the flush at the last byte is not dirty there (R153). -/
theorem flushIfExhausted_clean (h : Machine.flushIfExhausted id s = (t, true)) (hd : (t.scb id).dirty = true) :
    (t.scb id).atLastByte = false := by
  unfold Machine.flushIfExhausted at h
  split at h
  · rcases flush_cases id (wordAddr (s.scb id).position) s with ⟨e, -, hf⟩ | ⟨-, hf⟩ <;> rw [hf] at h <;> cases h
    rw [scb_updScb_self] at hd; cases hd
  · rename_i hl; cases h; simpa using hl

theorem StepClosed.storeByte (x : Byte) (hi : isInput (s.scb id).cmd = true) (hs : (s.scb id).flags.skip = false)
    (h : Bound id P s) : P (storeByte id x s).1 := by
  have hf := c.fill .input (fun hk _ => by rw [hs] at hk; cases hk) h
  unfold Machine.storeByte
  split <;> rename_i hx <;> simp only [hx] at hf ⊢
  · exact hf.1
  · obtain ⟨ho, hc⟩ := fill_filled hx
    have hp := c.upd (Edit.putByte x ho (by rw [hc]; exact hi)) (fun hp => hp) hf
    have hfl := c.flushIfExhausted hp
    split <;> rename_i hy <;> simp only [hy] at hfl ⊢
    · exact hfl.1
    · have hb := c.finishAdvanced (fun _ hd => flushIfExhausted_clean hy hd) hfl
      exact hb.1

theorem StepClosed.writeByte (a : DevAddr) (x : Byte) (h : P s) : P (writeByte a x s).1 := by
  unfold Machine.writeByte
  split
  · exact h
  · rename_i id ht
    obtain ⟨-, hbound, -, hdir⟩ := transferScb_iff.1 ht
    have hz := c.atCountZero .input ⟨h, by rw [hbound]; simp⟩
    split <;> rename_i hx <;> simp only [hx] at hz ⊢
    · exact hz.1
    · have hin := atCountZero_direction hdir hx
      split
      · rename_i hk
        refine (c.finishByte (c.upd (Edit.skipped hk hin) (fun hp => ?_) hz)).1
        rwa [Scb.move_status] at hp
      · rename_i hk
        exact c.storeByte x hin (by simpa using hk) hz

/-! ## Device callbacks -/

theorem StepClosed.channelEnd (a : DevAddr) (fl : Half) (h : P s) : P (channelEnd a fl s) := by
  unfold Machine.channelEnd
  split
  · exact h
  · split
    · exact h
    · rename_i id _ hd
      have hb : Bound id P s := ⟨h, by rw [not_not.1 hd]; simp⟩
      exact (c.updIrq (Edit.channelEnded _ _ _) (c.flushDirty hb)).1

theorem StepClosed.postAttention (a : DevAddr) (fl : Byte) (h : P s) : P (postAttention a fl s) := by
  unfold Machine.postAttention
  split
  · rename_i id _
    split
    · rename_i ha
      have hd : (s.scb id).dev = some a := by
        simp only [Scb.awaits, Bool.and_eq_true, beq_iff_eq] at ha
        exact ha.1
      exact (c.updIrq (Edit.status _ _) ⟨h, by rw [hd]; simp⟩).1
    · exact c.record _ _ h
  · exact c.record _ _ h

/-! ## The scan -/

theorem StepClosed.scanHeld (h : Bound id P s) : P (scanHeld id s) := by
  unfold Machine.scanHeld
  split
  · exact c.irq (c.loaded true h).1
  · exact h.1

theorem StepClosed.scanChain (h : Bound id P s) : P (scanChain id s) := by
  unfold Machine.scanChain
  split
  · refine c.irq (c.loaded true (c.upd (Edit.status _ _) (fun hp => ?_) h)).1
    exact (anyBits_and_keep (by decide)).symm.trans hp
  · exact h.1

theorem StepClosed.scanComplete (a : DevAddr) (m : Half) (e : Bool) (h : Bound id P s) :
    P (scanComplete a id m e s).1 := by
  unfold Machine.scanComplete
  split
  · exact c.irq (c.clear _ (c.collect h))
  · exact c.irq h.1

theorem StepClosed.scanAfterPci (a : DevAddr) (m : Half) (e : Bool) (h : Bound id P s) :
    P (scanAfterPci a id m e s).1 := by
  unfold Machine.scanAfterPci
  dsimp only
  split
  · exact c.scanHeld h
  · split
    · split
      · exact c.scanChain h
      · exact c.scanComplete a m e h
    · exact h.1

theorem StepClosed.scanScb (m : Half) (e : Bool) (id : ScbId) (h : P s) : P (scanScb m e id s).1 := by
  unfold Machine.scanScb
  dsimp only
  split
  · exact h
  · rename_i a hd
    have hb : Bound id P s := ⟨h, by rw [hd]; simp⟩
    split
    · split
      · exact c.irq (c.collect hb)
      · exact c.scanAfterPci a m e ⟨c.irq h, hb.2⟩
    · exact c.scanAfterPci a m e hb

theorem StepClosed.scanScbs (m : Half) (e : Bool) (l : List ScbId) (h : P s) : P (scanScbs m e l s).1 := by
  induction l generalizing s with
  | nil => exact h
  | cons i l ih =>
    have hi := c.scanScb m e i h
    unfold Machine.scanScbs
    split <;> rename_i hx <;> simp only [hx] at hi ⊢
    · exact hi
    · exact ih hi

theorem StepClosed.scanFallback (m : Half) (e : Bool) (h : P s) : P (scanFallback m e s).1 := by
  unfold Machine.scanFallback
  split
  · exact c.irq (c.clear _ (c.storeSynth _ h))
  · split
    · exact c.irq h
    · exact h

/-- The scan keeps a property that does not ask for IRQ, which it clears on entry (R191). -/
theorem StepClosed.scan (m : Half) (e : Bool) (hl : P s → P { s with irq := false }) (h : P s) : P (scan m e s).1 := by
  unfold Machine.scan
  split
  · have hs := c.scanScbs m e (scanOrder s.cfg) (hl h)
    split <;> rename_i hx <;> simp only [hx] at hs ⊢
    · exact hs
    · exact c.scanFallback m e hs
  · exact h

/-! ## The CPU's instructions and the boot start -/

theorem StepClosed.firstLoad (h : Bound id P s) : P (firstLoad id s).1 := by
  have hl := c.loaded false h
  unfold Machine.firstLoad
  split <;> rename_i hx <;> simp only [hx] at hl ⊢
  · exact hl.1
  · exact c.free id (c.storeStatus hl).1

/-- A program bound and its first CCW loaded (R206, R207, R226). -/
theorem StepClosed.start {a : DevAddr} {dev : Binding} (key : BitVec 4) (caw : Addr) (hr : Resolves s a id dev) (h : P s) :
    P (Machine.firstLoad id (s.updScb id (Scb.started a dev key caw))).1 :=
  c.firstLoad ⟨c.bind key caw hr h, by rw [scb_updScb_self]; simp [Scb.started]⟩

theorem StepClosed.startProgram {a : DevAddr} {dev : Binding} (hr : Resolves s a id dev) (h : P s) :
    P (startProgram a id dev s).1 := by
  unfold Machine.startProgram readArchitected
  rcases readWord_cases s 0 s.cfg.cawAddr with ⟨e, -, hw⟩ | ⟨-, hw⟩ <;> rw [hw]
  · exact c.start _ _ hr h
  · exact c.start _ _ hr (c.markKey _ _ h)

theorem StepClosed.startWithHook {a : DevAddr} {dev : Binding} (hr : Resolves s a id dev) (h : P s) :
    P (startWithHook a id dev s).1 := by
  have hf := (startIoHook_frame a s).sameBlock
  have hh := c.same hf h
  unfold Machine.startWithHook
  dsimp only
  split
  · split
    · exact hh
    · split
      · exact c.storeSynth _ hh
      · exact c.startProgram (by unfold Resolves; rw [hf.cfg]; exact hr) hh
  · exact c.startProgram hr h

theorem StepClosed.takePending (a : DevAddr) (h : P s) : P (takePending a s).1 := c.clear _ (c.storeSynth _ h)

omit c in
/-- Where `resolve` answers, SCB and device are there (R201). -/
theorem resolves_of_resolve {a : DevAddr} {dev : Binding} (h : resolve s a = some (id, dev)) : Resolves s a id dev := by
  unfold resolve at h
  split at h
  · rename_i hi hd; cases h; exact ⟨hi, hd⟩
  · cases h

theorem StepClosed.startIo (a : DevAddr) (h : P s) : P (startIo a s).1 := by
  unfold Machine.startIo
  split
  · exact h
  · rename_i id dev hr
    dsimp only
    split
    · rename_i hd
      exact c.collect ⟨h, by rw [hd.1]; simp⟩
    · split
      · exact h
      · split
        · exact c.takePending a h
        · exact c.startWithHook (resolves_of_resolve hr) h

theorem StepClosed.testDevice (a : DevAddr) (h : P s) : P (testDevice a s).1 := by
  have hh := c.same (.startCommand a 0x00 s) h
  unfold Machine.testDevice
  dsimp only
  split
  · exact c.storeSynth _ hh
  · split <;> exact hh

theorem StepClosed.testIo (a : DevAddr) (h : P s) : P (testIo a s).1 := by
  have collected (id : ScbId) (hd : (s.scb id).dev = some a) : P (Machine.collect id s) :=
    c.collect ⟨h, by rw [hd]; simp⟩
  unfold Machine.testIo
  split
  · exact h
  · dsimp only
    split
    · rename_i hd; exact collected _ hd.1
    · split
      · exact h
      · split
        · rename_i hd; exact collected _ hd.1
        · split
          · exact c.takePending a h
          · split
            · exact h
            · exact c.testDevice a h

theorem StepClosed.haltProgram (a : DevAddr) (id : ScbId) (h : P s) : P (haltProgram a id s) := by
  unfold Machine.haltProgram
  split
  · rename_i hd
    exact (c.updIrq (Edit.halted _) (c.flushDirty ⟨h, by rw [hd.1]; simp⟩)).1
  · exact h

theorem StepClosed.haltStore (a : DevAddr) (id : ScbId) (h : P s) : P (haltStore a id s).1 := by
  unfold Machine.haltStore
  split
  · rename_i hd; exact c.collect ⟨h, by rw [hd]; simp⟩
  · exact c.storeSynth _ h

theorem StepClosed.haltIo (a : DevAddr) (h : P s) : P (haltIo a s).1 := by
  unfold Machine.haltIo
  split
  · exact h
  · rename_i id dev _
    have hp := c.haltProgram a id h
    dsimp only
    split
    · exact h
    · split
      · exact c.same (haltIoHook_frame a _).sameBlock hp
      · exact c.haltStore a id hp

theorem StepClosed.bootStart (a : DevAddr) (w : Word) (h : P s) : P (bootStart a w s).1 := by
  unfold Machine.bootStart
  split
  · exact h
  · rename_i id dev hr
    exact c.start _ _ (s := { s with loading := some a }) (resolves_of_resolve hr) (c.same (.loading s _) h)

theorem StepClosed.answer (r : OpResult) (h : P s) : P (s.answer r) := c.same (.answer s r) h

/-- exec of an instruction of the CPU's stream. -/
theorem StepClosed.execCpu {i : Instr} (hi : i.source = .cpu) (h : P s) (ht : exec i s = .next t) : P t := by
  cases i with
  | sio i2 b1 d1 => rw [ccOutcome_next ht]; exact c.answer _ (c.startIo _ h)
  | tio i2 b1 d1 => rw [ccOutcome_next ht]; exact c.answer _ (c.testIo _ h)
  | hio i2 b1 d1 => rw [ccOutcome_next ht]; exact c.answer _ (c.haltIo _ h)
  | tch i2 b1 d1 => rw [ccOutcome_next ht]; exact c.answer _ h
  | _ => cases hi

/-! ## The step -/

omit c in
/-- The next state of an operation that answers. -/
theorem answered_next {r : State × OpResult} (h : answered r = .next t) : t = r.1.answer r.2 := by cases h; rfl

omit c in
/-- What the CPU's stream decodes to belongs to it (spec/30_encoding.md R71). -/
theorem decode_cpu_source {w : Word} {i : Instr} (h : decode .cpu (bytesOfWord w) = .ok i) : i.source = .cpu :=
  (decodeCpu_ok h).1

/-- Every request's operation but the scan keeps the property. -/
theorem StepClosed.request {r : Request} (hscan : ∀ m e, P (Machine.scan m e s).1) (h : P s)
    (ht : runFetched (fetchRequest r s) = .next t) : P t := by
  cases r with
  | instruction w =>
    change runFetched (fetchInstruction w s) = _ at ht
    unfold fetchInstruction at ht
    split at ht
    · rename_i hd; exact c.execCpu (decode_cpu_source hd) h ht
    · cases ht
  | loadCcw id tic =>
    obtain ⟨hd, rfl⟩ := step_load s id tic t ht
    exact c.answer _ (c.load tic hd (c.same (.loader s _) h))
  | bootStart a w => rw [answered_next ht]; exact c.answer _ (c.bootStart a w h)
  | endBoot => rw [answered_next ht]; exact c.answer _ (c.same (.loading s _) h)
  | scan m e => rw [answered_next ht]; exact c.answer _ (hscan m e)
  | readByte a => rw [answered_next ht]; exact c.answer _ (c.readByte a h)
  | writeByte a x => rw [answered_next ht]; exact c.answer _ (c.writeByte a x h)
  | channelEnd a fl => rw [answered_next ht]; exact c.answer _ (c.channelEnd a fl h)
  | postAttention a fl => rw [answered_next ht]; exact c.answer _ (c.postAttention a fl h)
  | reset cs =>
    change (if channelsWf cs then _ else _) = _ at ht
    split at ht
    · rw [answered_next ht]; exact c.answer _ (c.reset cs h)
    · cases ht
  | cpuStore a b =>
    change cpuStore a b s = _ at ht
    unfold cpuStore at ht
    split at ht <;> cases ht
    exact c.answer _ (c.byte _ _ h)
  | cpuSetKey a k =>
    change cpuSetKey a k s = _ at ht
    unfold cpuSetKey at ht
    split at ht <;> cases ht
    exact c.answer _ (c.key _ _ h)
  | cpuSetReg r v => rw [answered_next ht]; exact c.answer _ (c.same (.gr s _) h)

/-- A closed property that the scan keeps is kept by every step. -/
theorem StepClosed.step (hscan : ∀ m e rest, P (Machine.scan m e { s with requests := rest }).1) (h : P s)
    (ht : step s = .next t) : P t := by
  unfold Machine.step at ht
  split at ht
  · split at ht
    · cases ht; exact h
    · exact c.request (fun m e => hscan m e _) (c.same (.requests s _) h) ht
  · cases ht

/-- A closed property that does not ask for IRQ is kept by every step. -/
theorem StepClosed.step_of_quiet (hl : ∀ s, P s → P { s with irq := false }) (h : P s) (ht : Machine.step s = .next t) :
    P t :=
  c.step (fun m e _ => c.scan m e (hl _) (c.same (.requests s _) h)) h ht

end

end Sys2Proof.Machine
end

section
/-! The canonical form of the four sparse maps, kept by every step (log 4, log 16). -/

namespace Sys2Proof.Machine

/-- The form is kept by every basic update: each is a write of a sparse map. -/
theorem canonicalForm_closed : OpClosed (fun _ _ => True) CanonicalForm where
  same e h := by unfold CanonicalForm; rw [e.mem, e.skey, e.pend, e.scbs]; exact h
  irq h := h
  byte a b := fun ⟨hmem, hskey, hpend, hscbs⟩ => ⟨setByte_memory_wf hmem a b, hskey, hpend, hscbs⟩
  key p k := fun ⟨hmem, hskey, hpend, hscbs⟩ => ⟨hmem, setKey_skey_wf hskey p k, hpend, hscbs⟩
  edit _ _ _ := fun ⟨hmem, hskey, hpend, hscbs⟩ => ⟨hmem, hskey, hpend, setScb_scbs_wf hscbs _ _⟩
  free _ := fun ⟨hmem, hskey, hpend, hscbs⟩ => ⟨hmem, hskey, hpend, setScb_scbs_wf hscbs _ _⟩
  bind _ _ _ := fun ⟨hmem, hskey, hpend, hscbs⟩ => ⟨hmem, hskey, hpend, setScb_scbs_wf hscbs _ _⟩
  record a _ := fun ⟨hmem, hskey, hpend, hscbs⟩ => ⟨hmem, hskey, setPend_pend_wf hpend a _, hscbs⟩
  clear a := fun ⟨hmem, hskey, hpend, hscbs⟩ => ⟨hmem, hskey, setPend_pend_wf hpend a 0, hscbs⟩
  reset _ := fun ⟨hmem, hskey, _, _⟩ => ⟨hmem, hskey, mapWf_nil _, mapWf_nil _⟩

/-- Settles O56: the form is closed under the basic updates, so every step keeps it. -/
theorem stepKeepsCanonicalForm : Obligations.StepKeepsCanonicalForm := by
  intro s t h ht
  exact canonicalForm_closed.stepClosed.step_of_quiet (fun _ h => h) h ht

end Sys2Proof.Machine
end

section
/-! The bindings of the SCBs, kept by every step (spec/10_state.md R28). -/

namespace Sys2Proof.Machine

/-- An idle SCB with neither device nor binding is right (R28). -/
theorem bindingOk_unbound {cfg : Config} {id : ScbId} {b : Scb} (hd : b.dev = none) (hb : b.bind = none) (hc : b.cmd = 0)
    (hh : b.chainHeld = false) : BindingOk cfg id b :=
  ⟨fun _ => ⟨hb, hc, hh⟩, fun a ha => by rw [hd] at ha; cases ha⟩

/-- A bound SCB is right as long as it holds its binding (R28). -/
theorem BindingOk.edit {cfg : Config} {id : ScbId} {R : Scb → Scb → Prop} {b d : Scb} (h : BindingOk cfg id b)
    (hb : b.dev ≠ none) (he : Edit R b d) : BindingOk cfg id d := by
  obtain ⟨-, hbound⟩ := h
  refine ⟨fun hd => absurd (he.dev.symm.trans hd) hb, fun a ha => ?_⟩
  rw [he.bind]
  exact hbound a (he.dev.symm.trans ha)

/-- What an update of one SCB must give. -/
theorem BindingsOk.updScb {s : State} {id : ScbId} {f : Scb → Scb} (h : BindingsOk s)
    (hf : BindingOk s.cfg id (f (s.scb id))) : BindingsOk (s.updScb id f) := by
  intro j
  rw [State.updScb_cfg, scb_updScb]
  split
  · rename_i hj; rw [hj]; exact hf
  · exact h j

/-- The bindings are kept by every basic update: a start binds the SCB the address selects (R28, R101, R104). -/
theorem bindingsOk_closed : OpClosed (fun _ _ => True) BindingsOk where
  same e h j := by rw [e.cfg, e.scb]; exact h j
  irq h := h
  byte _ _ h := h
  key _ _ h := h
  edit hd hf _ h := h.updScb ((h _).edit hd hf)
  free _ h := h.updScb (bindingOk_unbound rfl rfl rfl rfl)
  bind {s a id dev} key caw hr h := by
    obtain ⟨hid, hdev⟩ := hr
    refine h.updScb ⟨fun hd => (by cases hd), fun a' ha => ?_⟩
    cases ha
    exact ⟨hid, by rw [hdev]; rfl, hdev.symm⟩
  record _ _ h := h
  clear _ h := h
  reset _ _ _ := bindingOk_unbound rfl rfl rfl rfl

/-- Settles O57: the bindings are closed under the basic updates, so every step keeps them. -/
theorem stepKeepsBindings : Obligations.StepKeepsBindings := by
  intro s t h ht
  exact bindingsOk_closed.stepClosed.step_of_quiet (fun _ h => h) h ht

end Sys2Proof.Machine
end

section
/-! The buffered data registers, kept by every step (spec/10_state.md R26, R30). -/

namespace Sys2Proof.Machine

/-! ## The register along a load -/

section
variable {id : ScbId} {s : State}

/-- A load that a check fails empties the register (R112). -/
theorem failCheck_register (id : ScbId) (bit : Half) (s : State) : RegisterOk ((failCheck id bit s).1.scb id) := by
  rw [failCheck, (chanFault_spec id bit s).1]
  exact registerOk_of_empty rfl rfl

/-- Step 9 leaves the register as it is (R127). -/
theorem raisePci_register (h : RegisterOk (s.scb id)) : RegisterOk ((raisePci id s).1.scb id) := by
  obtain ⟨t, ht, hscb, -⟩ := raisePci_spec id s
  rw [ht, hscb]
  unfold pciRaised
  split
  · exact h.untouched rfl rfl rfl rfl rfl
  · exact h

/-- The device's answer leaves the register as it is, or ends the command (R124 to R127). -/
theorem afterStart_register (chained : Bool) (st : Byte) (h : RegisterOk (s.scb id)) :
    RegisterOk ((afterStart id chained st s).1.scb id) := by
  have ended {f : Scb → Scb} (ho : (f (s.scb id)).boff = (s.scb id).boff) (hd : (f (s.scb id)).dirty = (s.scb id).dirty)
      (hc : (f (s.scb id)).cmd = 0) : RegisterOk ((s.updScb id f).scb id) := by
    rw [scb_updScb_self]; exact h.ended ho hd hc
  unfold afterStart
  split
  · split
    · dsimp only
      rw [scb_updScb_self]
      exact h.untouched rfl rfl rfl rfl rfl
    · exact ended rfl rfl rfl
  · split
    · exact ended (f := Scb.endedByError) rfl rfl rfl
    · split
      · apply raisePci_register
        split <;> exact ended (f := Scb.endedAtOnce) rfl rfl rfl
      · exact raisePci_register h

theorem dispatchCommand_register (chained : Bool) (h : RegisterOk (s.scb id)) :
    RegisterOk ((dispatchCommand id chained s).1.scb id) := by
  unfold dispatchCommand
  cases (s.scb id).dev with
  | none => exact failCheck_register id stPROG s
  | some a =>
    dsimp only
    cases findDevice s.cfg a with
    | none => exact failCheck_register id stPROG s
    | some dev =>
      refine afterStart_register (s := (startCommand a (s.scb id).cmd s).2.updScb id _) _ _ ?_
      rw [scb_updScb_self, startCommand_scb]
      exact h.untouched rfl rfl rfl rfl rfl

/-- The first IDAW leaves an empty register empty (R122). -/
theorem loadFirstIdaw_register {t : State} (h : loadFirstIdaw id s = .ok t) :
    (t.scb id).boff = (s.scb id).boff ∧ (t.scb id).dirty = (s.scb id).dirty := by
  unfold loadFirstIdaw at h
  dsimp only at h
  split at h
  · split at h
    · rcases readWord_cases s (s.scb id).key (s.scb id).addr with ⟨e, -, hr⟩ | ⟨-, hr⟩ <;> rw [hr] at h <;> cases h
      simp
    · cases h; simp
  · cases h; exact ⟨rfl, rfl⟩

/-- Whatever the register was, the fields of a CCW are loaded with it emptied (R112, R120). -/
theorem loadFields_register (new : Bool) (f : CcwFields) (s : State) : RegisterOk ((loadFields id new f s).1.scb id) := by
  unfold loadFields
  dsimp only
  split
  · exact failCheck_register ..
  · split
    · exact failCheck_register ..
    · split
      · exact failCheck_register ..
      · split
        · exact failCheck_register ..
        · rename_i t ht
          obtain ⟨ho, hd⟩ := loadFirstIdaw_register ht
          rw [scb_updScb_self] at ho hd
          have hr : RegisterOk (t.scb id) := registerOk_of_empty ho hd
          split
          · exact dispatchCommand_register _ hr
          · exact raisePci_register hr

theorem loadCommand_register (f : CcwFields) (s : State) : RegisterOk ((loadCommand id f s).1.scb id) := by
  unfold loadCommand
  dsimp only
  split <;> exact loadFields_register ..

theorem loadInvalid_register (f : CcwFields) (s : State) : RegisterOk ((loadInvalid id f s).1.scb id) := by
  unfold loadInvalid
  dsimp only
  split
  · exact loadFields_register ..
  · exact failCheck_register ..

theorem runTicTarget_register (i : Instr) (s : State) : RegisterOk ((runTicTarget id i s).1.scb id) := by
  cases i with
  | ccwWrite f | ccwRead f | ccwControl f | ccwSense f | ccwRdbwd f => exact loadCommand_register f s
  | ccwInvalid f => exact loadInvalid_register f s
  | ccwTic | sio | tio | hio | tch => exact failCheck_register ..

/-- A fetch leaves the register as it is, or empties it (R114 to R117). -/
theorem fetchCcw_register (h : RegisterOk (s.scb id)) : RegisterOk ((fetchCcw id s).state.scb id) := by
  have hskip : RegisterOk ((s.updScb id Scb.skipOnModifier).scb id) := by
    rw [scb_updScb_self]
    unfold Scb.skipOnModifier
    split
    · exact h.untouched rfl rfl rfl rfl rfl
    · exact h
  unfold fetchCcw
  dsimp only
  split
  · exact failCheck_register ..
  · split
    · exact h
    · rcases readWord_cases (s.updScb id Scb.skipOnModifier) (s.scb id).key
        ((s.updScb id Scb.skipOnModifier).scb id).caw with ⟨e, -, hr⟩ | ⟨-, hr⟩ <;> rw [hr]
      · exact failCheck_register ..
      · exact hskip

theorem ccwTic_register (tic : Bool) (target : Addr) (h : RegisterOk (s.scb id)) :
    RegisterOk ((ccwTic id tic target s).1.scb id) := by
  unfold ccwTic
  split
  · have hf : RegisterOk ((fetchCcw id (s.updScb id fun b => { b with caw := target })).state.scb id) := by
      apply fetchCcw_register
      rw [scb_updScb_self]
      exact h.untouched rfl rfl rfl rfl rfl
    split <;> rename_i hx <;> simp only [hx] at hf ⊢
    · exact hf
    · exact runTicTarget_register ..
  · exact failCheck_register ..

theorem runCcw_register (tic : Bool) (i : Instr) (h : RegisterOk (s.scb id)) :
    RegisterOk ((runCcw id tic i s).1.scb id) := by
  cases i with
  | ccwWrite f | ccwRead f | ccwControl f | ccwSense f | ccwRdbwd f => exact loadCommand_register f s
  | ccwInvalid f => exact loadInvalid_register f s
  | ccwTic cmd target second => exact ccwTic_register tic target h
  | sio | tio | hio | tch => exact failCheck_register ..

theorem beginLoad_register (h : RegisterOk (s.scb id)) : RegisterOk ((beginLoad id s).state.scb id) := by
  unfold beginLoad
  split
  · apply dispatchCommand_register
    rw [scb_updScb_self]
    exact h.untouched rfl rfl rfl rfl rfl
  · exact fetchCcw_register h

/-- A load keeps its SCB's register right (R110, R120). -/
theorem loadNextCcw_register (tic : Bool) (h : RegisterOk (s.scb id)) :
    RegisterOk ((loadNextCcw id tic s).1.scb id) := by
  have hb := beginLoad_register h
  unfold loadNextCcw
  split <;> rename_i hx <;> simp only [hx] at hb ⊢
  · exact hb
  · exact runCcw_register tic _ hb

end

/-! ## The step -/

theorem RegistersOk.updScb {s : State} {id : ScbId} {f : Scb → Scb} (h : RegistersOk s) (hf : RegisterOk (f (s.scb id))) :
    RegistersOk (s.updScb id f) := by
  intro j
  rw [scb_updScb]
  split
  · exact hf
  · exact h j

/-- The registers are kept by every basic update whose edits keep them, and by every load. -/
theorem registersOk_closed : StepClosed RegistersOk where
  same e h j := by rw [e.scb]; exact h j
  irq h := h
  byte _ _ h := h
  key _ _ h := h
  edit _ hf _ h := h.updScb (hf.rel (h _))
  free _ h := h.updScb (registerOk_of_empty rfl rfl)
  bind _ _ _ h := h.updScb (registerOk_of_empty rfl rfl)
  record _ _ h := h
  clear _ h := h
  reset _ _ _ := registerOk_of_empty rfl rfl
  load {s id} tic _ h j := by
    by_cases hj : j = id
    · rw [hj]; exact loadNextCcw_register tic (h id)
    · rw [(loadNextCcw_frame id tic s).others j hj]; exact h j

/-- Settles O58: edits outside the loads keep each register right, and a load leaves it empty or as it was. -/
theorem stepKeepsRegisters : Obligations.StepKeepsRegisters := by
  intro s t h ht
  exact registersOk_closed.step_of_quiet (fun _ h => h) h ht

end Sys2Proof.Machine
end

section
/-! What the scan must see, kept by every step (spec/10_state.md R32; spec/43_status.md R185, R191). -/

namespace Sys2Proof.Machine

/-- A pending status is flagged for its channel (spec/10_state.md R32). -/
def Flagged (s : State) : Prop := ∀ a, s.pendAt a ≠ 0 → s.chpendAt (chanOf a) = true

/-- No channel is flagged, and no bound SCB holds a PCI: of these, nothing for the scan to see. -/
def NothingToSee (s : State) : Prop :=
  s.chpend = 0 ∧ ∀ id, (s.scb id).dev ≠ none → anyBits (s.scb id).status stPCI = false

/-- Pending statuses are flagged, and with IRQ clear there is nothing to see. -/
def Visible (s : State) : Prop := Flagged s ∧ (s.irq = true ∨ NothingToSee s)

theorem visible_iff (s : State) : Visible s ↔ PendingVisible s ∧ PciVisible s := by
  unfold Visible PendingVisible PciVisible NothingToSee
  constructor
  · rintro ⟨hf, hi | ⟨hc, hp⟩⟩
    · exact ⟨⟨hf, fun _ => hi⟩, fun _ _ _ => hi⟩
    · exact ⟨⟨hf, fun h => absurd hc h⟩, fun id hd h => by rw [hp id hd] at h; cases h⟩
  · rintro ⟨⟨hf, hc⟩, hp⟩
    refine ⟨hf, or_iff_not_imp_left.2 fun hi => ⟨by_contra fun h => hi (hc h), fun id hd => ?_⟩⟩
    rw [Bool.eq_false_iff]
    exact fun h => hi (hp id hd h)

/-- No flag is set where none reads as set. -/
theorem chpend_eq_zero {s : State} (h : ∀ c, s.chpendAt c = false) : s.chpend = 0 := by
  apply BitVec.eq_of_getLsbD_eq
  intro i hi
  rw [show s.chpend.getLsbD i = false from h ⟨i, hi⟩]
  simp

theorem chpendAt_of_zero {s : State} (h : s.chpend = 0) (c : Fin 16) : s.chpendAt c = false := by
  unfold State.chpendAt; rw [h]; simp

/-- Clearing a pending status keeps the others flagged (R183). -/
theorem Flagged.clear {s : State} (h : Flagged s) (a : DevAddr) : Flagged (clearPend a s) := by
  obtain ⟨hpend, hflag, hothers⟩ := clearPend_spec a s
  intro d hd
  rw [hpend] at hd
  split at hd
  · exact absurd rfl hd
  · rename_i hne
    by_cases hc : chanOf d = chanOf a
    · rw [hc]; exact hflag.2 ⟨d, hne, hc, hd⟩
    · rw [hothers _ hc]; exact h d hd

/-- Clearing a pending status flags no channel (R183). -/
theorem Flagged.clear_chpend {s : State} (h : Flagged s) (hz : s.chpend = 0) (a : DevAddr) : (clearPend a s).chpend = 0 := by
  obtain ⟨-, hflag, hothers⟩ := clearPend_spec a s
  refine chpend_eq_zero fun c => ?_
  by_cases hc : c = chanOf a
  · rw [hc, Bool.eq_false_iff]
    intro hx
    obtain ⟨d, -, -, hd⟩ := hflag.1 hx
    have hf := h d hd
    rw [chpendAt_of_zero hz] at hf; cases hf
  · rw [hothers c hc]; exact chpendAt_of_zero hz c

/-- Recording a pending status flags its channel (R179). -/
theorem Flagged.record {s : State} (h : Flagged s) (a : DevAddr) (fl : Byte) : Flagged (recordPending a fl s) := by
  intro d hd
  unfold recordPending at hd ⊢
  rw [chpendAt_setChpend]
  split
  · rfl
  · rename_i hc
    have hne : d ≠ a := fun hx => hc (congrArg chanOf hx)
    have hd' : (s.setPend a (s.pendAt a ||| fl)).pendAt d ≠ 0 := hd
    rw [pendAt_setPend, if_neg hne] at hd'
    exact h d hd'

/-- The flags are kept by every basic update, whatever IRQ is. -/
theorem flagged_closed : OpClosed (fun _ _ => True) Flagged where
  same e h := by
    unfold Flagged State.pendAt State.chpendAt
    rw [e.pend, e.chpend]
    exact h
  irq h := h
  byte _ _ h := h
  key _ _ h := h
  edit _ _ _ h := h
  free _ h := h
  bind _ _ _ h := h
  record a fl h := h.record a fl
  clear a h := h.clear a
  reset _ _ _ ha := absurd rfl ha

/-- An update of one SCB that leaves nothing to see there. -/
theorem NothingToSee.updScb {s : State} {id : ScbId} {f : Scb → Scb} (h : NothingToSee s)
    (hf : (f (s.scb id)).dev ≠ none → anyBits (f (s.scb id)).status stPCI = false) : NothingToSee (s.updScb id f) := by
  refine ⟨h.1, fun j => ?_⟩
  rw [scb_updScb]
  split
  · exact hf
  · exact h.2 j

/-- Every basic update keeps what the scan must see: PCI is set with IRQ raised (R127, R191). -/
theorem visible_closed : OpClosed (fun _ _ => True) Visible where
  same e h := by
    refine ⟨flagged_closed.same e h.1, ?_⟩
    unfold NothingToSee
    simp only [e.irq, e.chpend, e.scb]
    exact h.2
  irq h := ⟨h.1, .inl rfl⟩
  byte _ _ h := h
  key _ _ h := h
  edit {s id f} hd hf hp h := by
    refine ⟨h.1, h.2.elim .inl fun hn => hp.imp_right fun hp => hn.updScb fun _ => ?_⟩
    rw [Bool.eq_false_iff]
    intro hx
    have hx' := hp hx
    rw [hn.2 id hd] at hx'; cases hx'
  free _ h := ⟨h.1, h.2.imp_right fun hn => hn.updScb fun hd => absurd rfl hd⟩
  bind _ _ _ h := ⟨h.1, h.2.imp_right fun hn => hn.updScb fun _ => by simp [Scb.started, anyBits]⟩
  record a fl h := ⟨h.1.record a fl, .inl rfl⟩
  clear a h := ⟨h.1.clear a, h.2.imp_right fun hn => ⟨h.1.clear_chpend hn.1 a, hn.2⟩⟩
  reset _ _ := ⟨fun _ ha => absurd rfl ha, .inr ⟨rfl, fun _ hd => absurd rfl hd⟩⟩

/-! ## The scan -/

/-- An SCB that an address selects is one the scan visits (R101, R185). -/
theorem mem_scanOrder {cfg : Config} {a : DevAddr} {id : ScbId} (h : findSubchannel cfg a = some id) : id ∈ scanOrder cfg := by
  unfold findSubchannel at h
  split at h
  · cases h
  · rename_i ch hch
    obtain ⟨i, hi, rfl⟩ := Option.map_eq_some_iff.1 h
    have hat : channelAt cfg (chanOf a) = some ch := by
      unfold enabledChannel at hch
      split at hch
      · split at hch
        · cases hch; assumption
        · cases hch
      · cases hch
    have hlt : i.val < scbCount ch.kind := by
      unfold subchannelIndex at hi
      unfold scbCount
      split at hi
      · cases hi; decide
      · split at hi
        · rename_i hn; cases hi; exact hn
        · split at hi
          · rename_i hn; cases hi; exact hn.1
          · cases hi
      · cases hi; dsimp only; omega
      · cases hi; decide
    unfold scanOrder enabledChannels channelScbs
    rw [List.mem_flatMap]
    refine ⟨chanOf a, by simp [hch], ?_⟩
    rw [hat]
    simp [hlt]

/-- With the bindings right, a scan that leaves IRQ clear has seen every SCB and found nothing (R185, R191). -/
theorem scan_irq {s : State} (m : Half) (e : Bool) (hb : BindingsOk s) (h : Visible s) :
    (scan m e s).1.irq = true ∨ NothingToSee (scan m e s).1 := by
  unfold scan
  split
  · split
    · rename_i hx; exact .inl (scanScbs_some hx)
    · rename_i t hx
      unfold scanFallback
      split
      · exact .inl rfl
      · split
        · exact .inl rfl
        · rename_i hc
          rcases scanScbs_none hx with ht | ⟨rfl, hn⟩
          · exact .inl ht
          · refine .inr ⟨by simpa using hc, fun id hd => ?_⟩
            obtain ⟨a, ha⟩ := Option.ne_none_iff_exists'.1 hd
            exact (hn id (mem_scanOrder ((hb id).2 a ha).1)).resolve_left hd
  · exact h.2

/-- Settles O59: every basic update keeps what the scan must see, and a scan that leaves IRQ clear has visited every bound SCB. -/
theorem stepKeepsPendingVisible : Obligations.StepKeepsPendingVisible := by
  intro s t hb hp hc ht
  have hv : Visible s := (visible_iff s).2 ⟨hp, hc⟩
  rw [← visible_iff]
  refine visible_closed.stepClosed.step (fun m e rest => ?_) hv ht
  have hb' : BindingsOk { s with requests := rest } := bindingsOk_closed.same (.requests s rest) hb
  have hv' : Visible { s with requests := rest } := visible_closed.same (.requests s rest) hv
  exact ⟨flagged_closed.stepClosed.scan m e (fun h => h) hv'.1, scan_irq m e hb' hv'⟩

end Sys2Proof.Machine
end

section
/-! What a step runs (spec/10_state.md R20, R261). -/

namespace Sys2Proof.Machine

/-- A step with a request next is that request, at the state with it taken (log 5). -/
theorem step_request {s : State} {r : Request} {rest : List Request} (hw : configWf s.cfg = true)
    (hr : s.requests = r :: rest) : step s = runFetched (fetchRequest r { s with requests := rest }) := by
  unfold step; rw [if_pos hw, hr]

/-- Settles O8: the word's instruction is fetched, then run. -/
theorem stepRunsCpuInstruction : Obligations.StepRunsCpuInstruction := by
  intro s w rest i hw hr hd
  rw [step_request hw hr]
  change runFetched (fetchInstruction w _) = _
  unfold fetchInstruction
  rw [hd]
  rfl

/-- Settles O11: one request, one operation; no request, nothing; a configuration outside the limits, a refusal. -/
theorem stepRunsAgentOperation : Obligations.StepRunsAgentOperation := by
  intro s rest
  refine ⟨fun hw => ?_, fun hw hr => ?_, fun hw u hu => ?_⟩
  · unfold step; rw [hw]; rfl
  · unfold step; rw [if_pos hw, hr]
  · subst hu
    refine ⟨fun a h => ?_, fun a b h => ?_, fun a fl h => ?_, fun a fl h => ?_, fun m e h => ?_, fun a c h => ?_,
      fun h => ?_⟩ <;> exact step_request hw h

end Sys2Proof.Machine
end

section
/-! What an access of main memory checks, answers and changes (spec/20_memory.md R50..R62). -/

namespace Sys2Proof.Machine

/-! ## The checks -/

/-- Bit 3 of a storage key is the fetch-protect bit that mask 0x08 tests (R51). -/
theorem anyBits_fetchProtect (k : Byte) : anyBits k 0x08 = k.getLsbD 3 := by
  revert k; decide

theorem protectionError_iff {s : State} {key : BitVec 4} {a : Addr} {w : Bool} :
    protectionError s key a w = true ↔ key ≠ 0 ∧ s.cfg.protFeature = true ∧
      (s.keyAt (a.toNat / 2048)).extractLsb' 4 4 ≠ key ∧
      (w = true ∨ (s.keyAt (a.toNat / 2048)).getLsbD 3 = true) := by
  simp only [protectionError, pageOf, anyBits_fetchProtect, Bool.and_eq_true, Bool.or_eq_true, bne_iff_ne, and_assoc]

theorem accessFault_addressing_iff {s : State} {key : BitVec 4} {a : Addr} {w : Bool} :
    accessFault s key a w = some .addressing ↔ addressingError s a = true := by
  unfold accessFault
  split
  · simp [*]
  · split <;> simp [*]

/-- Protection is looked at only where addressing passes (R50). -/
theorem accessFault_protection_iff {s : State} {key : BitVec 4} {a : Addr} {w : Bool} :
    accessFault s key a w = some .protection ↔ ¬ addressingError s a = true ∧ protectionError s key a w = true := by
  unfold accessFault
  split
  · simp [*]
  · split <;> simp [*]

/-- Settles O6: memory ends at a word's end, so the check of the whole word is that of its byte. -/
theorem accessFaultsExactlyWhen : Obligations.AccessFaultsExactlyWhen := by
  intro s key a w hw
  obtain ⟨hpage, -⟩ := memoryWf_iff.1 (memoryWf_of_configWf hw)
  have haddr : addressingError s a = true ↔ s.cfg.memSize ≤ a.toNat := addressingError_iff (by omega)
  refine ⟨accessFault_addressing_iff.trans haddr, ?_⟩
  rw [accessFault_protection_iff, haddr, not_le, protectionError_iff]

/-! ## The words -/

/-- A word taken apart into the bytes it was joined from (R57). -/
theorem wordByte_wordOfBytes (b0 b1 b2 b3 : Byte) :
    wordByte (wordOfBytes b0 b1 b2 b3) 0 = b0 ∧ wordByte (wordOfBytes b0 b1 b2 b3) 1 = b1 ∧
    wordByte (wordOfBytes b0 b1 b2 b3) 2 = b2 ∧ wordByte (wordOfBytes b0 b1 b2 b3) 3 = b3 := by
  have drop {n k : Nat} (x : BitVec n) (y : Byte) :
      (x ++ y).extractLsb' (k + 8) 8 = x.extractLsb' k 8 := BitVec.extractLsb'_append_eq_of_le (by omega)
  have last {n : Nat} (x : BitVec n) (y : Byte) : (x ++ y).extractLsb' 0 8 = y :=
    (BitVec.extractLsb'_append_eq_of_add_le (by omega)).trans BitVec.extractLsb'_eq_self
  refine ⟨?_, ?_, ?_, ?_⟩
  · exact (drop (k := 16) (b0 ++ b1 ++ b2) b3).trans
      ((drop (k := 8) (b0 ++ b1) b2).trans ((drop (k := 0) b0 b1).trans BitVec.extractLsb'_eq_self))
  · exact (drop (k := 8) (b0 ++ b1 ++ b2) b3).trans ((drop (k := 0) (b0 ++ b1) b2).trans (last b0 b1))
  · exact (drop (k := 0) (b0 ++ b1 ++ b2) b3).trans (last (b0 ++ b1) b2)
  · exact last (b0 ++ b1 ++ b2) b3

/-- The bytes of a word just stored, highest first (R57). -/
theorem byteAt_setWord_inside (s : State) (a : Addr) (v : Word) :
    (s.setWord a v).byteAt (a.toNat / 4 * 4) = wordByte v 0 ∧
    (s.setWord a v).byteAt (a.toNat / 4 * 4 + 1) = wordByte v 1 ∧
    (s.setWord a v).byteAt (a.toNat / 4 * 4 + 2) = wordByte v 2 ∧
    (s.setWord a v).byteAt (a.toNat / 4 * 4 + 3) = wordByte v 3 := by
  simp [State.setWord, wordAddr_toNat]

/-- What `writeWord` leaves of memory: every byte outside the word; its mark in the storage key moves no byte (R50, R56). -/
theorem setWord_markKey_keepsMemoryBut (s : State) (a : Addr) (v : Word) (p : Nat) (m : Byte) :
    KeepsMemoryBut (inWordOf a) s ((s.setWord a v).markKey p m) := by
  intro x hx
  rw [State.byteAt_markKey]
  exact byteAt_setWord_outside s a v (by simpa [inWord, inWordOf, wordAddr_toNat] using hx)

/-- What `writeWord` leaves of the rest: it writes memory and the storage keys only (R50, R56). -/
theorem setWord_markKey_frame (s : State) (a : Addr) (v : Word) (p : Nat) (m : Byte) :
    { (s.setWord a v).markKey p m with skey := s.skey, mem := s.mem } = s := by
  simp

theorem wordAt_eq_bytes (s : State) (a : Addr) :
    s.wordAt a = s.byteAt (a.toNat / 4 * 4) ++ s.byteAt (a.toNat / 4 * 4 + 1) ++ s.byteAt (a.toNat / 4 * 4 + 2) ++
      s.byteAt (a.toNat / 4 * 4 + 3) := by
  simp only [State.wordAt, wordAddr_toNat, wordOfBytes]

/-- Settles O7: by what `readWord` and `writeWord` answer, the bytes of the word each moves, and the key bits each marks. -/
theorem memoryWordsAreBigEndian : Obligations.MemoryWordsAreBigEndian := by
  intro s key a b0 b1 b2 b3
  refine ⟨fun h => ?_, fun h => ?_, fun _ => readWord_error, fun _ => writeWord_error⟩
  · exact ⟨_, _, readWord_ok h, wordAt_eq_bytes s a, fun p => keyAt_markKey s (pageOf a) p 0x04, rfl⟩
  · obtain ⟨j0, j1, j2, j3⟩ := wordByte_wordOfBytes b0 b1 b2 b3
    obtain ⟨h0, h1, h2, h3⟩ := byteAt_setWord_inside s a (wordOfBytes b0 b1 b2 b3)
    refine ⟨(s.setWord a (wordOfBytes b0 b1 b2 b3)).markKey (pageOf a) 0x06, writeWord_ok h, ?_⟩
    simp only [State.byteAt_markKey]
    exact ⟨h0.trans j0, h1.trans j1, h2.trans j2, h3.trans j3, setWord_markKey_keepsMemoryBut s a _ _ _,
      fun p => keyAt_markKey _ (pageOf a) p 0x06, setWord_markKey_frame s a _ _ _⟩

end Sys2Proof.Machine
end

section
/-! The fields a concatenation of bit vectors is made of, at every width (spec/30_encoding.md R70, R74, R77). -/

namespace Sys2Proof

section

variable {a b c d : Nat}

/-- A field that lies above the last part is a field of what comes before that part. -/
theorem field_above (start len : Nat) (x : BitVec a) (y : BitVec b) :
    (x ++ y).extractLsb' (start + b) len = x.extractLsb' start len := by
  rw [BitVec.extractLsb'_append_eq_of_le (by omega), Nat.add_sub_cancel]

/-- Three fields side by side leave no bit out. -/
theorem join_three_fields (w : BitVec (a + b + c)) :
    w.extractLsb' (b + c) a ++ w.extractLsb' c b ++ w.extractLsb' 0 c = w := by
  rw [BitVec.extractLsb'_append_extractLsb'_eq_extractLsb' (by omega), BitVec.extractLsb'_append_extractLsb']

/-- Four fields side by side leave no bit out. -/
theorem join_four_fields (w : BitVec (a + b + c + d)) :
    w.extractLsb' (b + c + d) a ++ w.extractLsb' (c + d) b ++ w.extractLsb' d c ++ w.extractLsb' 0 d = w := by
  rw [BitVec.extractLsb'_append_extractLsb'_eq_extractLsb' (by omega), join_three_fields]

end

end Sys2Proof
end

section
/-! Decoder and encoder are inverse to each other: field by field, word by word, then on bytes (spec/30_encoding.md R70, R71,
R74, R78, R85). -/

namespace Sys2Proof

open Sys2Proof.Machine

/-! ## The fields of the words -/

/-- The fields of the SI-format word, from the opcode down (R70). -/
theorem encodeCpu_fields (op i2 : Byte) (b1 : BitVec 4) (d1 : BitVec 12) :
    (encodeCpu op i2 b1 d1).extractLsb' 24 8 = op ∧ (encodeCpu op i2 b1 d1).extractLsb' 16 8 = i2 ∧
    (encodeCpu op i2 b1 d1).extractLsb' 12 4 = b1 ∧ (encodeCpu op i2 b1 d1).extractLsb' 0 12 = d1 :=
  ⟨(field_above 12 8 (op ++ i2 ++ b1) d1).trans ((field_above 8 8 (op ++ i2) b1).trans BitVec.extractLsb'_append_eq_left),
   (field_above 4 8 (op ++ i2 ++ b1) d1).trans ((field_above 0 8 (op ++ i2) b1).trans BitVec.extractLsb'_append_eq_right),
   (field_above 0 4 (op ++ i2 ++ b1) d1).trans BitVec.extractLsb'_append_eq_right,
   BitVec.extractLsb'_append_eq_right⟩

/-- An SI-format word is its four fields, with no bit left over (R70). -/
theorem encodeCpu_extract (w : Word) :
    encodeCpu (w.extractLsb' 24 8) (w.extractLsb' 16 8) (w.extractLsb' 12 4) (w.extractLsb' 0 12) = w :=
  join_four_fields (a := 8) (b := 8) (c := 4) (d := 12) w

/-- The fields read from the two words of a CCW are those written there (R74). -/
theorem ccwFieldsOf_encode (f : CcwFields) : ccwFieldsOf (f.cmd ++ f.data) (f.flags ++ f.unused ++ f.count) = f := by
  have hcmd : (f.cmd ++ f.data : Word).extractLsb' 24 8 = f.cmd := BitVec.extractLsb'_append_eq_left
  have hdata : (f.cmd ++ f.data : Word).extractLsb' 0 24 = f.data := BitVec.extractLsb'_append_eq_right
  have hflags : (f.flags ++ f.unused ++ f.count : Word).extractLsb' 24 8 = f.flags :=
    (field_above 8 8 (f.flags ++ f.unused) f.count).trans BitVec.extractLsb'_append_eq_left
  have hunused : (f.flags ++ f.unused ++ f.count : Word).extractLsb' 16 8 = f.unused :=
    (field_above 0 8 (f.flags ++ f.unused) f.count).trans BitVec.extractLsb'_append_eq_right
  have hcount : (f.flags ++ f.unused ++ f.count : Word).extractLsb' 0 16 = f.count :=
    BitVec.extractLsb'_append_eq_right
  unfold ccwFieldsOf
  rw [hcmd, hdata, hflags, hunused, hcount]

/-- The first word of a CCW is its command code and its data address (R74). -/
theorem ccwFieldsOf_first (w0 w1 : Word) : (ccwFieldsOf w0 w1).cmd ++ (ccwFieldsOf w0 w1).data = w0 :=
  BitVec.extractLsb'_append_extractLsb' (w := 8) (len := 24)

/-- The second word of a CCW is its flags, its unused byte and its count (R74). -/
theorem ccwFieldsOf_second (w0 w1 : Word) :
    (ccwFieldsOf w0 w1).flags ++ (ccwFieldsOf w0 w1).unused ++ (ccwFieldsOf w0 w1).count = w1 :=
  join_three_fields (a := 8) (b := 8) (c := 16) w1

theorem encodeCcw_ccwFieldsOf (w0 w1 : Word) : encodeCcw (ccwFieldsOf w0 w1) = [w0, w1] := by
  rw [encodeCcw, ccwFieldsOf_first, ccwFieldsOf_second]

/-! ## The words -/

/-- What the CPU's stream decodes a written word to, by its opcode (R70, R71). -/
theorem decodeCpu_encodeCpu (op i2 : Byte) (b1 : BitVec 4) (d1 : BitVec 12) :
    decodeCpu (encodeCpu op i2 b1 d1) =
      if op = 0x9C then .ok (.sio i2 b1 d1)
      else if op = 0x9D then .ok (.tio i2 b1 d1)
      else if op = 0x9E then .ok (.hio i2 b1 d1)
      else if op = 0x9F then .ok (.tch i2 b1 d1)
      else .error (.notChannelControl op) := by
  obtain ⟨hop, hi2, hb1, hd1⟩ := encodeCpu_fields op i2 b1 d1
  unfold decodeCpu
  rw [hop, hi2, hb1, hd1]

/-- A CPU instruction is one word, which decodes to it (R70). -/
theorem decodeCpu_encode {i : Instr} (hs : i.source = .cpu) : ∃ w, encode i = [w] ∧ decodeCpu w = .ok i := by
  cases i with
  | sio | tio | hio | tch => exact ⟨_, rfl, decodeCpu_encodeCpu ..⟩
  | _ => cases hs

/-- A well-formed CCW is two words, which decode to it: its command code's class picks its constructor again (R74, R77, R78). -/
theorem decodeCcw_encode {i : Instr} (hw : i.wellFormed = true) (hs : i.source = .channel) :
    ∃ w0 w1, encode i = [w0, w1] ∧ decodeCcw w0 w1 = i := by
  cases i with
  | ccwWrite | ccwRead | ccwControl | ccwSense | ccwRdbwd | ccwInvalid =>
    exact ⟨_, _, rfl, by simp only [decodeCcw, ccwFieldsOf_encode, eq_of_beq hw]⟩
  | ccwTic cmd target second =>
    have hcmd : (ccwFieldsOf (cmd ++ target) second).cmd = cmd := BitVec.extractLsb'_append_eq_left
    have hdata : (ccwFieldsOf (cmd ++ target) second).data = target := BitVec.extractLsb'_append_eq_right
    exact ⟨_, _, rfl, by simp only [decodeCcw, hcmd, hdata, eq_of_beq hw]⟩
  | sio | tio | hio | tch => cases hs

/-- A CPU word that decodes is the word of what it decodes to (R70, R71). -/
theorem encode_of_decodeCpu {w : Word} {i : Instr} (h : decodeCpu w = .ok i) : encode i = [w] := by
  have hw := encodeCpu_extract w
  rcases decodeCpu_cases w with ⟨hop, e⟩ | ⟨hop, e⟩ | ⟨hop, e⟩ | ⟨hop, e⟩ | hother
  case inr.inr.inr.inr => rw [hother] at h; cases h
  all_goals
    rw [e] at h; cases h
    rw [hop] at hw
    exact congrArg (fun x => [x]) hw

/-- The two words of a CCW are those of what they decode to; a TIC keeps its second word whole (R74, R78). -/
theorem encode_decodeCcw (w0 w1 : Word) : encode (decodeCcw w0 w1) = [w0, w1] := by
  have hf := encodeCcw_ccwFieldsOf w0 w1
  rcases decodeCcw_cases w0 w1 with ⟨-, h⟩ | ⟨-, h⟩ | ⟨-, h⟩ | ⟨-, h⟩ | ⟨-, h⟩ | ⟨-, h⟩ | ⟨-, htic⟩
  case inr.inr.inr.inr.inr.inr =>
    rw [htic]
    exact congrArg (fun x => [x, w1]) (ccwFieldsOf_first w0 w1)
  all_goals rw [h]; exact hf

/-! ## The bytes -/

/-- The CPU's stream is read a word at a time, whatever follows (R57, R85). -/
theorem decode_cpu_bytesOfWord (w : Word) (rest : List Byte) : decode .cpu (bytesOfWord w ++ rest) = decodeCpu w :=
  congrArg decodeCpu (wordByte_join w)

/-- A channel program is read two words at a time, whatever follows (R57, R85). -/
theorem decode_channel_bytesOfWord (w0 w1 : Word) (rest : List Byte) :
    decode .channel (bytesOfWord w0 ++ (bytesOfWord w1 ++ rest)) = .ok (decodeCcw w0 w1) :=
  congrArg₂ (fun x y => Except.ok (decodeCcw x y)) (wordByte_join w0) (wordByte_join w1)

theorem bytesOfWord_wordOfBytes (b0 b1 b2 b3 : Byte) : bytesOfWord (wordOfBytes b0 b1 b2 b3) = [b0, b1, b2, b3] := by
  obtain ⟨h0, h1, h2, h3⟩ := wordByte_wordOfBytes b0 b1 b2 b3
  rw [bytesOfWord, h0, h1, h2, h3]

/-- What the decoder accepts starts with the word, or the two words, it reads (R85). -/
theorem decode_ok_cases {src : Source} {bs : List Byte} {i : Instr} (h : decode src bs = .ok i) :
    (src = .cpu ∧ ∃ w rest, bs = bytesOfWord w ++ rest ∧ decodeCpu w = .ok i) ∨
    (src = .channel ∧ ∃ w0 w1 rest, bs = bytesOfWord w0 ++ (bytesOfWord w1 ++ rest) ∧ decodeCcw w0 w1 = i) := by
  unfold decode at h
  split at h
  · exact .inl ⟨rfl, _, _, by rw [bytesOfWord_wordOfBytes]; rfl, h⟩
  · cases h
    exact .inr ⟨rfl, _, _, _, by rw [bytesOfWord_wordOfBytes, bytesOfWord_wordOfBytes]; rfl, rfl⟩
  · cases h

/-- Settles O1: the bytes are those of the instruction's words, and the words decode to it. -/
theorem decodeEncodeAgree : Obligations.DecodeEncodeAgree := by
  intro i rest hw
  cases hs : i.source with
  | cpu =>
    obtain ⟨w, he, hd⟩ := decodeCpu_encode hs
    simpa [encodeBytes, he, decode_cpu_bytesOfWord] using hd
  | channel =>
    obtain ⟨w0, w1, he, hd⟩ := decodeCcw_encode hw hs
    simpa [encodeBytes, he, decode_channel_bytesOfWord] using hd

/-- Settles O2: the words read are the words of the instruction they decode to. -/
theorem encodeDecodeAgree : Obligations.EncodeDecodeAgree := by
  intro src bs i h
  rcases decode_ok_cases h with ⟨rfl, w, rest, rfl, hd⟩ | ⟨rfl, w0, w1, rest, rfl, rfl⟩
  · obtain ⟨hs, hw⟩ := decodeCpu_ok hd
    refine ⟨hw, hs, ?_, ?_⟩ <;> simp [encodeBytes, encode_of_decodeCpu hd, bytesOfWord]
  · refine ⟨decodeCcw_wellFormed w0 w1, decodeCcw_source w0 w1, ?_, ?_⟩ <;>
      simp [encodeBytes, encode_decodeCcw, bytesOfWord]

/-- Settles O3: the decoder evaluated on each word written out. -/
theorem writtenWordsDecode : Obligations.WrittenWordsDecode :=
  ⟨rfl, rfl, rfl, rfl, rfl, rfl, rfl, rfl, rfl, rfl, rfl⟩

end Sys2Proof
end

section
/-! The CPU's channel-control instructions: opcodes, operands and outcomes (spec/30_encoding.md R70..R73). -/

namespace Sys2Proof.Machine

/-! ## The opcodes -/

/-- A word that decodes to no instruction is refused at its fetch (R71). -/
theorem fetchInstruction_refused {w : Word} {e : DecodeError} (s : State) (h : decodeCpu w = .error e) :
    fetchInstruction w s = .outcome (.refused (decodeRefusal e)) := by
  have hd : decode .cpu (bytesOfWord w) = .error e := (decode_cpu_bytesOfWord w []).trans h
  unfold fetchInstruction
  rw [hd]

/-- Settles O4: a written word decodes by its opcode, and the step refuses the one that decodes to nothing. -/
theorem channelControlOpcodes : Obligations.ChannelControlOpcodes := by
  intro op i2 b1 d1
  have hdecode := decodeCpu_encodeCpu op i2 b1 d1
  refine ⟨?_, ?_, ?_, ?_, fun hother s rest hw hr => ?_⟩
  · rintro rfl; exact hdecode
  · rintro rfl; exact hdecode
  · rintro rfl; exact hdecode
  · rintro rfl; exact hdecode
  · simp only [not_or] at hother
    obtain ⟨hsio, htio, hhio, htch⟩ := hother
    rw [if_neg hsio, if_neg htio, if_neg hhio, if_neg htch] at hdecode
    rw [step_request hw hr]
    exact congrArg runFetched (fetchInstruction_refused _ hdecode)

/-! ## The operands -/

theorem effectiveAddress_toNat (s : State) (b1 : BitVec 4) (d1 : BitVec 12) :
    (effectiveAddress s b1 d1).toNat = ((if b1.toNat = 0 then 0 else s.gr[b1.toNat].toNat) + d1.toNat) % 2 ^ 32 := by
  have hb : b1 = 0 ↔ b1.toNat = 0 := BitVec.toNat_eq
  unfold effectiveAddress
  simp only [hb, BitVec.toNat_add, BitVec.toNat_setWidth, apply_ite BitVec.toNat]
  simp

/-- The block sees the low 12 bits, which the wrap of the 32-bit sum does not reach (R70, R72). -/
theorem deviceAddress_toNat (s : State) (b1 : BitVec 4) (d1 : BitVec 12) :
    (deviceAddress s b1 d1).toNat = ((if b1.toNat = 0 then 0 else s.gr[b1.toNat].toNat) + d1.toNat) % 4096 := by
  rw [deviceAddress, BitVec.extractLsb'_toNat, effectiveAddress_toNat, Nat.shiftRight_zero]
  exact Nat.mod_mod_of_dvd _ (by decide)

/-- The outcome with a second byte that is not accepted (R70). -/
theorem ccOutcome_refused {s : State} {i2 : Byte} (h : ¬ acceptsI2 s i2) (r : State × BitVec 2) :
    ccOutcome i2 s r = .refused (.secondByte i2) := by
  have hr : refusesI2 s i2 = true := by simpa using mt (refusesI2_iff s i2).1 h
  rw [ccOutcome, if_pos hr]

/-- Each of the four instructions is an operation that answers a condition code (R73). -/
theorem exec_channelControl {i : Instr} {i2 : Byte} {b1 : BitVec 4} {d1 : BitVec 12} (s : State)
    (h : i = .sio i2 b1 d1 ∨ i = .tio i2 b1 d1 ∨ i = .hio i2 b1 d1 ∨ i = .tch i2 b1 d1) :
    ∃ r, exec i s = ccOutcome i2 s r := by
  rcases h with rfl | rfl | rfl | rfl <;> exact ⟨_, rfl⟩

/-- Settles O41: the address by its value, and the outcome by whether the second byte is accepted. -/
theorem operandsOfTheInstructions : Obligations.OperandsOfTheInstructions := by
  intro s i i2 b1 d1
  refine ⟨deviceAddress_toNat s b1 d1, fun hi => ?_⟩
  obtain ⟨r, hr⟩ := exec_channelControl s hi
  rw [hr]
  exact ⟨fun h => ⟨_, _, ccOutcome_ok h r, rfl⟩, fun h => ccOutcome_refused h r⟩

end Sys2Proof.Machine
end

section
/-! The classes of command codes by their bit patterns (spec/30_encoding.md R77, R87). -/

namespace Sys2Proof.Machine

/-- Of a command code, its class and the two masks look at the low four bits only (R87). -/
theorem commandCode_low (hi lo : BitVec 4) : classOf (hi ++ lo) = classOf (0#4 ++ lo) ∧
    (hi ++ lo : Byte) &&& 0x0F = (0#4 ++ lo : Byte) &&& 0x0F ∧ (hi ++ lo : Byte) &&& 0x03 = (0#4 ++ lo : Byte) &&& 0x03 := by
  have low {k : Nat} (hk : k ≤ 4) (x : BitVec 4) : (x ++ lo).extractLsb' 0 k = lo.extractLsb' 0 k :=
    BitVec.extractLsb'_append_eq_of_add_le (by omega)
  have masked (x m : BitVec 4) : (x ++ lo) &&& (0#4 ++ m) = 0#4 ++ (lo &&& m) := by
    rw [BitVec.and_append, BitVec.and_zero]
  refine ⟨?_, (masked hi 0xF).trans (masked 0 0xF).symm, (masked hi 0x3).trans (masked 0 0x3).symm⟩
  unfold classOf
  rw [low (k := 4) (by decide) hi, low (k := 2) (by decide) hi, low (k := 4) (by decide) 0#4, low (k := 2) (by decide) 0#4]

/-- The mask that picks each class: the seven are disjoint, and the sixteen low patterns show it (R77, R87). -/
theorem classOf_iff_masks (op : Byte) :
    (classOf op = .invalid ↔ op &&& 0x0F = 0x00) ∧ (classOf op = .tic ↔ op &&& 0x0F = 0x08) ∧
    (classOf op = .write ↔ op &&& 0x03 = 0x01) ∧ (classOf op = .read ↔ op &&& 0x03 = 0x02) ∧
    (classOf op = .control ↔ op &&& 0x03 = 0x03) ∧ (classOf op = .sense ↔ op &&& 0x0F = 0x04) ∧
    (classOf op = .rdbwd ↔ op &&& 0x0F = 0x0C) := by
  obtain ⟨hi, lo, rfl⟩ : ∃ hi lo : BitVec 4, op = hi ++ lo := 
    ⟨_, _, (BitVec.extractLsb'_append_extractLsb' (w := 4) (len := 4)).symm⟩
  obtain ⟨hclass, hfour, htwo⟩ := commandCode_low hi lo
  rw [hclass, hfour, htwo]
  clear hclass hfour htwo
  revert lo
  decide

theorem isOutput_iff (op : Byte) : isOutput op = true ↔ classOf op = .write ∨ classOf op = .control := by
  unfold isOutput
  cases classOf op <;> decide

theorem isInput_iff (op : Byte) :
    isInput op = true ↔ classOf op = .read ∨ classOf op = .sense ∨ classOf op = .rdbwd := by
  unfold isInput
  cases classOf op <;> decide

theorem isBackward_iff (op : Byte) : isBackward op = true ↔ classOf op = .rdbwd := beq_iff_eq

/-- Settles O5: the classes by the masks of the low four bits, the directions and the step by the class. -/
theorem commandCodeClasses : Obligations.CommandCodeClasses := by
  intro op
  obtain ⟨hinvalid, htic, hwrite, hread, hcontrol, hsense, hrdbwd⟩ := classOf_iff_masks op
  exact ⟨hinvalid, htic, hwrite, hread, hcontrol, hsense, hrdbwd, isOutput_iff op, isInput_iff op, isBackward_iff op⟩

end Sys2Proof.Machine
end

section
/-! What a fetch of a CCW does, case by case, and the step of a load request (spec/41_ccw_loader.md R113..R117). -/

namespace Sys2Proof.Machine

/-! ## Bits and bytes -/

/-- The fetch's test of the low three bits is alignment on a doubleword (R114). -/
theorem lowThreeBits_eq_zero_iff (a : Addr) : a.extractLsb' 0 3 = 0#3 ↔ a.toNat % 8 = 0 := by
  simp [← BitVec.toNat_inj, BitVec.extractLsb'_toNat]

theorem and_not_of_and_eq_zero {n : Nat} {x m : BitVec n} (h : x &&& m = 0#n) : x &&& ~~~m = x := by
  have hx : x &&& (m ||| ~~~m) = x &&& ~~~m := by rw [BitVec.and_or_distrib_left, h, BitVec.zero_or]
  rw [← hx, BitVec.or_not_self, BitVec.and_allOnes]

/-- A test for two masks at once is both tests. -/
theorem anyBits_mask_or {n : Nat} (x m k : BitVec n) : anyBits x (m ||| k) = (anyBits x m || anyBits x k) := by
  have comm (y : BitVec n) : anyBits x y = anyBits y x := by unfold anyBits; rw [BitVec.and_comm]
  rw [comm, anyBits_or, comm m, comm k]

/-- The status-modifier skip as one update (R116). -/
theorem skipOnModifier_eq (b : Scb) :
    b.skipOnModifier = { b with caw := if b.status &&& stSM ≠ 0 then b.caw + 8 else b.caw,
                                status := b.status &&& ~~~stSM } := by
  unfold Scb.skipOnModifier
  simp only [anyBits_iff]
  split
  · rfl
  · rename_i h
    rw [and_not_of_and_eq_zero (not_not.1 h)]

theorem skipOnModifier_of_clear {b : Scb} (h : anyBits b.status stSM = false) : b.skipOnModifier = b := by
  unfold Scb.skipOnModifier; rw [h]; rfl

theorem toNat_add_four {a : Addr} (h : a.toNat % 8 = 0) : (a + 4).toNat = a.toNat + 4 := by
  have := a.isLt
  rw [BitVec.toNat_add, show (4 : Addr).toNat = 4 from rfl]
  omega

/-- The eight bytes at an aligned address decode to the CCW of its two words (spec/30_encoding.md R74). -/
theorem decode_eightBytes (s : State) {a : Addr} (h : a.toNat % 8 = 0) :
    decode .channel (eightBytes s a) = .ok (decodeCcw (s.wordAt a) (s.wordAt (a + 4))) := by
  have h1 : a.toNat / 4 * 4 = a.toNat := by omega
  have h2 : (a.toNat + 4) / 4 * 4 = a.toNat + 4 := by omega
  simp only [State.wordAt, wordAddr_toNat, toNat_add_four h, h1, h2]
  rfl

/-- The command code of the CCW at an aligned address is the byte there (spec/30_encoding.md R74). -/
theorem commandCode_eq_byteAt (s : State) {a : Addr} (h : a.toNat % 8 = 0) (w1 : Word) :
    (ccwFieldsOf (s.wordAt a) w1).cmd = s.byteAt a.toNat := by
  obtain ⟨h0, -⟩ := wordByte_wordOfBytes (s.byteAt a.toNat) (s.byteAt (a.toNat + 1)) (s.byteAt (a.toNat + 2))
    (s.byteAt (a.toNat + 3))
  rw [wordAt_eq_bytes, show a.toNat / 4 * 4 = a.toNat by omega]
  exact h0

/-- A CCW whose command code has class TIC decodes to a TIC (spec/30_encoding.md R77). -/
theorem decodeCcw_tic {w0 w1 : Word} (h : classOf (ccwFieldsOf w0 w1).cmd = .tic) :
    decodeCcw w0 w1 = .ccwTic (ccwFieldsOf w0 w1).cmd (ccwFieldsOf w0 w1).data w1 := by
  unfold decodeCcw; simp only [h]

/-- Only a command code of class TIC decodes to a TIC (spec/30_encoding.md R77). -/
theorem classOf_of_decodeCcw_eq_tic {w0 w1 second : Word} {cmd : Byte} {target : Addr}
    (h : decodeCcw w0 w1 = .ccwTic cmd target second) : classOf (ccwFieldsOf w0 w1).cmd = .tic := by
  unfold decodeCcw at h
  cases hc : classOf (ccwFieldsOf w0 w1).cmd with
  | tic => rfl
  | _ => simp only [hc] at h; cases h

/-! ## The fetch -/

section
variable {s : State} {id : ScbId} {b : Scb}

theorem fetchCcw_misaligned (hb : s.scb id = b) (ha : b.caw.toNat % 8 ≠ 0) :
    fetchCcw id s = .stop (chanFault id stPROG s) (.fail .check) := by
  unfold fetchCcw
  rw [hb, if_pos (by rwa [ne_eq, lowThreeBits_eq_zero_iff])]

theorem fetchCcw_abort (hb : s.scb id = b) (ha : b.caw.toNat % 8 = 0) (he : anyBits b.status chanErr = true) :
    fetchCcw id s = .stop s (.fail .abort) := by
  unfold fetchCcw
  rw [hb, if_neg (by rwa [not_not, lowThreeBits_eq_zero_iff]), if_pos he]

/-- An aligned fetch with no error bit set comes to the read of the first word, the skip made (R114 to R117). -/
theorem fetchCcw_reads (hb : s.scb id = b) (ha : b.caw.toNat % 8 = 0) (he : anyBits b.status chanErr = false) :
    (∀ e, accessFault s b.key b.skipOnModifier.caw false = some e →
      fetchCcw id s = .stop (chanFault id e.bit (s.updScb id Scb.skipOnModifier)) (.fail .check)) ∧
    (accessFault s b.key b.skipOnModifier.caw false = none →
      fetchCcw id s = .ccw (decodeCcw (s.wordAt b.skipOnModifier.caw) (s.wordAt (b.skipOnModifier.caw + 4)))
        ((s.updScb id Scb.skipOnModifier).markKey (pageOf b.skipOnModifier.caw) 0x04)) := by
  unfold fetchCcw
  rw [hb, if_neg (by rwa [not_not, lowThreeBits_eq_zero_iff]), he]
  simp only [Bool.false_eq_true, if_false, scb_updScb_self, hb]
  refine ⟨fun e hf => ?_, fun hf => ?_⟩
  · rw [readWord_error (by simpa using hf)]
  · rw [readWord_ok (by simpa using hf)]
    simp

end

/-! ## The step of a load request -/

/-- The state a load request runs at: the request taken, the load's arguments in `loader` (log 9). -/
def State.atLoad (s : State) (rest : List Request) (id : ScbId) (tic : Bool) : State :=
  { s with requests := rest, loader := { id := id, ticAllowed := tic } }

theorem KeepsCalls.atLoad (s : State) (rest : List Request) (id : ScbId) (tic : Bool) : KeepsCalls s (s.atLoad rest id tic) :=
  ⟨rfl, rfl, rfl, rfl, rfl⟩

section
variable {s : State} {id : ScbId} {tic : Bool} {rest : List Request}

@[simp] theorem State.atLoad_scb (j : ScbId) : (s.atLoad rest id tic).scb j = s.scb j := rfl

/-- A request to load a bound SCB begins the load, and runs the CCW it fetches or answers the load's result. -/
theorem step_loadCcw (hw : configWf s.cfg = true) (hr : s.requests = .loadCcw id tic :: rest) (hd : (s.scb id).dev ≠ none) :
    (∀ u r, beginLoad id (s.atLoad rest id tic) = .stop u r → step s = .next (u.answer (.load r))) ∧
    (∀ i u, beginLoad id (s.atLoad rest id tic) = .ccw i u → step s = exec i u) := by
  have hready : loadReady (s.atLoad rest id tic) = true := Option.isSome_iff_ne_none.2 hd
  rw [step_request hw hr]
  unfold fetchRequest fetchLoad
  unfold State.atLoad at hready ⊢
  dsimp only
  rw [if_pos hready]
  refine ⟨fun u r h => ?_, fun i u h => ?_⟩ <;> rw [h] <;> rfl

/-- A request to load an SCB bound to no device is the fault (log 9). -/
theorem step_loadCcw_unbound (hw : configWf s.cfg = true) (hr : s.requests = .loadCcw id tic :: rest)
    (hd : (s.scb id).dev = none) : step s = .fault .loaderUnbound := by
  have hready : loadReady (s.atLoad rest id tic) = false := Option.isSome_eq_false_iff.2 (Option.isNone_iff_eq_none.2 hd)
  rw [step_request hw hr]
  unfold fetchRequest fetchLoad
  unfold State.atLoad at hready
  dsimp only
  rw [hready]
  rfl

theorem beginLoad_fetches (h : (s.scb id).chainHeld = false) : beginLoad id s = fetchCcw id s := by
  unfold beginLoad; rw [h]; rfl

theorem beginLoad_resumes (h : (s.scb id).chainHeld = true) :
    beginLoad id s = .stop (dispatchCommand id true (s.updScb id Scb.resumed)).1
      (dispatchCommand id true (s.updScb id Scb.resumed)).2 := by
  unfold beginLoad; rw [h]; rfl

end

/-- Settles O13: what `chanFault_spec` says, the SCBs' frame read from the load's. -/
theorem channelFaultRecorded : Obligations.ChannelFaultRecorded := by
  intro s id bit
  obtain ⟨hscb, hirq, hout, hframe, hkeys⟩ := chanFault_spec id bit s
  exact ⟨hscb, hirq, hout, hframe.others, hkeys⟩

/-- Settles O9: the load begins with a fetch, which reads and decodes the CCW behind the status-modifier skip. -/
theorem stepRunsFetchedCcw : Obligations.StepRunsFetchedCcw := by
  intro s id tic rest i caw hw hr hd hh ha he hcaw hf hi
  have hskip : (s.scb id).skipOnModifier = { s.scb id with caw := caw, status := (s.scb id).status &&& ~~~stSM } := by
    rw [hcaw]; exact skipOnModifier_eq _
  have hpos : (s.scb id).skipOnModifier.caw = caw := by rw [hskip]
  have haligned : caw.toNat % 8 = 0 := by
    rw [hcaw]; split
    · rw [BitVec.toNat_add, show (8 : Addr).toNat = 8 from rfl]; omega
    · exact ha
  cases (decode_eightBytes s haligned).symm.trans hi
  have hfetch := (fetchCcw_reads (s := s.atLoad rest id tic) (id := id) rfl ha he).2
  rw [State.atLoad_scb, hpos] at hfetch
  have hbegin := (beginLoad_fetches (s := s.atLoad rest id tic) hh).trans (hfetch hf)
  refine ⟨_, (step_loadCcw hw hr hd).2 _ _ hbegin, rfl, rfl, ?_, fun p => ?_, rfl, fun j hj => ?_⟩
  · rw [State.scb_markKey, scb_updScb_self]; exact hskip
  · exact keyAt_markKey _ _ _ _
  · rw [State.scb_markKey, scb_updScb_ne _ _ hj]; rfl

/-- Settles O10: the three fetches that fail, each the end of the load. -/
theorem failedFetchEndsTheLoad : Obligations.FailedFetchEndsTheLoad := by
  intro s id tic rest b hw hr hb hd hh
  subst hb
  have stops {u : State} {r : LoadResult} (h : fetchCcw id (s.atLoad rest id tic) = .stop u r) :
      step s = .next (u.answer (.load r)) :=
    (step_loadCcw hw hr hd).1 _ _ ((beginLoad_fetches (s := s.atLoad rest id tic) hh).trans h)
  refine ⟨fun ha => ?_, fun ha he => ?_, fun ha he caw e hcaw hf => ?_⟩
  · obtain ⟨hscb, hirq, hout, hframe, hkeys⟩ := chanFault_spec id stPROG (s.atLoad rest id tic)
    exact ⟨_, stops (fetchCcw_misaligned rfl ha), rfl, hirq, hscb, hframe.others, hout.memory, hkeys,
      ((KeepsCalls.atLoad s rest id tic).trans hout.calls).trans (.answer _ _)⟩
  · exact stops (fetchCcw_abort rfl ha he)
  · have hskip : (s.scb id).skipOnModifier = { s.scb id with caw := caw, status := (s.scb id).status &&& ~~~stSM } := by
      rw [hcaw]; exact skipOnModifier_eq _
    have hpos : (s.scb id).skipOnModifier.caw = caw := by rw [hskip]
    have hfetch := (fetchCcw_reads (s := s.atLoad rest id tic) (id := id) rfl ha he).1 e
    rw [State.atLoad_scb, hpos] at hfetch
    obtain ⟨hscb, hirq, hout, hframe, hkeys⟩ :=
      chanFault_spec id e.bit ((s.atLoad rest id tic).updScb id Scb.skipOnModifier)
    refine ⟨_, stops (hfetch hf), rfl, hirq, ?_, fun j hj => (hframe.others j hj).trans (scb_updScb_ne _ _ hj),
      hout.memory, hkeys,
      (((KeepsCalls.atLoad s rest id tic).trans (.updScb _ id _)).trans hout.calls).trans (.answer _ _)⟩
    rw [State.scb_answer, hscb, scb_updScb_self, State.atLoad_scb, hskip]

end Sys2Proof.Machine
end

section
/-! What the load of one CCW does once it is fetched: its fields loaded or a check failed, then the device called or PCI raised
(spec/41_ccw_loader.md R118..R127). -/

namespace Sys2Proof.Machine

/-! ## The steps of the fields -/

theorem CommandCcw.source {i : Instr} {f : CcwFields} (h : CommandCcw i f) : i.source = .channel := by
  rcases h with rfl | rfl | rfl | rfl | rfl <;> rfl

/-- A CCW whose fields are loaded: a command, or one of class INVALID that continues a data chain (R84, R118). -/
def LoadsFields (i : Instr) (f : CcwFields) (b : Scb) : Prop := CommandCcw i f ∨ (i = .ccwInvalid f ∧ b.flags.cd = true)

theorem LoadsFields.source {i : Instr} {f : CcwFields} {b : Scb} (h : LoadsFields i f b) : i.source = .channel := by
  rcases h with h | ⟨rfl, -⟩
  · exact h.source
  · rfl

/-- The SCB when the second word is read: the fetch address there, and the code adopted unless a data chain continues (R118). -/
def Scb.atSecondWord (f : CcwFields) (b : Scb) : Scb :=
  { b with caw := b.caw + 4, cmd := if b.flags.cd then b.cmd else f.cmd }

section
variable {s : State} {id : ScbId} {b : Scb} {i : Instr} {f : CcwFields}

theorem LoadFrame.setScb (id : ScbId) (s : State) (b : Scb) : LoadFrame id s (s.setScb id b) := .updScb id s fun _ => b

theorem KeepsCalls.setScb (s : State) (id : ScbId) (b : Scb) : KeepsCalls s (s.setScb id b) := .updScb s id fun _ => b

theorem KeepsOutside.setScb (s : State) (id : ScbId) (b : Scb) : KeepsOutside s (s.setScb id b) := .updScb s id fun _ => b

@[simp] theorem accessFault_setScb (s : State) (id : ScbId) (b : Scb) (k : BitVec 4) (a : Addr) (w : Bool) :
    accessFault (s.setScb id b) k a w = accessFault s k a w := accessFault_updScb s id (fun _ => b) k a w

/-- Where the load of a command, or of a CCW of a data chain, comes to its second word (R118). -/
theorem runCcw_fields (tic : Bool) (hb : s.scb id = b) (hd : b.dev ≠ none) (hi : LoadsFields i f b) :
    runCcw id tic i s = loadFields id (!b.flags.cd) f (s.setScb id (b.atSecondWord f)) := by
  have hset : s.updScb id (fun b => { b with caw := b.caw + 4 }) = s.setScb id { b with caw := b.caw + 4 } := by
    rw [← hb]; rfl
  have command : loadCommand id f s = loadFields id (!b.flags.cd) f (s.setScb id (b.atSecondWord f)) := by
    unfold loadCommand Scb.atSecondWord
    dsimp only
    rw [scb_updScb_self, hb]
    cases hcd : b.flags.cd
    · simp only [Bool.false_eq_true, if_false, Bool.not_false]
      rw [updScb_updScb (by rw [hb]; exact hd), ← hb]; rfl
    · simp only [if_true, Bool.not_true]
      rw [hset]
  rcases hi with (rfl | rfl | rfl | rfl | rfl) | ⟨rfl, hcd⟩
  case inr =>
    change loadInvalid id f s = _
    unfold loadInvalid Scb.atSecondWord
    dsimp only
    rw [scb_updScb_self, hb, if_pos hcd, hset, hcd]
    rfl
  all_goals exact command

/-- A load whose second word, checks and first IDAW pass comes to its end (R119, R120, R122). -/
theorem runCcw_loaded (tic : Bool) (hb : s.scb id = b) (hd : b.dev ≠ none) (hi : LoadsFields i f b)
    (hf : FieldsLoad s b.key (b.caw + 4) f) :
    ∃ u, runCcw id tic i s = (if !b.flags.cd then dispatchCommand id b.flags.cc u else raisePci id u) ∧
      u.scb id = loadedScb s (b.caw + 4) f { b with cmd := if b.flags.cd then b.cmd else f.cmd } ∧ u.irq = s.irq ∧
      KeepsCalls s u ∧ LoadFrame id s u ∧
      (∀ p, u.keyAt p = if p = pageOf (b.caw + 4) ∨ (p = pageOf f.data ∧ (loadedFlags s.cfg b.flags f).ida = true)
        then s.keyAt p ||| 0x04 else s.keyAt p) := by
  obtain ⟨hsecond, hcount, hreserved, hidaw⟩ := hf
  have hv : FieldsLoad (s.setScb id (b.atSecondWord f)) b.key (b.caw + 4) f :=
    ⟨by simpa using hsecond, hcount, hreserved, by simpa using hidaw⟩
  obtain ⟨u, hu, hscb, hirq, hcalls, hframe, hkeys⟩ :=
    loadFields_ok (!b.flags.cd) (scb_setScb_self s id (b.atSecondWord f)) hv
  refine ⟨u, ?_, hscb, hirq, (KeepsCalls.setScb s id _).trans hcalls, (LoadFrame.setScb id s _).trans hframe, hkeys⟩
  rw [runCcw_fields tic hb hd hi, hu]
  rfl

/-- A second word that cannot be read (R119). -/
theorem loadFields_secondFault (new : Bool) (f : CcwFields) {e : MemFault} (hb : s.scb id = b)
    (hf : accessFault s b.key b.caw false = some e) :
    loadFields id new f s = failCheck id e.bit (s.updScb id fun b => { b with addr := f.data }) := by
  unfold loadFields
  simp only [scb_updScb_self, hb]
  rw [readWord_error (by simpa using hf)]

/-- A count of 0, and reserved bits where they are checked (R119). -/
theorem loadFields_badWord (new : Bool) (hb : s.scb id = b) (hf : accessFault s b.key b.caw false = none)
    (hbad : f.count = 0 ∨ (s.cfg.reservedFlagCheck = true ∧ f.flags.extractLsb' 0 2 ≠ 0)) :
    loadFields id new f s =
      failCheck id stPROG ((s.updScb id fun b => { b with addr := f.data }).markKey (pageOf b.caw) 0x04) := by
  unfold loadFields
  simp only [scb_updScb_self, hb]
  rw [readWord_ok (by simpa using hf)]
  dsimp only
  split
  · rfl
  · rename_i hcount
    obtain ⟨hcheck, hreserved⟩ := hbad.resolve_left hcount
    rw [if_pos]
    rw [State.markKey_cfg, State.updScb_cfg, hcheck, (reserved_iff _).2 hreserved]
    rfl

/-- A first IDAW that cannot be read: the fields are installed by then (R120, R122). -/
theorem loadFields_idawFault (new : Bool) {e : MemFault} (hb : s.scb id = b) (hf : accessFault s b.key b.caw false = none)
    (hcount : f.count ≠ 0) (hreserved : s.cfg.reservedFlagCheck = true → f.flags.extractLsb' 0 2 = 0)
    (hida : (flagsOfByte f.flags).ida = true) (hfeature : s.cfg.idaFeature = true)
    (hidaw : accessFault s b.key f.data false = some e) :
    loadFields id new f s = failCheck id e.bit
      (((s.updScb id fun b => { b with addr := f.data }).markKey (pageOf b.caw) 0x04).updScb id
        (Scb.installed b.flags f)) := by
  have hpass : ¬ (s.cfg.reservedFlagCheck && reservedFlagBits f.flags) = true := by
    rw [Bool.and_eq_true, reserved_iff]
    exact fun h => h.2 (hreserved h.1)
  unfold loadFields
  simp only [scb_updScb_self, hb]
  rw [readWord_ok (by simpa using hf)]
  dsimp only
  rw [if_neg hcount, State.markKey_cfg, State.updScb_cfg, if_neg hpass]
  unfold loadFirstIdaw
  simp only [scb_updScb_self, State.scb_markKey, hb, State.updScb_cfg, State.markKey_cfg, Scb.installed, installedFlags,
    hida, hfeature, if_true]
  rw [readWord_error (by simpa using hidaw)]

end

/-! ## The outcome of a CCW -/

section
variable {s u : State} {id : ScbId} {i : Instr}

/-- exec of a CCW for the bound SCB of the load is its load. -/
theorem exec_load (hi : i.source = .channel) (hid : id = s.loader.id) (hd : (s.scb id).dev ≠ none) :
    exec i s = .next ((runCcw id s.loader.ticAllowed i s).1.answer (.load (runCcw id s.loader.ticAllowed i s).2)) := by
  subst hid
  exact exec_run hi (Option.isSome_iff_ne_none.2 hd)

/-- A CCW that a check fails: the fault recorded on the state `u` the load had come to (R112). -/
theorem exec_failCheck {bit : Half} (hi : i.source = .channel) (hid : id = s.loader.id) (hd : (s.scb id).dev ≠ none)
    (hrun : runCcw id s.loader.ticAllowed i s = failCheck id bit u) (hcalls : KeepsCalls s u) (hframe : LoadFrame id s u) :
    ∃ t, exec i s = .next t ∧ t.result = .load (.fail .check) ∧ t.irq = true ∧ t.scb id = faultedScb bit (u.scb id) ∧
      KeepsCalls s t ∧ LoadFrame id s t ∧ KeepsKeys u t := by
  obtain ⟨hscb, hirq, hout, hfault, hkeys⟩ := chanFault_spec id bit u
  refine ⟨(chanFault id bit u).answer (.load (.fail .check)), ?_, rfl, hirq, hscb,
    (hcalls.trans hout.calls).trans (.answer _ _), (hframe.trans hfault).trans (.answer id _ _), hkeys⟩
  rw [exec_load hi hid hd, hrun]
  rfl

/-- A CCW whose load ends in `t`, whatever it answers. -/
theorem exec_of_run {t : State} {r : LoadResult} (hi : i.source = .channel) (hid : id = s.loader.id)
    (hd : (s.scb id).dev ≠ none) (hrun : runCcw id s.loader.ticAllowed i s = (t, r)) :
    exec i s = .next (t.answer (.load r)) := by
  rw [exec_load hi hid hd, hrun]

end

/-- Settles O14: the fields load, then the device accepts. -/
theorem newCommandStarts : Obligations.NewCommandStarts := by
  intro s i f a id b st hi hid hb hd hdev hcd hf hst ha
  have hbound : b.dev ≠ none := by rw [hd]; simp
  obtain ⟨u, hrun, hscb, hirq, hcalls, hframe, hkeys⟩ :=
    runCcw_loaded s.loader.ticAllowed hb.symm hbound (.inl hi) hf
  simp only [hcd, Bool.not_false, Bool.false_eq_true, if_true, if_false] at hrun hscb
  have hcmd : (u.scb id).cmd = f.cmd := by rw [hscb]; rfl
  have hudev : (u.scb id).dev = some a := by rw [hscb]; exact hd
  obtain ⟨t, ht, htscb, htirq, htcall, htframe, htkeys⟩ := dispatch_accepted b.flags.cc hudev
    (by rw [hframe.platform.cfg]; exact hdev) (by rw [hcmd, startCommand_congr hcalls]; exact hst) ha
  refine ⟨_, exec_of_run hi.source hid (hb ▸ hbound) (hrun.trans ht), rfl, ?_, ?_, ?_,
    (hframe.trans htframe).trans (.answer id _ _), fun p => (htkeys p).trans (hkeys p)⟩
  · rw [State.scb_answer, htscb, hscb]
  · rw [State.answer_irq, htirq, hirq, hscb]; rfl
  · rw [hcmd] at htcall
    exact (htcall.of_keeps hcalls).trans_keeps (.answer _ _)

/-- Settles O15: the fields load, then the device turns the command away. -/
theorem deviceMayTurnACommandAway : Obligations.DeviceMayTurnACommandAway := by
  intro s i f a id b l st hi hid hb hd hdev hcd hf hst ha hl
  have hbound : b.dev ≠ none := by rw [hd]; simp
  obtain ⟨u, hrun, hscb, hirq, hcalls, hframe, -⟩ :=
    runCcw_loaded s.loader.ticAllowed hb.symm hbound (.inl hi) hf
  simp only [hcd, Bool.not_false, Bool.false_eq_true, if_true, if_false] at hrun hscb
  rw [← hl] at hscb
  have hcmd : (u.scb id).cmd = f.cmd := by rw [hscb, hl]; rfl
  have hudev : (u.scb id).dev = some a := by rw [hscb, hl]; exact hd
  obtain ⟨t, r, ht, htcall, htframe, -, hheld, hbusy, herror⟩ := dispatch_away b.flags.cc hudev
    (by rw [hframe.platform.cfg]; exact hdev) (by rw [hcmd, startCommand_congr hcalls]; exact hst) ha
  rw [hcmd] at htcall
  rw [hscb, hirq] at hheld hbusy
  rw [hscb] at herror
  refine ⟨_, exec_of_run hi.source hid (hb ▸ hbound) (hrun.trans ht), (htcall.of_keeps hcalls).trans_keeps (.answer _ _),
    (hframe.trans htframe).trans (.answer id _ _), fun hst hcc => ?_, fun hst hcc => ?_, fun hst => ?_⟩
  · obtain ⟨h1, rfl, h3⟩ := hheld hst hcc; exact ⟨h1, rfl, h3⟩
  · obtain ⟨h1, rfl, h3⟩ := hbusy hst hcc; exact ⟨h1, rfl, h3⟩
  · obtain ⟨h1, rfl, h3⟩ := herror hst; exact ⟨h1, rfl, h3⟩

/-- Settles O16: the fields load, the command among them as it was, then PCI is raised. -/
theorem dataChainedCcwKeepsCommand : Obligations.DataChainedCcwKeepsCommand := by
  intro s i f id b hi hid hb hd hcd hf
  have hi' : LoadsFields i f b := hi.imp_right fun h => ⟨h, hcd⟩
  obtain ⟨u, hrun, hscb, hirq, hcalls, hframe, -⟩ := runCcw_loaded s.loader.ticAllowed hb.symm hd hi' hf
  simp only [hcd, Bool.not_true, Bool.false_eq_true, if_true, if_false] at hrun hscb
  obtain ⟨t, ht, htscb, htirq, htcalls, htframe, -⟩ := raisePci_spec id u
  rw [hscb] at htscb htirq
  refine ⟨_, exec_of_run hi'.source hid (hb ▸ hd) (hrun.trans ht), rfl, htscb, ?_, ?_,
    (hcalls.trans htcalls).trans (.answer _ _), (hframe.trans htframe).trans (.answer id _ _)⟩
  · rw [State.scb_answer, htscb, (pciRaised_keeps _).2.1]; rfl
  · rw [State.answer_irq, htirq, hirq]; rfl

/-- Settles O17: the five places where a load's checks fail, each with the SCB the load has come to. -/
theorem malformedCcwEndsTheProgram : Obligations.MalformedCcwEndsTheProgram := by
  intro s i f id b l hid hb hd hl
  have hbound : (s.scb id).dev ≠ none := hb ▸ hd
  refine ⟨fun hcd => ?_, fun hi => ?_⟩
  · have hrun : runCcw id s.loader.ticAllowed (.ccwInvalid f) s =
        failCheck id stPROG (s.updScb id fun b => { b with caw := b.caw + 4 }) := by
      change loadInvalid id f s = _
      unfold loadInvalid
      dsimp only
      rw [scb_updScb_self, ← hb, hcd]
      rfl
    obtain ⟨t, ht, hres, hirq, hscb, hcalls, hframe, hkeys⟩ :=
      exec_failCheck rfl hid hbound hrun (.updScb s id _) (.updScb id s _)
    rw [scb_updScb_self, ← hb] at hscb
    exact ⟨t, ht, hres, hirq, hscb, hcalls, hframe, hkeys⟩
  · have hfields := runCcw_fields s.loader.ticAllowed hb.symm hd hi
    have hv := scb_setScb_self s id (b.atSecondWord f)
    have hcalls := (KeepsCalls.setScb s id (b.atSecondWord f)).trans (.updScb _ id fun b => { b with addr := f.data })
    have hframe := (LoadFrame.setScb id s (b.atSecondWord f)).trans (.updScb id _ fun b => { b with addr := f.data })
    refine ⟨fun e hf => ?_, fun hf hbad => ?_, fun hf hcount hreserved hida hfeature e hidaw => ?_⟩
    · obtain ⟨t, ht, hres, hirq, hscb, htcalls, htframe, hkeys⟩ := exec_failCheck (LoadsFields.source hi) hid hbound
        (hfields.trans (loadFields_secondFault _ f (e := e) hv (by rw [accessFault_setScb]; exact hf))) hcalls hframe
      rw [scb_updScb_self, hv] at hscb
      exact ⟨t, ht, hres, hirq, by rw [hscb, hl]; rfl, htcalls, htframe, hkeys⟩
    · obtain ⟨t, ht, hres, hirq, hscb, htcalls, htframe, -⟩ := exec_failCheck (LoadsFields.source hi) hid hbound
        (hfields.trans (loadFields_badWord _ hv (by rw [accessFault_setScb]; exact hf) hbad)) (hcalls.trans (.markKey _ _ _))
        (hframe.trans (.markRead id _ _))
      rw [State.scb_markKey, scb_updScb_self, hv] at hscb
      exact ⟨t, ht, hres, hirq, by rw [hscb, hl]; rfl, htcalls, htframe⟩
    · obtain ⟨t, ht, hres, hirq, hscb, htcalls, htframe, -⟩ := exec_failCheck (LoadsFields.source hi) hid hbound
        (hfields.trans (loadFields_idawFault _ (e := e) hv (by rw [accessFault_setScb]; exact hf) hcount hreserved hida hfeature
          (by rw [accessFault_setScb]; exact hidaw)))
        ((hcalls.trans (.markKey _ _ _)).trans (.updScb _ id _))
        ((hframe.trans (.markRead id _ _)).trans (.updScb id _ _))
      rw [scb_updScb_self, State.scb_markKey, scb_updScb_self, hv] at hscb
      refine ⟨t, ht, hres, hirq, htcalls, htframe, hscb.trans ?_⟩
      simp [faultedScb, Scb.installed, loadedScb, loadedFlags, installedFlags, Scb.atSecondWord, hida, hfeature]

end Sys2Proof.Machine
end

section
/-! Transfer in channel: where it is checked, and that it runs the CCW at its target (spec/41_ccw_loader.md R121, R130). -/

namespace Sys2Proof.Machine

section
variable {s : State} {id : ScbId} {b : Scb} {target : Addr}

/-- The state with the fetch address redirected (R121). -/
def State.redirect (s : State) (id : ScbId) (target : Addr) : State := s.updScb id fun b => { b with caw := target }

theorem redirect_scb (hb : s.scb id = b) : (s.redirect id target).scb id = { b with caw := target } := by
  rw [← hb]; exact scb_updScb_self s id _

theorem KeepsCalls.redirect (s : State) (id : ScbId) (target : Addr) : KeepsCalls s (s.redirect id target) := .updScb s id _

theorem LoadFrame.redirect (id : ScbId) (s : State) (target : Addr) : LoadFrame id s (s.redirect id target) :=
  .updScb id s _

/-- A TIC that is not allowed (R121). -/
theorem ccwTic_notAllowed (id : ScbId) (target : Addr) (s : State) :
    ccwTic id false target s = failCheck id stPROG s := rfl

/-- An allowed TIC whose target is not fetched ends as that fetch does (R121). -/
theorem ccwTic_stops {u : State} {r : LoadResult} (h : fetchCcw id (s.redirect id target) = .stop u r) :
    ccwTic id true target s = (u, r) := by
  unfold State.redirect at h
  unfold ccwTic
  rw [if_pos rfl, h]

/-- An allowed TIC runs the CCW it fetches (R121). -/
theorem ccwTic_runs {u : State} {i : Instr} (h : fetchCcw id (s.redirect id target) = .ccw i u) :
    ccwTic id true target s = runTicTarget id i u := by
  unfold State.redirect at h
  unfold ccwTic
  rw [if_pos rfl, h]

/-- A TIC's target that is no TIC runs as a CCW of its own does (R121, R130). -/
theorem runTicTarget_eq_runCcw (tic : Bool) {i : Instr} (h : ∀ cmd target second, i ≠ .ccwTic cmd target second) (u : State) :
    runTicTarget id i u = runCcw id tic i u := by
  cases i with
  | ccwTic cmd target second => exact absurd rfl (h cmd target second)
  | _ => rfl

/-- The state a TIC's target is fetched to, with no status modifier set (R116, R117, R121). -/
def State.atTarget (s : State) (id : ScbId) (target : Addr) : State :=
  ((s.redirect id target).updScb id Scb.skipOnModifier).markKey (pageOf target) 0x04

variable (hb : s.scb id = b) (ha : target.toNat % 8 = 0) (he : anyBits b.status (chanErr ||| stSM) = false)
include hb ha he

/-- The fetch at an aligned target, no error bit and no status modifier set (R114 to R117). -/
theorem fetchTarget_reads :
    (∀ e, accessFault s b.key target false = some e →
      fetchCcw id (s.redirect id target) =
        .stop (chanFault id e.bit ((s.redirect id target).updScb id Scb.skipOnModifier)) (.fail .check)) ∧
    (accessFault s b.key target false = none →
      fetchCcw id (s.redirect id target) =
        .ccw (decodeCcw (s.wordAt target) (s.wordAt (target + 4))) (s.atTarget id target)) := by
  obtain ⟨herror, hmodifier⟩ := Bool.or_eq_false_iff.1 ((anyBits_mask_or _ _ _).symm.trans he)
  have h := fetchCcw_reads (redirect_scb (target := target) hb) ha herror
  rw [skipOnModifier_of_clear (b := { b with caw := target }) hmodifier] at h
  simpa [State.redirect, State.atTarget] using h

omit ha in
theorem skipped_redirect_scb :
    ((s.redirect id target).updScb id Scb.skipOnModifier).scb id = { b with caw := target } := by
  obtain ⟨-, hmodifier⟩ := Bool.or_eq_false_iff.1 ((anyBits_mask_or _ _ _).symm.trans he)
  rw [scb_updScb_self, redirect_scb hb]
  exact skipOnModifier_of_clear hmodifier

omit ha in
theorem atTarget_scb : (s.atTarget id target).scb id = { b with caw := target } := by
  unfold State.atTarget
  rw [State.scb_markKey, skipped_redirect_scb hb he]

end

theorem LoadFrame.atTarget (id : ScbId) (s : State) (target : Addr) : LoadFrame id s (s.atTarget id target) :=
  ((LoadFrame.redirect id s target).trans (.updScb id _ _)).trans (.markRead id _ _)

theorem KeepsCalls.atTarget (s : State) (id : ScbId) (target : Addr) : KeepsCalls s (s.atTarget id target) :=
  ((KeepsCalls.redirect s id target).trans (.updScb _ id _)).trans (.markKey _ _ _)

/-- Settles O18: a TIC not allowed, and the three fetches of a target that end its load. -/
theorem ticPlacementIsChecked : Obligations.TicPlacementIsChecked := by
  intro s cmd target second id b hid hb hd
  have hbound : (s.scb id).dev ≠ none := hb ▸ hd
  have run (htic : s.loader.ticAllowed = true) {r : State × LoadResult} (h : ccwTic id true target s = r) :
      runCcw id s.loader.ticAllowed (.ccwTic cmd target second) s = r := by rw [htic]; exact h
  refine ⟨fun htic => ?_, fun htic ha he hf hclass => ?_, fun htic ha => ?_, fun htic ha he e hf => ?_⟩
  · obtain ⟨t, ht, hres, hirq, hscb, hcalls, hframe, hkeys⟩ := exec_failCheck (i := .ccwTic cmd target second) rfl hid hbound
      (by rw [htic]; exact ccwTic_notAllowed id target s) (.refl s) (.refl id s)
    exact ⟨t, ht, hres, hirq, hb ▸ hscb, hcalls, hframe, hkeys⟩
  · have hruns := ccwTic_runs ((fetchTarget_reads hb.symm ha he).2 hf)
    rw [decodeCcw_tic (by rw [commandCode_eq_byteAt s ha]; exact hclass)] at hruns
    obtain ⟨t, ht, hres, hirq, hscb, hcalls, hframe, -⟩ := exec_failCheck (i := .ccwTic cmd target second) rfl hid hbound
      (run htic hruns) (.atTarget s id target) (.atTarget id s target)
    rw [atTarget_scb hb.symm he] at hscb
    exact ⟨t, ht, hres, hirq, hscb, hcalls, hframe⟩
  · have hstops := ccwTic_stops (fetchCcw_misaligned (redirect_scb (target := target) hb.symm) ha)
    obtain ⟨t, ht, hres, hirq, hscb, hcalls, hframe, hkeys⟩ := exec_failCheck (i := .ccwTic cmd target second) rfl hid hbound
      (run htic hstops) (.redirect s id target) (.redirect id s target)
    rw [redirect_scb hb.symm] at hscb
    exact ⟨t, ht, hres, hirq, hscb, hcalls, hframe, hkeys⟩
  · have hstops := ccwTic_stops ((fetchTarget_reads hb.symm ha he).1 e hf)
    obtain ⟨t, ht, hres, hirq, hscb, hcalls, hframe, hkeys⟩ := exec_failCheck (i := .ccwTic cmd target second) rfl hid hbound
      (run htic hstops) ((KeepsCalls.redirect s id target).trans (.updScb _ id _))
      ((LoadFrame.redirect id s target).trans (.updScb id _ _))
    rw [skipped_redirect_scb hb.symm he] at hscb
    exact ⟨t, ht, hres, hirq, hscb, hcalls, hframe, hkeys⟩

/-- exec of an allowed TIC is exec of the CCW at its target, at the state fetched to (R121, R130). -/
theorem exec_tic {s : State} {cmd : Byte} {target : Addr} {second : Word} {i : Instr} {id : ScbId} {b : Scb}
    (hid : id = s.loader.id) (hb : b = s.scb id) (hd : b.dev ≠ none) (htic : s.loader.ticAllowed = true)
    (ha : target.toNat % 8 = 0) (he : anyBits b.status (chanErr ||| stSM) = false)
    (hf : accessFault s b.key target false = none) (hi : decode .channel (eightBytes s target) = .ok i)
    (hclass : classOf (s.byteAt target.toNat) ≠ .tic) :
    i.source = .channel ∧ exec (.ccwTic cmd target second) s = exec i (s.atTarget id target) := by
  have hscb : (s.atTarget id target).scb id = { b with caw := target } := atTarget_scb hb.symm he
  cases (decode_eightBytes s ha).symm.trans hi
  refine ⟨decodeCcw_source _ _, ?_⟩
  have hother (c : Byte) (d : Addr) (w : Word) : decodeCcw (s.wordAt target) (s.wordAt (target + 4)) ≠ .ccwTic c d w :=
    fun h => hclass (by rw [← commandCode_eq_byteAt s ha]; exact classOf_of_decodeCcw_eq_tic h)
  have hrun : runCcw id s.loader.ticAllowed (.ccwTic cmd target second) s =
      runCcw id s.loader.ticAllowed (decodeCcw (s.wordAt target) (s.wordAt (target + 4))) (s.atTarget id target) := by
    rw [← runTicTarget_eq_runCcw _ hother, ← ccwTic_runs ((fetchTarget_reads hb.symm ha he).2 hf), htic]
    rfl
  have hloader : (s.atTarget id target).loader = s.loader := rfl
  rw [exec_load rfl hid (hb ▸ hd), hrun, exec_load (decodeCcw_source _ _) (hloader ▸ hid) (by rw [hscb]; exact hd), hloader]

/-- Settles O19: the redirected fetch leads to the target's CCW, whose load keeps the frame of a load. -/
theorem ticRunsItsTarget : Obligations.TicRunsItsTarget := by
  intro s cmd target second i id b hid hb hd htic ha he hf hi hclass
  have hscb : (s.atTarget id target).scb id = { b with caw := target } := atTarget_scb hb.symm he
  obtain ⟨hsource, hexec⟩ := exec_tic (cmd := cmd) (second := second) hid hb hd htic ha he hf hi hclass
  have hframe := LoadFrame.atTarget id s target
  refine ⟨s.atTarget id target, _, hexec, exec_load hsource (hframe.platform.loader ▸ hid) (by rw [hscb]; exact hd), hscb,
    fun p => keyAt_markKey _ _ _ _, rfl, hframe.others, ?_⟩
  exact ((loadFrame_closed id s).run _ i hframe).trans (.answer id _ _)

theorem CommandCcw.ne_tic {i : Instr} {f : CcwFields} (h : CommandCcw i f) (cmd : Byte) (target : Addr) (second : Word) :
    i ≠ .ccwTic cmd target second := by
  rcases h with rfl | rfl | rfl | rfl | rfl <;> exact Instr.noConfusion

/-- Settles O20: the target's command starts (O14) at the state fetched to. -/
theorem ticStartsTheCommandAtItsTarget : Obligations.TicStartsTheCommandAtItsTarget := by
  intro s cmd target second i f a id b st hi hid hb hd hdev hcd htic ha he hf hdecode hload hst haccept
  have hscb : (s.atTarget id target).scb id = { b with caw := target } := atTarget_scb hb.symm he
  have hcalls := KeepsCalls.atTarget s id target
  have hframe := LoadFrame.atTarget id s target
  have hclass : classOf (s.byteAt target.toNat) ≠ .tic := by
    intro h
    rw [← commandCode_eq_byteAt s ha (s.wordAt (target + 4))] at h
    cases (decode_eightBytes s ha).symm.trans hdecode
    exact hi.ne_tic _ _ _ (decodeCcw_tic h)
  have hexec := (exec_tic (cmd := cmd) (second := second) hid hb (by rw [hd]; simp) htic ha he hf hdecode hclass).2
  have hloads : FieldsLoad (s.atTarget id target) b.key (target + 4) f := by
    obtain ⟨hsecond, hcount, hreserved, hidaw⟩ := hload
    have hkept := accessFault_kept (s := s) (t := s.atTarget id target) rfl hframe.keys.access
    exact ⟨(hkept _ _ _).trans hsecond, hcount, hreserved, fun h1 h2 => (hkept _ _ _).trans (hidaw h1 h2)⟩
  obtain ⟨t, ht, hres, htscb, hirq, hcall, htframe, -⟩ := newCommandStarts (s.atTarget id target) i f a id
    { b with caw := target } st hi hid hscb.symm hd hdev hcd hloads (by rw [startCommand_congr hcalls]; exact hst) haccept
  refine ⟨t, hexec.trans ht, hres, htscb.trans ?_, hirq, hcall.of_keeps hcalls, hframe.trans htframe⟩
  have hword : (s.atTarget id target).wordAt f.data = s.wordAt f.data := wordAt_congr fun x _ => hframe.memory x
  unfold loadedScb
  rw [hword]
  rfl

end Sys2Proof.Machine
end

section
/-! The calls a CCW makes, its frame, and the only fault of a step (spec/41_ccw_loader.md R110; spec/60_exceptions.md R230). -/

namespace Sys2Proof.Machine

/-! ## The calls of a load -/

/-- From `s` to `t` at most one call was made, a `start_command` to the device the SCB is bound to in `s` (R123). -/
def CallsAtMostOnce (id : ScbId) (s t : State) : Prop :=
  KeepsCalls s t ∨ ∃ a op, (s.scb id).dev = some a ∧ CalledStart a op s t

section
variable {id : ScbId} {s u t : State}

theorem CallsAtMostOnce.before (h : CallsAtMostOnce id u t) (hk : KeepsCalls s u) (hd : (u.scb id).dev = (s.scb id).dev) :
    CallsAtMostOnce id s t := by
  rcases h with h | ⟨a, op, ha, h⟩
  · exact .inl (hk.trans h)
  · exact .inr ⟨a, op, hd ▸ ha, h.of_keeps hk⟩

theorem KeepsCalls.chanFault (id : ScbId) (bit : Half) (s : State) : KeepsCalls s (chanFault id bit s) :=
  (KeepsCalls.updScb s id _).trans (.raiseIrq _)

theorem KeepsCalls.raisePci (id : ScbId) (s : State) : KeepsCalls s (raisePci id s).1 := by
  obtain ⟨v, hv, -, -, hcalls, -⟩ := raisePci_spec id s
  rw [hv]; exact hcalls

/-- What the device's answer does calls no device (R124 to R127). -/
theorem KeepsCalls.afterStart (id : ScbId) (chained : Bool) (st : Byte) (s : State) :
    KeepsCalls s (afterStart id chained st s).1 := by
  unfold Machine.afterStart
  split
  · split <;> dsimp only <;> exact .updScb s id _
  · split
    · exact (KeepsCalls.updScb s id _).trans (.raiseIrq _)
    · split
      · refine KeepsCalls.trans ?_ (.raisePci id _)
        split
        · exact (KeepsCalls.updScb s id _).trans (.raiseIrq _)
        · exact .updScb s id _
      · exact .raisePci id s

theorem dispatchCommand_calls (id : ScbId) (chained : Bool) (s : State) :
    CallsAtMostOnce id s (dispatchCommand id chained s).1 := by
  unfold dispatchCommand
  cases hd : (s.scb id).dev with
  | none => exact .inl (.chanFault id stPROG s)
  | some a =>
    dsimp only
    cases findDevice s.cfg a with
    | none => exact .inl (.chanFault id stPROG s)
    | some dev =>
      exact .inr ⟨a, _, hd, ((startCommand_called a _ s).trans_keeps (.updScb _ id _)).trans_keeps (.afterStart id _ _ _)⟩

theorem loadFields_calls (id : ScbId) (new : Bool) (f : CcwFields) (s : State) :
    CallsAtMostOnce id s (loadFields id new f s).1 := by
  refine CallsAtMostOnce.before ?_ (.updScb s id fun b => { b with addr := f.data }) (by rw [scb_updScb_self])
  unfold loadFields
  dsimp only
  generalize s.updScb id (fun b => { b with addr := f.data }) = v
  rcases readWord_cases v (v.scb id).key (v.scb id).caw with ⟨e, -, hr⟩ | ⟨-, hr⟩ <;> rw [hr] <;> dsimp only
  · exact .inl (.chanFault id _ v)
  · refine CallsAtMostOnce.before ?_ (.markKey v (pageOf (v.scb id).caw) 0x04) rfl
    split
    · exact .inl (.chanFault id _ _)
    · split
      · exact .inl (.chanFault id _ _)
      · refine CallsAtMostOnce.before (u := (v.markKey (pageOf (v.scb id).caw) 0x04).updScb id
          (Scb.installed (s.scb id).flags f)) ?_ (.updScb _ id _) (by rw [scb_updScb_self]; rfl)
        split
        · exact .inl (.chanFault id _ _)
        · rename_i w hw
          obtain ⟨hcalls, -⟩ := loadFirstIdaw_keeps hw
          have hbinding := (sameBinding_closed id _).firstIdaw hw ⟨rfl, rfl, rfl, rfl⟩
          refine CallsAtMostOnce.before ?_ hcalls hbinding.1
          split
          · exact dispatchCommand_calls id _ w
          · exact .inl (.raisePci id w)

theorem loadCommand_calls (id : ScbId) (f : CcwFields) (s : State) : CallsAtMostOnce id s (loadCommand id f s).1 := by
  refine CallsAtMostOnce.before ?_ (.updScb s id fun b => { b with caw := b.caw + 4 }) (by rw [scb_updScb_self])
  unfold loadCommand
  dsimp only
  split
  · exact loadFields_calls ..
  · exact (loadFields_calls ..).before (.updScb _ id _) (by rw [scb_updScb_self])

theorem loadInvalid_calls (id : ScbId) (f : CcwFields) (s : State) : CallsAtMostOnce id s (loadInvalid id f s).1 := by
  refine CallsAtMostOnce.before ?_ (.updScb s id fun b => { b with caw := b.caw + 4 }) (by rw [scb_updScb_self])
  unfold loadInvalid
  dsimp only
  split
  · exact loadFields_calls ..
  · exact .inl (.chanFault id _ _)

theorem runTicTarget_calls (id : ScbId) (i : Instr) (s : State) : CallsAtMostOnce id s (runTicTarget id i s).1 := by
  cases i with
  | ccwWrite f | ccwRead f | ccwControl f | ccwSense f | ccwRdbwd f => exact loadCommand_calls id f s
  | ccwInvalid f => exact loadInvalid_calls id f s
  | ccwTic | sio | tio | hio | tch => exact .inl (.chanFault id _ s)

/-- A fetch calls no device (R114 to R117). -/
theorem fetchCcw_calls (id : ScbId) (s : State) : KeepsCalls s (fetchCcw id s).state := by
  rcases fetchCcw_chained id s with ⟨u, r, h, hchained⟩ | ⟨i, u, h, hcalls, -⟩ <;> rw [h]
  · exact hchained.calls
  · exact hcalls

theorem ccwTic_calls (id : ScbId) (tic : Bool) (target : Addr) (s : State) :
    CallsAtMostOnce id s (ccwTic id tic target s).1 := by
  cases tic with
  | false => exact .inl (.chanFault id stPROG s)
  | true =>
    have hcalls := (KeepsCalls.redirect s id target).trans (fetchCcw_calls id (s.redirect id target))
    have hbinding := (sameBinding_closed id (s.scb id)).fetch (s := s.redirect id target)
      (by rw [redirect_scb rfl]; exact ⟨rfl, rfl, rfl, rfl⟩)
    cases h : fetchCcw id (s.redirect id target) with
    | stop u r => rw [h] at hcalls; rw [ccwTic_stops h]; exact .inl hcalls
    | ccw i u =>
      rw [h] at hcalls hbinding
      rw [ccwTic_runs h]
      exact (runTicTarget_calls id i u).before hcalls hbinding.1

/-- The load of a CCW makes at most one call (R110, R123). -/
theorem runCcw_calls (id : ScbId) (tic : Bool) (i : Instr) (s : State) : CallsAtMostOnce id s (runCcw id tic i s).1 := by
  cases i with
  | ccwWrite f | ccwRead f | ccwControl f | ccwSense f | ccwRdbwd f => exact loadCommand_calls id f s
  | ccwInvalid f => exact loadInvalid_calls id f s
  | ccwTic cmd target second => exact ccwTic_calls id tic target s
  | sio | tio | hio | tch => exact .inl (.chanFault id stPROG s)

end

/-- A load clears no IRQ. -/
theorem keepsIrq_closed (id : ScbId) : LoadClosed id fun s => s.irq = true where
  upd _ _ _ _ h := h
  updIrq _ _ _ _ _ := rfl
  irq _ _ := rfl
  mark _ _ h := h
  start s a op h := by rwa [startCommand_irq]

/-- Settles O22: frame, binding and IRQ are closed properties of loads; the calls are counted along the load. -/
theorem ccwChangesOnlyItsSubchannel : Obligations.CcwChangesOnlyItsSubchannel := by
  intro s i hi hd
  obtain ⟨hdev, hbind, hkey, hbuf⟩ :=
    (sameBinding_closed s.loader.id (s.scb s.loader.id)).run s.loader.ticAllowed i (s := s) ⟨rfl, rfl, rfl, rfl⟩
  refine ⟨_, _, exec_load hi rfl hd, rfl, ?_, hdev, hbind, hkey, hbuf, ?_, ?_⟩
  · exact ((loadFrame_closed _ s).run _ i (.refl _ s)).trans (.answer _ _ _)
  · exact (keepsIrq_closed s.loader.id).run _ i
  · exact (runCcw_calls s.loader.id s.loader.ticAllowed i s).imp (fun h => h.trans (.answer _ _))
      fun ⟨a, op, ha, h⟩ => ⟨a, op, ha, h.trans_keeps (.answer _ _)⟩

/-! ## The fault of a step -/

/-- What a load that comes to a CCW has fetched, and the SCB's binding there (R114 to R117). -/
theorem beginLoad_ccw {id : ScbId} {s u : State} {i : Instr} (h : beginLoad id s = .ccw i u) :
    i.source = .channel ∧ SameBinding (s.scb id) (u.scb id) ∧ LoadFrame id s u := by
  have hframe := (loadFrame_closed id s).begin (.refl id s)
  have hbinding := (sameBinding_closed id (s.scb id)).begin (s := s) ⟨rfl, rfl, rfl, rfl⟩
  rw [h] at hframe hbinding
  refine ⟨?_, hbinding, hframe⟩
  unfold beginLoad at h
  split at h
  · cases h
  · exact fetchCcw_source h

/-- A load request for a bound SCB answers a next state (R110; log 9). -/
theorem step_loadCcw_next {s : State} {id : ScbId} {tic : Bool} {rest : List Request} (hw : configWf s.cfg = true)
    (hr : s.requests = .loadCcw id tic :: rest) (hd : (s.scb id).dev ≠ none) : ∃ t, step s = .next t := by
  obtain ⟨hstop, hccw⟩ := step_loadCcw hw hr hd
  cases h : beginLoad id (s.atLoad rest id tic) with
  | stop u r => exact ⟨_, hstop u r h⟩
  | ccw i u =>
    obtain ⟨hsource, hbinding, hframe⟩ := beginLoad_ccw h
    have hid : id = u.loader.id := by rw [hframe.platform.loader]; rfl
    exact ⟨_, (hccw i u h).trans (exec_load hsource hid (by rw [hbinding.1]; exact hd))⟩

theorem ccOutcome_ne_fault (i2 : Byte) (s : State) (r : State × BitVec 2) (f : Fault) : ccOutcome i2 s r ≠ .fault f := by
  unfold ccOutcome; split <;> nofun

/-- The CPU's instruction word answers a next state or is refused (spec/30_encoding.md R70, R71). -/
theorem fetchInstruction_ne_fault (w : Word) (s : State) (f : Fault) : runFetched (fetchInstruction w s) ≠ .fault f := by
  unfold fetchInstruction
  cases h : decode .cpu (bytesOfWord w) with
  | error e => nofun
  | ok i =>
    have hsource := decode_cpu_source h
    cases i with
    | sio | tio | hio | tch => exact ccOutcome_ne_fault _ s _ f
    | _ => cases hsource

/-- Every request but a load answers a next state or is refused. -/
theorem fetchRequest_ne_fault {r : Request} (h : ∀ id tic, r ≠ .loadCcw id tic) (s : State) (f : Fault) :
    runFetched (fetchRequest r s) ≠ .fault f := by
  cases r with
  | loadCcw id tic => exact absurd rfl (h id tic)
  | instruction w => exact fetchInstruction_ne_fault w s f
  | reset channels => unfold fetchRequest runRequest; dsimp only [runFetched]; split <;> nofun
  | cpuStore a b => change cpuStore a b s ≠ _; unfold cpuStore; split <;> nofun
  | cpuSetKey a k => change cpuSetKey a k s ≠ _; unfold cpuSetKey; split <;> nofun
  | _ => nofun

/-- Settles O12: of all requests only the load of an unbound SCB leads to the fault. -/
theorem stepFaultsOnlyOnUnboundLoad : Obligations.StepFaultsOnlyOnUnboundLoad := by
  intro s f hw
  constructor
  · intro hf
    cases hr : s.requests with
    | nil => unfold step at hf; rw [if_pos hw, hr] at hf; cases hf
    | cons r rest =>
      by_cases hload : ∃ id tic, r = .loadCcw id tic
      · obtain ⟨id, tic, rfl⟩ := hload
        refine ⟨id, tic, rest, rfl, ?_⟩
        by_contra hd
        obtain ⟨t, ht⟩ := step_loadCcw_next hw hr hd
        rw [ht] at hf; cases hf
      · rw [step_request hw hr] at hf
        exact absurd hf (fetchRequest_ne_fault (fun id tic h => hload ⟨id, tic, h⟩) _ f)
  · rintro ⟨id, tic, rest, hr, hd⟩
    cases f
    exact step_loadCcw_unbound hw hr hd

/-! ## A held chain -/

/-- Settles O21: the load of a held chain is the dispatch of its command on the resumed SCB. -/
theorem heldChainResumes : Obligations.HeldChainResumes := by
  intro s id tic rest a b r st hw hr hb hd hheld hdev hst hres
  subst hb
  have hv : ((s.atLoad rest id tic).updScb id Scb.resumed).scb id = r := by
    rw [scb_updScb_self, hres]; rfl
  generalize hvs : (s.atLoad rest id tic).updScb id Scb.resumed = v at hv
  have hcalls : KeepsCalls s v := hvs ▸ (KeepsCalls.atLoad s rest id tic).trans (.updScb _ id _)
  have hothers : KeepsScbsBut id s v := fun j hj => by rw [← hvs, scb_updScb_ne _ _ hj]; rfl
  have hmemory : KeepsMemory s v := by subst hvs; exact fun _ => rfl
  have hkeys : KeepsKeys s v := by subst hvs; exact fun _ => rfl
  have hirq : v.irq = s.irq := by subst hvs; rfl
  have hcfg : v.cfg = s.cfg := by subst hvs; rfl
  have hrdev : (v.scb id).dev = some a := by rw [hv, hres]; exact hd
  have hcmd : (v.scb id).cmd = (s.scb id).cmd := by rw [hv, hres]
  have hvdev : (findDevice v.cfg a).isSome = true := by rw [hcfg]; exact hdev
  have hvst : st = (startCommand a (v.scb id).cmd v).1 := by rw [hcmd, startCommand_congr hcalls]; exact hst
  have hstep {t : State} {x : LoadResult} (h : dispatchCommand id true v = (t, x)) : step s = .next (t.answer (.load x)) := by
    have hbegin := beginLoad_resumes (s := s.atLoad rest id tic) (id := id) hheld
    rw [hvs, h] at hbegin
    exact (step_loadCcw hw hr (by rw [hd]; simp)).1 _ _ hbegin
  by_cases ha : accepts st = true
  · obtain ⟨t, ht, hscb, htirq, hcall, hframe, htkeys⟩ := dispatch_accepted true hrdev hvdev hvst ha
    rw [hcmd] at hcall
    rw [hv] at hscb htirq
    obtain ⟨hbusy, herror⟩ := (accepts_iff st).1 ha
    refine ⟨_, hstep ht, (hcall.of_keeps hcalls).trans_keeps (.answer _ _), hothers.trans hframe.others,
      hmemory.trans hframe.memory, hkeys.trans htkeys, fun h => ?_, fun _ => ⟨rfl, hscb, ?_⟩, fun _ h => ?_⟩
    · exact absurd ((anyBits_false_iff _ _).1 hbusy) h
    · rw [State.answer_irq, htirq, hirq, hres]
    · exact absurd ((anyBits_false_iff _ _).1 herror) h
  · obtain ⟨t, x, ht, hcall, hframe, htkeys, hagain, -, herror⟩ :=
      dispatch_away true hrdev hvdev hvst (Bool.eq_false_iff.2 ha)
    rw [hcmd] at hcall
    rw [hv] at hagain herror
    refine ⟨_, hstep ht, (hcall.of_keeps hcalls).trans_keeps (.answer _ _), hothers.trans hframe.others,
      hmemory.trans hframe.memory, hkeys.trans htkeys, fun h => ?_, fun h => absurd h ha, fun h _ => ?_⟩
    · obtain ⟨htirq, rfl, hscb⟩ := hagain h rfl
      refine ⟨rfl, hscb.trans ?_, htirq.trans hirq⟩
      rw [hres, ← hheld]
    · obtain ⟨htirq, rfl, hscb⟩ := herror h
      exact ⟨rfl, htirq, hscb⟩

end Sys2Proof.Machine
end

section
/-! Data chaining (spec/42_transfer.md R144, R146, R158; spec/41_ccw_loader.md R137). -/

namespace Sys2Proof.Machine

/-! ## The position -/

/-- A byte that is not its word's last leaves the position in the same word (R142, R143). -/
theorem wordAddr_stepAddr {cmd : Byte} {p : Addr} (h : lastOffset cmd (byteOffset p) = false) :
    wordAddr (stepAddr cmd p) = wordAddr p := by
  have hoff := byteOffset_val p
  have hlt := p.isLt
  have ne_of {k : BitVec 2} {n : Nat} (hk : k.toNat = n) (h : (byteOffset p == k) = false) : p.toNat % 4 ≠ n := by
    rw [← hoff, ← hk]
    exact fun he => beq_eq_false_iff_ne.1 h (BitVec.eq_of_toNat_eq he)
  unfold lastOffset at h
  apply BitVec.eq_of_toNat_eq
  rw [wordAddr_toNat, wordAddr_toNat]
  unfold stepAddr
  split <;> rename_i hback
  · rw [if_pos hback] at h
    have hne := ne_of (n := 0) rfl h
    bv_omega
  · rw [if_neg hback] at h
    have hne := ne_of (n := 3) rfl h
    bv_omega

/-- The moved position (R143). -/
theorem movedScb_position (b : Scb) : (movedScb b).position = stepAddr b.cmd b.position := by
  rw [← Scb.move_position, ← Scb.move_eq]; rfl

/-- In an active command the register's offset is that of the position (spec/10_state.md R30). -/
theorem RegisterOk.offset {b : Scb} (h : RegisterOk b) (hc : b.cmd ≠ 0) : registerOffset b = byteOffset b.position := by
  obtain ⟨-, hoff, -⟩ := h
  unfold registerOffset
  cases hb : b.boff with
  | none => rfl
  | some k => exact hoff hc k hb

/-- A command that transfers is active (spec/30_encoding.md R77). -/
theorem Transfers.active {dir : Direction} {a : DevAddr} {id : ScbId} {s : State} (h : Transfers dir a id s) :
    (s.scb id).cmd ≠ 0 := by
  intro hc
  have hdir := h.direction
  rw [hc] at hdir
  cases dir <;> exact absurd hdir (by decide)

/-- A byte that is not the register's last leaves the position of an active command in its word (R142, R143). -/
theorem wordAddr_movedScb {b : Scb} (hr : RegisterOk b) (hc : b.cmd ≠ 0)
    (hlast : lastOffset b.cmd (registerOffset b) = false) : wordAddr (movedScb b).position = wordAddr b.position := by
  rw [hr.offset hc] at hlast
  rw [movedScb_position, wordAddr_stepAddr hlast]

/-- Two addresses in one word: access, contents, bytes and page are the same (spec/20_memory.md R51, R53, R57). -/
theorem eq_of_wordAddr_eq {p q : Addr} (h : wordAddr q = wordAddr p) (t : State) :
    (∀ k w, accessFault t k q w = accessFault t k p w) ∧ t.wordAt q = t.wordAt p ∧ inWordOf q = inWordOf p ∧
      pageOf q = pageOf p := by
  refine ⟨fun k w => ?_, ?_, ?_, ?_⟩
  · rw [← accessFault_wordAddr, h, accessFault_wordAddr]
  · unfold State.wordAt; rw [h]
  · unfold inWordOf
    rw [← wordAddr_toNat, ← wordAddr_toNat, h]
  · rw [← pageOf_wordAddr, h, pageOf_wordAddr]

/-! ## The chain at the last byte -/

section
variable {s u : State} {a : DevAddr} {id : ScbId} {b d : Scb}

/-- The last byte of a CCW that chains data, on a state `u` whose SCB the call has moved to `d`: the data chain follows (R158). -/
theorem finishByte_dataChain {dir : Direction} (hT : Transfers dir a id s) (hb : b = s.scb id) (hl : lastOfDataChain b)
    (hu : u.scb id = d) (hdev : d.dev = b.dev) (hcount : d.count = b.count) (hflags : d.flags = b.flags)
    (hstatus : d.status = b.status) : finishByte id u = (dataChain id (u.setScb id (movedScb d))).1 := by
  obtain ⟨-, hbound, herror, -⟩ := hT
  obtain ⟨hone, hcd⟩ := hl
  subst hb hu
  exact finishByte_chains (hdev.trans hbound) ⟨hcount.trans hone, hflags ▸ hcd⟩ (hstatus ▸ herror)

end

/-- A data chain whose dirty register is stored is the load that follows (R146, R152). -/
theorem dataChain_stores {id : ScbId} {s : State} (hd : (s.scb id).dirty = true)
    (hf : accessFault s (s.scb id).key (s.scb id).position true = none) :
    (dataChain id s).1 = (loadNextCcw id true (flushDirty id s).1).1 := by
  rcases flushDirty_cases id s with ⟨hc, -⟩ | ⟨-, e, he, -⟩ | ⟨-, -, h⟩
  · rw [hd] at hc; cases hc
  · rw [hf] at he; cases he
  · unfold dataChain; rw [h]

/-- A data chain whose dirty register may not be stored records the fault instead of the load (R146, R152). -/
theorem dataChain_faults {id : ScbId} {s : State} {e : MemFault} (hd : (s.scb id).dirty = true)
    (hf : accessFault s (s.scb id).key (s.scb id).position true = some e) : dataChain id s = (chanFault id e.bit s, false) := by
  rcases flushDirty_cases id s with ⟨hc, -⟩ | ⟨-, e', he, h⟩ | ⟨-, hn, -⟩
  · rw [hd] at hc; cases hc
  · rw [hf] at he; cases he
    unfold dataChain; rw [h]
  · rw [hf] at hn; cases hn

/-- The flush of a register that can be stored raises no IRQ (R152). -/
theorem flushDirty_irq {id : ScbId} {s : State} (h : flushes s (s.scb id)) : (flushDirty id s).1.irq = s.irq := by
  obtain ⟨hdirty, haccess⟩ := h
  rcases flushDirty_cases id s with ⟨hc, -⟩ | ⟨-, e, he, -⟩ | ⟨-, -, h⟩
  · rw [hdirty] at hc; cases hc
  · rw [haccess] at he; cases he
  · rw [h]; simp

/-- What a stored `write_byte` has done when its data chain is loaded: the byte in memory, in the word of the position, and the
register clean (R151, R152). -/
structure StoredBeforeChain (id : ScbId) (x : Byte) (b : Scb) (s u : State) : Prop where
  word : u.wordAt b.position = storedWord s b x
  memory : KeepsMemoryBut (inWordOf b.position) s u
  scb : u.scb id = { movedScb b with buf := storedWord s b x, boff := nextOffset b.cmd (registerOffset b), dirty := false }
  irq : u.irq = s.irq
  others : KeepsScbsBut id s u
  platform : KeepsPlatform s u
  calls : KeepsCalls s u
  pending : KeepsPending s u
  loading : u.loading = s.loading
  keys : ∀ p, u.keyAt p = if p = pageOf b.position then s.keyAt p ||| 0x06 else s.keyAt p

section
variable {s : State} {a : DevAddr} {x : Byte} {id : ScbId} {b : Scb} (hT : Transfers .input a id s) (hb : b = s.scb id)
  (hl : lastOfDataChain b) (hs : b.flags.skip = false)
include hT hb hl hs

/-- At its last byte the register is stored by the byte itself, and the data chain finds it clean (R153, R158). -/
theorem writeByte_chains_full (hf : accessFault s b.key b.position true = none)
    (hlast : lastOffset b.cmd (registerOffset b) = true) :
    ∃ u, writeByte a x s = ((loadNextCcw id true u).1, .ok) ∧ StoredBeforeChain id x b s u := by
  obtain ⟨u, hw, hscb, hword, hmemory, hirq, hothers, hplatform, hcalls, hpending, hloading, hkeys⟩ :=
    writeByte_flushes (x := x) hT hb (by rw [hl.1]; decide) hs hf hlast
  rw [finishByte_dataChain hT hb hl hscb rfl rfl rfl rfl, dataChain_clean (by rw [scb_setScb_self]; rfl)] at hw
  have hframe := LoadFrame.setScb id u
    (movedScb { b with buf := storedWord s b x, boff := none, dirty := false })
  refine ⟨_, hw, hword, hmemory.trans (hframe.memory.but _), ?_, hirq, hothers.trans hframe.others,
    hplatform.trans hframe.platform, hcalls.trans (.setScb u id _), hpending.trans hframe.pending, hloading, hkeys⟩
  rw [scb_setScb_self]
  simp [movedScb, nextOffset, hlast]

/-- Before its last byte the register holds the byte, and the data chain finds it dirty (R151, R158). -/
theorem writeByte_chains_dirty (hfill : b.boff = none → accessFault s b.key b.position true = none)
    (hlast : lastOffset b.cmd (registerOffset b) = false) :
    ∃ v, writeByte a x s = ((dataChain id v).1, .ok) ∧
      v.scb id = { movedScb b with buf := storedWord s b x, boff := nextOffset b.cmd (registerOffset b), dirty := true } ∧
      v.irq = s.irq ∧ KeepsOutside s v ∧ KeepsScbsBut id s v ∧
      (∀ p, v.keyAt p = if b.boff = none ∧ p = pageOf b.position then s.keyAt p ||| 0x04 else s.keyAt p) := by
  obtain ⟨u, hw, hscb, hirq, hout, hothers, hkeys⟩ :=
    writeByte_holds (x := x) hT hb (by rw [hl.1]; decide) hs hfill hlast
  rw [finishByte_dataChain hT hb hl hscb rfl rfl rfl rfl] at hw
  exact ⟨_, hw, scb_setScb_self .., hirq, hout.trans (.setScb u id _), hothers.trans (LoadFrame.setScb id u _).others, hkeys⟩

/-- The data chain stores the dirty register in the word the position has not left (R146, R152). -/
theorem writeByte_chains_stored (hr : RegisterOk b) (hf : accessFault s b.key b.position true = none)
    (hlast : lastOffset b.cmd (registerOffset b) = false) :
    ∃ u, writeByte a x s = ((loadNextCcw id true u).1, .ok) ∧ StoredBeforeChain id x b s u := by
  obtain ⟨v, hw, hscb, hirq, hout, hothers, hkeys⟩ := writeByte_chains_dirty (x := x) hT hb hl hs (fun _ => hf) hlast
  generalize hd : ({ movedScb b with buf := storedWord s b x, boff := nextOffset b.cmd (registerOffset b), dirty := true } :
    Scb) = d at hscb
  have hdirty : d.dirty = true := by rw [← hd]
  have hbuf : d.buf = storedWord s b x := by rw [← hd]
  have hword : wordAddr d.position = wordAddr b.position := by rw [← hd]; exact wordAddr_movedScb hr (hb ▸ hT.active) hlast
  obtain ⟨haccess, -, hinWord, hpage⟩ := eq_of_wordAddr_eq hword v
  have hflush : flushes v d := by
    refine ⟨hdirty, ?_⟩
    rw [haccess, accessFault_kept hout.platform.cfg (.of_mark (.inl rfl) hkeys), ← hd]
    exact hf
  obtain ⟨hfscb, hfword, hfmemory, hfkeys, hfothers, hfplatform, hfcalls, hfpending, hfloading⟩ :=
    flushDirty_spec id v d hscb.symm
  rw [dataChain_stores (by rw [hscb]; exact hdirty) (by rw [hscb]; exact hflush.2)] at hw
  have hfirq := flushDirty_irq (s := v) (id := id) (by rw [hscb]; exact hflush)
  generalize (flushDirty id v).1 = u at *
  refine ⟨u, hw, ?_, fun y hy => ?_, ?_, hfirq.trans hirq, hothers.trans hfothers, hout.platform.trans hfplatform,
    hout.calls.trans hfcalls, hout.pending.trans hfpending, hfloading.trans hout.loading, fun p => ?_⟩
  · rw [← (eq_of_wordAddr_eq hword u).2.1, hfword hflush, hbuf]
  · rw [hfmemory y fun h => hy (hinWord ▸ h.2), hout.memory y]
  · rw [hfscb]
    unfold flushedScb flushFault
    rw [if_pos hflush.1, hflush.2, ← hd]
  · obtain ⟨hmarked, hkept⟩ := hfkeys p
    rw [hpage] at hmarked hkept
    split <;> rename_i hp
    · rw [hmarked ⟨hflush, hp⟩, hkeys]
      split
      · exact (marks_compose _).2.1
      · rfl
    · rw [hkept fun h => hp h.2, hkeys, if_neg fun h => hp h.2]

/-- A register that may not be stored any more is lost: the data chain records the fault (R146, R152). -/
theorem writeByte_chains_faulted {e : MemFault} (hr : RegisterOk b) (hf : accessFault s b.key b.position true = some e)
    (ho : b.boff ≠ none) (hlast : lastOffset b.cmd (registerOffset b) = false) :
    ∃ t, writeByte a x s = (t, .ok) ∧ t.scb id = faultedScb e.bit { movedScb b with buf := storedWord s b x } ∧
      t.irq = true ∧ KeepsOutside s t ∧ KeepsScbsBut id s t ∧ KeepsKeys s t := by
  obtain ⟨v, hw, hscb, -, hout, hothers, hkeys⟩ :=
    writeByte_chains_dirty (x := x) hT hb hl hs (fun h => absurd h ho) hlast
  obtain ⟨haccess, -⟩ := eq_of_wordAddr_eq (wordAddr_movedScb hr (hb ▸ hT.active) hlast) v
  have hvf : accessFault v (v.scb id).key (v.scb id).position true = some e := by
    rw [hscb]
    refine (haccess b.key true).trans ?_
    rw [accessFault_kept hout.platform.cfg (.of_mark (.inl rfl) hkeys), hf]
  rw [dataChain_faults (by rw [hscb]) hvf] at hw
  obtain ⟨htscb, htirq, htout, htframe, htkeys⟩ := chanFault_spec id e.bit v
  refine ⟨_, hw, ?_, htirq, hout.trans htout, hothers.trans htframe.others, fun p => ?_⟩
  · rw [htscb, hscb]; rfl
  · rw [htkeys, hkeys, if_neg fun h => ho h.1]

end

/-! ## A call that finds the count 0 -/

/-- A call that finds the count 0 under CD, with no chain held and a clean register, makes the load first; a load that succeeds
leaves the SCB transferring, with a count (R144, R146, R163). -/
theorem atCountZero_chains {s t : State} {a : DevAddr} {id : ScbId} {dir : Direction} {r : LoadResult}
    (hT : Transfers dir a id s) (hcount : (s.scb id).count = 0) (hcd : (s.scb id).flags.cd = true)
    (hh : (s.scb id).chainHeld = false) (hd : (s.scb id).dirty = false) (ht : loadNextCcw id true s = (t, r)) :
    (r = .ok → atCountZero id dir s = (t, true) ∧ Transfers dir a id t ∧ (t.scb id).count ≠ 0) ∧
    (r ≠ .ok → atCountZero id dir s = (t, false)) := by
  obtain ⟨hfound, hbound, herror, hdir⟩ := hT
  have hchained := loadNextCcw_chained id true s hcd hh
  have hbinding := loadNextCcw_binding id true s
  have hframe := loadNextCcw_frame id true s
  have hchain := dataChain_clean hd
  rw [ht] at hchain hchained hbinding hframe
  refine ⟨fun hr => ?_, fun hr => ?_⟩
  · subst hr
    obtain ⟨-, hcmd, hok⟩ := hchained
    obtain ⟨hne, hkept⟩ := hok rfl
    have htdir : matchesDirection dir (t.scb id).cmd = true := by
      rcases hcmd with ⟨-, hcmd⟩ | ⟨h, -⟩
      · rw [hcmd]; exact hdir
      · cases h
    refine ⟨?_, ⟨?_, hbinding.1.trans hbound, hkept.trans herror, htdir⟩, hne⟩
    · unfold atCountZero
      rw [if_neg (not_not.2 hcount), hcd, hchain]
      simpa [htdir] using hne
    · rw [hframe.platform.cfg]; exact hfound
  · rw [show (r == .ok) = false from beq_eq_false_iff_ne.2 hr] at hchain
    unfold atCountZero
    rw [if_neg (not_not.2 hcount), hcd, hchain]
    rfl

/-- Settles O31: the load under CD, the last byte read, stored and skipped, and the call that finds the count 0. -/
theorem dataChainingIsTransparent : Obligations.DataChainingIsTransparent := by
  intro s id b hb
  refine ⟨fun tic t r hcd hh ht => ?_, fun a hT hl hclean hf => ?_,
    fun a x hT hl hs hr => ⟨fun hf => ?_, fun e hf ho hlast => ?_⟩, fun a x hT hl hs hclean => ?_,
    fun a x t r hcount hcd hh hclean ht => ⟨fun hT => ?_, fun hT => ?_⟩⟩
  · have hchained := loadNextCcw_chained id tic s (hb ▸ hcd) (hb ▸ hh)
    have hframe := loadNextCcw_frame id tic s
    rw [ht] at hchained hframe
    exact ⟨hchained.calls, hframe, hb ▸ hchained.cmd⟩
  · obtain ⟨u, hw, hscb, hirq, hout, hothers, hkeys⟩ := readByte_moves hT hb (by rw [hl.1]; decide) hf
    have hdirty : (if b.boff = none then false else b.dirty) = false := by
      split
      · rfl
      · rename_i ho; exact hclean ho
    rw [hdirty] at hscb
    rw [finishByte_dataChain hT hb hl hscb rfl rfl rfl rfl, dataChain_clean (by rw [scb_setScb_self]; rfl)] at hw
    exact ⟨_, hw, scb_setScb_self .., hirq, hout.trans (.setScb u id _), hothers.trans (LoadFrame.setScb id u _).others,
      hkeys⟩
  · obtain ⟨u, hw, hu⟩ : ∃ u, writeByte a x s = ((loadNextCcw id true u).1, .ok) ∧ StoredBeforeChain id x b s u := by
      cases hlast : lastOffset b.cmd (registerOffset b)
      · exact writeByte_chains_stored hT hb hl hs hr hf hlast
      · exact writeByte_chains_full hT hb hl hs hf hlast
    exact ⟨u, hw, hu.word, hu.memory, hu.scb, hu.irq, hu.others, hu.platform, hu.calls, hu.pending, hu.loading, hu.keys⟩
  · exact writeByte_chains_faulted hT hb hl hs hr hf ho hlast
  · unfold writeByte
    rw [transferScb_iff.2 hT]
    dsimp only
    rw [atCountZero_of_count (by rw [← hb, hl.1]; decide)]
    dsimp only
    rw [← hb, if_pos hs, finishByte_dataChain hT hb hl hb.symm rfl rfl rfl rfl,
      dataChain_clean (by rw [scb_setScb_self]; exact hclean)]
  all_goals
    subst hb
    obtain ⟨hok, hfail⟩ := atCountZero_chains hT hcount hcd hh hclean ht
  · by_cases hr : r = .ok
    · obtain ⟨hz, htT, hne⟩ := hok hr
      rw [if_pos hr]
      unfold readByte
      rw [transferScb_iff.2 hT, transferScb_iff.2 htT]
      dsimp only
      rw [hz, atCountZero_of_count hne]
    · rw [if_neg hr]
      unfold readByte
      rw [transferScb_iff.2 hT]
      dsimp only
      rw [hfail hr]
  · by_cases hr : r = .ok
    · obtain ⟨hz, htT, hne⟩ := hok hr
      rw [if_pos hr]
      unfold writeByte
      rw [transferScb_iff.2 hT, transferScb_iff.2 htT]
      dsimp only
      rw [hz, atCountZero_of_count hne]
    · rw [if_neg hr]
      unfold writeByte
      rw [transferScb_iff.2 hT]
      dsimp only
      rw [hfail hr]

/-! ## A TIC as the first CCW -/

/-- A first load that fails stores the status of the SCB and frees it (spec/44_io_instructions.md R207). -/
theorem firstLoad_fail {s t : State} {id : ScbId} {r : FailReason} (h : loadNextCcw id false s = (t, .fail r)) :
    firstLoad id s = ((storeStatus id t).updScb id Scb.unbind, 1) := by
  unfold firstLoad; rw [h]

/-- Storing the status and freeing the SCB: the CSW stored, all but the SCB as before (spec/43_status.md R180, R184). -/
theorem storeStatus_unbind_spec {s : State} (h : memoryWf s.cfg = true) (id : ScbId) :
    StoresCsw (s.scb id).csw0 (s.scb id).csw1 s ((storeStatus id s).updScb id Scb.unbind) ∧
    ((storeStatus id s).updScb id Scb.unbind).scb id = freedScb { s.scb id with status := storedStatus (s.scb id).status } ∧
    ((storeStatus id s).updScb id Scb.unbind).irq = s.irq ∧ KeepsScbsBut id s ((storeStatus id s).updScb id Scb.unbind) ∧
    KeepsPlatform s ((storeStatus id s).updScb id Scb.unbind) ∧ KeepsCalls s ((storeStatus id s).updScb id Scb.unbind) ∧
    KeepsPending s ((storeStatus id s).updScb id Scb.unbind) ∧
    ((storeStatus id s).updScb id Scb.unbind).loading = s.loading := by
  obtain ⟨hcsw, hkept⟩ := storeCsw_spec h (s.scb id).csw0 (s.scb id).csw1
  unfold storeStatus
  generalize storeCsw (s.scb id).csw0 (s.scb id).csw1 s = u at hcsw hkept
  have hframe := (LoadFrame.updScb id u fun b => { b with status := storedStatus b.status }).trans
    (.updScb id _ Scb.unbind)
  refine ⟨⟨hcsw.first, hcsw.second, hcsw.memory, hcsw.keys⟩, ?_, hkept.irq, ?_, hkept.platform.trans hframe.platform,
    hkept.calls.trans ((KeepsCalls.updScb u id _).trans (.updScb _ id _)), hkept.pending.trans hframe.pending, hkept.loading⟩
  · rw [scb_updScb_self, scb_updScb_self, hkept.scbs]; rfl
  · exact fun j hj => (hframe.others j hj).trans (hkept.scbs j)

/-- A start with no hook loads the first CCW of the SCB it binds (spec/44_io_instructions.md R206). -/
theorem startWithHook_firstLoad {s : State} {a : DevAddr} {id : ScbId} {dev : Binding} {w : Word} (hm : memoryWf s.cfg = true)
    (hhook : dev.hasStartIo = false) (hw : w = s.wordAt s.cfg.cawAddr) :
    startWithHook a id dev s = firstLoad id ((s.markKey (pageOf s.cfg.cawAddr) 0x04).setScb id
      (boundScb a dev (w.extractLsb' 28 4) (w.extractLsb' 0 24) (s.scb id))) := by
  unfold startWithHook startProgram
  rw [hhook, readArchitected_caw hm, ← hw]
  rfl

/-- A load that fetches a TIC where none is allowed is a program check at the TIC's address (R111, R121). -/
theorem loadNextCcw_refusesTic {s : State} {id : ScbId} {b : Scb} (hb : s.scb id = b) (hh : b.chainHeld = false)
    (ha : b.caw.toNat % 8 = 0) (he : anyBits b.status (chanErr ||| stSM) = false)
    (hf : accessFault s b.key b.caw false = none) (hclass : classOf (s.byteAt b.caw.toNat) = .tic) :
    ∃ t, loadNextCcw id false s = (t, .fail .check) ∧ t.scb id = faultedScb stPROG b ∧ t.irq = true ∧ LoadFrame id s t ∧
      KeepsCalls s t := by
  obtain ⟨herror, hmodifier⟩ := Bool.or_eq_false_iff.1 ((anyBits_mask_or _ _ _).symm.trans he)
  have hfetch := (fetchCcw_reads hb ha herror).2
  rw [skipOnModifier_of_clear hmodifier, decodeCcw_tic (by rw [commandCode_eq_byteAt s ha]; exact hclass)] at hfetch
  have hload : loadNextCcw id false s =
      failCheck id stPROG ((s.updScb id Scb.skipOnModifier).markKey (pageOf b.caw) 0x04) := by
    unfold loadNextCcw
    rw [beginLoad_fetches (hb ▸ hh), hfetch hf]
    rfl
  have hscb : ((s.updScb id Scb.skipOnModifier).markKey (pageOf b.caw) 0x04).scb id = b := by
    rw [State.scb_markKey, scb_updScb_self, hb, skipOnModifier_of_clear hmodifier]
  obtain ⟨htscb, hirq, hout, hframe, -⟩ :=
    chanFault_spec id stPROG ((s.updScb id Scb.skipOnModifier).markKey (pageOf b.caw) 0x04)
  rw [hscb] at htscb
  exact ⟨_, hload, htscb, hirq, ((LoadFrame.updScb id s _).trans (.markRead id _ _)).trans hframe,
    ((KeepsCalls.updScb s id _).trans (.markKey _ _ _)).trans hout.calls⟩

/-- Settles O49: the first fetch finds the TIC, which is not allowed there; the failed first load stores its CSW. -/
theorem sioRefusesATicFirst : Obligations.SioRefusesATicFirst := by
  intro s i2 b1 d1 a id dev w key caw hw h2 ha hR hd hr hp hhook hcaw hkey hcawAddr haligned hf hclass
  have hmem := memoryWf_of_configWf hw
  have hexec := sio_start h2 ha hR hd hr hp
  rw [startWithHook_firstLoad hmem hhook hcaw, ← hkey, ← hcawAddr] at hexec
  have hv := scb_setScb_self (s.markKey (pageOf s.cfg.cawAddr) 0x04) id (boundScb a dev key caw (s.scb id))
  have hvframe := (LoadFrame.markRead id s (pageOf s.cfg.cawAddr)).trans (.setScb id _ (boundScb a dev key caw (s.scb id)))
  have hvcalls := (KeepsCalls.markKey s (pageOf s.cfg.cawAddr) 0x04).trans
    (.setScb _ id (boundScb a dev key caw (s.scb id)))
  generalize (s.markKey (pageOf s.cfg.cawAddr) 0x04).setScb id (boundScb a dev key caw (s.scb id)) = v at *
  obtain ⟨u, hload, huscb, huirq, huframe, hucalls⟩ := loadNextCcw_refusesTic hv rfl haligned
    (show anyBits 0 (chanErr ||| stSM) = false by decide)
    ((accessFault_kept hvframe.platform.cfg hvframe.keys.access key caw false).trans hf)
    (by rw [hvframe.memory]; exact hclass)
  have hframe := hvframe.trans huframe
  have hcfg := hframe.platform.cfg
  obtain ⟨hcsw, hscb, hirq, hothers, hplatform, hcalls, hpending, hloading⟩ := storeStatus_unbind_spec (hcfg ▸ hmem) id
  rw [firstLoad_fail hload] at hexec
  dsimp only at hexec
  have hanswer := LoadFrame.answer id ((storeStatus id u).updScb id Scb.unbind) (.cc 1)
  have hcsw1 : (u.scb id).csw1 = (stPROG ||| stCE) ++ 0#16 := by
    rw [huscb]
    exact congrArg (· ++ 0#16) (show 0 ||| stPROG ||| stCE = stPROG ||| stCE by decide)
  refine ⟨_, hexec, rfl, ?_, ?_, ?_, ?_, hirq.trans huirq, ((hvcalls.trans hucalls).trans hcalls).trans (.answer _ _), ?_,
    hframe.others.trans hothers, hframe.platform.trans (hplatform.trans hanswer.platform),
    hframe.pending.trans (hpending.trans hanswer.pending), hloading.trans hframe.loading⟩
  · rw [← hcfg, State.wordAt_answer, hcsw.first, huscb]; rfl
  · rw [← hcfg, State.wordAt_answer, hcsw.second, hcsw1]
  · rw [State.scb_answer, hscb]; rfl
  · rw [State.scb_answer, hscb]; rfl
  · rw [← hcfg]
    exact (hframe.memory.but _).trans hcsw.memory

end Sys2Proof.Machine
end

section
/-! The byte transfer: the calls that move no byte, and what a call that moves one leaves (spec/42_transfer.md R140 to R156). -/

namespace Sys2Proof.Machine

/-! ## The calls that move no byte -/

theorem readByte_of_preamble_fails {s : State} {a : DevAddr} (h : transferScb a .out s = none) : readByte a s = (s, .done) := by
  unfold readByte; rw [h]

theorem writeByte_of_preamble_fails {s : State} {a : DevAddr} (x : Byte) (h : transferScb a .input s = none) :
    writeByte a x s = (s, .done) := by
  unfold writeByte; rw [h]

/-- A call that finds the count 0 without CD ends the CCW and goes no further (R144, R145). -/
theorem atCountZero_exhausts {id : ScbId} {s : State} (dir : Direction) (hc : (s.scb id).count = 0)
    (hcd : (s.scb id).flags.cd = false) : atCountZero id dir s = (s.updScb id Scb.countExhausted, false) := by
  unfold atCountZero; simp [hc, hcd]

theorem readByte_stops {s t : State} {a : DevAddr} {id : ScbId} (hT : Transfers .out a id s)
    (hz : atCountZero id .out s = (t, false)) : readByte a s = (t, .done) := by
  unfold readByte
  rw [transferScb_iff.2 hT]
  dsimp only
  rw [hz]

theorem writeByte_stops {s t : State} {a : DevAddr} {id : ScbId} (x : Byte) (hT : Transfers .input a id s)
    (hz : atCountZero id .input s = (t, false)) : writeByte a x s = (t, .done) := by
  unfold writeByte
  rw [transferScb_iff.2 hT]
  dsimp only
  rw [hz]

/-- Settles O23: the preamble fails, or the count is found exhausted. -/
theorem transferThatMovesNoByte : Obligations.TransferThatMovesNoByte := by
  intro s a x
  refine ⟨fun h => readByte_of_preamble_fails (transferScb_none h),
    fun h => writeByte_of_preamble_fails x (transferScb_none h), fun id b t hb hc hcd ht => ?_⟩
  subst hb ht
  exact ⟨fun hT => readByte_stops hT (atCountZero_exhausts .out hc hcd),
    fun hT => writeByte_stops x hT (atCountZero_exhausts .input hc hcd)⟩

/-! ## The calls that fault -/

section
variable {s : State} {a : DevAddr} {id : ScbId} {b : Scb} {e : MemFault}

/-- A `read_byte` that cannot fill its register (R148). -/
theorem readByte_fillFault (hT : Transfers .out a id s) (hb : b = s.scb id) (hc : b.count ≠ 0) (ho : b.boff = none)
    (hf : accessFault s b.key b.position false = some e) : readByte a s = (chanFault id e.bit s, .done) := by
  subst hb
  unfold readByte
  rw [transferScb_iff.2 hT]
  dsimp only
  rw [atCountZero_of_count hc]
  dsimp only
  rcases fill_cases id .out s with ⟨h, -⟩ | ⟨-, e', he, h⟩ | ⟨-, h, -⟩
  · exact absurd ho h
  · cases hf.symm.trans he
    rw [h]
  · cases hf.symm.trans h

/-- A `write_byte` that finds a count skips its byte or stores it (R144, R147, R161). -/
theorem writeByte_of_count (x : Byte) (hT : Transfers .input a id s) (hb : b = s.scb id) (hc : b.count ≠ 0) :
    writeByte a x s = if b.flags.skip then (finishByte id s, .ok) else storeByte id x s := by
  subst hb
  unfold writeByte
  rw [transferScb_iff.2 hT]
  dsimp only
  rw [atCountZero_of_count hc]

/-- A stored `write_byte` that cannot fill its register, for want of permission to write the word (R150). -/
theorem writeByte_fillFault (x : Byte) (hT : Transfers .input a id s) (hb : b = s.scb id) (hc : b.count ≠ 0)
    (hs : b.flags.skip = false) (ho : b.boff = none) (hf : accessFault s b.key b.position true = some e) :
    writeByte a x s = (chanFault id e.bit s, .done) := by
  rw [writeByte_of_count x hT hb hc, if_neg (by rw [hs]; decide)]
  subst hb
  unfold storeByte
  rcases fill_cases id .input s with ⟨h, -⟩ | ⟨-, e', he, h⟩ | ⟨-, h, -⟩
  · exact absurd ho h
  · cases hf.symm.trans he
    rw [h]
  · cases hf.symm.trans h

end

/-- Settles O28: the fault of the fill in either direction, and that of the flush at the register's last byte. -/
theorem transferFaultIsDone : Obligations.TransferFaultIsDone := by
  intro s a x id b e hb hc
  obtain ⟨hscb, hirq, hout, hframe, hkeys⟩ := chanFault_spec id e.bit s
  rw [← hb] at hscb
  refine ⟨fun hT ho hf => ?_, fun hT hs hf => ⟨fun ho => ?_, fun k hk hlast => ?_⟩⟩
  · exact ⟨_, readByte_fillFault hT hb hc ho hf, hscb, hirq, hout, hframe.others, hkeys⟩
  · exact ⟨_, writeByte_fillFault x hT hb hc hs ho hf, hscb, hirq, hout, hframe.others, hkeys⟩
  · obtain ⟨hpscb, hpirq, hpout, hpframe, hpkeys⟩ := chanFault_spec id e.bit (s.updScb id (Scb.putByte x))
    refine ⟨_, writeByte_flushFault hT hb hc hs hk hf hlast, ?_, hpirq, (KeepsOutside.updScb s id _).trans hpout,
      (LoadFrame.updScb id s _).others.trans hpframe.others, fun p => hpkeys p⟩
    rw [hpscb, scb_updScb_self, ← hb]
    simp [faultedScb, Scb.putByte, hk]

/-! ## A byte inside its page -/

/-- The byte of memory at an address is the byte of its word at its offset (spec/20_memory.md R57; R142). -/
theorem wordByte_wordAt (s : State) (p : Addr) : wordByte (s.wordAt p) (byteOffset p) = s.byteAt p.toNat := by
  obtain ⟨h0, h1, h2, h3⟩ := wordByte_wordOfBytes (s.byteAt (wordAddr p).toNat) (s.byteAt ((wordAddr p).toNat + 1))
    (s.byteAt ((wordAddr p).toNat + 2)) (s.byteAt ((wordAddr p).toNat + 3))
  have hval := byteOffset_val p
  have haddr := wordAddr_toNat p
  have offset_eq {n : Nat} (k : BitVec 2) (hk : k.toNat = n) (h : p.toNat % 4 = n) : byteOffset p = k :=
    BitVec.eq_of_toNat_eq (by omega)
  unfold State.wordAt
  obtain hk | hk | hk | hk : p.toNat % 4 = 0 ∨ p.toNat % 4 = 1 ∨ p.toNat % 4 = 2 ∨ p.toNat % 4 = 3 := by omega
  · rw [offset_eq 0 rfl hk, h0, show (wordAddr p).toNat = p.toNat by omega]
  · rw [offset_eq 1 rfl hk, h1, show (wordAddr p).toNat + 1 = p.toNat by omega]
  · rw [offset_eq 2 rfl hk, h2, show (wordAddr p).toNat + 2 = p.toNat by omega]
  · rw [offset_eq 3 rfl hk, h3, show (wordAddr p).toNat + 3 = p.toNat by omega]

/-- The byte a `read_byte` gives when its register is empty is the one in memory (R142, R148, R149). -/
theorem registerByte_of_empty {b : Scb} (s : State) (h : b.boff = none) :
    wordByte (registerWord s b) (registerOffset b) = s.byteAt b.position.toNat := by
  unfold registerWord registerOffset
  rw [if_pos h, h]
  exact wordByte_wordAt s b.position

/-- The end of a byte that stays in its page and continues no data chain, on a state whose SCB is `b` but for the register
(R143, R154). -/
theorem finishByte_inPage {u : State} {id : ScbId} {a : DevAddr} {b : Scb} {w : Word} {k : Option (BitVec 2)} {d : Bool}
    (hd : b.dev = some a) (hl : ¬ lastOfDataChain b) (hn : ¬ needsNextIdaw b)
    (hu : u.scb id = { b with buf := w, boff := k, dirty := d }) :
    finishByte id u = u.setScb id { movedScb b with buf := w, boff := k, dirty := d } := by
  rw [finishByte_plain (a := a) (by rw [hu]; exact hd) (by rw [hu]; exact hn) (by rw [hu]; exact hl)]
  unfold State.updScb
  rw [hu]
  rfl

/-- Settles O24: the register is filled if empty, its byte given, and the byte ends inside its page. -/
theorem readByteDeliversTheByte : Obligations.ReadByteDeliversTheByte := by
  intro s a id b hT hb hc hl hn hf
  obtain ⟨u, hr, hscb, hirq, hout, hothers, hkeys⟩ := readByte_moves hT hb hc hf
  rw [finishByte_inPage (hb ▸ hT.bound) hl hn hscb] at hr
  exact ⟨_, _, hr, rfl, registerByte_of_empty s, scb_setScb_self .., hirq, hout.trans (.setScb u id _),
    hothers.trans (LoadFrame.setScb id u _).others, hkeys⟩

/-- Settles O25: the byte is put into the register before its last byte, and ends inside its page. -/
theorem writeByteHoldsTheByte : Obligations.WriteByteHoldsTheByte := by
  intro s a x id b hT hb hc hs hl hn hf hlast
  obtain ⟨u, hw, hscb, hirq, hout, hothers, hkeys⟩ := writeByte_holds (x := x) hT hb hc hs hf hlast
  rw [finishByte_inPage (hb ▸ hT.bound) hl hn hscb] at hw
  exact ⟨_, hw, scb_setScb_self .., hirq, hout.trans (.setScb u id _), hothers.trans (LoadFrame.setScb id u _).others, hkeys⟩

/-- Settles O26: the byte is the register's last, the word is stored, and the byte ends inside its page. -/
theorem writeByteFlushesTheFullWord : Obligations.WriteByteFlushesTheFullWord := by
  intro s a x id b hT hb hc hs hl hn hf hlast
  obtain ⟨u, hw, hscb, hword, hmemory, hirq, hothers, hplatform, hcalls, hpending, hloading, hkeys⟩ :=
    writeByte_flushes (x := x) hT hb hc hs hf hlast
  rw [finishByte_inPage (hb ▸ hT.bound) hl hn hscb] at hw
  have hend := KeepsOutside.setScb u id { movedScb b with buf := storedWord s b x, boff := none, dirty := false }
  exact ⟨_, hw, hword, hmemory.trans (hend.memory.but _), scb_setScb_self .., hirq,
    hothers.trans (LoadFrame.setScb id u _).others, hplatform.trans hend.platform, hcalls.trans hend.calls,
    hpending.trans hend.pending, hend.loading.trans hloading, hkeys⟩

/-- A skipped byte only ends (R147). -/
theorem writeByte_skips {s : State} {a : DevAddr} {id : ScbId} {b : Scb} (x : Byte) (hT : Transfers .input a id s)
    (hb : b = s.scb id) (hc : b.count ≠ 0) (hs : b.flags.skip = true) : writeByte a x s = (finishByte id s, .ok) := by
  rw [writeByte_of_count x hT hb hc, if_pos hs]

/-- Settles O27: the byte is skipped, and ends inside its page. -/
theorem skippedByteTouchesNoMemory : Obligations.SkippedByteTouchesNoMemory := by
  intro s a x id b hT hb hc hs hl hn
  have hw := writeByte_skips x hT hb hc hs
  rw [finishByte_inPage (hb ▸ hT.bound) hl hn hb.symm] at hw
  exact ⟨_, hw, scb_setScb_self .., rfl, .setScb s id _, (LoadFrame.setScb id s _).others, .refl s⟩

/-! ## The entry into another page -/

/-- What went before a byte's end and kept IRQ and every access check. -/
theorem TakesNextIdaw.before {s u t : State} {id : ScbId} {b : Scb} (h : TakesNextIdaw id b u t) (hirq : u.irq = s.irq)
    (haccess : ∀ k p w, accessFault u k p w = accessFault s k p w) : TakesNextIdaw id b s t := by
  obtain ⟨htaken, hfaulted⟩ := h
  simp only [haccess, hirq] at htaken hfaulted
  exact ⟨htaken, hfaulted⟩

/-- The end of a byte that enters another page with bytes left, on a state `u` whose SCB is `b` but for the register, against the
state `s` before the byte (R155, R156). -/
theorem finishByte_takesNextIdaw {s u : State} {id : ScbId} {b : Scb} {w : Word} {k : Option (BitVec 2)} {d : Bool}
    (hn : needsNextIdaw b) (hu : u.scb id = { b with buf := w, boff := k, dirty := d }) (hirq : u.irq = s.irq)
    (hcfg : u.cfg = s.cfg) (hmarks : KeepsAccessKeys s u) :
    TakesNextIdaw id { movedScb b with buf := w, boff := k, dirty := d } s (finishByte id u) ∧
    KeepsOutside u (finishByte id u) ∧ KeepsScbsBut id u (finishByte id u) ∧
    (∀ p, (finishByte id u).keyAt p =
      if accessFault s b.key (b.addr + 4) false = none ∧ p = pageOf (b.addr + 4) then u.keyAt p ||| 0x04 else u.keyAt p) := by
  have haccess := accessFault_kept hcfg hmarks
  obtain ⟨htakes, hout, hothers, hkeys⟩ := finishByte_entersPage hu.symm hn
  simp only [haccess] at hkeys
  exact ⟨htakes.before hirq haccess, hout, hothers, hkeys⟩

/-- A cursor that leaves its page by a byte is at the last byte of its word (R143, R155). -/
theorem lastOffset_of_leavesPage {cmd : Byte} {p : Addr} (h : pageOf p ≠ pageOf (stepAddr cmd p)) :
    lastOffset cmd (byteOffset p) = true := by
  by_contra hlast
  have hword := wordAddr_stepAddr (Bool.eq_false_iff.2 hlast)
  exact h (by rw [← pageOf_wordAddr, ← hword, pageOf_wordAddr])

/-- The byte that enters another page is the register's last, in an active command whose register is right (R143, R155;
spec/10_state.md R30). -/
theorem RegisterOk.last_of_needsNextIdaw {b : Scb} (h : RegisterOk b) (hc : b.cmd ≠ 0) (hn : needsNextIdaw b) :
    lastOffset b.cmd (registerOffset b) = true := by
  obtain ⟨hcross, -⟩ := hn
  obtain ⟨hida, hpage⟩ : b.flags.ida = true ∧ pageOf b.iaddr ≠ pageOf (stepAddr b.cmd b.iaddr) := by
    simpa [Scb.crosses] using hcross
  rw [h.offset hc]
  unfold Scb.position
  rw [if_pos hida]
  exact lastOffset_of_leavesPage hpage

theorem count_ne_zero_of_needsNextIdaw {b : Scb} (h : needsNextIdaw b) : b.count ≠ 0 := by
  intro hc
  have hlt := h.2
  rw [hc] at hlt
  exact absurd hlt (by decide)

/-- Two pages marked referenced one after the other (spec/20_memory.md R56). -/
theorem mark_ite_mark (k : Byte) (P Q : Prop) [Decidable P] [Decidable Q] :
    (if Q then (if P then k ||| 0x04 else k) ||| 0x04 else if P then k ||| 0x04 else k) =
      if P ∨ Q then k ||| 0x04 else k := by
  by_cases hP : P
  · simp only [hP, true_or, if_true, (marks_compose k).1, ite_self]
  · simp only [hP, false_or, if_false]

/-- Settles O30: the byte as any other, then the next IDAW; a stored byte is the register's last, so its word is stored before. -/
theorem pageCrossingTakesTheNextIdaw : Obligations.PageCrossingTakesTheNextIdaw := by
  intro s a x id b hb hn
  have hc := count_ne_zero_of_needsNextIdaw hn
  refine ⟨fun hT hf => ?_, fun hT hs => ?_, fun hT hs hreg hf => ?_⟩
  · obtain ⟨u, hr, hscb, hirq, hout, hothers, hkeys⟩ := readByte_moves hT hb hc hf
    obtain ⟨htakes, hpout, hpothers, hpkeys⟩ :=
      finishByte_takesNextIdaw hn hscb hirq hout.platform.cfg (.of_mark (.inl rfl) hkeys)
    refine ⟨_, hr, htakes, hout.trans hpout, hothers.trans hpothers, fun p => ?_⟩
    rw [hpkeys, hkeys]
    exact mark_ite_mark _ _ _
  · exact ⟨_, writeByte_skips x hT hb hc hs, finishByte_takesNextIdaw hn hb.symm rfl rfl (.refl s)⟩
  · have hlast := hreg.last_of_needsNextIdaw (hb ▸ hT.active) hn
    obtain ⟨u, hw, hscb, hword, hmemory, hirq, hothers, hplatform, hcalls, hpending, hloading, hkeys⟩ :=
      writeByte_flushes (x := x) hT hb hc hs hf hlast
    obtain ⟨htakes, hpout, hpothers, hpkeys⟩ :=
      finishByte_takesNextIdaw hn hscb hirq hplatform.cfg (.of_mark (.inr rfl) hkeys)
    refine ⟨_, hw, (wordAt_congr fun y _ => hpout.memory y).trans hword, hmemory.trans (hpout.memory.but _), htakes,
      hothers.trans hpothers, hplatform.trans hpout.platform, hcalls.trans hpout.calls, hpending.trans hpout.pending,
      hpout.loading.trans hloading, fun p => ?_⟩
    rw [hpkeys, hkeys]
    by_cases hp : p = pageOf b.position
    · simp only [if_pos hp, (marks_compose (s.keyAt p)).2.2.1, ite_self]
    · simp only [if_neg hp]

end Sys2Proof.Machine
end

section
/-! What a call that finds a count can do: the count it leaves, and the bytes it stores (spec/42_transfer.md R146, R152, R154). -/

namespace Sys2Proof.Machine

/-! ## Storing in one word -/

/-- No byte of memory outside the word of `p` was stored to; of the rest, only the SCB `id`, IRQ, the storage keys and the
device's calls may have changed. -/
structure StoresOnly (p : Addr) (id : ScbId) (s t : State) : Prop where
  memory : KeepsMemoryBut (inWordOf p) s t
  others : KeepsScbsBut id s t
  platform : KeepsPlatform s t
  pending : KeepsPending s t
  loading : t.loading = s.loading

section
variable {s t u : State} {id : ScbId}

theorem StoresOnly.trans {p : Addr} (h : StoresOnly p id s t) (k : StoresOnly p id t u) : StoresOnly p id s u :=
  ⟨h.memory.trans k.memory, h.others.trans k.others, h.platform.trans k.platform, h.pending.trans k.pending,
    k.loading.trans h.loading⟩

theorem KeepsOutside.storesOnly (h : KeepsOutside s t) (ho : KeepsScbsBut id s t) (p : Addr) : StoresOnly p id s t :=
  ⟨h.memory.but _, ho, h.platform, h.pending, h.loading⟩

theorem LoadFrame.storesOnly (h : LoadFrame id s t) (p : Addr) : StoresOnly p id s t :=
  ⟨h.memory.but _, h.others, h.platform, h.pending, h.loading⟩

/-- A data chain stores a dirty register in the word of the position, and nothing else (R146, R152). -/
theorem dataChain_storesOnly {p : Addr} (h : (s.scb id).dirty = true → inWordOf (s.scb id).position = inWordOf p) :
    StoresOnly p id s (dataChain id s).1 := by
  obtain ⟨-, -, hmemory, -, hothers, hplatform, -, hpending, hloading⟩ := flushDirty_spec id s _ rfl
  have hflush : StoresOnly p id s (flushDirty id s).1 :=
    ⟨fun x hx => hmemory x fun ⟨hf, hin⟩ => hx (h hf.1 ▸ hin), hothers, hplatform, hpending, hloading⟩
  unfold dataChain
  split <;> rename_i hfl <;> rw [hfl] at hflush
  · exact hflush
  · exact hflush.trans ((loadNextCcw_frame id true _).storesOnly p)

/-! ## The end of a byte -/

/-- The end of a byte stores nothing but a register still dirty at a data chain, in the word of the position (R154 to R158). -/
theorem finishByte_storesOnly {p : Addr} {a : DevAddr} (hd : (s.scb id).dev = some a)
    (h : (s.scb id).dirty = true → inWordOf (movedScb (s.scb id)).position = inWordOf p) :
    StoresOnly p id s (finishByte id s) := by
  have hmoved := (LoadFrame.updScb id s movedScb).storesOnly p
  by_cases hl : lastOfDataChain (s.scb id)
  · rw [finishByte_last hd hl]
    split
    · exact hmoved
    · exact hmoved.trans (dataChain_storesOnly (by rw [scb_updScb_self]; exact h))
  · by_cases hn : needsNextIdaw (s.scb id)
    · obtain ⟨-, hout, hothers, -⟩ := finishByte_entersPage rfl hn
      exact hout.storesOnly hothers p
    · rw [finishByte_plain hd hn hl]
      exact hmoved

/-- The end of a byte that is not the last before a data chain counts it (R154). -/
theorem finishByte_count {a : DevAddr} (hd : (s.scb id).dev = some a) (hl : ¬ lastOfDataChain (s.scb id)) :
    ((finishByte id s).scb id).count = (s.scb id).count - 1 := by
  by_cases hn : needsNextIdaw (s.scb id)
  · rw [finishByte_crossing hn, scb_updScb_self, nextIdaw_count, scb_updScb_self]
    exact congrArg Scb.count (Scb.move_eq (s.scb id))
  · rw [finishByte_plain hd hn hl, scb_updScb_self]
    rfl

end

/-! ## The call -/

/-- What a call that finds a count makes of the state `s`: its preamble fails; an access fault is recorded, before or after the
byte was put into the register; or the byte ends, on a state whose SCB differs from that of `s` in its register alone, and whose
register, if it is still dirty, has not reached its last byte (R140, R148 to R153). -/
inductive ByteOutcome (id : ScbId) (s : State) : State × OpResult → Prop where
  | refused : ByteOutcome id s (s, .done)
  | faulted {v : State} (e : MemFault) (count : (v.scb id).count = (s.scb id).count)
      (stores : StoresOnly (s.scb id).position id s v) : ByteOutcome id s (chanFault id e.bit v, .done)
  | moved {dir : Direction} {a : DevAddr} {u : State} {r : OpResult} {w : Word} {k : Option (BitVec 2)} {d : Bool}
      (transfers : Transfers dir a id s) (answers : r ≠ .done)
      (register : u.scb id = { s.scb id with buf := w, boff := k, dirty := d })
      (stores : StoresOnly (s.scb id).position id s u)
      (dirty : RegisterOk (s.scb id) → d = true → lastOffset (s.scb id).cmd (registerOffset (s.scb id)) = false) :
      ByteOutcome id s (finishByte id u, r)

section
variable {s : State} {a : DevAddr} {id : ScbId}

theorem transferScb_cases (dir : Direction) (hid : findSubchannel s.cfg a = some id) :
    transferScb a dir s = none ∨ Transfers dir a id s := by
  cases ht : transferScb a dir s with
  | none => exact .inl rfl
  | some j =>
    have hT := transferScb_iff.1 ht
    cases hid.symm.trans hT.found
    exact .inr hT

/-- A `read_byte` that finds a count (R148, R149, R160). -/
theorem readByte_outcome (hid : findSubchannel s.cfg a = some id) (hc : (s.scb id).count ≠ 0) :
    ByteOutcome id s (readByte a s) := by
  obtain hnone | hT := transferScb_cases .out hid
  · rw [readByte_of_preamble_fails hnone]
    exact .refused
  by_cases hf : (s.scb id).boff = none → accessFault s (s.scb id).key (s.scb id).position false = none
  · obtain ⟨u, hr, hscb, -, hout, hothers, -⟩ := readByte_moves hT rfl hc hf
    rw [hr]
    refine .moved hT (by simp) hscb (hout.storesOnly hothers _) fun hreg hd => ?_
    rw [hreg.clean_of_output hT.direction, ite_self] at hd
    cases hd
  · obtain ⟨ho, hne⟩ := Classical.not_imp.1 hf
    obtain ⟨e, he⟩ := Option.ne_none_iff_exists'.1 hne
    rw [readByte_fillFault hT rfl hc ho he]
    exact .faulted e rfl ((KeepsOutside.refl s).storesOnly (.refl id s) _)

/-- A `write_byte` that finds a count: skipped, or stored and flushed at the register's last byte (R147, R150 to R153, R161). -/
theorem writeByte_outcome (x : Byte) (hid : findSubchannel s.cfg a = some id) (hc : (s.scb id).count ≠ 0) :
    ByteOutcome id s (writeByte a x s) := by
  have hrefl := (KeepsOutside.refl s).storesOnly (.refl id s) (s.scb id).position
  obtain hnone | hT := transferScb_cases .input hid
  · rw [writeByte_of_preamble_fails x hnone]
    exact .refused
  cases hs : (s.scb id).flags.skip
  case true =>
    rw [writeByte_skips x hT rfl hc hs]
    refine .moved hT (by simp) rfl hrefl fun ⟨hdirty, _, hskip⟩ hd => ?_
    exact absurd (hskip hs hT.direction) (hdirty hd).1
  cases hf : accessFault s (s.scb id).key (s.scb id).position true with
  | none =>
    cases hlast : lastOffset (s.scb id).cmd (registerOffset (s.scb id)) with
    | true =>
      obtain ⟨u, hw, hscb, -, hmemory, -, hothers, hplatform, -, hpending, hloading, -⟩ :=
        writeByte_flushes (x := x) hT rfl hc hs hf hlast
      rw [hw]
      exact .moved hT (by simp) hscb ⟨hmemory, hothers, hplatform, hpending, hloading⟩ fun _ hd => by cases hd
    | false =>
      obtain ⟨u, hw, hscb, -, hout, hothers, -⟩ := writeByte_holds (x := x) hT rfl hc hs (fun _ => hf) hlast
      rw [hw]
      exact .moved hT (by simp) hscb (hout.storesOnly hothers _) fun _ _ => hlast
  | some e =>
    cases ho : (s.scb id).boff with
    | none =>
      rw [writeByte_fillFault x hT rfl hc hs ho hf]
      exact .faulted e rfl hrefl
    | some k =>
      have hoffset : registerOffset (s.scb id) = k := by unfold registerOffset; rw [ho]; rfl
      cases hlast : lastOffset (s.scb id).cmd k with
      | true =>
        rw [writeByte_flushFault hT rfl hc hs ho hf hlast]
        exact .faulted e (by rw [scb_updScb_self]; rfl) ((LoadFrame.updScb id s _).storesOnly _)
      | false =>
        rw [← hoffset] at hlast
        obtain ⟨u, hw, hscb, -, hout, hothers, -⟩ :=
          writeByte_holds (x := x) hT rfl hc hs (fun h => by rw [ho] at h; cases h) hlast
        rw [hw]
        exact .moved hT (by simp) hscb (hout.storesOnly hothers _) fun _ _ => hlast

/-- The count a call leaves (R154). -/
theorem ByteOutcome.count {t : State} {r : OpResult} (h : ByteOutcome id s (t, r)) (hl : ¬ lastOfDataChain (s.scb id)) :
    (r ≠ .done ∧ (t.scb id).count = (s.scb id).count - 1) ∨ (r = .done ∧ (t.scb id).count = (s.scb id).count) := by
  cases h with
  | refused => exact .inr ⟨rfl, rfl⟩
  | @faulted v e count stores =>
    obtain ⟨hscb, -⟩ := chanFault_spec id e.bit v
    exact .inr ⟨rfl, by rw [hscb]; exact count⟩
  | @moved dir a u _ w k d transfers answers register stores dirty =>
    refine .inl ⟨answers, ?_⟩
    rw [finishByte_count (a := a) (by rw [register]; exact transfers.bound) (by rw [register]; exact hl), register]

/-- Where the call stores (R146, R152, R153). -/
theorem ByteOutcome.storesOnly {o : State × OpResult} (h : ByteOutcome id s o) (hreg : RegisterOk (s.scb id)) :
    StoresOnly (s.scb id).position id s o.1 := by
  cases h with
  | refused => exact (KeepsOutside.refl s).storesOnly (.refl id s) _
  | @faulted v e count stores =>
    obtain ⟨-, -, -, hframe, -⟩ := chanFault_spec id e.bit v
    exact stores.trans (hframe.storesOnly _)
  | @moved dir a u _ w k d transfers answers register stores dirty =>
    refine stores.trans (finishByte_storesOnly (a := a) (by rw [register]; exact transfers.bound) ?_)
    rw [register]
    intro hd
    have hword := wordAddr_movedScb hreg transfers.active (dirty hreg hd)
    obtain ⟨-, -, hinWord, -⟩ := eq_of_wordAddr_eq hword s
    exact hinWord

end

/-- Settles O29: by the outcome of either call, the count is one less where it succeeds and kept where it is Done. -/
theorem everyByteCountsOnce : Obligations.EveryByteCountsOnce := by
  intro s t a id r hid hc hl hcall
  have houtcome : ByteOutcome id s (t, r) := by
    rcases hcall with h | ⟨x, h⟩
    · exact h ▸ readByte_outcome hid hc
    · exact h ▸ writeByte_outcome x hid hc
  rcases houtcome.count hl with ⟨hne, hcount⟩ | ⟨hdone, hcount⟩
  · refine ⟨fun _ => ?_, fun h => absurd h hne⟩
    rw [hcount]
    bv_omega
  · subst hdone
    exact ⟨by simp, fun _ => hcount⟩

/-- Settles O32: by the outcome of the call, in a state whose register is right. -/
theorem writeByteStoresOnlyItsWord : Obligations.WriteByteStoresOnlyItsWord := by
  intro s a x id hregs hid hc
  obtain ⟨hmemory, hothers, hplatform, hpending, hloading⟩ := (writeByte_outcome x hid hc).storesOnly (hregs id)
  exact ⟨hmemory, hothers, hplatform, hpending, hloading⟩

end Sys2Proof.Machine
end

section
/-! The device callbacks, and the storing of a status by `collect` (spec/43_status.md R170 to R184). -/

namespace Sys2Proof.Machine

/-! ## Channel end -/

theorem channelEnd_of_unowned {s : State} {a : DevAddr} (fl : Half)
    (h : ∀ id, findSubchannel s.cfg a = some id → (s.scb id).dev ≠ some a) : channelEnd a fl s = s := by
  unfold channelEnd
  split
  · rfl
  · rename_i id hid
    exact if_pos (h id hid)

theorem channelEnd_of_owned {s : State} {a : DevAddr} {id : ScbId} (fl : Half) (hid : findSubchannel s.cfg a = some id)
    (hd : (s.scb id).dev = some a) :
    channelEnd a fl s = ((flushDirty id s).1.updScb id (Scb.channelEnded s.cfg.deClearMask fl)).raiseIrq := by
  unfold channelEnd
  rw [hid]
  exact if_neg (not_not.2 hd)

/-- The flush, faulted or not, leaves what incorrect length is judged by (R152, R172). -/
theorem flushedScb_length (s : State) (b : Scb) :
    (flushedScb s b).count = b.count ∧ (flushedScb s b).flags.sli = b.flags.sli := by
  unfold flushedScb
  cases flushFault s b <;> exact ⟨rfl, rfl⟩

theorem CcwFlags.without_noFlags (f : CcwFlags) : f.without noFlags = f := by
  simp [CcwFlags.without, noFlags]

/-- The flags an ended command keeps: none that chain after an error class, none of DE_CLEAR_MASK after device end (R173,
R174). -/
theorem channelEnded_flags (m : CcwFlags) (fl : Half) (b : Scb) :
    (b.channelEnded m fl).flags = CcwFlags.without
      (if fl &&& 0x8300 ≠ 0 then { b.flags with cd := false, cc := false } else b.flags)
      (if fl &&& stDE ≠ 0 then m else noFlags) := by
  have herror : anyBits fl (deviceByte errClass) = true ↔ fl &&& 0x8300 ≠ 0 := anyBits_iff _ _
  simp only [Scb.channelEnded, anyBits_iff fl stDE, herror]
  split
  · rfl
  · rw [CcwFlags.without_noFlags]; rfl

/-- Settles O33: the flush of a dirty register (`flushDirty_spec`), then the update of the SCB that ends its command. -/
theorem channelEndEndsTheCommand : Obligations.ChannelEndEndsTheCommand := by
  intro s a fl
  refine ⟨channelEnd_of_unowned fl, fun id b l t hid hb hd hl ht => ?_⟩
  subst ht hl
  obtain ⟨hscb, hword, hmemory, hkeys, hothers, hplatform, hcalls, hpending, hloading⟩ := flushDirty_spec id s b hb
  obtain ⟨hcount, hsli⟩ := flushedScb_length s b
  rw [channelEnd_of_owned fl hid (hb ▸ hd)]
  generalize (flushDirty id s).1 = u at *
  have hend := (LoadFrame.updScb id u (Scb.channelEnded s.cfg.deClearMask fl)).trans (.raiseIrq id _)
  refine ⟨rfl, ?_, hword, hmemory, hkeys, hothers.trans hend.others, hplatform.trans hend.platform,
    hcalls.trans ((KeepsCalls.updScb u id _).trans (.raiseIrq _)), hpending.trans hend.pending, hloading⟩
  rw [State.scb_raiseIrq, scb_updScb_self, hscb, ← channelEnded_flags, ← hcount, ← hsli]
  rfl

/-! ## Attention -/

/-- Which SCB takes a posted status itself (R177, R178). -/
theorem awaits_iff (a : DevAddr) (b : Scb) :
    b.awaits a = true ↔ b.dev = some a ∧ (b.chainHeld = true ∨ (b.status &&& stCE ≠ 0 ∧ b.status &&& stDE = 0)) := by
  simp [Scb.awaits, anyBits]

theorem postAttention_of_awaits {s : State} {a : DevAddr} {id : ScbId} (fl : Byte) (hid : findSubchannel s.cfg a = some id)
    (h : (s.scb id).awaits a = true) : postAttention a fl s = (s.updScb id (Scb.mergeDevice fl)).raiseIrq := by
  unfold postAttention
  rw [hid]
  exact if_pos h

theorem postAttention_of_unowned {s : State} {a : DevAddr} (fl : Byte)
    (h : ∀ id, findSubchannel s.cfg a = some id → ¬ (s.scb id).awaits a = true) :
    postAttention a fl s = (recordPending a fl s).raiseIrq := by
  unfold postAttention
  split
  · rename_i id hid
    exact if_neg (h id hid)
  · rfl

/-- Everything the recording of a pending status does (R179). -/
theorem recordPending_spec (a : DevAddr) (fl : Byte) (s : State) :
    (∀ d, (recordPending a fl s).pendAt d = if d = a then s.pendAt a ||| fl else s.pendAt d) ∧
    (∀ c, (recordPending a fl s).chpendAt c = if c = chanOf a then true else s.chpendAt c) ∧
    KeepsScbs s (recordPending a fl s) ∧ KeepsPlatform s (recordPending a fl s) ∧ KeepsCalls s (recordPending a fl s) ∧
    (recordPending a fl s).loading = s.loading ∧ KeepsMemory s (recordPending a fl s) ∧
    KeepsKeys s (recordPending a fl s) := by
  unfold recordPending
  refine ⟨fun d => ?_, fun c => ?_, fun _ => rfl, ⟨rfl, rfl, rfl, rfl⟩, ⟨rfl, rfl, rfl, rfl, rfl⟩, rfl, fun _ => rfl,
    fun _ => rfl⟩
  · rw [State.pendAt_setChpend, pendAt_setPend]
  · rw [chpendAt_setChpend]; rfl

/-- Settles O34: the two ways of a posted status, by whether an SCB awaits it. -/
theorem postAttentionMergesOrRecords : Obligations.PostAttentionMergesOrRecords := by
  intro s a fl t ht
  subst ht
  by_cases h : ∃ id, findSubchannel s.cfg a = some id ∧ (s.scb id).awaits a = true
  · obtain ⟨id, hid, hawaits⟩ := h
    have hmerge := (LoadFrame.updScb id s (Scb.mergeDevice fl)).trans (.raiseIrq id _)
    obtain ⟨hdev, hwaits⟩ := (awaits_iff _ _).1 hawaits
    rw [postAttention_of_awaits fl hid hawaits]
    refine ⟨rfl, hmerge.platform, ⟨rfl, rfl, rfl, rfl, rfl⟩, rfl, fun _ => rfl, fun _ => rfl, fun j b hj hb _ _ => ?_,
      fun hnot => ?_⟩
    · cases hid.symm.trans hj
      subst hb
      exact ⟨by rw [State.scb_raiseIrq, scb_updScb_self]; rfl, hmerge.others, hmerge.pending⟩
    · exfalso
      rcases hnot id hid with hne | ⟨hheld, hstatus⟩
      · exact hne hdev
      · rcases hwaits with hh | ⟨hce, hde⟩
        · rw [hheld] at hh; cases hh
        · exact hstatus.elim hce (fun hne => hne hde)
  · have hnone (id) (hid : findSubchannel s.cfg a = some id) : ¬ (s.scb id).awaits a = true := fun hx => h ⟨id, hid, hx⟩
    obtain ⟨hpend, hchpend, hscbs, hplatform, hcalls, hloading, hmemory, hkeys⟩ := recordPending_spec a fl s
    rw [postAttention_of_unowned fl hnone]
    refine ⟨rfl, hplatform.trans (KeepsOutside.raiseIrq _).platform, hcalls.trans (.raiseIrq _), hloading, hmemory, hkeys,
      fun id b hid hb hdev hwaits => ?_, fun _ => ⟨hscbs, hpend, hchpend⟩⟩
    subst hb
    exact absurd ((awaits_iff _ _).2 ⟨hdev, hwaits⟩) (hnone id hid)

/-! ## The collected SCB -/

/-- The SCB of an ended program is freed (R182, R184). -/
theorem collectedScb_of_ended {b : Scb} (h : b.status &&& stCE ≠ 0) : collectedScb b = freedScb { b with status := 0 } :=
  if_pos ((anyBits_iff _ _).2 h)

/-- While the program runs on only PCI is cleared, or, with no PCI, the whole status (R182). -/
theorem collectedScb_of_running {b : Scb} (h : b.status &&& stCE = 0) :
    collectedScb b = { b with status := if b.status &&& stPCI ≠ 0 then b.status &&& ~~~stPCI else 0 } := by
  have hce := (anyBits_false_iff _ _).2 h
  unfold collectedScb storedStatus
  simp [hce, anyBits_iff]

/-- Settles O35: what `collect_spec` says, the SCB left by whether channel end is there. -/
theorem collectFreesAnEndedProgram : Obligations.CollectFreesAnEndedProgram := by
  intro s id b t hw hb ht
  subst hb ht
  obtain ⟨hcsw, hscb, hframe⟩ := collect_spec (memoryWf_of_configWf hw) id
  exact ⟨hcsw, fun h => hscb.trans (collectedScb_of_ended h), fun h => hscb.trans (collectedScb_of_running h), hframe⟩

end Sys2Proof.Machine
end

section
/-! The order in which the scan visits the SCBs (spec/43_status.md R185, R192; spec/10_state.md R23). -/

namespace Sys2Proof.Machine

theorem mem_enabledChannels {cfg : Config} {c : Fin 16} :
    c ∈ enabledChannels cfg ↔ ∃ ch, channelAt cfg c = some ch ∧ ch.enabled = true := by
  simp only [enabledChannels, enabledChannel, List.mem_filter, List.mem_finRange, true_and]
  cases channelAt cfg c with
  | none => simp
  | some ch => cases h : ch.enabled <;> simp [h]

theorem mem_channelScbs {cfg : Config} {c : Fin 16} {id : ScbId} :
    id ∈ channelScbs cfg c ↔ id.chan = c ∧ ∃ ch, channelAt cfg c = some ch ∧ id.sub.val < scbCount ch.kind := by
  unfold channelScbs
  cases channelAt cfg c with
  | none => simp
  | some ch =>
    simp only [List.mem_map, List.mem_filter, List.mem_finRange, true_and, decide_eq_true_eq, Option.some.injEq,
      exists_eq_left']
    constructor
    · rintro ⟨i, hi, rfl⟩; exact ⟨rfl, hi⟩
    · rintro ⟨rfl, hi⟩; exact ⟨id.sub, hi, rfl⟩

theorem mem_scanOrder_iff {cfg : Config} {id : ScbId} :
    id ∈ scanOrder cfg ↔ ∃ ch, channelAt cfg id.chan = some ch ∧ ch.enabled = true ∧ id.sub.val < scbCount ch.kind := by
  simp only [scanOrder, List.mem_flatMap, mem_enabledChannels, mem_channelScbs]
  constructor
  · rintro ⟨c, ⟨ch, hch, hen⟩, rfl, ch', hch', hlt⟩
    cases hch.symm.trans hch'
    exact ⟨ch, hch, hen, hlt⟩
  · rintro ⟨ch, hch, hen, hlt⟩
    exact ⟨id.chan, ⟨ch, hch, hen⟩, rfl, ch, hch, hlt⟩

/-- The SCBs below a kind's number of them, kind by kind (R23). -/
theorem lt_scbCount_iff (k : ChannelKind) (i : Nat) :
    i < scbCount k ↔ (k = .selector ∨ k = .blockMux false) ∧ i = 0 ∨ k = .blockMux true ∧ i < 32 ∨
      ∃ n, k = .mux n ∧ i < n := by
  cases k with
  | selector => simp [scbCount]
  | mux n => simp [scbCount]
  | blockMux extended => cases extended <;> simp [scbCount]

/-- An SCB of a lower channel, or a lower one of the same channel, has a lower place in the list of SCBs. -/
theorem ScbId.index_lt {i j : ScbId} (h : i.chan < j.chan ∨ (i.chan = j.chan ∧ i.sub < j.sub)) : i.index < j.index := by
  obtain ⟨⟨c, hc⟩, ⟨k, hk⟩⟩ := i
  obtain ⟨⟨d, hd⟩, ⟨l, hl⟩⟩ := j
  simp only [Fin.mk_lt_mk, Fin.mk.injEq] at h
  simp only [ScbId.index]
  omega

theorem channelScbs_ascending (cfg : Config) (c : Fin 16) :
    (channelScbs cfg c).Pairwise fun i j => i.index < j.index := by
  unfold channelScbs
  cases channelAt cfg c with
  | none => exact List.Pairwise.nil
  | some ch =>
    rw [List.pairwise_map]
    exact ((List.pairwise_lt_finRange 256).filter _).imp fun {i k} h =>
      ScbId.index_lt (i := ⟨c, i⟩) (j := ⟨c, k⟩) (.inr ⟨rfl, h⟩)

theorem scanOrder_ascending (cfg : Config) : (scanOrder cfg).Pairwise fun i j => i.index < j.index := by
  refine List.pairwise_flatMap.2 ⟨fun c _ => channelScbs_ascending cfg c, ?_⟩
  refine ((List.pairwise_lt_finRange 16).filter _).imp fun {c d} hcd i hi j hj => ScbId.index_lt (.inl ?_)
  obtain ⟨rfl, -⟩ := mem_channelScbs.1 hi
  obtain ⟨rfl, -⟩ := mem_channelScbs.1 hj
  exact hcd

/-- Settles O36: the list is a concatenation of ascending lists over ascending channels; its members by the kind of channel. -/
theorem scanOrderIsAscending : Obligations.ScanOrderIsAscending := by
  intro cfg _
  refine ⟨scanOrder_ascending cfg, fun id => ?_⟩
  simp only [mem_scanOrder_iff, lt_scbCount_iff]
  rfl

end Sys2Proof.Machine
end

section
/-!
What the scan does at one SCB, by what that SCB holds: nothing to look at, a PCI to deliver, or else a chain, a completed program
or a command that still runs (spec/43_status.md R185 to R188, R191, R192).
-/

namespace Sys2Proof.Machine

section
variable {s : State} {a : DevAddr} {m : Half} {e : Bool} {id : ScbId}

/-! ## After the PCI -/

theorem scanAfterPci_of_held (h : (s.scb id).chainHeld = true) : scanAfterPci a id m e s = (scanHeld id s, none) := by
  unfold scanAfterPci; exact if_pos h

theorem scanAfterPci_of_chain (hh : (s.scb id).chainHeld = false) (hce : (s.scb id).status &&& stCE ≠ 0)
    (hcmd : (s.scb id).cmd = 0) (hcc : (s.scb id).flags.cc = true) (herr : (s.scb id).status &&& chanErr = 0) :
    scanAfterPci a id m e s = (scanChain id s, none) := by
  simp [scanAfterPci, hh, (anyBits_iff _ _).2 hce, hcmd, Scb.chains, hcc, (anyBits_false_iff _ _).2 herr]

/-- A command that is not held and has not ended is left to run (R185). -/
theorem scanAfterPci_of_running (hh : (s.scb id).chainHeld = false)
    (h : ¬ ((s.scb id).status &&& stCE ≠ 0 ∧ (s.scb id).cmd = 0)) : scanAfterPci a id m e s = (s, none) := by
  have hended : ¬ (anyBits (s.scb id).status stCE && (s.scb id).cmd == 0) = true := by
    simpa [anyBits_iff] using h
  unfold scanAfterPci
  simp only [hh, Bool.false_eq_true, if_false, if_neg hended]

/-- An ended command that does not chain is a completed program, and the other way round (R187, R188). -/
theorem completed_iff (b : Scb) : completed b ↔ b.status &&& stCE ≠ 0 ∧ b.cmd = 0 ∧ ¬ chaining b := by
  unfold completed chaining
  rw [← Bool.not_eq_true, ← Bool.not_eq_true]
  tauto

/-! ## The SCB -/

theorem scanScb_of_unbound (hd : (s.scb id).dev = none) : scanScb m e id s = (s, none) := by
  simp [scanScb, hd]

/-- A PCI that may be delivered comes first (R185, R192). -/
theorem scanScb_of_pci (hd : (s.scb id).dev = some a) (hp : (s.scb id).status &&& stPCI ≠ 0)
    (hm : pciEnabled s m e a id.chan) : scanScb m e id s = ((collect id s).raiseIrq, some a) := by
  simp [scanScb, hd, (anyBits_iff _ _).2 hp, (maskedOn_iff _ _ _ _ _).2 hm]

/-- The state from which the scan goes on to an SCB's other conditions: a PCI held back raises IRQ (R185, R191). -/
def State.pastPci (s : State) (id : ScbId) : State := if (s.scb id).status &&& stPCI = 0 then s else s.raiseIrq

@[simp] theorem State.scb_pastPci (s : State) (id j : ScbId) : (s.pastPci id).scb j = s.scb j := by
  unfold State.pastPci
  split <;> rfl

theorem KeepsOutside.pastPci (s : State) (id : ScbId) : KeepsOutside s (s.pastPci id) := by
  unfold State.pastPci
  split
  · exact .refl s
  · exact .raiseIrq s

/-- With no PCI, or one held back, the scan goes on to the SCB's other conditions (R185). -/
theorem scanScb_past_pci (hd : (s.scb id).dev = some a)
    (h : (s.scb id).status &&& stPCI = 0 ∨ ¬ pciEnabled s m e a id.chan) :
    scanScb m e id s = scanAfterPci a id m e (s.pastPci id) := by
  unfold State.pastPci
  by_cases hp : (s.scb id).status &&& stPCI = 0
  · rw [if_pos hp]
    simp [scanScb, hd, (anyBits_false_iff _ _).2 hp]
  · have hm : maskedOn s a id.chan m e = false := by
      rw [Bool.eq_false_iff, ne_eq, maskedOn_iff]; exact h.resolve_left hp
    rw [if_neg hp]
    simp [scanScb, hd, (anyBits_iff _ _).2 hp, hm]

end

/-! ## Chains -/

theorem scanHeld_eq (id : ScbId) (s : State) :
    scanHeld id s = if (s.scb id).status &&& stDE = 0 then s else (loadNextCcw id true s).1.raiseIrq := by
  simp [scanHeld, anyBits]

theorem scanChain_eq (id : ScbId) (s : State) :
    scanChain id s = if (s.scb id).status &&& stDE = 0 then s
      else (loadNextCcw id true (s.updScb id Scb.continued)).1.raiseIrq := by
  simp [scanChain, anyBits]

/-- Where the PCI stands, a chain that waits or is continued keeps it, with IRQ set (R186, R187, R191): a load clears none. -/
theorem pci_stands {s w t : State} {id : ScbId} (hp : (s.scb id).status &&& stPCI ≠ 0)
    (hw : (w.scb id).status &&& stPCI ≠ 0)
    (h : t = if (s.scb id).status &&& stDE = 0 then s.pastPci id else (loadNextCcw id true w).1.raiseIrq) :
    t.irq = true ∧ (t.scb id).status &&& stPCI ≠ 0 := by
  subst h
  split
  · refine ⟨?_, by rw [State.scb_pastPci]; exact hp⟩
    unfold State.pastPci
    rw [if_neg hp]; rfl
  · exact ⟨rfl, (anyBits_iff _ _).1 (loadNextCcw_pci id true ((anyBits_iff _ _).2 hw))⟩

/-- A command chain keeps the PCI of its status (R187). -/
theorem continued_pci (b : Scb) : anyBits b.continued.status stPCI = anyBits b.status stPCI :=
  anyBits_and_keep (by decide)

/-- Settles O38: past the PCI, the scan of a held chain and of a command chain. -/
theorem scanContinuesAChainAtDeviceEnd : Obligations.ScanContinuesAChainAtDeviceEnd := by
  intro s v mask enabled id a b hb hd hpci hv
  have hv' : v = s.pastPci id := by rw [hv, hb]; rfl
  have hvscb : v.scb id = b := by rw [hv', State.scb_pastPci, hb]
  have hscan := scanScb_past_pci (hb ▸ hd) (hb ▸ hpci)
  rw [← hv'] at hscan
  have hheld (hh : b.chainHeld = true) : scanScb mask enabled id s =
      (if b.status &&& stDE = 0 then v else (loadNextCcw id true v).1.raiseIrq, none) := by
    rw [hscan, scanAfterPci_of_held (hvscb ▸ hh), scanHeld_eq, hvscb]
  have hchain (hh : b.chainHeld = false) (hce : b.status &&& stCE ≠ 0) (hcmd : b.cmd = 0) (hcc : b.flags.cc = true)
      (herr : b.status &&& chanErr = 0) : scanScb mask enabled id s =
      (if b.status &&& stDE = 0 then v else (loadNextCcw id true (v.setScb id b.continued)).1.raiseIrq, none) := by
    subst hvscb
    rw [hscan, scanAfterPci_of_chain hh hce hcmd hcc herr, scanChain_eq]
    rfl
  refine ⟨hheld, hchain, fun hc hp => ?_⟩
  subst hb hv'
  cases hh : (s.scb id).chainHeld with
  | true => exact pci_stands hp (hvscb ▸ hp) (congrArg Prod.fst (hheld hh))
  | false =>
    obtain ⟨hce, hcmd, hcc, herr⟩ := hc.resolve_left (by simp [hh])
    refine pci_stands hp ?_ (congrArg Prod.fst (hchain hh hce hcmd hcc herr))
    rw [scb_setScb_self, ← anyBits_iff, continued_pci]
    exact (anyBits_iff _ _).2 hp

end Sys2Proof.Machine
end

section
/-!
What the whole scan does: it delivers the condition of an SCB, or takes a pending status, or delivers nothing (spec/43_status.md
R181 to R192); SIO and TIO take a pending status the same way (spec/44_io_instructions.md R204, R213).
-/

namespace Sys2Proof.Machine

/-! ## Storing a CSW and clearing a pending status -/

section
variable {w0 w1 : Word} {s t : State}

theorem StoresCsw.clearPend (h : StoresCsw w0 w1 s t) (a : DevAddr) : StoresCsw w0 w1 s (clearPend a t) :=
  ⟨h.first, h.second, h.memory, h.keys⟩

theorem StoresCsw.raiseIrq (h : StoresCsw w0 w1 s t) : StoresCsw w0 w1 s t.raiseIrq :=
  ⟨h.first, h.second, h.memory, h.keys⟩

/-- What `clear_pend` leaves as before: everything but the pending-status table and its flags (R183). -/
theorem clearPend_keeps (a : DevAddr) (s : State) :
    KeepsScbs s (clearPend a s) ∧ KeepsPlatform s (clearPend a s) ∧ KeepsCalls s (clearPend a s) ∧
    (clearPend a s).loading = s.loading ∧ (clearPend a s).irq = s.irq :=
  ⟨fun _ => rfl, ⟨rfl, rfl, rfl, rfl⟩, ⟨rfl, rfl, rfl, rfl, rfl⟩, rfl, rfl⟩

/-- The entry of `a` is cleared and `CHPEND` of its channel recomputed, in a table that was that of `s` (R183). -/
theorem KeepsPending.clearPend (h : KeepsPending s t) (a : DevAddr) :
    (∀ d, (clearPend a t).pendAt d = if d = a then 0 else s.pendAt d) ∧
    ((clearPend a t).chpendAt (chanOf a) = true ↔ ∃ d, d ≠ a ∧ chanOf d = chanOf a ∧ s.pendAt d ≠ 0) ∧
    (∀ c, c ≠ chanOf a → (clearPend a t).chpendAt c = s.chpendAt c) := by
  have hchpend (c : Fin 16) : t.chpendAt c = s.chpendAt c := by unfold State.chpendAt; rw [h.chpend]
  simpa only [h.pend, hchpend] using clearPend_spec a t

end

/-- The pending status of `a` is stored as a synthesized CSW, its entry cleared, and nothing else changed (R181, R183). -/
structure TakesPending (a : DevAddr) (s t : State) : Prop where
  csw : StoresCsw 0 (s.pendAt a ++ 0#24) s t
  entry : ∀ d, t.pendAt d = if d = a then 0 else s.pendAt d
  flag : t.chpendAt (chanOf a) = true ↔ ∃ d, d ≠ a ∧ chanOf d = chanOf a ∧ s.pendAt d ≠ 0
  otherFlags : ∀ c, c ≠ chanOf a → t.chpendAt c = s.chpendAt c
  scbs : KeepsScbs s t
  platform : KeepsPlatform s t
  calls : KeepsCalls s t
  loading : t.loading = s.loading
  irq : t.irq = s.irq

theorem storeSynth_clearPend_takes {s : State} (h : memoryWf s.cfg = true) (a : DevAddr) :
    TakesPending a s (clearPend a (storeSynth (s.pendAt a) s)) := by
  obtain ⟨hcsw, hstore⟩ := storeCsw_spec h 0 (s.pendAt a ++ 0#24)
  obtain ⟨hentry, hflag, hothers⟩ := hstore.pending.clearPend a
  obtain ⟨hscbs, hplatform, hcalls, hloading, hirq⟩ := clearPend_keeps a (storeSynth (s.pendAt a) s)
  exact ⟨hcsw.clearPend a, hentry, hflag, hothers, fun j => (hscbs j).trans (hstore.scbs j), hstore.platform.trans hplatform,
    hstore.calls.trans hcalls, hloading.trans hstore.loading, hirq.trans hstore.irq⟩

/-! ## What the SCBs passed by leave -/

section
variable {l : List ScbId} {s u : State} (h : PassesBy l s u)
include h

theorem PassesBy.pciEnabled_iff (m : Half) (e : Bool) (a : DevAddr) (c : Fin 16) :
    pciEnabled u m e a c ↔ pciEnabled s m e a c := by
  unfold pciEnabled; rw [h.platform.cfg, h.loading]

theorem PassesBy.completionEnabled_iff (m : Half) (e : Bool) (a : DevAddr) (c : Fin 16) :
    completionEnabled u m e a c ↔ completionEnabled s m e a c := by
  unfold completionEnabled; rw [h.platform.cfg, h.loading]

theorem PassesBy.chpendAt (c : Fin 16) : u.chpendAt c = s.chpendAt c := by
  unfold State.chpendAt; rw [h.pending.chpend]

theorem PassesBy.memoryWf (hw : configWf s.cfg = true) : memoryWf u.cfg = true :=
  h.platform.cfg ▸ memoryWf_of_configWf hw

end

/-- The scan clears IRQ on entry, and passes by SCBs of its order that it may not deliver (R185, R191). -/
theorem scanScbs_passes_from {s : State} {m : Half} {e : Bool} {before rest : List ScbId}
    (ho : scanOrder s.cfg = before ++ rest) (h : ∀ j ∈ before, ¬ deliverable s m e j) :
    (scanScbs m e before { s with irq := false }).2 = none ∧
    PassesBy before s (scanScbs m e before { s with irq := false }).1 := by
  have hnodup : before.Nodup := (List.nodup_append.1 (ho ▸ scanOrder_nodup s.cfg)).1
  obtain ⟨hnone, hpass⟩ := scanScbs_passes (s := { s with irq := false }) hnodup h
  exact ⟨hnone, hpass.of_irq⟩

/-! ## The first SCB the scan delivers -/

/-- A CSW stored past the PCI of an SCB is one stored from the state before: only IRQ may have been raised. -/
theorem StoresCsw.of_pastPci {w0 w1 : Word} {s t : State} {id : ScbId} (h : StoresCsw w0 w1 (s.pastPci id) t) :
    StoresCsw w0 w1 s t := by
  unfold State.pastPci at h
  split at h
  · exact h
  · exact ⟨h.first, h.second, h.memory, h.keys⟩

/-- A completed program that may be delivered, with no PCI or one held back, is collected, and the pending status of its address
cleared (R183, R184, R188). -/
theorem scanScb_of_completed {s : State} {a : DevAddr} {m : Half} {e : Bool} {id : ScbId} (hd : (s.scb id).dev = some a)
    (hp : (s.scb id).status &&& stPCI = 0 ∨ ¬ pciEnabled s m e a id.chan) (hc : completed (s.scb id))
    (hen : completionEnabled s m e a id.chan) :
    scanScb m e id s = ((clearPend a (collect id (s.pastPci id))).raiseIrq, some a) := by
  have hpast := KeepsOutside.pastPci s id
  have hallowed : allowed (s.pastPci id) a id.chan m e = true := by
    rw [allowed_iff]
    unfold completionEnabled
    rw [hpast.platform.cfg, hpast.loading]
    exact hen
  rw [scanScb_past_pci hd hp, scanAfterPci_completed (by rw [State.scb_pastPci]; exact hc)]
  exact if_pos hallowed

/-- Settles O37: the SCBs before it are passed by, which leaves it and what is enabled as it was; then its own scan. -/
theorem scanDeliversTheFirstDeliverable : Obligations.ScanDeliversTheFirstDeliverable := by
  intro s u mask enabled before after id a b hw hirq horder hbefore hb hd hu
  obtain ⟨hnone, hpass⟩ := scanScbs_passes_from horder hbefore
  have hscan {t : State} : scanScb mask enabled id u = (t, some a) → scan mask enabled s = (t, some a) :=
    scan_delivers hirq horder (by rw [← hnone, hu])
  rw [← hu] at hpass
  have hnot : id ∉ before := fun h =>
    (List.nodup_append.1 (horder ▸ scanOrder_nodup s.cfg)).2.2 id h id (by simp) rfl
  have hub : u.scb id = b := (hpass.scbs id (.inl hnot)).trans hb.symm
  have hmem := hpass.memoryWf hw
  refine ⟨hpass, hub, fun hp hen => ?_, fun hp hc hen => ?_⟩
  · have hdeliver := scanScb_of_pci (hub ▸ hd) (hub ▸ hp) ((hpass.pciEnabled_iff _ _ _ _).2 hen)
    obtain ⟨hcsw, hscb, hothers, hplatform, hcalls, hpending, hloading, -⟩ := collect_spec hmem id
    have hraise := LoadFrame.raiseIrq id (collect id u)
    rw [hub] at hcsw hscb
    refine ⟨_, hscan hdeliver, rfl, hcsw.raiseIrq, fun hce => ?_, fun hce => hscb.trans (collectedScb_of_ended hce),
      hothers.trans hraise.others, hpass.platform.trans (hplatform.trans hraise.platform), hcalls.trans (.raiseIrq _),
      hpass.pending.trans (hpending.trans hraise.pending), hloading.trans hpass.loading⟩
    rw [State.scb_raiseIrq, hscb, collectedScb_of_running hce, if_pos hp]
  · have hdeliver := scanScb_of_completed (hub ▸ hd) (by rw [hub, hpass.pciEnabled_iff]; exact hp) (hub ▸ hc)
      ((hpass.completionEnabled_iff _ _ _ _).2 hen)
    have hpast := KeepsOutside.pastPci u id
    obtain ⟨hcsw, hscb, hothers, hplatform, hcalls, hpending, hloading, -⟩ :=
      collect_spec (s := u.pastPci id) (hpast.platform.cfg ▸ hmem) id
    rw [State.scb_pastPci, hub] at hcsw hscb
    obtain ⟨hentry, hflag, hflags⟩ := (hpass.pending.trans (hpast.pending.trans hpending)).clearPend a
    obtain ⟨hscbs, hcplatform, hccalls, hcloading, -⟩ := clearPend_keeps a (collect id (u.pastPci id))
    have hraise := KeepsOutside.raiseIrq (clearPend a (collect id (u.pastPci id)))
    refine ⟨_, hscan hdeliver, rfl, (hcsw.of_pastPci.clearPend a).raiseIrq,
      (hscbs id).trans (hscb.trans (collectedScb_of_ended hc.1)), (hentry a).trans (if_pos rfl),
      fun d hne => (hentry d).trans (if_neg hne), hflag, hflags, fun j hj => ?_,
      hpass.platform.trans (hpast.platform.trans (hplatform.trans (hcplatform.trans hraise.platform))),
      hpast.calls.trans (hcalls.trans (hccalls.trans hraise.calls)),
      hcloading.trans (hloading.trans (hpast.loading.trans hpass.loading))⟩
    exact (hscbs j).trans ((hothers j hj).trans (State.scb_pastPci u id j))

/-! ## The fallback -/

/-- The fallback picks the lowest address with a pending status that it may deliver (R189, R190). -/
theorem fallbackPick_of_lowest {s : State} {m : Half} {a : DevAddr} (hch : (enabledChannel s.cfg (chanOf a)).isSome = true)
    (hflag : s.chpendAt (chanOf a) = true) (hpend : s.pendAt a ≠ 0) (hen : pciEnabled s m true a (chanOf a))
    (hlow : ∀ d, d.toNat < a.toNat → enabledChannel s.cfg (chanOf d) = none ∨ s.chpendAt (chanOf d) = false ∨
      s.pendAt d = 0 ∨ ¬ pciEnabled s m true d (chanOf d)) : fallbackPick s m true = some a := by
  have htest (d : DevAddr) : (s.pendAt d != 0 && maskedOn s d (chanOf d) m true) = true ↔
      s.pendAt d ≠ 0 ∧ pciEnabled s m true d (chanOf d) := by
    rw [Bool.and_eq_true, maskedOn_iff, bne_iff_ne]
  refine find_ascending (fallbackOrder_sorted s) ((mem_fallbackOrder s a).2 ⟨hch, hflag⟩) ((htest a).2 ⟨hpend, hen⟩)
    fun d hd hlt => ?_
  obtain ⟨hdch, hdflag⟩ := (mem_fallbackOrder s d).1 hd
  rw [Bool.eq_false_iff, ne_eq, htest]
  rintro ⟨hdpend, hden⟩
  rcases hlow d hlt with h | h | h | h
  · rw [h] at hdch; cases hdch
  · rw [h] at hdflag; cases hdflag
  · exact hdpend h
  · exact h hden

theorem scanFallback_of_pick {s : State} {m : Half} {e : Bool} {a : DevAddr} (h : fallbackPick s m e = some a) :
    scanFallback m e s = ((clearPend a (storeSynth (s.pendAt a) s)).raiseIrq, some a) := by
  unfold scanFallback; rw [h]

/-- A scan that delivers no SCB ends in the fallback (R185). -/
theorem scan_falls_back {s u : State} {m : Half} {e : Bool} (hi : s.irq = true)
    (hu : scanScbs m e (scanOrder s.cfg) { s with irq := false } = (u, none)) : scan m e s = scanFallback m e u := by
  unfold scan
  rw [if_pos hi, hu]

/-- Settles O39: all SCBs are passed by, which leaves the pending statuses and what is enabled as they were; then the fallback. -/
theorem scanFallsBackToPendingStatus : Obligations.ScanFallsBackToPendingStatus := by
  intro s u mask a hw hirq hnot hu hch hflag hpend hen hlow
  obtain ⟨hnone, hpass⟩ := scanScbs_passes_from (List.append_nil _).symm hnot
  have hscan := scan_falls_back (u := u) hirq (by rw [← hnone, hu])
  rw [← hu] at hpass
  have hpick : fallbackPick u mask true = some a := by
    apply fallbackPick_of_lowest <;>
      simpa only [hpass.platform.cfg, hpass.pending.pend, hpass.chpendAt, hpass.pciEnabled_iff]
  rw [scanFallback_of_pick hpick] at hscan
  have htakes := storeSynth_clearPend_takes (hpass.memoryWf hw) a
  generalize clearPend a (storeSynth (u.pendAt a) u) = t at hscan htakes
  have hraise := KeepsOutside.raiseIrq t
  obtain ⟨hcsw, hentry, hclear, hothers, hscbs, hplatform, hcalls, hloading, -⟩ := htakes
  simp only [hpass.pending.pend, hpass.chpendAt] at hcsw hentry hclear hothers
  exact ⟨hpass, _, hscan, rfl, hcsw.raiseIrq, hentry, hclear, hothers, hscbs,
    hpass.platform.trans (hplatform.trans hraise.platform), hcalls.trans hraise.calls, hloading.trans hpass.loading⟩

/-! ## A scan that delivers nothing -/

/-- Of the state only IRQ may have changed: it was raised exactly if `P`. -/
def RaisesIrqIf (P : Prop) (s t : State) : Prop := { t with irq := s.irq } = s ∧ (t.irq = true ↔ s.irq = true ∨ P)

section
variable {P Q : Prop} {s t u : State}

theorem RaisesIrqIf.refl (h : ¬ P) (s : State) : RaisesIrqIf P s s := ⟨rfl, by simp [h]⟩

theorem RaisesIrqIf.raise (h : P) (s : State) : RaisesIrqIf P s s.raiseIrq := ⟨rfl, by simp [h, State.raiseIrq]⟩

theorem RaisesIrqIf.trans (h : RaisesIrqIf P s t) (k : RaisesIrqIf Q t u) : RaisesIrqIf (P ∨ Q) s u := by
  obtain ⟨hrest, hirq⟩ := h
  obtain ⟨krest, kirq⟩ := k
  refine ⟨?_, by rw [kirq, hirq, or_assoc]⟩
  rw [← hrest, ← krest]

theorem RaisesIrqIf.scb (h : RaisesIrqIf P s t) (j : ScbId) : t.scb j = s.scb j := by rw [← h.1]; rfl

theorem RaisesIrqIf.chpend (h : RaisesIrqIf P s t) : t.chpend = s.chpend := by rw [← h.1]

end

/-- An SCB with a condition that the scan, if it does not deliver it, leaves pending: a PCI or a completed program (R191). -/
def leavesPending (b : Scb) : Prop := b.dev ≠ none ∧ (b.status &&& stPCI ≠ 0 ∨ completed b)

section
variable {s t : State} {a : DevAddr} {m : Half} {e : Bool} {id : ScbId}

theorem RaisesIrqIf.pastPci (s : State) (id : ScbId) :
    RaisesIrqIf ((s.scb id).status &&& stPCI ≠ 0) s (s.pastPci id) := by
  unfold State.pastPci
  split
  · rename_i h; exact .refl (not_not.2 h) s
  · rename_i h; exact .raise h s

/-- A chain that waits for its device end is left alone (R186, R187). -/
theorem scanAfterPci_of_waiting (hc : chaining (s.scb id)) (hde : (s.scb id).status &&& stDE = 0) :
    scanAfterPci a id m e s = (s, none) := by
  cases hh : (s.scb id).chainHeld with
  | true => rw [scanAfterPci_of_held hh, scanHeld_eq, if_pos hde]
  | false =>
    obtain ⟨hce, hcmd, hcc, herr⟩ := hc.resolve_left (by simp [hh])
    rw [scanAfterPci_of_chain hh hce hcmd hcc herr, scanChain_eq, if_pos hde]

/-- Past its PCI, an SCB that delivers nothing and continues no chain raises IRQ for a completed program (R188, R191). -/
theorem scanAfterPci_undelivered (hc : chaining (s.scb id) → (s.scb id).status &&& stDE = 0)
    (h : scanAfterPci a id m e s = (t, none)) : RaisesIrqIf (completed (s.scb id)) s t := by
  by_cases hch : chaining (s.scb id)
  · rw [scanAfterPci_of_waiting hch (hc hch)] at h
    cases h
    exact .refl (fun hx => ((completed_iff _).1 hx).2.2 hch) s
  · by_cases hx : completed (s.scb id)
    · rw [scanAfterPci_completed hx, scanComplete] at h
      split at h <;> cases h
      exact .raise hx s
    · have hheld : (s.scb id).chainHeld = false := Bool.eq_false_iff.2 fun hh => hch (.inl hh)
      rw [scanAfterPci_of_running hheld fun hended => hx ((completed_iff _).2 ⟨hended.1, hended.2, hch⟩)] at h
      cases h
      exact .refl hx s

/-- An SCB that delivers nothing and continues no chain raises IRQ for what it leaves pending (R191). -/
theorem scanScb_undelivered (hc : ¬ continues (s.scb id)) (h : scanScb m e id s = (t, none)) :
    RaisesIrqIf (leavesPending (s.scb id)) s t := by
  cases hd : (s.scb id).dev with
  | none =>
    rw [scanScb_of_unbound hd] at h
    cases h
    exact .refl (fun hx => hx.1 hd) s
  | some a =>
    have hbound : (s.scb id).dev ≠ none := by simp [hd]
    have hpci : (s.scb id).status &&& stPCI = 0 ∨ ¬ pciEnabled s m e a id.chan := by
      by_contra hx
      obtain ⟨hp, hen⟩ := not_or.1 hx
      rw [scanScb_of_pci hd hp (not_not.1 hen)] at h
      cases h
    rw [scanScb_past_pci hd hpci] at h
    have hwaits : chaining (s.scb id) → (s.scb id).status &&& stDE = 0 := fun hch =>
      by_contra fun hde => hc ⟨hbound, hch, hde⟩
    have hall := (RaisesIrqIf.pastPci s id).trans (scanAfterPci_undelivered (by rw [State.scb_pastPci]; exact hwaits) h)
    rw [State.scb_pastPci] at hall
    simpa [leavesPending, hbound] using hall

end

/-- SCBs that deliver nothing and continue no chain raise IRQ for what they leave pending (R191). -/
theorem scanScbs_undelivered {m : Half} {e : Bool} {l : List ScbId} {s t : State} (hc : ∀ j ∈ l, ¬ continues (s.scb j))
    (h : scanScbs m e l s = (t, none)) : RaisesIrqIf (∃ j ∈ l, leavesPending (s.scb j)) s t := by
  induction l generalizing s with
  | nil => cases h; exact .refl (by simp) _
  | cons i l ih =>
    simp only [scanScbs] at h
    split at h
    · cases h
    · rename_i u hu
      have hfirst := scanScb_undelivered (hc i (by simp)) hu
      have hrest := ih (fun j hj => by rw [hfirst.scb]; exact hc j (by simp [hj])) h
      simp only [hfirst.scb] at hrest
      simpa only [List.exists_mem_cons_iff] using hfirst.trans hrest

/-- A fallback that delivers nothing raises IRQ for a flagged channel (R191). -/
theorem scanFallback_undelivered {m : Half} {e : Bool} {s t : State} (h : scanFallback m e s = (t, none)) :
    RaisesIrqIf (s.chpend ≠ 0) s t := by
  unfold scanFallback at h
  split at h
  · cases h
  · split at h <;> rename_i hz <;> cases h
    · exact .raise (by simpa using hz) s
    · exact .refl (by simpa using hz) s

/-- Settles O40: SCB by SCB and in the fallback, IRQ is raised again for each condition left. -/
theorem undeliveredStatusKeepsIrq : Obligations.UndeliveredStatusKeepsIrq := by
  intro s t mask enabled hirq hwaits h
  have hc (j) (hj : j ∈ scanOrder s.cfg) : ¬ continues (s.scb j) := fun ⟨hbound, hch, hde⟩ =>
    (hwaits j hj).elim hbound fun hx => hx.elim (· hch) hde
  unfold scan at h
  rw [if_pos hirq] at h
  split at h
  · cases h
  · rename_i u hu
    have hscbs := scanScbs_undelivered (s := { s with irq := false }) hc hu
    obtain ⟨hrest, hiff⟩ := hscbs.trans (scanFallback_undelivered h)
    refine ⟨congrArg (fun x : State => { x with irq := s.irq }) hrest, hiff.trans ?_⟩
    rw [hscbs.chpend]
    simp only [leavesPending, completed_iff, Bool.false_eq_true, false_or]
    exact or_comm

/-! ## SIO and TIO take a pending status -/

section
variable {s : State} {a : DevAddr} {id : ScbId} {dev : Binding} (hR : Resolves s a id dev) (hr : ¬ running (s.scb id))
  (hp : s.pendAt a ≠ 0)
include hR hr hp

/-- SIO on a free SCB comes to the pending status (spec/44_io_instructions.md R204). -/
theorem startIo_takesPending (hd : (s.scb id).dev = none ∨ ((s.scb id).dev = some a ∧ (s.scb id).status = 0)) :
    startIo a s = takePending a s := by
  have hcollect : ¬ ((s.scb id).dev = some a ∧ (s.scb id).status ≠ 0 ∧ (s.scb id).midProgram = false) :=
    fun ⟨hx, hst, _⟩ => hd.elim (fun hd => by rw [hd] at hx; cases hx) fun hd => hst hd.2
  have hbusy : ¬ ((s.scb id).midProgram = true ∨ ((s.scb id).dev ≠ none ∧ (s.scb id).dev ≠ some a)) := by
    rintro (hx | ⟨hne, hna⟩)
    · exact hr ((midProgram_iff _).1 hx)
    · exact hd.elim hne fun hd => hna hd.1
  unfold startIo
  rw [resolve_some hR]
  exact (if_neg hcollect).trans ((if_neg hbusy).trans (if_pos hp))

/-- TIO on an SCB with nothing of its own to report comes to the pending status (spec/44_io_instructions.md R213). -/
theorem testIo_takesPending
    (hd : (s.scb id).dev ≠ some a ∨ (¬ hasErrorStatus (s.scb id) ∧ (s.scb id).status &&& stCE = 0)) :
    testIo a s = takePending a s := by
  have herror : ¬ ((s.scb id).dev = some a ∧ errorStatus (s.scb id).status = true) :=
    fun ⟨hx, herr⟩ => hd.elim (· hx) fun hd => hd.1 ((errorStatus_iff _).1 herr)
  have hbusy : ¬ (s.scb id).midProgram = true := fun hx => hr ((midProgram_iff _).1 hx)
  have hended : ¬ ((s.scb id).dev = some a ∧ anyBits (s.scb id).status stCE = true) :=
    fun ⟨hx, hce⟩ => hd.elim (· hx) fun hd => (anyBits_iff _ _).1 hce hd.2
  unfold testIo
  rw [resolve_some hR]
  exact (if_neg herror).trans ((if_neg hbusy).trans ((if_neg hended).trans (if_pos hp)))

end

/-- Settles O45: both instructions come to the pending status of their address. -/
theorem pendingStatusIsTaken : Obligations.PendingStatusIsTaken := by
  intro s i i2 b1 d1 a id dev b hw h2 ha hR hb hr hp hcase
  subst hb
  have hexec : exec i s = .next ((takePending a s).1.answer (.cc 1)) := by
    rcases hcase with ⟨rfl, hd⟩ | ⟨rfl, hd⟩
    · simp only [exec, execSio, ccOutcome_ok h2, ← ha, startIo_takesPending hR hr hp hd]; rfl
    · simp only [exec, execTio, ccOutcome_ok h2, ← ha, testIo_takesPending hR hr hp hd]; rfl
  obtain ⟨hcsw, hentry, hflag, hothers, hscbs, hplatform, hcalls, hloading, hirq⟩ :=
    storeSynth_clearPend_takes (memoryWf_of_configWf hw) a
  exact ⟨_, hexec, rfl, ⟨hcsw.first, hcsw.second, hcsw.memory, hcsw.keys⟩, hentry, hflag, hothers, hscbs,
    hplatform.trans (LoadFrame.answer id _ _).platform, hcalls.trans (.answer _ _), hirq, hloading⟩

end Sys2Proof.Machine
end

section
/-! What the resolver answers, and the instructions of an address it does not resolve; TCH, which looks at the channel alone
(spec/40_resolver.md R100 to R106; spec/44_io_instructions.md R201, R209, R216, R221 to R224). -/

namespace Sys2Proof.Machine

/-! ## The channel of an address -/

section
variable {cfg : Config} {c : Fin 16}

theorem enabledChannel_absent (h : cfg.channels[c.val]? = none) : enabledChannel cfg c = none := by
  unfold enabledChannel channelAt
  rw [h]

theorem enabledChannel_disabled {ch : Channel} (h : cfg.channels[c.val]? = some ch) (he : ch.enabled = false) :
    enabledChannel cfg c = none := by
  unfold enabledChannel channelAt
  rw [h]
  exact if_neg (by simp [he])

theorem enabledChannel_enabled {ch : Channel} (h : cfg.channels[c.val]? = some ch) (he : ch.enabled = true) :
    enabledChannel cfg c = some ch := by
  unfold enabledChannel channelAt
  rw [h]
  exact if_pos he

theorem channelWf_of_channelsWf {i : Nat} {ch : Channel} (hw : channelsWf cfg.channels = true)
    (h : cfg.channels[i]? = some ch) : channelWf ch = true := by
  simp only [channelsWf, Bool.and_eq_true, List.all_eq_true] at hw
  exact hw.2 ch (List.mem_of_getElem? h)

end

/-! ## SCB and device -/

section
variable {cfg : Config} {a : DevAddr} {ch : Channel}

/-- A channel that is absent or disabled has neither SCB nor device (R100, R101, R104). -/
theorem unresolved_of_no_channel (h : enabledChannel cfg (chanOf a) = none) :
    findSubchannel cfg a = none ∧ findDevice cfg a = none := by
  unfold findSubchannel findDevice
  rw [h]
  exact ⟨rfl, rfl⟩

/-- In a table that lists each key once, a key's value is the one it is listed with. -/
theorem lookup_eq_some_iff_mem {α β : Type} [DecidableEq α] {l : List (α × β)} (h : (l.map Prod.fst).Nodup) (k : α) (v : β) :
    l.lookup k = some v ↔ (k, v) ∈ l := by
  induction l with
  | nil => simp
  | cons p l ih =>
    obtain ⟨j, w⟩ := p
    obtain ⟨hj, hl⟩ := List.nodup_cons.1 h
    by_cases hk : k = j
    · subst hk
      have hnot : (k, v) ∉ l := fun hm => hj (List.mem_map.2 ⟨_, hm, rfl⟩)
      simp [hnot, eq_comm]
    · rw [List.lookup_cons, beq_false_of_ne hk]
      simp [hk, ih hl]

/-- The device of an address is the binding of its low byte (R104). -/
theorem findDevice_iff (hch : enabledChannel cfg (chanOf a) = some ch) (hw : channelWf ch = true) (dev : Binding) :
    findDevice cfg a = some dev ↔ (lowByte a, dev) ∈ ch.devices := by
  simp only [channelWf, Bool.and_eq_true, decide_eq_true_eq] at hw
  unfold findDevice
  rw [hch]
  exact lookup_eq_some_iff_mem hw.2 _ _

/-- The SCB of an address on an enabled channel (R101). -/
theorem selects_of_index (hch : enabledChannel cfg (chanOf a) = some ch) {i : Fin 256}
    (hi : subchannelIndex cfg ch.kind a = some i) : Selects cfg a i.val := by
  refine ⟨⟨chanOf a, i⟩, ?_, chanOf_val a, rfl⟩
  unfold findSubchannel
  rw [hch]
  exact congrArg (Option.map _) hi

theorem lowByte_toNat (a : DevAddr) : (lowByte a).toNat = a.toNat % 256 := by
  simp [lowByte, BitVec.extractLsb'_toNat]

/-- The one SCB of a selector, and of a block multiplexer without extended mode (R101). -/
theorem subchannelIndex_single (h : ch.kind = .selector ∨ ch.kind = .blockMux false) :
    subchannelIndex cfg ch.kind a = some 0 := by
  rcases h with h | h <;> rw [h] <;> rfl

/-- The SCB `a[7:3]` of a block multiplexer in extended mode (R103). -/
theorem subchannelIndex_extended (h : ch.kind = .blockMux true) :
    ∃ i : Fin 256, subchannelIndex cfg ch.kind a = some i ∧ i.val = a.toNat % 256 / 8 := by
  rw [h]
  refine ⟨_, rfl, ?_⟩
  show (a.extractLsb' 3 5).toNat = _
  rw [BitVec.extractLsb'_toNat, Nat.shiftRight_eq_div_pow]
  omega

section
variable {n : Nat} (h : ch.kind = .mux n)
include h

/-- The SCB of the low byte, where the multiplexer has that many (R102). -/
theorem subchannelIndex_low (hn : a.toNat % 256 < n) :
    ∃ i : Fin 256, subchannelIndex cfg ch.kind a = some i ∧ i.val = a.toNat % 256 := by
  rw [h]
  exact ⟨_, if_pos (by rwa [lowByte_toNat]), lowByte_toNat a⟩

/-- The folded SCB of a low byte the multiplexer does not have (R102). -/
theorem subchannelIndex_fold (hw : channelWf ch = true) (hn : n ≤ a.toNat % 256) (hf : muxFold cfg a < n) :
    ∃ i : Fin 256, subchannelIndex cfg ch.kind a = some i ∧ i.val = muxFold cfg a := by
  have hsize : n ≤ 256 := by
    simp only [channelWf, h, Bool.and_eq_true, decide_eq_true_eq] at hw
    exact hw.1.2
  rw [h]
  exact ⟨_, (if_neg (by rw [lowByte_toNat]; omega)).trans (dif_pos ⟨hf, by omega⟩), rfl⟩

/-- A fold outside the multiplexer's SCBs selects none (R102). -/
theorem subchannelIndex_outside (hn : n ≤ a.toNat % 256) (hf : n ≤ muxFold cfg a) :
    subchannelIndex cfg ch.kind a = none := by
  rw [h]
  exact (if_neg (by rw [lowByte_toNat]; omega)).trans (dif_neg (by omega))

end

theorem findSubchannel_of_no_index (hi : enabledChannel cfg (chanOf a) = some ch) (h : subchannelIndex cfg ch.kind a = none) :
    findSubchannel cfg a = none := by
  unfold findSubchannel
  rw [hi]
  exact congrArg (Option.map _) h

/-- Where the configuration says nothing else the fold is `a[6:4]` (R102). -/
theorem muxFold_default (h : cfg.foldOverrides.lookup a = none) : muxFold cfg a = a.toNat / 16 % 8 := by
  unfold muxFold
  rw [h]
  simp [BitVec.extractLsb'_toNat, Nat.shiftRight_eq_div_pow]

theorem muxFold_override {n : Nat} (h : cfg.foldOverrides.lookup a = some n) : muxFold cfg a = n := by
  unfold muxFold
  rw [h]

end

/-! ## An address that does not resolve -/

section
variable {s : State} {a : DevAddr}

theorem resolve_none (h : findSubchannel s.cfg a = none ∨ findDevice s.cfg a = none) : resolve s a = none := by
  unfold resolve
  rcases h with h | h <;> rw [h]
  cases findSubchannel s.cfg a <;> rfl

theorem startIo_unresolved (h : resolve s a = none) : startIo a s = (s, 3) := by
  unfold startIo; rw [h]

theorem testIo_unresolved (h : resolve s a = none) : testIo a s = (s, 3) := by
  unfold testIo; rw [h]

theorem haltIo_unresolved (h : resolve s a = none) : haltIo a s = (s, 3) := by
  unfold haltIo; rw [h]

theorem bootStart_unresolved (ccwaddr : Word) (h : resolve s a = none) : bootStart a ccwaddr s = (s, 3) := by
  unfold bootStart; rw [h]

end

/-! ## The instructions, by what their operations answer -/

section
variable {s t : State} {i2 : Byte} {b1 : BitVec 4} {d1 : BitVec 12} {a : DevAddr} {cc : BitVec 2} (h2 : acceptsI2 s i2)
  (ha : a = deviceAddress s b1 d1)
include h2 ha

theorem exec_sio (h : startIo a s = (t, cc)) : exec (.sio i2 b1 d1) s = .next (t.answer (.cc cc)) := by
  subst ha
  exact (ccOutcome_ok h2 _).trans (by rw [h])

theorem exec_tio (h : testIo a s = (t, cc)) : exec (.tio i2 b1 d1) s = .next (t.answer (.cc cc)) := by
  subst ha
  exact (ccOutcome_ok h2 _).trans (by rw [h])

theorem exec_hio (h : haltIo a s = (t, cc)) : exec (.hio i2 b1 d1) s = .next (t.answer (.cc cc)) := by
  subst ha
  exact (ccOutcome_ok h2 _).trans (by rw [h])

end

/-- Settles O42: the three instructions stop at the resolver, whose answer follows the kind of the channel. -/
theorem unresolvedAddressAnswersThree : Obligations.UnresolvedAddressAnswersThree := by
  refine ⟨fun s i i2 b1 d1 a h2 ha hi hunresolved => ?_, fun cfg a hw => ⟨fun hch => ?_, fun ch hch he => ?_,
    fun ch hch he => ?_, muxFold_default, fun n => muxFold_override⟩⟩
  · have hnone := resolve_none hunresolved
    rcases hi with rfl | rfl | rfl
    · exact exec_sio h2 ha (startIo_unresolved hnone)
    · exact exec_tio h2 ha (testIo_unresolved hnone)
    · exact exec_hio h2 ha (haltIo_unresolved hnone)
  all_goals rw [← chanOf_val] at hch
  · exact unresolved_of_no_channel (enabledChannel_absent hch)
  · exact unresolved_of_no_channel (enabledChannel_disabled hch he)
  · have hchannel := enabledChannel_enabled hch he
    have hwf := channelWf_of_channelsWf hw hch
    have selects {k : Nat} (h : ∃ i : Fin 256, subchannelIndex cfg ch.kind a = some i ∧ i.val = k) : Selects cfg a k := by
      obtain ⟨i, hi, rfl⟩ := h
      exact selects_of_index hchannel hi
    exact ⟨findDevice_iff hchannel hwf, fun hk => selects ⟨0, subchannelIndex_single hk, rfl⟩,
      fun hk => selects (subchannelIndex_extended hk), fun n hk => ⟨fun hn => selects (subchannelIndex_low hk hn),
      fun hn hf => selects (subchannelIndex_fold hk hwf hn hf),
      fun hn hf => findSubchannel_of_no_index hchannel (subchannelIndex_outside hk hn hf)⟩⟩

/-! ## TCH -/

section
variable {s : State} {a : DevAddr} {ch : Channel}

theorem testChannel_unavailable (h : enabledChannel s.cfg (chanOf a) = none) : testChannel a s = 3 := by
  unfold testChannel; rw [h]

/-- A channel with several SCBs answers 0 (R222). -/
theorem testChannel_shared (hch : enabledChannel s.cfg (chanOf a) = some ch)
    (hk : (∃ n, ch.kind = .mux n) ∨ ch.kind = .blockMux true) : testChannel a s = 0 := by
  unfold testChannel
  rw [hch]
  rcases hk with ⟨n, hk⟩ | hk <;> simp only [hk]

/-- A channel with one SCB answers by it (R223, R224). -/
theorem testChannel_single (hch : enabledChannel s.cfg (chanOf a) = some ch)
    (hk : ch.kind = .selector ∨ ch.kind = .blockMux false) :
    testChannel a s = if (s.scb ⟨chanOf a, 0⟩).midProgram then 2
      else if (s.scb ⟨chanOf a, 0⟩).dev ≠ none ∧ (s.scb ⟨chanOf a, 0⟩).status ≠ 0 then 1 else 0 := by
  unfold testChannel
  rw [hch]
  rcases hk with hk | hk <;> simp only [hk]

end

/-- Settles O53: the channel of the address, by its kind; the state is not changed. -/
theorem tchAnswersByTheChannel : Obligations.TchAnswersByTheChannel := by
  intro s i2 b1 d1 c b h2 hc hb
  have hchan : chanOf (deviceAddress s b1 d1) = c := Fin.ext ((chanOf_val _).trans hc.symm)
  subst hchan
  refine ⟨testChannel (deviceAddress s b1 d1) s, ccOutcome_ok h2 _, fun hch => ?_, fun ch hch he => ?_,
    fun ch hch he => ⟨fun hk => ?_, fun hk => ?_⟩⟩
  · exact testChannel_unavailable (enabledChannel_absent hch)
  · exact testChannel_unavailable (enabledChannel_disabled hch he)
  · exact testChannel_shared (enabledChannel_enabled hch he) hk
  · rw [testChannel_single (enabledChannel_enabled hch he) hk, ← hb]
    have idle (hr : ¬ running b) : ¬ b.midProgram = true := fun h => hr ((midProgram_iff b).1 h)
    refine ⟨fun hr => if_pos ((midProgram_iff b).2 hr), fun hr hd hst => ?_, fun hr hfree => ?_⟩
    · exact (if_neg (idle hr)).trans (if_pos ⟨hd, hst⟩)
    · exact (if_neg (idle hr)).trans (if_neg fun ⟨hd, hst⟩ => hfree.elim hd hst)

end Sys2Proof.Machine
end

section
/-!
SIO, TIO and HIO short of a program they start or end: the status collected, the answers that change nothing, the device asked or
its hook called (spec/44_io_instructions.md R202 to R205, R210 to R220).
-/

namespace Sys2Proof.Machine

/-! ## A call of a device that does no more than answer -/

/-- What a call of a device leaves as before: all but the calls made and the answers taken (spec/10_state.md R31). -/
structure CallFrame (s t : State) : Prop where
  block : SameBlock s t
  platform : KeepsPlatform s t
  loading : t.loading = s.loading

theorem CallFrame.refl (s : State) : CallFrame s s := ⟨⟨rfl, rfl, rfl, rfl, rfl, rfl, rfl⟩, .refl s, rfl⟩

theorem HookFrame.callFrame {c : CallOut} {s t : State} (h : HookFrame c s t) : CallFrame s t := by
  obtain ⟨hcfg, -, -, -, -, hloading, -, -, hgr, hrequests, hloader, -⟩ := h.eqs
  exact ⟨h.sameBlock, ⟨hcfg, hgr, hrequests, hloader⟩, hloading⟩

theorem CallFrame.startCommand (a : DevAddr) (op : Byte) (s : State) : CallFrame s (startCommand a op s).2 := by
  obtain ⟨hplatform, -, hloading, -⟩ := LoadFrame.startCommand ⟨0, 0⟩ a op s
  exact ⟨.startCommand a op s, hplatform, hloading⟩

theorem KeepsOutside.answer (s : State) (r : OpResult) : KeepsOutside s (s.answer r) :=
  ⟨⟨rfl, rfl, rfl, rfl⟩, .answer s r, ⟨fun _ => rfl, rfl⟩, rfl, fun _ => rfl⟩

theorem StoresCsw.answer {w0 w1 : Word} {s t : State} (h : StoresCsw w0 w1 s t) (r : OpResult) :
    StoresCsw w0 w1 s (t.answer r) :=
  ⟨h.first, h.second, h.memory, h.keys⟩

section
variable {s u : State} (h : CallFrame s u)
include h

theorem CallFrame.scbs : KeepsScbs s u := h.block.scb

theorem CallFrame.pending : KeepsPending s u :=
  ⟨fun a => by unfold State.pendAt; rw [h.block.pend], h.block.chpend⟩

theorem CallFrame.memory : KeepsMemory s u := fun x => by unfold State.byteAt; rw [h.block.mem]

theorem CallFrame.keys : KeepsKeys s u := fun p => by unfold State.keyAt; rw [h.block.skey]

/-- A CSW stored after the call is one stored from the state before it. -/
theorem StoresCsw.of_call {w0 w1 : Word} {t : State} (k : StoresCsw w0 w1 u t) : StoresCsw w0 w1 s t := by
  obtain ⟨hfirst, hsecond, hmemory, hkeys⟩ := k
  rw [h.platform.cfg] at hfirst hsecond hmemory hkeys
  exact ⟨hfirst, hsecond, (h.memory.but _).trans hmemory, fun p => by rw [hkeys, h.keys]⟩

/-- A condition code answered after the call. -/
theorem CallFrame.answer (r : OpResult) : CallFrame s (u.answer r) :=
  ⟨⟨h.block.cfg, h.block.scbs, h.block.pend, h.block.chpend, h.block.irq, h.block.mem, h.block.skey⟩,
    h.platform.trans (KeepsOutside.answer u r).platform, h.loading⟩

/-- A synthesized CSW stored and a condition code answered after the call (spec/43_status.md R181). -/
theorem CallFrame.storeSynth (hw : memoryWf s.cfg = true) (d : Byte) (r : OpResult) :
    StoresCsw 0 (d ++ 0#24) s ((storeSynth d u).answer r) ∧ KeepsScbs s ((storeSynth d u).answer r) ∧
    KeepsPlatform s ((storeSynth d u).answer r) ∧ KeepsCalls u ((storeSynth d u).answer r) ∧
    KeepsPending s ((storeSynth d u).answer r) ∧ ((storeSynth d u).answer r).irq = s.irq ∧
    ((storeSynth d u).answer r).loading = s.loading := by
  obtain ⟨hcsw, hplatform, hcalls, hpending, hloading, hirq, hscbs⟩ :=
    storeCsw_spec (h.platform.cfg ▸ hw : memoryWf u.cfg = true) 0 (d ++ 0#24)
  have hanswer := KeepsOutside.answer (Machine.storeSynth d u) r
  exact ⟨(hcsw.of_call h).answer r, fun j => (hscbs j).trans (h.scbs j), h.platform.trans (hplatform.trans hanswer.platform),
    hcalls.trans hanswer.calls, h.pending.trans (hpending.trans hanswer.pending), hirq.trans h.block.irq,
    hloading.trans h.loading⟩

end

/-! ## The error status -/

/-- TIO and HIO look for an error status in the SCB of the address alone (R210, R217). -/
theorem not_errorStatus_of {a : DevAddr} {b : Scb} (h : b.dev ≠ some a ∨ ¬ hasErrorStatus b) :
    ¬ (b.dev = some a ∧ errorStatus b.status = true) :=
  fun ⟨hd, he⟩ => h.elim (· hd) (· ((errorStatus_iff b).1 he))

/-! ## The cases of SIO -/

section
variable {s : State} {a : DevAddr} {id : ScbId} {dev : Binding} (hR : Resolves s a id dev)

section
include hR

/-- SIO collects the status of its own program that no longer runs (R202). -/
theorem startIo_collects (hd : (s.scb id).dev = some a) (hst : (s.scb id).status ≠ 0) (hr : ¬ running (s.scb id)) :
    startIo a s = (collect id s, 1) := by
  unfold startIo
  rw [resolve_some hR]
  exact if_pos ⟨hd, hst, (midProgram_false _).2 hr⟩

/-- SIO finds the SCB busy (R203). -/
theorem startIo_busy (h : running (s.scb id) ∨ ((s.scb id).dev ≠ none ∧ (s.scb id).dev ≠ some a)) :
    startIo a s = (s, 2) := by
  have hcollect : ¬ ((s.scb id).dev = some a ∧ (s.scb id).status ≠ 0 ∧ (s.scb id).midProgram = false) :=
    fun ⟨hd, _, hm⟩ => h.elim ((midProgram_false _).1 hm) fun hb => hb.2 hd
  unfold startIo
  rw [resolve_some hR]
  exact (if_neg hcollect).trans (if_pos (h.imp_left (midProgram_iff _).2))

end

/-- The `start_io` hook answers busy (R205). -/
theorem startWithHook_busy (hhook : dev.hasStartIo = true) (h : (startIoHook a s).1 &&& dvBUSY ≠ 0) :
    startWithHook a id dev s = ((startIoHook a s).2, 2) := by
  unfold startWithHook
  rw [if_pos hhook]
  exact if_pos ((anyBits_iff _ _).2 h)

/-- The `start_io` hook answers a status (R205). -/
theorem startWithHook_status (hhook : dev.hasStartIo = true) (h : (startIoHook a s).1 &&& dvBUSY = 0)
    (hst : (startIoHook a s).1 ≠ 0) :
    startWithHook a id dev s = (storeSynth (startIoHook a s).1 (startIoHook a s).2, 1) := by
  have hbusy : ¬ anyBits (startIoHook a s).1 dvBUSY = true := by rw [(anyBits_false_iff _ _).2 h]; simp
  unfold startWithHook
  rw [if_pos hhook]
  exact (if_neg hbusy).trans (if_pos hst)

/-! ## The cases of TIO -/

section
include hR

/-- TIO collects an error status (R210). -/
theorem testIo_collectsError (hd : (s.scb id).dev = some a) (he : hasErrorStatus (s.scb id)) :
    testIo a s = (collect id s, 1) := by
  unfold testIo
  rw [resolve_some hR]
  exact if_pos ⟨hd, (errorStatus_iff _).2 he⟩

/-- TIO finds a program that runs, with no error of its own address (R211). -/
theorem testIo_running (hr : running (s.scb id)) (h : (s.scb id).dev ≠ some a ∨ ¬ hasErrorStatus (s.scb id)) :
    testIo a s = (s, 2) := by
  unfold testIo
  rw [resolve_some hR]
  exact (if_neg (not_errorStatus_of h)).trans (if_pos ((midProgram_iff _).2 hr))

section
variable (hr : ¬ running (s.scb id))
include hr

/-- TIO collects the status of an ended program (R210, R212). -/
theorem testIo_collectsEnded (hd : (s.scb id).dev = some a) (hce : (s.scb id).status &&& stCE ≠ 0) :
    testIo a s = (collect id s, 1) := by
  unfold testIo
  rw [resolve_some hR]
  exact ite_eq_left_iff.2 fun _ => (if_neg (mt (midProgram_iff _).1 hr)).trans (if_pos ⟨hd, (anyBits_iff _ _).2 hce⟩)

/-- TIO of an address with neither a status of its own SCB nor a pending one looks at the SCB's owner, then asks (R214, R220). -/
theorem testIo_nothingPending (hp : s.pendAt a = 0)
    (h : (s.scb id).dev ≠ some a ∨ (¬ hasErrorStatus (s.scb id) ∧ (s.scb id).status &&& stCE = 0)) :
    testIo a s = if (s.scb id).dev ≠ none ∧ (s.scb id).dev ≠ some a ∧ (s.scb id).status ≠ 0 then (s, 2)
      else testDevice a s := by
  have herror := not_errorStatus_of (h.imp_right And.left)
  have hended : ¬ ((s.scb id).dev = some a ∧ anyBits (s.scb id).status stCE = true) :=
    fun ⟨hd, hce⟩ => h.elim (· hd) fun hn => (anyBits_iff _ _).1 hce hn.2
  unfold testIo
  rw [resolve_some hR]
  exact (if_neg herror).trans ((if_neg (mt (midProgram_iff _).1 hr)).trans ((if_neg hended).trans (if_neg (not_not.2 hp))))

end

/-! ## The cases of HIO -/

/-- HIO of an SCB with an error status of its address answers 0 (R217). -/
theorem haltIo_stopped (hd : (s.scb id).dev = some a) (he : hasErrorStatus (s.scb id)) : haltIo a s = (s, 0) := by
  unfold haltIo
  rw [resolve_some hR]
  exact if_pos ⟨hd, (errorStatus_iff _).2 he⟩

section
variable (h : (s.scb id).dev ≠ some a ∨ ¬ hasErrorStatus (s.scb id))
include h

/-- HIO with a `halt_io` hook: the program halted, then the hook called (R218, R219). -/
theorem haltIo_hook (hhook : dev.hasHaltIo = true) :
    haltIo a s = ((haltIoHook a (haltProgram a id s)).2, (haltIoHook a (haltProgram a id s)).1) := by
  unfold haltIo
  rw [resolve_some hR]
  exact (if_neg (not_errorStatus_of h)).trans (if_pos hhook)

/-- HIO with no hook: the program halted, then a status stored (R218, R219). -/
theorem haltIo_noHook (hhook : dev.hasHaltIo = false) : haltIo a s = haltStore a id (haltProgram a id s) := by
  unfold haltIo
  rw [resolve_some hR]
  exact (if_neg (not_errorStatus_of h)).trans (if_neg (by simp [hhook]))

end

end

/-- There is nothing to halt (R218). -/
theorem haltProgram_idle (h : (s.scb id).dev ≠ some a ∨ ¬ running (s.scb id)) : haltProgram a id s = s :=
  if_neg fun ⟨hd, hm⟩ => h.elim (· hd) (· ((midProgram_iff _).1 hm))

/-- A running program halted: its register flushed, its command ended, IRQ raised (R218). -/
theorem haltProgram_running (hd : (s.scb id).dev = some a) (hr : running (s.scb id)) :
    haltProgram a id s = ((flushDirty id s).1.updScb id Scb.halted).raiseIrq :=
  if_pos ⟨hd, (midProgram_iff _).2 hr⟩

/-- The status of the SCB of the address is collected (R219). -/
theorem haltStore_bound (hd : (s.scb id).dev = some a) : haltStore a id s = (collect id s, 1) := if_pos hd

/-- An address with no SCB of its own has a zero status stored (R219). -/
theorem haltStore_unbound (hd : (s.scb id).dev ≠ some a) : haltStore a id s = (storeSynth 0 s, 1) := if_neg hd

end

/-! ## The statements -/

/-- Settles O43: both instructions come to `collect`, whose effect O35 states. -/
theorem sioAndTioCollectTheStatus : Obligations.SioAndTioCollectTheStatus := by
  intro s i i2 b1 d1 a id dev b hw h2 ha hR hb hd hcase
  have hexec : exec i s = .next ((collect id s).answer (.cc 1)) := by
    subst hb
    rcases hcase with ⟨rfl, hst, hr⟩ | ⟨rfl, he | ⟨hr, hce⟩⟩
    · exact exec_sio h2 ha (startIo_collects hR hd hst hr)
    · exact exec_tio h2 ha (testIo_collectsError hR hd he)
    · exact exec_tio h2 ha (testIo_collectsEnded hR hr hd hce)
  obtain ⟨hcsw, hended, hrunning, hothers, hplatform, hcalls, hpending, hloading, hirq⟩ :=
    collectFreesAnEndedProgram s id b _ hw hb rfl
  have hanswer := KeepsOutside.answer (collect id s) (.cc 1)
  exact ⟨_, hexec, rfl, hcsw.answer _, hended, hrunning, hothers, hplatform.trans hanswer.platform,
    hcalls.trans hanswer.calls, hpending.trans hanswer.pending, hirq, hloading⟩

/-- Settles O44: the branches of the three operations that return the state itself. -/
theorem busyAndStoppedChangeNothing : Obligations.BusyAndStoppedChangeNothing := by
  intro s i2 b1 d1 a id dev b h2 ha hR hb
  subst hb
  refine ⟨fun h => exec_sio h2 ha (startIo_busy hR h), fun h => exec_tio h2 ha ?_,
    fun hd he => exec_hio h2 ha (haltIo_stopped hR hd he)⟩
  rcases h with ⟨hr, h⟩ | ⟨hr, hbound, hother, hst, hp⟩
  · exact testIo_running hR hr h
  · rw [testIo_nothingPending hR hr hp (.inl hother), if_pos ⟨hbound, hother, hst⟩]

/-- Settles O46: the two answers of the hook that start nothing. -/
theorem startIoHookMayAnswer : Obligations.StartIoHookMayAnswer := by
  intro s i2 b1 d1 a id dev st hw h2 ha hR hd hr hp hhook hst hne
  subst hst
  have hexec := sio_start h2 ha hR hd hr hp
  have hcall := startIoHook_frame a s
  have hframe := hcall.callFrame
  by_cases hbusy : (startIoHook a s).1 &&& dvBUSY = 0
  · rw [startWithHook_status hhook hbusy hne] at hexec
    obtain ⟨hcsw, hscbs, hplatform, hcalls, hpending, hirq, hloading⟩ :=
      hframe.storeSynth (memoryWf_of_configWf hw) (startIoHook a s).1 (.cc 1)
    exact ⟨_, hexec, hcalls.callOuts.trans hcall.callOuts, hscbs, hplatform, hpending, hirq, hloading,
      fun h => absurd hbusy h, fun _ => ⟨rfl, hcsw⟩⟩
  · rw [startWithHook_busy hhook hbusy] at hexec
    have hanswer := hframe.answer (.cc 2)
    exact ⟨_, hexec, hcall.callOuts, hanswer.scbs, hanswer.platform, hanswer.pending, hanswer.block.irq, hanswer.loading,
      fun _ => ⟨rfl, hanswer.memory, hanswer.keys⟩, fun h => absurd h hbusy⟩

/-- A device that answers TIO an error class has it stored (R220). -/
theorem testDevice_error {s : State} {a : DevAddr} (h : (startCommand a 0x00 s).1 &&& errClass ≠ 0) :
    testDevice a s = (storeSynth (startCommand a 0x00 s).1 (startCommand a 0x00 s).2, 1) :=
  if_pos ((anyBits_iff _ _).2 h)

/-- A device that answers TIO no error class gives the condition code (R220). -/
theorem testDevice_noError {s : State} {a : DevAddr} (h : (startCommand a 0x00 s).1 &&& errClass = 0) :
    testDevice a s = ((startCommand a 0x00 s).2, if (startCommand a 0x00 s).1 &&& dvBUSY ≠ 0 then 2 else 0) := by
  unfold testDevice
  simp only [(anyBits_false_iff _ _).2 h, anyBits_iff, Bool.false_eq_true, if_false]
  split <;> rfl

/-- Settles O50: with nothing to report TIO comes to the device, whose answer decides. -/
theorem tioAsksTheDevice : Obligations.TioAsksTheDevice := by
  intro s i2 b1 d1 a id dev b st hw h2 ha hR hb hr hp hidle hst
  subst hb hst
  have hasks : testIo a s = testDevice a s := by
    have hquiet : (s.scb id).dev ≠ some a ∨ (¬ hasErrorStatus (s.scb id) ∧ (s.scb id).status &&& stCE = 0) := by
      rcases hidle with hd | hst | hd
      · exact .inl (by simp [hd])
      · exact .inr ⟨by simp [hasErrorStatus, hst], by simp [hst]⟩
      · exact .inr hd.2
    rw [testIo_nothingPending hR hr hp hquiet, if_neg]
    rintro ⟨hbound, hother, hst⟩
    rcases hidle with hd | hz | hd
    · exact hbound hd
    · exact hst hz
    · exact hother hd.1
  have hcalled := startCommand_called a 0x00 s
  have hframe := CallFrame.startCommand a 0x00 s
  by_cases herror : (startCommand a 0x00 s).1 &&& errClass = 0
  · have hanswer := hframe.answer (.cc (if (startCommand a 0x00 s).1 &&& dvBUSY ≠ 0 then 2 else 0))
    exact ⟨_, exec_tio h2 ha (hasks.trans (testDevice_noError herror)), hcalled.trans_keeps (.answer _ _), hanswer.scbs,
      hanswer.platform, hanswer.pending, hanswer.block.irq, hanswer.loading, fun h => absurd herror h,
      fun _ => ⟨apply_ite OpResult.cc _ _ _, hanswer.memory, hanswer.keys⟩⟩
  · obtain ⟨hcsw, hscbs, hplatform, hcalls, hpending, hirq, hloading⟩ :=
      hframe.storeSynth (memoryWf_of_configWf hw) (startCommand a 0x00 s).1 (.cc 1)
    exact ⟨_, exec_tio h2 ha (hasks.trans (testDevice_error herror)), hcalled.trans_keeps hcalls, hscbs, hplatform, hpending,
      hirq, hloading, fun _ => ⟨rfl, hcsw⟩, fun h => absurd h herror⟩

/-- Settles O52: nothing is halted, so the hook's call or the store is all that HIO does. -/
theorem hioWithoutAProgram : Obligations.HioWithoutAProgram := by
  intro s i2 b1 d1 a id dev b hw h2 ha hR hb hidle
  have hnoError : (s.scb id).dev ≠ some a ∨ ¬ hasErrorStatus (s.scb id) := hb ▸ hidle.imp_right And.right
  have hnoProgram : haltProgram a id s = s := haltProgram_idle (hb ▸ hidle.imp_right And.left)
  refine ⟨fun hhook => ?_, fun hhook hd => ?_, fun hhook hd => ?_⟩
  · have hhalt := haltIo_hook hR hnoError hhook
    rw [hnoProgram] at hhalt
    exact ⟨exec_hio h2 ha hhalt, (haltIoHook_frame a s).callOuts⟩
  all_goals
    have hhalt := haltIo_noHook hR hnoError hhook
    rw [hnoProgram] at hhalt
  · obtain ⟨hcsw, hscbs, hplatform, hcalls, hpending, hirq, hloading⟩ :=
      (CallFrame.refl s).storeSynth (memoryWf_of_configWf hw) 0 (.cc 1)
    exact ⟨_, exec_hio h2 ha (hhalt.trans (haltStore_unbound (hb ▸ hd))), rfl, hcsw, hscbs, hplatform, hcalls, hpending, hirq,
      hloading⟩
  · obtain ⟨hcsw, hended, hrunning, hothers, hplatform, hcalls, hpending, hloading, hirq⟩ :=
      collectFreesAnEndedProgram s id b _ hw hb rfl
    have hanswer := KeepsOutside.answer (collect id s) (.cc 1)
    exact ⟨_, exec_hio h2 ha (hhalt.trans (haltStore_bound (hb ▸ hd))), rfl, hcsw.answer _, hended, hrunning, hothers,
      hplatform.trans hanswer.platform, hcalls.trans hanswer.calls, hpending.trans hanswer.pending, hirq, hloading⟩

end Sys2Proof.Machine
end

section
/-! The first load of a program, by SIO and by the boot start: it starts the first command, or fails and stores its status
(spec/44_io_instructions.md R205 to R207, R226). -/

namespace Sys2Proof.Machine

/-! ## What a load looks at is as before -/

section
variable {s u : State} (hcfg : u.cfg = s.cfg)
include hcfg

theorem FieldsLoad.kept {key : BitVec 4} {second : Addr} {f : CcwFields} (hkeys : KeepsAccessKeys s u)
    (h : FieldsLoad s key second f) : FieldsLoad u key second f := by
  obtain ⟨hsecond, hcount, hreserved, hidaw⟩ := h
  have hkept := accessFault_kept hcfg hkeys
  rw [← hcfg] at hreserved hidaw
  exact ⟨(hkept _ _ _).trans hsecond, hcount, hreserved, fun h1 h2 => (hkept _ _ _).trans (hidaw h1 h2)⟩

theorem loadedScb_kept (hmemory : KeepsMemory s u) (second : Addr) (f : CcwFields) (b : Scb) :
    loadedScb u second f b = loadedScb s second f b := by
  unfold loadedScb
  rw [hcfg, wordAt_congr fun x _ => hmemory x]

end

theorem eightBytes_kept {s u : State} (hmemory : KeepsMemory s u) (a : Addr) : eightBytes u a = eightBytes s a := by
  simp only [eightBytes, hmemory _]

/-! ## The first command starts -/

section
variable {s u : State} {a : DevAddr} {id : ScbId} {dev : Binding} {key : BitVec 4} {caw : Addr} {b d : Scb} {i : Instr}
  (hcfg : u.cfg = s.cfg) (hmemory : KeepsMemory s u) (hkeys : KeepsAccessKeys s u) (hscb : u.scb id = b)
  (hb : b = boundScb a dev key caw d) (haligned : caw.toNat % 8 = 0) (hf : accessFault s key caw false = none)
  (hdecode : decode .channel (eightBytes s caw) = .ok i)
include hcfg hmemory hkeys hscb hb haligned hf hdecode

/-- The load of an SCB that has just been bound comes to the CCW at its fetch address. The CCW is the one of a state `s` with the
same configuration and memory (R206; spec/41_ccw_loader.md R114 to R117). -/
theorem loadNextCcw_fetchesFirst :
    ∃ v, loadNextCcw id false u = runCcw id false i v ∧ v.scb id = b ∧ v.irq = u.irq ∧ KeepsCalls u v ∧ LoadFrame id u v := by
  have hstatus : b.status = 0 := by rw [hb]; rfl
  have hcaw : b.caw = caw := by rw [hb]; rfl
  have hkey : b.key = key := by rw [hb]; rfl
  have hskip : b.skipOnModifier = b := skipOnModifier_of_clear (by rw [hstatus]; decide)
  have hfetch := (fetchCcw_reads hscb (by rw [hcaw]; exact haligned) (by rw [hstatus]; decide)).2
  rw [hskip, hcaw, hkey] at hfetch
  have hinstr := decode_eightBytes u haligned
  rw [eightBytes_kept hmemory, hdecode] at hinstr
  refine ⟨(u.updScb id Scb.skipOnModifier).markKey (pageOf caw) 0x04, ?_, ?_, rfl,
    (KeepsCalls.updScb u id _).trans (.markKey _ _ _), (LoadFrame.updScb id u _).trans (.markRead id _ _)⟩
  · unfold loadNextCcw
    rw [beginLoad_fetches (by rw [hscb, hb]; rfl), hfetch ((accessFault_kept hcfg hkeys key caw false).trans hf),
      ← Except.ok.inj hinstr]
  · rw [State.scb_markKey, scb_updScb_self, hscb, hskip]

/-- A load of an SCB that has just been bound, whose first CCW is a command that loads and that the device accepts (R207;
spec/41_ccw_loader.md R118 to R127). -/
theorem loadNextCcw_starts {f : CcwFields} {st : Byte} (hdev : (findDevice s.cfg a).isSome = true) (hi : CommandCcw i f)
    (hload : FieldsLoad s key (caw + 4) f) (hst : st = (startCommand a f.cmd u).1) (haccept : accepts st = true) :
    ∃ t, loadNextCcw id false u = (t, .ok) ∧
      t.scb id = commandAccepted st (loadedScb s (caw + 4) f { b with cmd := f.cmd }) ∧
      t.irq = (u.irq || acceptedRaisesIrq st (loadedFlags s.cfg noFlags f)) ∧ CalledStart a f.cmd u t ∧ LoadFrame id u t := by
  obtain ⟨v, hfetch, hvscb, hvirq, hvcalls, hvframe⟩ :=
    loadNextCcw_fetchesFirst hcfg hmemory hkeys hscb hb haligned hf hdecode
  have hvcfg := hvframe.platform.cfg.trans hcfg
  have hcaw : b.caw = caw := by rw [hb]; rfl
  have hkey : b.key = key := by rw [hb]; rfl
  have hflags : b.flags = noFlags := by rw [hb]; rfl
  have hcd : b.flags.cd = false := by rw [hflags]; rfl
  have hbdev : b.dev = some a := by rw [hb]; rfl
  obtain ⟨w, hrun, hwscb, hwirq, hwcalls, hwframe, -⟩ := runCcw_loaded false hvscb (by simp [hbdev]) (.inl hi)
    (hcaw ▸ hkey ▸ hload.kept hvcfg (hkeys.trans hvframe.keys.access))
  simp only [hcd, Bool.not_false, Bool.false_eq_true, if_true, if_false] at hrun hwscb
  rw [hcaw, loadedScb_kept hvcfg (hmemory.trans hvframe.memory)] at hwscb
  have hcmd : (w.scb id).cmd = f.cmd := by rw [hwscb]; rfl
  have hcalls := hvcalls.trans hwcalls
  obtain ⟨t, ht, htscb, htirq, htcall, htframe, -⟩ := dispatch_accepted b.flags.cc (by rw [hwscb]; exact hbdev)
    (by rw [hwframe.platform.cfg, hvcfg]; exact hdev) (by rw [hcmd, startCommand_congr hcalls]; exact hst) haccept
  rw [hcmd] at htcall
  rw [hwscb] at htscb htirq
  rw [hwirq, hvirq] at htirq
  exact ⟨t, (hfetch.trans hrun).trans ht, htscb, hflags ▸ htirq, htcall.of_keeps hcalls,
    (hvframe.trans hwframe).trans htframe⟩

end

/-! ## The first load fails -/

/-- What a failed first load leaves, against the state `s` the load began at and the state `u` it ended in: the CSW of the SCB `l`
stored, the SCB freed (R207; spec/43_status.md R180, R184). -/
structure StoredFailure (id : ScbId) (l : Scb) (s u t : State) : Prop where
  csw : StoresCsw (l.key ++ 0#4 ++ l.caw) (l.status ++ l.count) u t
  scb : t.scb id = freedScb { l with status := if l.status &&& stPCI ≠ 0 ∧ l.status &&& stCE = 0
                                                then l.status &&& ~~~stPCI else 0 }
  irq : t.irq = u.irq
  calls : KeepsCalls u t
  memory : KeepsMemoryBut (inCsw s.cfg) s t
  others : KeepsScbsBut id s t
  platform : KeepsPlatform s t
  pending : KeepsPending s t
  loading : t.loading = s.loading
  keys : KeepsAccessKeys s t

/-- What `store_status` leaves of the status word (spec/43_status.md R180, R182). -/
theorem storedStatus_eq (status : Half) :
    storedStatus status = if status &&& stPCI ≠ 0 ∧ status &&& stCE = 0 then status &&& ~~~stPCI else 0 := by
  unfold storedStatus
  simp only [Bool.and_eq_true, Bool.not_eq_true', anyBits_iff, anyBits_false_iff]

theorem StoresCsw.accessKeys {w0 w1 : Word} {s t : State} (h : StoresCsw w0 w1 s t) : KeepsAccessKeys s t :=
  .of_mark (.inr rfl) h.keys

/-- A first load that fails answers 1 (R207). -/
theorem firstLoad_stores {s u : State} {id : ScbId} {r : FailReason} (hw : memoryWf s.cfg = true)
    (h : loadNextCcw id false s = (u, .fail r)) :
    ∃ t, firstLoad id s = (t, 1) ∧ StoredFailure id (u.scb id) s u t := by
  have hframe := loadNextCcw_frame id false s
  rw [h] at hframe
  have hcfg := hframe.platform.cfg
  obtain ⟨hcsw, hscb, hirq, hothers, hplatform, hcalls, hpending, hloading⟩ := storeStatus_unbind_spec (hcfg ▸ hw) id
  rw [storedStatus_eq] at hscb
  refine ⟨_, firstLoad_fail h, hcsw, hscb, hirq, hcalls, ?_, hframe.others.trans hothers, hframe.platform.trans hplatform,
    hframe.pending.trans hpending, hloading.trans hframe.loading, hframe.keys.access.trans hcsw.accessKeys⟩
  rw [← hcfg]
  exact (hframe.memory.but _).trans hcsw.memory

/-! ## The start by SIO -/

section
variable {s v : State} {a : DevAddr} {id : ScbId} {dev : Binding}

/-- The state a start begins at: that of SIO, or the one after a hook that answered 0 (R205). -/
theorem callFrame_of_start (hv : v = if dev.hasStartIo then (startIoHook a s).2 else s) : CallFrame s v := by
  subst hv
  split
  · exact (startIoHook_frame a s).callFrame
  · exact .refl s

/-- The key and the address of the CAW, given to the SCB that is bound; its first CCW is loaded (R206; spec/30_encoding.md
R79). -/
theorem startWithHook_starts {w : Word} (hw : memoryWf s.cfg = true) (hhook : dev.hasStartIo = true → (startIoHook a s).1 = 0)
    (hv : v = if dev.hasStartIo then (startIoHook a s).2 else s) (hcaw : w = s.wordAt s.cfg.cawAddr) :
    startWithHook a id dev s = firstLoad id ((v.markKey (pageOf s.cfg.cawAddr) 0x04).setScb id
      (boundScb a dev (w.extractLsb' 28 4) (w.extractLsb' 0 24) (s.scb id))) := by
  have hframe := callFrame_of_start hv
  have hcfg := hframe.platform.cfg
  have hstart : startWithHook a id dev s = startProgram a id dev v := by
    unfold startWithHook
    subst hv
    split
    · rename_i h
      simp only [hhook h]
      rfl
    · rfl
  have hword : v.wordAt s.cfg.cawAddr = w := (wordAt_congr fun x _ => hframe.memory x).trans hcaw.symm
  rw [hstart]
  unfold startProgram
  rw [readArchitected_caw (hcfg ▸ hw), hcfg, hword, ← hframe.scbs id]
  rfl

end

/-- Settles O47: the CAW read and the SCB bound, the first CCW's command starts. -/
theorem sioStartsTheProgram : Obligations.SioStartsTheProgram := by
  intro s v i2 b1 d1 a id dev w key caw i f b st hw h2 ha hR hd hr hp hhook hv hcaw hkey hcawAddr haligned hf hdecode hi hload
    hst haccept hb
  have hexec := sio_start h2 ha hR hd hr hp
  rw [startWithHook_starts (memoryWf_of_configWf hw) hhook hv hcaw, ← hkey, ← hcawAddr, ← hb] at hexec
  have hcall := callFrame_of_start hv
  -- the state the load begins at
  have hframe := (LoadFrame.markRead id v (pageOf s.cfg.cawAddr)).trans (.setScb id _ b)
  have hcalls := (KeepsCalls.markKey v (pageOf s.cfg.cawAddr) 0x04).trans (.setScb _ id b)
  have hscb := scb_setScb_self (v.markKey (pageOf s.cfg.cawAddr) 0x04) id b
  have hirq : ((v.markKey (pageOf s.cfg.cawAddr) 0x04).setScb id b).irq = s.irq := hcall.block.irq
  generalize (v.markKey (pageOf s.cfg.cawAddr) 0x04).setScb id b = u at *
  have hmemory := hcall.memory.trans hframe.memory
  have hkeys := hcall.keys.read.trans hframe.keys
  obtain ⟨t, ht, htscb, htirq, htcall, htframe⟩ := loadNextCcw_starts (hframe.platform.cfg.trans hcall.platform.cfg) hmemory
    hkeys.access hscb hb haligned hf hdecode (by rw [hR.2]; rfl) hi hload (hst.trans (startCommand_congr hcalls _ _).symm)
    haccept
  rw [firstLoad_ok ht] at hexec
  have hanswer := KeepsOutside.answer t (.cc 0)
  refine ⟨_, hexec, rfl, htscb, htirq.trans (by rw [hirq]), (htcall.of_keeps hcalls).trans_keeps hanswer.calls, ?_,
    ((hcall.platform.trans hframe.platform).trans htframe.platform).trans hanswer.platform,
    ((hcall.pending.trans hframe.pending).trans htframe.pending).trans hanswer.pending, hmemory.trans htframe.memory,
    hkeys.trans htframe.keys, (htframe.loading.trans hframe.loading).trans hcall.loading⟩
  exact ((hcall.scbs.but id).trans hframe.others).trans htframe.others

/-- Settles O48: the CAW read and the SCB bound, the failed first load stores its status. -/
theorem sioFirstLoadFailureIsStored : Obligations.SioFirstLoadFailureIsStored := by
  intro s v u i2 b1 d1 a id dev w r p l hw h2 ha hR hd hr hp hhook hv hcaw hscb hload hl
  subst hl
  have hmem := memoryWf_of_configWf hw
  have hexec := sio_start h2 ha hR hd hr hp
  rw [startWithHook_starts hmem hhook hv hcaw, ← hscb] at hexec
  have hcall := callFrame_of_start hv
  have hframe := (LoadFrame.markRead id v (pageOf s.cfg.cawAddr)).trans (.setScb id _ p)
  generalize (v.markKey (pageOf s.cfg.cawAddr) 0x04).setScb id p = x at *
  have hplatform := hcall.platform.trans hframe.platform
  obtain ⟨t, ht, hcsw, htscb, hirq, hcalls, hmemory, hothers, htplatform, hpending, hloading, -⟩ :=
    firstLoad_stores (hplatform.cfg ▸ hmem) hload
  rw [hplatform.cfg] at hmemory
  rw [ht] at hexec
  have hanswer := KeepsOutside.answer t (.cc 1)
  refine ⟨_, hexec, rfl, hcsw.answer _, htscb, hirq, hcalls.trans hanswer.calls, fun h => ?_,
    (((hcall.memory.trans hframe.memory).but _).trans hmemory), ((hcall.scbs.but id).trans hframe.others).trans hothers,
    (hplatform.trans htplatform).trans hanswer.platform,
    ((hcall.pending.trans hframe.pending).trans hpending).trans hanswer.pending,
    (hloading.trans hframe.loading).trans hcall.loading⟩
  rw [hv, if_pos h]
  exact (startIoHook_frame a s).callOuts

/-! ## The boot start -/

/-- A boot start sets boot-load mode, binds the SCB with key 0 and loads its first CCW (R226). -/
theorem bootStart_firstLoad {s : State} {a : DevAddr} {id : ScbId} {dev : Binding} (ccwaddr : Word) (hR : Resolves s a id dev) :
    bootStart a ccwaddr s = firstLoad id ({ s with loading := some a }.setScb id
      (boundScb a dev 0 (ccwaddr.extractLsb' 0 24) (s.scb id))) := by
  unfold bootStart
  rw [resolve_some hR]
  rfl

/-- Settles O55: the resolver's answer, then the first load that starts a command or fails. -/
theorem bootStartLoadsTheFirstCcw : Obligations.BootStartLoadsTheFirstCcw := by
  intro s a ccwaddr
  refine ⟨fun h => bootStart_unresolved ccwaddr (resolve_none h), fun id dev caw b hR hcaw hb => ?_⟩
  have hboot := bootStart_firstLoad ccwaddr hR
  rw [← hcaw, ← hb] at hboot
  have hframe := LoadFrame.setScb id { s with loading := some a } b
  have hscb := scb_setScb_self { s with loading := some a } id b
  have hcalls : KeepsCalls s ({ s with loading := some a }.setScb id b) := ⟨rfl, rfl, rfl, rfl, rfl⟩
  have hplatform : KeepsPlatform s ({ s with loading := some a }.setScb id b) := ⟨rfl, rfl, rfl, rfl⟩
  have hpending : KeepsPending s ({ s with loading := some a }.setScb id b) := ⟨fun _ => rfl, rfl⟩
  have hmemory : KeepsMemory s ({ s with loading := some a }.setScb id b) := fun _ => rfl
  have hkeys : KeepsReadKeys s ({ s with loading := some a }.setScb id b) := fun _ => .inl rfl
  have hirq : ({ s with loading := some a }.setScb id b).irq = s.irq := rfl
  have hothers : KeepsScbsBut id s ({ s with loading := some a }.setScb id b) := hframe.others
  have hloading : ({ s with loading := some a }.setScb id b).loading = some a := rfl
  refine ⟨fun i f st haligned hf hdecode hi hload hst haccept => ?_, fun u r l hw hload hl => ?_⟩
  all_goals generalize { s with loading := some a }.setScb id b = x at *
  · obtain ⟨t, ht, htscb, htirq, htcall, htframe⟩ := loadNextCcw_starts hplatform.cfg hmemory hkeys.access hscb hb
      haligned hf hdecode (by rw [hR.2]; rfl) hi hload (hst.trans (startCommand_congr hcalls _ _).symm) haccept
    exact ⟨t, hboot.trans (firstLoad_ok ht), htframe.loading.trans hloading, htscb, htirq.trans (by rw [hirq]),
      htcall.of_keeps hcalls, hothers.trans htframe.others, hplatform.trans htframe.platform,
      hpending.trans htframe.pending, hmemory.trans htframe.memory, hkeys.trans htframe.keys⟩
  · subst hl
    obtain ⟨t, ht, hcsw, htscb, htirq, htcalls, htmemory, htothers, htplatform, htpending, htloading, htkeys⟩ :=
      firstLoad_stores (hplatform.cfg ▸ memoryWf_of_configWf hw) hload
    rw [hplatform.cfg] at htmemory
    exact ⟨t, hboot.trans ht, htloading.trans hloading, hcsw, htscb, htirq, htcalls, (hmemory.but _).trans htmemory,
      hothers.trans htothers, hplatform.trans htplatform, hpending.trans htpending, hkeys.access.trans htkeys⟩

end Sys2Proof.Machine
end

section
/-! HIO of a running or held program: its register flushed, its command ended, its status stored or left to the scan
(spec/44_io_instructions.md R218, R219). -/

namespace Sys2Proof.Machine

/-! ## The program halted -/

/-- What the flush, faulted or not, leaves of the SCB's fields that the CSW and a freed SCB hold (spec/42_transfer.md R152). -/
theorem flushedScb_keeps (s : State) (b : Scb) :
    (flushedScb s b).dev = b.dev ∧ (flushedScb s b).key = b.key ∧ (flushedScb s b).caw = b.caw ∧
    (flushedScb s b).count = b.count ∧
    freedScb { flushedScb s b with status := 0 } = freedScb { b with status := 0 } := by
  unfold flushedScb
  cases flushFault s b <;> exact ⟨rfl, rfl, rfl, rfl, rfl⟩

/-- The program of the SCB `b` has been halted: its register flushed and its command ended, with nothing stored but the register's
word (R218). -/
structure HaltsProgram (id : ScbId) (b : Scb) (s u : State) : Prop where
  scb : u.scb id = (flushedScb s b).halted
  irq : u.irq = true
  word : flushes s b → u.wordAt b.position = b.buf
  memory : KeepsMemoryBut (fun x => flushes s b ∧ inWordOf b.position x) s u
  keys : KeepsAccessKeys s u
  others : KeepsScbsBut id s u
  platform : KeepsPlatform s u
  calls : KeepsCalls s u
  pending : KeepsPending s u
  loading : u.loading = s.loading

theorem haltProgram_halts {s : State} {a : DevAddr} {id : ScbId} {b : Scb} (hb : b = s.scb id) (hd : b.dev = some a)
    (hr : running b) : HaltsProgram id b s (haltProgram a id s) := by
  obtain ⟨hscb, hword, hmemory, hkeys, hothers, hplatform, hcalls, hpending, hloading⟩ := flushDirty_spec id s b hb
  rw [haltProgram_running (hb ▸ hd) (hb ▸ hr)]
  generalize (flushDirty id s).1 = u at *
  have hend := (LoadFrame.updScb id u Scb.halted).trans (.raiseIrq id _)
  refine ⟨?_, rfl, hword, hmemory, fun p => ?_, hothers.trans hend.others, hplatform.trans hend.platform,
    hcalls.trans ((KeepsCalls.updScb u id _).trans (.raiseIrq _)), hpending.trans hend.pending, hloading⟩
  · rw [State.scb_raiseIrq, scb_updScb_self, hscb]
  · by_cases h : flushes s b ∧ p = pageOf b.position
    · exact .inr (.inr ((hkeys p).1 h))
    · exact .inl ((hkeys p).2 h)

/-- The status of the halted program, collected: channel end stands in the CSW, and the SCB is freed (R219; spec/43_status.md
R184). -/
theorem HaltsProgram.collects {id : ScbId} {b : Scb} {s u : State} (h : HaltsProgram id b s u) (hw : memoryWf s.cfg = true) :
    StoresCsw (b.key ++ 0#4 ++ b.caw) (((flushedScb s b).status ||| stCE) ++ b.count) u (collect id u) ∧
    (collect id u).scb id = freedScb { b with status := 0 } := by
  obtain ⟨-, hkey, hcaw, hcount, hfreed⟩ := flushedScb_keeps s b
  obtain ⟨hcsw, hscb, -⟩ := collect_spec (h.platform.cfg ▸ hw) id
  rw [h.scb] at hcsw hscb
  refine ⟨?_, hscb.trans ((collectedScb_of_ended ?_).trans hfreed)⟩
  · rw [← hkey, ← hcaw, ← hcount]
    exact hcsw
  · rw [← anyBits_iff]
    exact (anyBits_or _ _ _).trans (by rw [show anyBits stCE stCE = true by decide, Bool.or_true])

/-! ## The hook -/

/-- The hook's value depends on the answers that are ready, and on nothing else of the state (spec/10_state.md R31). -/
theorem haltIoHook_congr {s t : State} (h : KeepsCalls s t) (a : DevAddr) : (haltIoHook a t).1 = (haltIoHook a s).1 := by
  unfold haltIoHook
  simp only [h.haltIoAnswers, h.draws]
  cases s.haltIoAnswers <;> rfl

/-- Of the ready answers the hook takes one of its own (spec/10_state.md R31). -/
theorem haltIoHook_answers (a : DevAddr) (s : State) :
    (haltIoHook a s).2.commandAnswers = s.commandAnswers ∧ (haltIoHook a s).2.startIoAnswers = s.startIoAnswers ∧
    (haltIoHook a s).2.haltIoAnswers = s.haltIoAnswers.tail := by
  unfold haltIoHook
  cases s.haltIoAnswers <;> exact ⟨rfl, rfl, rfl⟩

/-! ## The word of the position -/

theorem inWord_iff_inWordOf (a : Addr) (x : Nat) : inWord a x ↔ inWordOf a x := by
  unfold inWord inWordOf
  rw [wordAddr_toNat]

/-- A word outside the CSW is as it was before the CSW was stored. -/
theorem StoresCsw.wordAt {w0 w1 : Word} {s t : State} (h : StoresCsw w0 w1 s t) {a : Addr}
    (ha : ∀ x, inWordOf a x → ¬ inCsw s.cfg x) : t.wordAt a = s.wordAt a :=
  wordAt_congr fun x hx => h.memory x (ha x ((inWord_iff_inWordOf a x).1 hx))

/-- Settles O51: the program halted, then its status collected, or the hook called. -/
theorem hioStopsTheProgram : Obligations.HioStopsTheProgram := by
  intro s i2 b1 d1 a id dev b l hw h2 ha hR hb hd hr he hl
  subst hl
  have hmem := memoryWf_of_configWf hw
  have hnoError : (s.scb id).dev ≠ some a ∨ ¬ hasErrorStatus (s.scb id) := .inr (hb ▸ he)
  have hstore := haltIo_noHook hR hnoError
  have hhook := haltIo_hook hR hnoError
  have hhalts := haltProgram_halts hb hd hr
  generalize haltProgram a id s = u at *
  have hcfg := hhalts.platform.cfg
  cases h : dev.hasHaltIo
  · have hudev : (u.scb id).dev = some a := by rw [hhalts.scb]; exact (flushedScb_keeps s b).1.trans hd
    obtain ⟨hcsw, hscb⟩ := hhalts.collects hmem
    obtain ⟨-, -, hothers, hplatform, hcalls, hpending, hloading, hirq⟩ := collect_spec (hcfg ▸ hmem) id
    have hanswer := KeepsOutside.answer (collect id u) (.cc 1)
    refine ⟨_, exec_hio h2 ha ((hstore h).trans (haltStore_bound hudev)), hirq.trans hhalts.irq,
      hhalts.keys.trans hcsw.accessKeys, hhalts.others.trans hothers,
      (hhalts.platform.trans hplatform).trans hanswer.platform, (hhalts.pending.trans hpending).trans hanswer.pending,
      hloading.trans hhalts.loading, fun _ => ⟨rfl, hcfg ▸ hcsw.first, hcfg ▸ hcsw.second, hscb, fun hf hout => ?_,
        fun x hx => ?_, (hhalts.calls.trans hcalls).trans hanswer.calls⟩, nofun⟩
    · rw [State.wordAt_answer, hcsw.wordAt (hcfg.symm ▸ hout), hhalts.word hf]
    · obtain ⟨hnoCsw, hnoWord⟩ := not_or.1 hx
      exact (hcsw.memory x (by rwa [hcfg])).trans (hhalts.memory x hnoWord)
  · have hcall := haltIoHook_frame a u
    have hanswer := hcall.callFrame.answer (.cc (haltIoHook a u).1)
    obtain ⟨hcommand, hstartIo, hhaltIo⟩ := haltIoHook_answers a u
    refine ⟨_, exec_hio h2 ha (hhook h), hanswer.block.irq.trans hhalts.irq, hhalts.keys.trans hanswer.keys.access,
      hhalts.others.trans (hanswer.scbs.but id), hhalts.platform.trans hanswer.platform,
      hhalts.pending.trans hanswer.pending, hanswer.loading.trans hhalts.loading, nofun,
      fun _ => ⟨congrArg OpResult.cc (haltIoHook_congr hhalts.calls a), hcall.callOuts.trans (by rw [hhalts.calls.callOuts]),
        hcommand.trans hhalts.calls.commandAnswers, hstartIo.trans hhalts.calls.startIoAnswers,
        hhaltIo.trans (by rw [hhalts.calls.haltIoAnswers]), (hanswer.scbs id).trans hhalts.scb, fun hf => ?_,
        hhalts.memory.trans (hanswer.memory.but _)⟩⟩
    exact (wordAt_congr fun x _ => hanswer.memory x).trans (hhalts.word hf)

end Sys2Proof.Machine
end

section
/-! The frame of the CPU's channel-control instructions, kept by every operation they are built of (spec/44_io_instructions.md
R200, R208, R215, R221). -/

namespace Sys2Proof.Machine

/-- What a channel-control instruction of the address `a` leaves as before, where it may store in `M`. -/
structure ControlFrame (a : DevAddr) (M : Nat → Prop) (s t : State) : Prop where
  platform : KeepsPlatform s t
  loading : t.loading = s.loading
  keys : KeepsAccessKeys s t
  others : ∀ j, findSubchannel s.cfg a ≠ some j → t.scb j = s.scb j
  entries : ∀ d, d ≠ a → t.pendAt d = s.pendAt d
  flags : ∀ c, c ≠ chanOf a → t.chpendAt c = s.chpendAt c
  memory : KeepsMemoryBut M s t

section
variable {a : DevAddr} {M : Nat → Prop} {s t u : State}

theorem ControlFrame.refl (a : DevAddr) (M : Nat → Prop) (s : State) : ControlFrame a M s s :=
  ⟨.refl s, rfl, .refl s, fun _ _ => rfl, fun _ _ => rfl, fun _ _ => rfl, .refl M s⟩

theorem ControlFrame.trans (h : ControlFrame a M s t) (k : ControlFrame a M t u) : ControlFrame a M s u :=
  ⟨h.platform.trans k.platform, k.loading.trans h.loading, h.keys.trans k.keys,
    fun j hj => (k.others j (by rwa [h.platform.cfg])).trans (h.others j hj), fun d hd => (k.entries d hd).trans (h.entries d hd),
    fun c hc => (k.flags c hc).trans (h.flags c hc), h.memory.trans k.memory⟩

theorem KeepsPending.chpendAt (h : KeepsPending s t) (c : Fin 16) : t.chpendAt c = s.chpendAt c := by
  unfold State.chpendAt; rw [h.chpend]

/-- Operations that touch the one SCB of the address and store only in `M`. -/
theorem ControlFrame.of_scb {id : ScbId} (hid : findSubchannel s.cfg a = some id) (hplatform : KeepsPlatform s t)
    (hloading : t.loading = s.loading) (hkeys : KeepsAccessKeys s t) (hothers : KeepsScbsBut id s t)
    (hpending : KeepsPending s t) (hmemory : KeepsMemoryBut M s t) : ControlFrame a M s t :=
  ⟨hplatform, hloading, hkeys, fun j hj => hothers j fun h => hj (h ▸ hid), fun d _ => hpending.pend d,
    fun c _ => hpending.chpendAt c, hmemory⟩

theorem LoadFrame.controlFrame {id : ScbId} (h : LoadFrame id s t) (hid : findSubchannel s.cfg a = some id) :
    ControlFrame a M s t :=
  .of_scb hid h.platform h.loading h.keys.access h.others h.pending (h.memory.but M)

theorem CallFrame.controlFrame (h : CallFrame s t) : ControlFrame a M s t :=
  ⟨h.platform, h.loading, h.keys.access, fun j _ => h.scbs j, fun d _ => h.pending.pend d, fun c _ => h.pending.chpendAt c,
    h.memory.but M⟩

theorem ControlFrame.answer (a : DevAddr) (M : Nat → Prop) (s : State) (r : OpResult) : ControlFrame a M s (s.answer r) :=
  ((CallFrame.refl s).answer r).controlFrame

/-- The word that a halt may store: that of the position of a dirty register of the address's SCB (R218). -/
theorem ControlFrame.haltProgram {id : ScbId} (hid : findSubchannel s.cfg a = some id)
    (hword : ∀ x, (s.scb id).dirty = true → inWordOf (s.scb id).position x → M x) :
    ControlFrame a M s (haltProgram a id s) := by
  by_cases h : (s.scb id).dev = some a ∧ running (s.scb id)
  · obtain ⟨-, -, -, hmemory, hkeys, hothers, hplatform, -, hpending, hloading⟩ := haltProgram_halts rfl h.1 h.2
    exact .of_scb hid hplatform hloading hkeys hothers hpending
      fun x hx => hmemory x fun ⟨hflushes, hin⟩ => hx (hword x hflushes.1 hin)
  · rw [haltProgram_idle (not_and_or.1 h)]
    exact .refl a M s

end

/-! ## Storing a status -/

section
variable {a : DevAddr} {M : Nat → Prop} {s : State} (hw : memoryWf s.cfg = true) (hM : ∀ x, inCsw s.cfg x → M x)
include hw hM

theorem ControlFrame.storeSynth (d : Byte) : ControlFrame a M s (storeSynth d s) := by
  obtain ⟨hcsw, hplatform, -, hpending, hloading, -, hscbs⟩ := storeCsw_spec hw 0 (d ++ 0#24)
  exact ⟨hplatform, hloading, hcsw.accessKeys, fun j _ => hscbs j, fun e _ => hpending.pend e, fun c _ => hpending.chpendAt c,
    fun x hx => hcsw.memory x fun h => hx (hM x h)⟩

theorem ControlFrame.takePending : ControlFrame a M s (takePending a s).1 := by
  obtain ⟨hcsw, hentry, -, hflags, hscbs, hplatform, -, hloading, -⟩ := storeSynth_clearPend_takes hw a
  exact ⟨hplatform, hloading, hcsw.accessKeys, fun j _ => hscbs j, fun d hd => (hentry d).trans (if_neg hd), hflags,
    fun x hx => hcsw.memory x fun h => hx (hM x h)⟩

section
variable {id : ScbId} (hid : findSubchannel s.cfg a = some id)
include hid

theorem ControlFrame.collect : ControlFrame a M s (collect id s) := by
  obtain ⟨hcsw, -, hothers, hplatform, -, hpending, hloading, -⟩ := collect_spec hw id
  exact .of_scb hid hplatform hloading hcsw.accessKeys hothers hpending fun x hx => hcsw.memory x fun h => hx (hM x h)

theorem ControlFrame.haltStore : ControlFrame a M s (haltStore a id s).1 := by
  unfold Machine.haltStore
  split
  · exact .collect hw hM hid
  · exact .storeSynth hw hM 0

/-! ## SIO -/

theorem ControlFrame.firstLoad : ControlFrame a M s (firstLoad id s).1 := by
  have hload := loadNextCcw_frame id false s
  cases h : loadNextCcw id false s with
  | mk u r =>
    rw [h] at hload
    cases r with
    | ok => rw [firstLoad_ok h]; exact hload.controlFrame hid
    | fail r =>
      obtain ⟨t, ht, hstored⟩ := firstLoad_stores hw h
      rw [ht]
      exact .of_scb hid hstored.platform hstored.loading hstored.keys hstored.others hstored.pending
        fun x hx => hstored.memory x fun hc => hx (hM x hc)

theorem ControlFrame.startProgram (dev : Binding) : ControlFrame a M s (startProgram a id dev s).1 := by
  unfold Machine.startProgram
  rw [readArchitected_caw hw]
  dsimp only
  have hbind := (LoadFrame.markRead id s (pageOf s.cfg.cawAddr)).trans
    (.updScb id _ (Scb.started a dev (cawKey (s.wordAt s.cfg.cawAddr)) (cawAddress (s.wordAt s.cfg.cawAddr))))
  have hcfg := hbind.platform.cfg
  exact (hbind.controlFrame hid).trans (.firstLoad (hcfg ▸ hw) (hcfg ▸ hM) (hcfg ▸ hid))

theorem ControlFrame.startWithHook (dev : Binding) : ControlFrame a M s (startWithHook a id dev s).1 := by
  have hcall := (startIoHook_frame a s).callFrame
  have hcfg := hcall.platform.cfg
  unfold Machine.startWithHook
  split
  · dsimp only
    split
    · exact hcall.controlFrame
    · split
      · exact hcall.controlFrame.trans (.storeSynth (hcfg ▸ hw) (hcfg ▸ hM) _)
      · exact hcall.controlFrame.trans (.startProgram (hcfg ▸ hw) (hcfg ▸ hM) (hcfg ▸ hid) dev)
  · exact .startProgram hw hM hid dev

end

theorem ControlFrame.startIo : ControlFrame a M s (startIo a s).1 := by
  unfold Machine.startIo
  split
  · exact .refl a M s
  · rename_i id dev hr
    have hid := (resolves_of_resolve hr).1
    dsimp only
    split
    · exact .collect hw hM hid
    · split
      · exact .refl a M s
      · split
        · exact .takePending hw hM
        · exact .startWithHook hw hM hid dev

/-! ## TIO -/

theorem ControlFrame.testDevice : ControlFrame a M s (testDevice a s).1 := by
  have hcall := CallFrame.startCommand a 0x00 s
  have hcfg := hcall.platform.cfg
  unfold Machine.testDevice
  dsimp only
  split
  · exact hcall.controlFrame.trans (.storeSynth (hcfg ▸ hw) (hcfg ▸ hM) _)
  · split <;> exact hcall.controlFrame

theorem ControlFrame.testIo : ControlFrame a M s (testIo a s).1 := by
  unfold Machine.testIo
  split
  · exact .refl a M s
  · rename_i id dev hr
    have hcollect := ControlFrame.collect hw hM (resolves_of_resolve hr).1
    dsimp only
    split
    · exact hcollect
    · split
      · exact .refl a M s
      · split
        · exact hcollect
        · split
          · exact .takePending hw hM
          · split
            · exact .refl a M s
            · exact .testDevice hw hM

/-! ## HIO -/

theorem ControlFrame.haltIo
    (hword : ∀ id x, findSubchannel s.cfg a = some id → (s.scb id).dirty = true → inWordOf (s.scb id).position x → M x) :
    ControlFrame a M s (haltIo a s).1 := by
  unfold Machine.haltIo
  split
  · exact .refl a M s
  · rename_i id dev hr
    have hid := (resolves_of_resolve hr).1
    have hhalt := ControlFrame.haltProgram hid fun x => hword id x hid
    have hcfg := hhalt.platform.cfg
    dsimp only
    split
    · exact .refl a M s
    · split
      · exact hhalt.trans (haltIoHook_frame a _).callFrame.controlFrame
      · exact hhalt.trans (.haltStore (hcfg ▸ hw) (hcfg ▸ hM) (hcfg ▸ hid))

end

/-- Where HIO of the address `a` may store: in the CSW, and in the word of the position of a dirty register (R218, R219). -/
def haltArea (a : DevAddr) (s : State) (x : Nat) : Prop :=
  inCsw s.cfg x ∨ ∃ id, findSubchannel s.cfg a = some id ∧ (s.scb id).dirty = true ∧ inWordOf (s.scb id).position x

/-- The frame of each operation, its condition code answered. -/
theorem exec_controlFrame {s t : State} {i2 : Byte} {b1 : BitVec 4} {d1 : BitVec 12} {a : DevAddr} (hw : memoryWf s.cfg = true)
    (ha : a = deviceAddress s b1 d1) :
    (exec (.sio i2 b1 d1) s = .next t → ControlFrame a (inCsw s.cfg) s t) ∧
    (exec (.tio i2 b1 d1) s = .next t → ControlFrame a (inCsw s.cfg) s t) ∧
    (exec (.hio i2 b1 d1) s = .next t → ControlFrame a (haltArea a s) s t) ∧
    (exec (.tch i2 b1 d1) s = .next t → t = s.answer t.result) := by
  subst ha
  refine ⟨fun ht => ?_, fun ht => ?_, fun ht => ?_, fun ht => ?_⟩ <;> rw [ccOutcome_next ht]
  · exact (ControlFrame.startIo hw fun _ h => h).trans (.answer _ _ _ _)
  · exact (ControlFrame.testIo hw fun _ h => h).trans (.answer _ _ _ _)
  · exact (ControlFrame.haltIo hw (fun _ h => .inl h) fun id _ hid hdirty hin => .inr ⟨id, hid, hdirty, hin⟩).trans
      (.answer _ _ _ _)
  · rfl

/-- Settles O54: the frame of the operation that each instruction runs. -/
theorem channelControlFrame : Obligations.ChannelControlFrame := by
  intro s t i i2 b1 d1 a hw ha ht hi
  obtain ⟨hsio, htio, hhio, htch⟩ := exec_controlFrame (i2 := i2) (t := t) (memoryWf_of_configWf hw) ha
  rcases hi with rfl | rfl | rfl | rfl
  · obtain ⟨hplatform, hloading, hkeys, hothers, hentries, hflags, hmemory⟩ := hsio ht
    exact ⟨hplatform, hloading, hkeys, hothers, hentries, hflags, fun _ => hmemory, nofun, nofun⟩
  · obtain ⟨hplatform, hloading, hkeys, hothers, hentries, hflags, hmemory⟩ := htio ht
    exact ⟨hplatform, hloading, hkeys, hothers, hentries, hflags, fun _ => hmemory, nofun, nofun⟩
  · obtain ⟨hplatform, hloading, hkeys, hothers, hentries, hflags, hmemory⟩ := hhio ht
    exact ⟨hplatform, hloading, hkeys, hothers, hentries, hflags, (by rintro (h | h) <;> cases h), nofun, fun _ => hmemory⟩
  · obtain ⟨hplatform, hloading, hkeys, hothers, hentries, hflags, -⟩ := ControlFrame.answer a (inCsw s.cfg) s t.result
    rw [← htch ht] at hplatform hloading hkeys hothers hentries hflags
    exact ⟨hplatform, hloading, hkeys, hothers, hentries, hflags, (by rintro (h | h) <;> cases h), fun _ => htch ht, nofun⟩

end Sys2Proof.Machine
end

section
/-! The state after reset and the reset request (spec/70_reset_and_hazards.md R260, R262; log 1, log 13). -/

namespace Sys2Proof.Machine

/-- The block as R260 says reset leaves it: every SCB idle, nothing pending, IRQ clear and no boot-load. -/
structure BlockIdle (s : State) : Prop where
  scb : ∀ id, s.scb id = idleScb
  pend : ∀ a, s.pendAt a = 0
  chpend : s.chpend = 0
  irq : s.irq = false
  loading : s.loading = none

/-! ## An idle block meets the invariants -/

/-- An idle SCB is bound to no device, so its binding is right under every configuration (R28). -/
theorem BlockIdle.bindingsOk {s : State} (h : BlockIdle s) : BindingsOk s := by
  intro id
  rw [h.scb id]
  exact bindingOk_unbound rfl rfl rfl rfl

/-- An idle SCB's register is empty and clean (R26). -/
theorem BlockIdle.registersOk {s : State} (h : BlockIdle s) : RegistersOk s := by
  intro id
  rw [h.scb id]
  exact registerOk_of_empty rfl rfl

/-- With nothing pending and no SCB bound, the scan has nothing to see (R191). -/
theorem BlockIdle.visible {s : State} (h : BlockIdle s) : Visible s := by
  refine ⟨fun a ha => absurd (h.pend a) ha, .inr ⟨h.chpend, fun id hd => ?_⟩⟩
  rw [h.scb id] at hd
  exact absurd rfl hd

/-! ## Reset -/

/-- Under every configuration the state after reset has an idle block (R260). -/
theorem blockIdle_resetWith (cfg : Config) : BlockIdle (State.resetWith cfg) :=
  ⟨fun _ => rfl, fun _ => rfl, rfl, rfl, rfl⟩

theorem canonicalForm_resetWith (cfg : Config) : CanonicalForm (State.resetWith cfg) :=
  ⟨reset_memory_wf, mapWf_nil _, mapWf_nil _, mapWf_nil _⟩

/-- The configuration CFG0 is within the limits (R7, R22). -/
theorem cfg0_configWf : configWf Config.cfg0 = true := by decide

/-- A block reset leaves the block idle, whatever it was (R260, R262). -/
theorem blockIdle_resetBlock (cs : List Channel) (s : State) : BlockIdle (resetBlock cs s) :=
  ⟨fun _ => rfl, fun _ => rfl, rfl, rfl, rfl⟩

section
variable {s : State} {cs : List Channel} {rest : List Request}

/-- A reset request is the block reset, or its refusal (R262, log 13). -/
theorem step_reset (hw : configWf s.cfg = true) (hr : s.requests = .reset cs :: rest) :
    step s = if channelsWf cs then .next ((resetBlock cs { s with requests := rest }).answer .nothing)
      else .refused .configuration :=
  step_request hw hr

/-- What the state after a reset request holds: the new channels and an idle block, with memory, storage keys and the CPU's
registers as before (R260, R262). -/
theorem step_reset_next (hw : configWf s.cfg = true) (hr : s.requests = .reset cs :: rest) (hc : channelsWf cs = true) :
    ∃ t, step s = .next t ∧ t.cfg = { s.cfg with channels := cs } ∧ BlockIdle t ∧ KeepsMemory s t ∧ KeepsKeys s t ∧
      t.gr = s.gr ∧ t.requests = rest := by
  refine ⟨_, (step_reset hw hr).trans (if_pos hc), rfl, ?_, fun _ => rfl, fun _ => rfl, rfl, rfl⟩
  obtain ⟨hscb, hpend, hchpend, hirq, hloading⟩ := blockIdle_resetBlock cs { s with requests := rest }
  exact ⟨hscb, hpend, hchpend, hirq, hloading⟩

/-- Channels outside the limits are refused (log 13). -/
theorem step_reset_refused (hw : configWf s.cfg = true) (hr : s.requests = .reset cs :: rest) (hc : channelsWf cs = false) :
    step s = .refused .configuration :=
  (step_reset hw hr).trans (if_neg (Bool.eq_false_iff.1 hc))

end

/-- Settles O60: the block is idle after reset and after a reset request, and an idle block meets the invariants. -/
theorem resetLeavesTheBlockIdle : Obligations.ResetLeavesTheBlockIdle := by
  have hidle : BlockIdle State.reset := blockIdle_resetWith _
  obtain ⟨hpending, hpci⟩ := (visible_iff _).1 hidle.visible
  refine ⟨hidle.scb, hidle.pend, hidle.chpend, hidle.irq, hidle.loading, cfg0_configWf, canonicalForm_resetWith _,
    hidle.bindingsOk, hidle.registersOk, hpending, hpci, fun s cs rest hw hr => ⟨fun hc => ?_, step_reset_refused hw hr⟩⟩
  obtain ⟨t, ht, hcfg, hblock, hmemory, hkeys, hgr, hrest⟩ := step_reset_next hw hr hc
  exact ⟨t, ht, hcfg, fun id => (hblock.scb id).trans (hidle.scb id).symm, hblock.pend, hblock.chpend, hblock.irq,
    hblock.loading, hmemory, hkeys, hgr, hrest⟩

end Sys2Proof.Machine
end
